-- ==== Sys2Proof/Word.lean ====
section
/-!
DEFINITION. The word types of the Zwiral Z7 (R4, R32, R46): 64-bit lane values and scalars, 32-bit words and
masks (one bit per lane), bytes, and the 32 lane values of one vector register.
-/
namespace Sys2Proof

/-- A 64-bit scalar, lane value or address (R46). -/
abbrev Word := BitVec 64

/-- A 32-bit instruction word or 32-bit datum (R55). -/
abbrev W32 := BitVec 32

/-- One bit per lane (R46). -/
abbrev Mask := BitVec 32

/-- One byte of memory (R4). -/
abbrev Byte := BitVec 8

/-- The 32 lane values of one vector register (R32). -/
abbrev LaneVec := Vector Word 32

/-- The POISON lane value (R51). -/
def poison : Word := 0x7FF17FF17FF17FF1#64

/-- POISON of a mask register, the low 32 bits (R29). -/
def poisonMask : Mask := 0x7FF17FF1#32

/-- The lanes below `n`, for `n` up to 32 (R33). -/
def lanesBelow (n : Nat) : Mask := BitVec.ofNat 32 (2 ^ min n 32 - 1)

/-- Every lane holding one value. -/
def LaneVec.splat (w : Word) : LaneVec := Vector.replicate 32 w

end Sys2Proof
end

