-- ==== Sys2Proof/Syntax.lean ====
section
/-!
DEFINITION. The syntax of Arsar instructions (R55 to R95) and of the device's events (spec/opcode_table.json): one
constructor of `Instr` for each row of the table. Register numbers, immediates and literals are the encoded fields;
fixed choices (types, rounding, spaces, scopes, conditions) are inductive types. An event names what it strikes.
-/
namespace Sys2Proof

/-- The element types of MODE.ET and STYPE, codes 0 to 14 (R61). -/
inductive ETy where
  | i64 | n64 | i32 | n32 | i16 | n16 | i8 | n8 | f64 | f32 | f16 | bf16 | e4m3 | e5m2 | e2m1
  deriving DecidableEq, Repr

/-- The rounding modes, codes 0 to 4 (R61, R103). -/
inductive RMode where
  | rne | rtz | rup | rdn | rto
  deriving DecidableEq, Repr

/-- The condition codes of VCMP and SCMP, 0 to 11 (R92). -/
inductive Cond where
  | eq | ne | lt | le | gt | ge | uno | ord | ltu | leu | gtu | geu
  deriving DecidableEq, Repr

/-- The SIZE codes of the memory word (R89). -/
inductive MSize where
  | b64 | b128 | b256 | b32
  deriving DecidableEq, Repr

/-- The SPACE codes of the memory word (R89). -/
inductive Space where
  | sh | sp | sk
  deriving DecidableEq, Repr

/-- The scopes, codes 0 to 4 (R89, R187). -/
inductive Scope where
  | group | team | gang | slice | sys
  deriving DecidableEq, Repr

/-- The ORDER codes of the atomic word (R90). -/
inductive AOrder where
  | plain | acq | rel | acqrel
  deriving DecidableEq, Repr

/-- The AOP codes of the atomic word, 0 to 8 (R90). -/
inductive AOp where
  | add | min | max | and | or | xor | swap | cas | fadd
  deriving DecidableEq, Repr

/-- The operations of XRED and XSCAN, codes 0 to 5 (R93). -/
inductive ROp where
  | add | min | max | and | or | xor
  deriving DecidableEq, Repr

/-- The KIND codes of FENCE (R91). -/
inductive FKind where
  | full | acq | rel
  deriving DecidableEq, Repr

/-- The FILTER codes of HLD (R94). -/
inductive HFilter where
  | nearest | bilinear | rotary
  deriving DecidableEq, Repr

/-- A vector source field with its last-use and keep bits (R52, R58). -/
structure VSrc where
  reg  : BitVec 7
  last : Bool
  keep : Bool
  deriving DecidableEq, Repr

/-- The address fields of a format-L first word: base scalar, index register (127 for none), last use (R85, R160). -/
structure LAddr where
  sb : BitVec 6
  vx : BitVec 7
  lx : Bool
  deriving DecidableEq, Repr

/-- The memory word of LD, ST, LDS and STS (R89). -/
structure MemWord where
  size    : MSize
  space   : Space
  ordered : Bool
  scope   : Scope
  off     : BitVec 23
  deriving DecidableEq, Repr

/-- The atomic word of ATOM and RED (R90). -/
structure AtomWord where
  wide  : Bool
  sp    : Bool
  order : AOrder
  scope : Scope
  op    : AOp
  vb    : BitVec 7
  off   : BitVec 12
  deriving DecidableEq, Repr

/-- What an engine reset strikes (R199, R228): a unit and its cluster or core. -/
inductive Engine where
  | copy (cluster : Nat) | matrix (cluster : Nat) | htu (cluster : Nat) | lcu (core : Nat) | rtu (core : Nat)
  deriving DecidableEq, Repr

/-- Where a soft error strikes (R375, R278); an A buffer belongs to a request of the running pass. -/
inductive ErrSite where
  | memory (pa : Nat) | shared (team off : Nat) | vreg (team gid reg lane : Nat) | sreg (team gid reg : Nat)
  | mreg (team gid reg : Nat) | operandA (cluster request : Nat) | operandB (cluster : Nat) | array (cluster : Nat)
  | icache (core : Nat) | millers (addr : Nat)
  deriving DecidableEq, Repr

/-- A block that lowers and raises its own clock (R373). -/
inductive ClockBlock where
  | cluster (n : Nat) | core (n : Nat) | matrix (n : Nat) | store (n : Nat) | hbm (n : Nat)
  deriving DecidableEq, Repr

/-- A host or Mukai link (R372). -/
inductive Link where
  | host | mukai (port : Nat)
  deriving DecidableEq, Repr

/-- The requester of a window access or an SPDM exchange: the physical function, a virtual function of a slice, a Mukai peer
through a port (R15, R368, R372), or a control core through a debug window on a team's shared memory or on a context's pages
(R15). -/
inductive Requester where
  | pf | vf (slice : Nat) | peer (port : Nat) | debugShared (team : Nat) | debugPages (ctx : Nat)
  deriving DecidableEq, Repr

/-- One firmware image of the boot flash (R367): its payload and the header fields the rule names. -/
structure FlashImage where
  payload   : List Byte
  version   : Nat
  secVer    : Nat
  signature : Nat
  deriving DecidableEq, Repr

/-- A head configuration the control cores are asked for (R361), with the context whose tables its addresses use. -/
structure HeadCfg where
  ctx       : Nat
  width     : Nat
  height    : Nat
  rate      : Nat
  planes    : List Nat
  status    : Nat
  toEncoder : Bool
  surface   : Nat
  pitch     : Nat
  fmt       : Nat
  deriving DecidableEq, Repr

/-- The encode standards (R364). -/
inductive Codec where
  | av1 | hevc | h264
  deriving DecidableEq, Repr

/-- An encode stream configuration (R364, R365, R371), with the context whose tables its addresses use. `auWord` and `ceWord` are
the words in which the tenant returns the space of each ring. -/
structure StreamCfg where
  ctx       : Nat
  codec     : Codec
  tenBit    : Bool
  head      : Nat
  auRing    : Nat
  auBytes   : Nat
  ceRing    : Nat
  ceEntries : Nat
  auWord    : Nat
  ceWord    : Nat
  hints     : Option Nat
  deriving DecidableEq, Repr

/-- What an SPDM 1.3 requester asks to negotiate (R368). -/
structure SpdmAlgs where
  rsassa3072 : Bool
  sha256     : Bool
  deriving DecidableEq, Repr

/-- The instructions and events: one constructor for each row of spec/opcode_table.json. -/
inductive Instr where
  -- vector arithmetic (R79)
  | vadd (d : BitVec 7) (a b : VSrc)
  | vsub (d : BitVec 7) (a b : VSrc)
  | vmul (d : BitVec 7) (a b : VSrc)
  | vmulh (d : BitVec 7) (a b : VSrc)
  | vfma (d : BitVec 7) (a b : VSrc)
  | vfms (d : BitVec 7) (a b : VSrc)
  | vmin (d : BitVec 7) (a b : VSrc)
  | vmax (d : BitVec 7) (a b : VSrc)
  | vand (d : BitVec 7) (a b : VSrc)
  | vor (d : BitVec 7) (a b : VSrc)
  | vxor (d : BitVec 7) (a b : VSrc)
  | vshl (d : BitVec 7) (a b : VSrc)
  | vshr (d : BitVec 7) (a b : VSrc)
  | vsel (d : BitVec 7) (a b : VSrc)
  | vabsd (d : BitVec 7) (a b : VSrc)
  | vdiv (d : BitVec 7) (a b : VSrc) (ahead : BitVec 4)
  | vrem (d : BitVec 7) (a b : VSrc) (ahead : BitVec 4)
  | vaddi (d : BitVec 7) (a : VSrc) (imm : BitVec 9)
  | vmuli (d : BitVec 7) (a : VSrc) (imm : BitVec 9)
  | vshli (d : BitVec 7) (a : VSrc) (imm : BitVec 9)
  | vshri (d : BitVec 7) (a : VSrc) (imm : BitVec 9)
  | vandi (d : BitVec 7) (a : VSrc) (imm : BitVec 9)
  | vmov (d : BitVec 7) (a : VSrc)
  | vldi (d : BitVec 7) (lit : W32)
  | vneg (d : BitVec 7) (a : VSrc)
  | vabs (d : BitVec 7) (a : VSrc)
  | vpopc (d : BitVec 7) (a : VSrc)
  | vclz (d : BitVec 7) (a : VSrc)
  | vbfx (d : BitVec 7) (a b : VSrc)
  | vbfi (d : BitVec 7) (a b : VSrc)
  | vlerp (d : BitVec 7) (a b : VSrc)
  -- conversion, special functions, compare, classify, rounding (R80)
  | vcvt (d : BitVec 7) (a : VSrc) (styp : ETy) (rm : RMode) (sat : Bool)
  | vexp2 (d : BitVec 7) (a : VSrc) (ahead : BitVec 4)
  | vlog2 (d : BitVec 7) (a : VSrc) (ahead : BitVec 4)
  | vrcp (d : BitVec 7) (a : VSrc) (ahead : BitVec 4)
  | vrsq (d : BitVec 7) (a : VSrc) (ahead : BitVec 4)
  | vsqrt (d : BitVec 7) (a : VSrc) (ahead : BitVec 4)
  | vsinp (d : BitVec 7) (a : VSrc) (ahead : BitVec 4)
  | vcosp (d : BitVec 7) (a : VSrc) (ahead : BitVec 4)
  | vtanh (d : BitVec 7) (a : VSrc) (ahead : BitVec 4)
  | vcmp (md : BitVec 4) (cond : Cond) (a : BitVec 7) (la : Bool) (b : BitVec 7) (lb : Bool)
  | vclass (d : BitVec 7) (a : VSrc)
  | vrint (d : BitVec 7) (a : VSrc) (rm : RMode)
  -- cross-lane (R81)
  | xperm (d : BitVec 7) (a b : VSrc) (ahead : BitVec 4)
  | xbfly (d : BitVec 7) (a : VSrc) (x : BitVec 5) (ahead : BitVec 4)
  | xbcast (d : BitVec 7) (a : VSrc) (lane : BitVec 5) (ahead : BitVec 4)
  | xred (d : BitVec 7) (a : VSrc) (op : ROp)
  | xscan (d : BitVec 7) (a : VSrc) (op : ROp) (incl : Bool)
  | xpsum (d : BitVec 7) (ma : BitVec 4) (incl : Bool)
  | vtos (sd : BitVec 6) (a : VSrc)
  | stov (d : BitVec 7) (sa : BitVec 6)
  -- scalar (R82)
  | sadd (d a b : BitVec 6)
  | ssub (d a b : BitVec 6)
  | smul (d a b : BitVec 6)
  | smulh (d a b : BitVec 6)
  | sand (d a b : BitVec 6)
  | sor (d a b : BitVec 6)
  | sxor (d a b : BitVec 6)
  | sshl (d a b : BitVec 6)
  | sshr (d a b : BitVec 6)
  | ssra (d a b : BitVec 6)
  | saddi (d a : BitVec 6) (imm : BitVec 11)
  | sldi (d : BitVec 6) (lit : W32)
  | scmp (cond : Cond) (dc : BitVec 3) (a b : BitVec 6)
  | smin (d a b : BitVec 6)
  | smax (d a b : BitVec 6)
  | smov (d a : BitVec 6)
  -- masks, MODE, special registers (R83)
  | mand (md ma mb : BitVec 4)
  | mor (md ma mb : BitVec 4)
  | mxor (md ma mb : BitVec 4)
  | mandn (md ma mb : BitVec 4)
  | mnot (md ma : BitVec 4)
  | mmov (md ma : BitVec 4)
  | mtos (sd : BitVec 6) (ma : BitVec 4)
  | stom (md : BitVec 4) (sa : BitVec 6)
  | mcnt (sd : BitVec 6) (ma : BitVec 4)
  | mffs (sd : BitVec 6) (ma : BitVec 4)
  | setmode (et : BitVec 4) (rm : BitVec 3) (g : BitVec 4) (sat wet wrm wg wsat : Bool)
  | srd (d : BitVec 7) (idx : BitVec 11)
  | swr (idx : BitVec 11) (sa : BitVec 6)
  | mldi (md : BitVec 4) (lit : W32)
  -- control flow (R84)
  | bra (off : BitVec 21)
  | bru (mc : BitVec 4) (off : BitVec 21)
  | brz (mc : BitVec 4) (off : BitVec 21)
  | brnz (mc : BitVec 4) (off : BitVec 21)
  | brs (sc : BitVec 6) (off : BitVec 19)
  | jmpi (a : VSrc) (join tag : BitVec 16)
  | calli (a : VSrc) (tag : BitVec 16)
  | call (off : BitVec 21)
  | ret
  | pad (tag : BitVec 16)
  | loop (sc : BitVec 6) (off : BitVec 19)
  | exit
  | nop
  | brk
  | yield
  -- memory and synchronisation (R85)
  | ld (d : BitVec 7) (m : LAddr) (ahead : BitVec 4) (w : MemWord)
  | st (d : BitVec 7) (m : LAddr) (w : MemWord)
  | lds (sd : BitVec 6) (sb : BitVec 6) (ahead : BitVec 4) (w : MemWord)
  | sts (sd : BitVec 6) (sb : BitVec 6) (w : MemWord)
  | atom (d : BitVec 7) (m : LAddr) (w : AtomWord)
  | red (m : LAddr) (w : AtomWord)
  | qpush (sd sb : BitVec 6) (gang : Bool) (off : BitVec 23)
  | qpop (sd sb : BitVec 6) (gang : Bool) (off : BitVec 23)
  | barvInit (sd sb : BitVec 6) (off : BitVec 23)
  | barvArr (sd sb : BitVec 6) (off : BitVec 23)
  | barvTx (sd sb : BitVec 6) (off : BitVec 23)
  | barvArrtx (sd sb : BitVec 6) (off : BitVec 23)
  | bwait (sd sb : BitVec 6) (off : BitVec 23)
  | fence (kind : FKind) (scope : Scope)
  | sapp (sd sb sc : BitVec 6) (off : BitVec 23)
  | ldk (d : BitVec 7) (m : LAddr) (ahead : BitVec 4) (size : MSize) (off : BitVec 23)
  | stk (d : BitVec 7) (m : LAddr) (size : MSize) (off : BitVec 23)
  -- engine commands (R86)
  | xcp (d sa sb tok : BitVec 6) (batch : Bool) (nm1 : BitVec 6) (bytes : Bool)
  | xdrain
  | xqry (sd : BitVec 6)
  | mma (d : BitVec 7) (sa sb tok : BitVec 6)
  | mzero (d : BitVec 7)
  | mfenceOpr
  | mprio (p : BitVec 2)
  | hld (d : BitVec 7) (sa tok : BitVec 6) (age : BitVec 4) (filter : HFilter) (fault short : Bool)
      (mm cm1 : BitVec 4) (vc vp : BitVec 7) (lp : Bool)
  | hopen (sa sb tok : BitVec 6)
  | hmw (d : BitVec 7) (sa tok : BitVec 6) (vp : BitVec 7) (lp : Bool)
  | hseal (sa sb tok : BitVec 6) (pages : BitVec 20)
  | hshort (sa sb tok : BitVec 6) (slot : BitVec 2) (k j : BitVec 4)
  | hinv (sa sb tok : BitVec 6) (n : BitVec 20)
  | hqry (sa sb tok : BitVec 6) (sel : BitVec 4) (sslot : BitVec 2) (vp : BitVec 7) (lp : Bool)
  | lins (d : BitVec 7) (sa tok : BitVec 6) (lp : Bool)
  | lres (sa sb tok : BitVec 6) (free cov : Bool) (vp : BitVec 7) (lp : Bool)
  | lclr (sa tok : BitVec 6) (vp : BitVec 7) (lp : Bool)
  | lqry (d : BitVec 7) (sa tok : BitVec 6) (layer : BitVec 4) (vp : BitVec 7) (lp : Bool)
  | cinit (d : BitVec 7) (sa sb tok : BitVec 6) (sp : Bool) (va : BitVec 7) (lv : Bool)
  | cacc (d : BitVec 7) (sa tok : BitVec 6) (sp : Bool) (va : BitVec 7) (lv : Bool)
  | cflush (sa tok : BitVec 6) (sp : Bool) (va : BitVec 7) (lv : Bool)
  | crd (d : BitVec 7) (sa tok : BitVec 6) (sp : Bool) (va : BitVec 7) (lv : Bool)
  | cadj (d : BitVec 7) (sa tok : BitVec 6) (sp : Bool) (va : BitVec 7) (lv : Bool)
  | rtrace (d : BitVec 7) (sa tok : BitVec 6) (first cullb yield : Bool) (mask : BitVec 8) (vr : BitVec 7) (lr : Bool)
  | rtresume (d : BitVec 7) (tok : BitVec 6) (ma : BitVec 4)
  | rtsave (sa tok : BitVec 6) (va : BitVec 7) (lv : Bool)
  | rtload (d : BitVec 7) (sa tok : BitVec 6) (va : BitVec 7) (lv : Bool)
  | rtabort (tok : BitVec 6)
  | wgalloc (d : BitVec 7) (sa : BitVec 6) (node : BitVec 6)
  | wgallocTry (d : BitVec 7) (sa : BitVec 6) (mf : BitVec 4) (node : BitVec 6)
  | wgcommit (d : BitVec 7) (sa : BitVec 6) (node : BitVec 6)
  | dlaunch (d : BitVec 7)
  | dlaunchS (sa : BitVec 6)
  -- system (R87)
  | rep (count : BitVec 6) (dstr astr bstr : BitVec 3)
  | trap (code : BitVec 8)
  | tret
  | hsr (sd : BitVec 6) (sel : BitVec 16)
  | hbar (sd : BitVec 6)
  | hsw (sel : BitVec 16) (sa : BitVec 6)
  | texitDone
  | texitSaved
  | icinv
  -- events within the core (R38, R65, R170, R171, R27, R176, R178, R210, R218)
  | longLatencyResult (team gid idx : Nat)
  | atomReturn (team gid fl : Nat)
  | redPerform (red : Nat)
  | barrierArrival (item : Nat)
  | bwaitWake (team gid fl : Nat)
  | queueRetest (team gid fl : Nat)
  | recordFreeWaitEnd (team gid fl : Nat)
  | yieldExpiry (team gid fl : Nat)
  | trapEntry (team gid : Nat)
  -- pre-emption, handlers, control cores (R217 to R228, R22, R366)
  | preempt (team : Nat) (areas : List (Nat × Nat))
  | teamRestore (team cluster : Nat)
  | hbarRelease (team : Nat)
  | handlerResume (team gid : Nat)
  | contextKill (ctx : Nat)
  | engineReset (unit : Engine)
  | pagePresent (ctx va : Nat) (entries : Option (List (Nat × BitVec 64)))
  | pageMigrate (ctx va frame kind : Nat) (finish : Bool)
  | contextHalt (ctx : Nat)
  -- distributor (R202 to R207, R155, R198, R236 to R244)
  | launchEnqueue (ctx packet : Nat) (image : List (Nat × BitVec 8))
  | dlaunchEnqueue (team gid fl : Nat)
  | dispatch (grid : Nat)
  | teamPlacement (grid : Nat) (cores : List Nat)
  | groupRetire (team gid : Nat)
  | gridComplete (grid : Nat)
  | wgallocGrant (team gid fl : Nat)
  | batchTimeout (graph node : Nat)
  | batchDrain (graph node : Nat)
  | graphLoad (ctx addr : Nat)
  | graphUnload (graph : Nat)
  -- engines
  | copyItemComplete (item idx : Nat)
  | matrixGrant (cluster : Nat)
  | mmaComplete (cluster : Nat)
  | htuItemComplete (item : Nat)
  | hctlComplete (item : Nat)
  | scrub (ctx space page : Nat)
  | lcuOperation (item : Nat)
  | lcuItemComplete (item : Nat)
  | raySlotBind (team gid fl : Nat)
  | traversalStep (team gid lane : Nat)
  | rayItemComplete (item : Nat)
  | xdrainComplete (team gid fl : Nat)
  -- slices, replay, display, encode (R359 to R371)
  | sliceCutChange (slices : Nat)
  | deterministicModeSet (slice : Nat) (on : Bool)
  | replay (capture : Nat)
  | headConfigure (engine head : Nat) (cfg : HeadCfg)
  | frameLatch (engine head : Nat)
  | frameDone (engine head : Nat)
  | encodeConfigure (engine stream : Nat) (cfg : StreamCfg)
  | accessUnitWrite (engine stream : Nat)
  | ringReturn (engine stream auIndex ceIndex : Nat)
  -- boot, trust, links, power (R367 to R375)
  | moduleReset
  | bootStage
  | rollbackRequest (who : Requester) (value : Nat)
  | recoveryFlashImage (images : List FlashImage)
  | getVersion (who : Requester)
  | getCapabilities (who : Requester)
  | negotiateAlgorithms (who : Requester) (algs : SpdmAlgs)
  | getDigests (who : Requester)
  | getCertificate (who : Requester) (slot : Nat)
  | challenge (who : Requester) (slot : Nat) (nonce : BitVec 256)
  | getMeasurements (who : Requester) (nonce : BitVec 256)
  | linkDown (link : Link)
  | clockLower (block : ClockBlock)
  | clockRaise (block : ClockBlock)
  | clusterStart (cluster : Nat)
  | millerUncorrectable
  | reservedOpcode (w0 w1 : W32)
  | translationBufferInvalidation (ctx : Nat) (va : Option Nat)
  | queueBind (slice queue ctx : Nat)
  | contextCreate (ctx slice root logBase handler capBase capBytes : Nat)
  | groupRemove (team gid : Nat)
  | hostPeerWindowAccess (who : Requester) (addr : Nat) (write : Option (List (BitVec 8))) (len : Nat)
  | linkUp (link : Link)
  | softError (site : ErrSite) (correctable : Bool)
  deriving DecidableEq, Repr

end Sys2Proof
end

