-- ==== Sys2Proof/WellFormed.lean ====
section
/-!
DEFINITION. Which instructions a word can encode (R58, R59, R68, R85 to R94, R149, R183, R222): the static checks of the
decoder, as one decidable predicate on syntax. Events have no encoding and are well-formed as they stand.
-/
namespace Sys2Proof

/-- A source field does not set last use and keep together (R52). -/
def VSrc.wf (s : VSrc) : Bool := !(s.last && s.keep)

/-- VX = 127 means no index and then LX must be 0 (R85). -/
def LAddr.wf (m : LAddr) : Bool := !(m.vx == 127#7 && m.lx)

/-- A plain access has SCOPE 0; the spill stack carries no order (R89, R166). -/
def MemWord.wf (w : MemWord) : Bool :=
  (w.ordered || w.scope == .group) && !(w.space == .sk && w.ordered)

/-- The scalar forms take only the 8-byte and 4-byte sizes (R89). -/
def MemWord.wfScalar (w : MemWord) : Bool := w.wf && (w.size == .b64 || w.size == .b32)

/-- With ORDER 00, SCOPE must be 0 (R170). -/
def AtomWord.wf (w : AtomWord) : Bool := w.order != .plain || w.scope == .group

/-- RED accepts only plain and .rel, and neither .swap nor .cas (R90). -/
def AtomWord.wfRed (w : AtomWord) : Bool :=
  w.wf && (w.order == .plain || w.order == .rel) && w.op != .swap && w.op != .cas

/-- The conditions VCMP accepts (R92). -/
def Cond.vectorOk : Cond → Bool
  | .ltu | .leu | .gtu | .geu => false
  | _ => true

/-- The conditions SCMP accepts (R92). -/
def Cond.scalarOk : Cond → Bool
  | .uno | .ord => false
  | _ => true

/-- The indices of the special registers (R47). -/
def srIndexOk (idx : BitVec 11) : Bool := idx.toNat ≤ 18

/-- The special registers SWR may name: STAT, TRAPEN, MODE, KSP, REPI (R47). -/
def srWritable (idx : BitVec 11) : Bool := decide (10 ≤ idx.toNat) && decide (idx.toNat ≤ 14)

/-- Whether a selector is a field of split record 0 to 3 (R221). -/
def selRecord (sel : BitVec 16) : Bool :=
  decide (0x0100 ≤ sel.toNat) && decide (sel.toNat < 0x0140) && decide (sel.toNat % 16 < 5)

/-- The selectors of R221 other than HBAR. -/
def selReadable (sel : BitVec 16) : Bool :=
  selRecord sel || [0x0200, 0x0201, 0x0300, 0x0500, 0x0640, 0x0641, 0x0700, 0x0701].contains sel.toNat
    || (decide (0x0400 ≤ sel.toNat) && decide (sel.toNat < 0x0480))
    || (decide (0x0638 ≤ sel.toNat) && decide (sel.toNat < 0x0640))

/-- The selectors HSW may name (R221, R222). -/
def selWritable (sel : BitVec 16) : Bool :=
  selRecord sel || [0x0201, 0x0300, 0x0500, 0x0640, 0x0641].contains sel.toNat
    || (decide (0x0400 ≤ sel.toNat) && decide (sel.toNat < 0x0480))
    || (decide (0x0638 ≤ sel.toNat) && decide (sel.toNat < 0x0640))

/-- The opcode field of a first word (R56). -/
def opcodeOf (w0 : W32) : Nat := (w0.extractLsb' 25 7).toNat

/-- The opcodes no mnemonic has (R88). -/
def opcodeReserved (op : Nat) : Bool :=
  [0x00, 0x25, 0x26, 0x27, 0x57, 0x66, 0x67, 0x75, 0x76, 0x77, 0x7F].contains op

/-- The function values a word's opcode leaves illegal (R80, R83, R86, R88). -/
def functionIllegal (w0 w1 : W32) : Bool :=
  let b := (w0.extractLsb' 2 7).toNat
  let fn := (w1.extractLsb' 28 4).toNat
  match opcodeOf w0 with
  | 0x21 => decide (8 ≤ b)
  | 0x40 => decide (6 ≤ (w0.extractLsb' 10 3).toNat)
  | 0x43 => decide (2 ≤ b)
  | 0x69 => decide (2 ≤ fn)
  | 0x6B => decide (3 ≤ fn)
  | 0x6D => decide (6 ≤ fn)
  | 0x6E => decide (4 ≤ fn)
  | 0x6F => decide (5 ≤ fn)
  | 0x71 => decide (4 ≤ fn)
  | 0x72 | 0x74 => decide (2 ≤ fn)
  | _ => false

/-- The well-formed instructions: what the decoder accepts without ILLOP (R59). -/
def Instr.wf : Instr → Bool
  | .vadd _ a b | .vsub _ a b | .vmul _ a b | .vmulh _ a b | .vfma _ a b | .vfms _ a b | .vmin _ a b | .vmax _ a b
  | .vand _ a b | .vor _ a b | .vxor _ a b | .vshl _ a b | .vshr _ a b | .vsel _ a b | .vabsd _ a b
  | .vbfx _ a b | .vbfi _ a b | .vlerp _ a b | .vdiv _ a b _ | .vrem _ a b _ | .xperm _ a b _ => a.wf && b.wf
  | .vaddi _ a _ | .vmuli _ a _ | .vandi _ a _ | .vmov _ a | .vneg _ a | .vabs _ a | .vpopc _ a | .vclz _ a
  | .vcvt _ a _ _ _ | .vexp2 _ a _ | .vlog2 _ a _ | .vrcp _ a _ | .vrsq _ a _ | .vsqrt _ a _ | .vsinp _ a _
  | .vcosp _ a _ | .vtanh _ a _ | .vclass _ a | .vrint _ a _ | .xbfly _ a _ _ | .xbcast _ a _ _ | .xred _ a _
  | .xscan _ a _ _ | .vtos _ a | .jmpi a _ _ | .calli a _ => a.wf
  | .vshli _ a imm | .vshri _ a imm => a.wf && imm.extractLsb' 6 3 == 0#3
  | .vcmp _ c _ _ _ _ => c.vectorOk
  | .scmp c _ _ _ => c.scalarOk
  | .setmode et rm g sat wet wrm wg wsat =>
      (wet || et == 0#4) && (wrm || rm == 0#3) && (wg || g == 0#4) && (wsat || !sat)
  | .srd d idx => srIndexOk idx && (idx == 0#11 || decide (d.toNat < 64))
  | .swr idx _ => srWritable idx
  | .loop sc _ => sc != 0#6
  | .ld _ m _ w | .st _ m w => m.wf && w.wf
  | .lds _ _ _ w | .sts _ _ w => w.wfScalar
  | .atom _ m w => m.wf && w.wf
  | .red m w => m.wf && w.wfRed
  | .ldk _ m _ _ _ | .stk _ m _ _ => m.wf
  | .xcp d _ _ _ batch nm1 _ => batch || (nm1 == 0#6 && d == 0#6)
  | .mma _ _ sb _ => sb != 0#6
  | .lqry _ _ _ layer _ _ => layer != 15#4
  | .hsr _ sel => selReadable sel
  | .hsw sel _ => selWritable sel
  | .reservedOpcode w0 w1 =>
      opcodeReserved (opcodeOf w0) && w1 == 0#32 || functionIllegal w0 w1 &&
        (!(opcodeOf w0 == 0x40 || opcodeOf w0 == 0x43) || w1 == 0#32)
  | _ => true

/-- An event is no instruction word: it has no encoding. -/
def Instr.isEvent : Instr → Bool
  | .longLatencyResult .. | .atomReturn .. | .redPerform .. | .barrierArrival .. | .bwaitWake .. | .queueRetest ..
  | .recordFreeWaitEnd .. | .yieldExpiry .. | .trapEntry .. | .preempt .. | .teamRestore .. | .hbarRelease ..
  | .handlerResume .. | .contextKill .. | .engineReset .. | .pagePresent .. | .pageMigrate .. | .contextHalt ..
  | .launchEnqueue .. | .dlaunchEnqueue .. | .dispatch .. | .teamPlacement .. | .groupRetire .. | .gridComplete ..
  | .wgallocGrant .. | .batchTimeout .. | .batchDrain .. | .graphLoad .. | .graphUnload .. | .copyItemComplete ..
  | .matrixGrant .. | .mmaComplete .. | .htuItemComplete .. | .hctlComplete .. | .scrub .. | .lcuOperation ..
  | .lcuItemComplete .. | .raySlotBind .. | .traversalStep .. | .rayItemComplete .. | .xdrainComplete ..
  | .sliceCutChange .. | .deterministicModeSet .. | .replay .. | .headConfigure .. | .frameLatch .. | .frameDone ..
  | .encodeConfigure .. | .accessUnitWrite .. | .ringReturn .. | .moduleReset | .bootStage | .rollbackRequest ..
  | .recoveryFlashImage .. | .getVersion .. | .getCapabilities .. | .negotiateAlgorithms .. | .getDigests ..
  | .getCertificate .. | .challenge .. | .getMeasurements .. | .linkDown .. | .clockLower .. | .clockRaise ..
  | .clusterStart .. | .millerUncorrectable | .translationBufferInvalidation .. | .queueBind .. | .contextCreate ..
  | .groupRemove .. | .hostPeerWindowAccess .. | .linkUp .. | .softError .. => true
  | _ => false

end Sys2Proof
end

