-- ==== Sys2Proof/Decode.lean ====
section
/-!
DEFINITION. The decoder and the encoder of Arsar words (R55 to R59, R68, R79 to R94, and the encoding tables of the
engine chapters). `decodeWords` is total; a word it rejects is an ILLOP of R59, named by `Reject`. A reserved opcode or
an illegal function value decodes to `Instr.reservedOpcode` (R88).
-/
namespace Sys2Proof

/-- Why the decoder rejects a word (R59 precedence 1): a reserved bit, or an illegal field value. -/
inductive Reject where
  /-- A bit that R57 and the instruction's entry reserve is set, or bit 6 of a scalar field. -/
  | reservedBit
  /-- A field holds a value that its table calls illegal. -/
  | illegalValue
  /-- Fewer bytes than the opcode's words were given. -/
  | truncated
  deriving DecidableEq, Repr

/-- The field of `len` bits from bit `lo` (R4). -/
def fld (w : W32) (lo len : Nat) : BitVec len := w.extractLsb' lo len

/-- Bit `i` (R4). -/
def bit (w : W32) (i : Nat) : Bool := w.getLsbD i

/-- Every named field (low bit, length) is zero. -/
def zeros (w : W32) (fs : List (Nat × Nat)) : Bool := fs.all fun f => fld w f.1 f.2 == 0

/-- The number of words of an opcode (R56, R79 to R88). -/
def opWords (op : Nat) : Nat :=
  if [0x10, 0x11, 0x18, 0x21, 0x28, 0x29, 0x2A, 0x3B, 0x47, 0x4D, 0x4E].contains op then 2
  else if 0x58 ≤ op ∧ op ≤ 0x65 then (if op = 0x62 then 1 else 2)
  else if 0x68 ≤ op ∧ op ≤ 0x74 then 2
  else 1

/-- The codes of MODE.ET and STYPE (R61). -/
def ETy.ofBits (b : BitVec 4) : Option ETy :=
  match b.toNat with
  | 0 => some .i64 | 1 => some .n64 | 2 => some .i32 | 3 => some .n32 | 4 => some .i16 | 5 => some .n16
  | 6 => some .i8 | 7 => some .n8 | 8 => some .f64 | 9 => some .f32 | 10 => some .f16 | 11 => some .bf16
  | 12 => some .e4m3 | 13 => some .e5m2 | 14 => some .e2m1 | _ => none

/-- The code of an element type (R61). -/
def ETy.bits : ETy → BitVec 4
  | .i64 => 0 | .n64 => 1 | .i32 => 2 | .n32 => 3 | .i16 => 4 | .n16 => 5 | .i8 => 6 | .n8 => 7 | .f64 => 8
  | .f32 => 9 | .f16 => 10 | .bf16 => 11 | .e4m3 => 12 | .e5m2 => 13 | .e2m1 => 14

/-- The codes of a rounding mode (R61). -/
def RMode.ofBits (b : BitVec 3) : Option RMode :=
  match b.toNat with
  | 0 => some .rne | 1 => some .rtz | 2 => some .rup | 3 => some .rdn | 4 => some .rto | _ => none

/-- The code of a rounding mode (R61). -/
def RMode.bits : RMode → BitVec 3
  | .rne => 0 | .rtz => 1 | .rup => 2 | .rdn => 3 | .rto => 4

/-- The COND codes (R92). -/
def Cond.ofBits (b : BitVec 4) : Option Cond :=
  match b.toNat with
  | 0 => some .eq | 1 => some .ne | 2 => some .lt | 3 => some .le | 4 => some .gt | 5 => some .ge | 6 => some .uno
  | 7 => some .ord | 8 => some .ltu | 9 => some .leu | 10 => some .gtu | 11 => some .geu | _ => none

/-- The code of a condition (R92). -/
def Cond.bits : Cond → BitVec 4
  | .eq => 0 | .ne => 1 | .lt => 2 | .le => 3 | .gt => 4 | .ge => 5 | .uno => 6 | .ord => 7 | .ltu => 8 | .leu => 9
  | .gtu => 10 | .geu => 11

/-- The SIZE codes (R89). -/
def MSize.ofBits (b : BitVec 2) : MSize :=
  match b.toNat with
  | 0 => .b64 | 1 => .b128 | 2 => .b256 | _ => .b32

/-- The code of a size (R89). -/
def MSize.bits : MSize → BitVec 2
  | .b64 => 0 | .b128 => 1 | .b256 => 2 | .b32 => 3

/-- The SPACE codes (R89). -/
def Space.ofBits (b : BitVec 2) : Option Space :=
  match b.toNat with
  | 0 => some .sh | 1 => some .sp | 2 => some .sk | _ => none

/-- The code of a space (R89). -/
def Space.bits : Space → BitVec 2
  | .sh => 0 | .sp => 1 | .sk => 2

/-- The SCOPE codes (R89). -/
def Scope.ofBits (b : BitVec 3) : Option Scope :=
  match b.toNat with
  | 0 => some .group | 1 => some .team | 2 => some .gang | 3 => some .slice | 4 => some .sys | _ => none

/-- The code of a scope (R89). -/
def Scope.bits : Scope → BitVec 3
  | .group => 0 | .team => 1 | .gang => 2 | .slice => 3 | .sys => 4

/-- The ORDER codes of the atomic word (R90). -/
def AOrder.ofBits (b : BitVec 2) : AOrder :=
  match b.toNat with
  | 0 => .plain | 1 => .acq | 2 => .rel | _ => .acqrel

/-- The code of an atomic order (R90). -/
def AOrder.bits : AOrder → BitVec 2
  | .plain => 0 | .acq => 1 | .rel => 2 | .acqrel => 3

/-- The AOP codes (R90). -/
def AOp.ofBits (b : BitVec 4) : Option AOp :=
  match b.toNat with
  | 0 => some .add | 1 => some .min | 2 => some .max | 3 => some .and | 4 => some .or | 5 => some .xor
  | 6 => some .swap | 7 => some .cas | 8 => some .fadd | _ => none

/-- The code of an atomic operation (R90). -/
def AOp.bits : AOp → BitVec 4
  | .add => 0 | .min => 1 | .max => 2 | .and => 3 | .or => 4 | .xor => 5 | .swap => 6 | .cas => 7 | .fadd => 8

/-- The operation codes of XRED and XSCAN (R93). -/
def ROp.ofBits (b : BitVec 3) : Option ROp :=
  match b.toNat with
  | 0 => some .add | 1 => some .min | 2 => some .max | 3 => some .and | 4 => some .or | 5 => some .xor | _ => none

/-- The code of a reduction (R93). -/
def ROp.bits : ROp → BitVec 3
  | .add => 0 | .min => 1 | .max => 2 | .and => 3 | .or => 4 | .xor => 5

/-- The KIND codes of FENCE (R91). -/
def FKind.ofBits (b : BitVec 2) : Option FKind :=
  match b.toNat with
  | 0 => some .full | 1 => some .acq | 2 => some .rel | _ => none

/-- The code of a fence kind (R91). -/
def FKind.bits : FKind → BitVec 2
  | .full => 0 | .acq => 1 | .rel => 2

/-- The FILTER codes (R94). -/
def HFilter.ofBits (b : BitVec 2) : Option HFilter :=
  match b.toNat with
  | 0 => some .nearest | 1 => some .bilinear | 2 => some .rotary | _ => none

/-- The code of a filter (R94). -/
def HFilter.bits : HFilter → BitVec 2
  | .nearest => 0 | .bilinear => 1 | .rotary => 2

/-- Source field A of V3, VI and VC (R57). -/
def srcA (w : W32) : VSrc := ⟨fld w 11 7, bit w 10, bit w 9⟩

/-- Source field B of V3 (R57). -/
def srcB (w : W32) : VSrc := ⟨fld w 2 7, bit w 1, bit w 0⟩

/-- Field D of V3, VI, VC, L and E (R57). -/
def fD (w : W32) : BitVec 7 := fld w 18 7

/-- Scalar D of S3 and SI, the low six bits (R58). -/
def sD (w : W32) : BitVec 6 := fld w 18 6

/-- Scalar A of S3 and SI, the low six bits (R58). -/
def sA (w : W32) : BitVec 6 := fld w 11 6

/-- Scalar B of S3, the low six bits (R58). -/
def sB (w : W32) : BitVec 6 := fld w 2 6

/-- Fields SA, SB and TOKEN of format E; SA is also SB of format L (R57). -/
def eSA (w : W32) : BitVec 6 := fld w 12 6

/-- Field SB of format E (R57). -/
def eSB (w : W32) : BitVec 6 := fld w 6 6

/-- Field TOKEN of format E (R24, R57). -/
def eTok (w : W32) : BitVec 6 := fld w 0 6

/-- The address fields of format L (R57, R85). -/
def lAddr (w : W32) : LAddr := ⟨eSA w, fld w 5 7, bit w 4⟩

/-- The memory word (R89); ORDER 10 and 11 and SCOPE 5 to 7 are illegal. -/
def memWord (w : W32) : Option MemWord :=
  match Space.ofBits (fld w 28 2), Scope.ofBits (fld w 23 3) with
  | some sp, some sc => if bit w 27 then none else some ⟨MSize.ofBits (fld w 30 2), sp, bit w 26, sc, fld w 0 23⟩
  | _, _ => none

/-- The atomic word (R90); SIZE 01 and 10, SPACE 10 and 11 are illegal. -/
def atomWord (w : W32) : Option AtomWord :=
  match Scope.ofBits (fld w 23 3), AOp.ofBits (fld w 19 4) with
  | some sc, some op =>
    if bit w 31 != bit w 30 || bit w 29 then none
    else some ⟨!bit w 30, bit w 28, AOrder.ofBits (fld w 26 2), sc, op, fld w 12 7, fld w 0 12⟩
  | _, _ => none

/-- The decoder's last checks: the reserved fields of both words, then the values (R59). -/
def accept (ok : Bool) (i : Option Instr) : Except Reject Instr :=
  if ok then
    match i with
    | some i => if i.wf then .ok i else .error .illegalValue
    | none => .error .illegalValue
  else .error .reservedBit

/-- The reserved fields of S3 (R57, R58). -/
def zS3 : List (Nat × Nat) := [(24, 1), (17, 1), (9, 2), (8, 1), (0, 2)]

/-- The lookahead word has [31:4] zero (R64). -/
def zLa : List (Nat × Nat) := [(4, 28)]

/-- A scalar format-L word: D below 64, VX 127, LX 0 (R85). -/
def okLs (w : W32) : Bool := zeros w [(24, 1), (4, 1)] && fld w 5 7 == 127#7

/-- Opcodes 0x00 to 0x2F (R79 to R81). -/
def decodeVector (op : Nat) (w v : W32) : Except Reject Instr :=
  let d := fD w
  let a := srcA w
  let b := srcB w
  let imm : BitVec 9 := fld w 0 9
  let ah : BitVec 4 := fld v 0 4
  match op with
  | 0x01 => accept true (some (.vadd d a b))
  | 0x02 => accept true (some (.vsub d a b))
  | 0x03 => accept true (some (.vmul d a b))
  | 0x04 => accept true (some (.vmulh d a b))
  | 0x05 => accept true (some (.vfma d a b))
  | 0x06 => accept true (some (.vfms d a b))
  | 0x07 => accept true (some (.vmin d a b))
  | 0x08 => accept true (some (.vmax d a b))
  | 0x09 => accept true (some (.vand d a b))
  | 0x0A => accept true (some (.vor d a b))
  | 0x0B => accept true (some (.vxor d a b))
  | 0x0C => accept true (some (.vshl d a b))
  | 0x0D => accept true (some (.vshr d a b))
  | 0x0E => accept true (some (.vsel d a b))
  | 0x0F => accept true (some (.vabsd d a b))
  | 0x10 => accept (zeros v zLa) (some (.vdiv d a b ah))
  | 0x11 => accept (zeros v zLa) (some (.vrem d a b ah))
  | 0x12 => accept true (some (.vaddi d a imm))
  | 0x13 => accept true (some (.vmuli d a imm))
  | 0x14 => accept true (some (.vshli d a imm))
  | 0x15 => accept true (some (.vshri d a imm))
  | 0x16 => accept true (some (.vandi d a imm))
  | 0x17 => accept (zeros w [(0, 9)]) (some (.vmov d a))
  | 0x18 => accept (zeros w [(0, 18)]) (some (.vldi d v))
  | 0x19 => accept (zeros w [(0, 9)]) (some (.vneg d a))
  | 0x1A => accept (zeros w [(0, 9)]) (some (.vabs d a))
  | 0x1B => accept (zeros w [(0, 9)]) (some (.vpopc d a))
  | 0x1C => accept (zeros w [(0, 9)]) (some (.vclz d a))
  | 0x1D => accept true (some (.vbfx d a b))
  | 0x1E => accept true (some (.vbfi d a b))
  | 0x1F => accept true (some (.vlerp d a b))
  | 0x20 => accept (zeros w [(0, 1)])
      (match ETy.ofBits (fld w 5 4), RMode.ofBits (fld w 2 3) with
       | some t, some r => some (.vcvt d a t r (bit w 1))
       | _, _ => none)
  | 0x21 => accept (zeros w [(0, 2)] && zeros v zLa)
      (match (fld w 2 7).toNat with
       | 0 => some (.vexp2 d a ah)
       | 1 => some (.vlog2 d a ah)
       | 2 => some (.vrcp d a ah)
       | 3 => some (.vrsq d a ah)
       | 4 => some (.vsqrt d a ah)
       | 5 => some (.vsinp d a ah)
       | 6 => some (.vcosp d a ah)
       | 7 => some (.vtanh d a ah)
       | _ => none)
  | 0x22 => accept (zeros w [(0, 1)])
      ((Cond.ofBits (fld w 17 4)).map fun c => .vcmp (fld w 21 4) c (fld w 10 7) (bit w 9) (fld w 2 7) (bit w 1))
  | 0x23 => accept (zeros w [(0, 9)]) (some (.vclass d a))
  | 0x24 => accept (zeros w [(5, 4), (0, 2)]) ((RMode.ofBits (fld w 2 3)).map fun r => .vrint d a r)
  | 0x28 => accept (zeros v zLa) (some (.xperm d a b ah))
  | 0x29 => accept (zeros w [(7, 2), (0, 2)] && zeros v zLa) (some (.xbfly d a (fld w 2 5) ah))
  | 0x2A => accept (zeros w [(7, 2), (0, 2)] && zeros v zLa) (some (.xbcast d a (fld w 2 5) ah))
  | 0x2B => accept (zeros w [(5, 4), (0, 2)]) ((ROp.ofBits (fld w 2 3)).map fun o => .xred d a o)
  | 0x2C => accept (zeros w [(6, 3), (0, 2)]) ((ROp.ofBits (fld w 2 3)).map fun o => .xscan d a o (bit w 5))
  | 0x2D => accept (zeros w [(15, 3), (9, 2), (6, 3), (0, 5)]) (some (.xpsum d (fld w 11 4) (bit w 5)))
  | 0x2E => accept (zeros w [(24, 1), (0, 9)]) (some (.vtos (sD w) a))
  | 0x2F => accept (zeros w [(17, 1), (0, 11)]) (some (.stov d (sA w)))
  | _ => .error .illegalValue

/-- Opcodes 0x30 to 0x57 (R82 to R84). -/
def decodeScalar (op : Nat) (w v : W32) : Except Reject Instr :=
  match op with
  | 0x30 => accept (zeros w zS3) (some (.sadd (sD w) (sA w) (sB w)))
  | 0x31 => accept (zeros w zS3) (some (.ssub (sD w) (sA w) (sB w)))
  | 0x32 => accept (zeros w zS3) (some (.smul (sD w) (sA w) (sB w)))
  | 0x33 => accept (zeros w zS3) (some (.smulh (sD w) (sA w) (sB w)))
  | 0x34 => accept (zeros w zS3) (some (.sand (sD w) (sA w) (sB w)))
  | 0x35 => accept (zeros w zS3) (some (.sor (sD w) (sA w) (sB w)))
  | 0x36 => accept (zeros w zS3) (some (.sxor (sD w) (sA w) (sB w)))
  | 0x37 => accept (zeros w zS3) (some (.sshl (sD w) (sA w) (sB w)))
  | 0x38 => accept (zeros w zS3) (some (.sshr (sD w) (sA w) (sB w)))
  | 0x39 => accept (zeros w zS3) (some (.ssra (sD w) (sA w) (sB w)))
  | 0x3A => accept (zeros w [(24, 1), (17, 1)]) (some (.saddi (sD w) (sA w) (fld w 0 11)))
  | 0x3B => accept (zeros w [(24, 1), (0, 18)]) (some (.sldi (sD w) v))
  | 0x3C => accept (zeros w [(17, 1), (9, 2), (8, 1), (0, 2)])
      ((Cond.ofBits (fld w 21 4)).map fun c => .scmp c (fld w 18 3) (sA w) (sB w))
  | 0x3D => accept (zeros w zS3) (some (.smin (sD w) (sA w) (sB w)))
  | 0x3E => accept (zeros w zS3) (some (.smax (sD w) (sA w) (sB w)))
  | 0x3F => accept (zeros w [(24, 1), (17, 1), (0, 11)]) (some (.smov (sD w) (sA w)))
  | 0x40 =>
    let md : BitVec 4 := fld w 21 4
    let ma : BitVec 4 := fld w 17 4
    let mb : BitVec 4 := fld w 13 4
    match (fld w 10 3).toNat with
    | 0 => accept (zeros w [(0, 10)]) (some (.mand md ma mb))
    | 1 => accept (zeros w [(0, 10)]) (some (.mor md ma mb))
    | 2 => accept (zeros w [(0, 10)]) (some (.mxor md ma mb))
    | 3 => accept (zeros w [(0, 10)]) (some (.mandn md ma mb))
    | 4 => accept (zeros w [(13, 4), (0, 10)]) (some (.mnot md ma))
    | 5 => accept (zeros w [(13, 4), (0, 10)]) (some (.mmov md ma))
    | _ => .error .illegalValue
  | 0x41 => accept (zeros w [(24, 1), (15, 3), (0, 11)]) (some (.mtos (sD w) (fld w 11 4)))
  | 0x42 => accept (zeros w [(22, 3), (17, 1), (0, 11)]) (some (.stom (fld w 18 4) (sA w)))
  | 0x43 =>
    if fld w 2 7 == 0#7 then accept (zeros w [(24, 1), (15, 3), (9, 2), (0, 2)]) (some (.mcnt (sD w) (fld w 11 4)))
    else accept (zeros w [(24, 1), (15, 3), (9, 2), (0, 2)]) (some (.mffs (sD w) (fld w 11 4)))
  | 0x44 => accept (zeros w [(0, 9)])
      (some (.setmode (fld w 21 4) (fld w 18 3) (fld w 14 4) (bit w 13) (bit w 12) (bit w 11) (bit w 10) (bit w 9)))
  | 0x45 => accept (zeros w [(11, 7)]) (some (.srd (fD w) (fld w 0 11)))
  | 0x46 => accept (zeros w [(18, 7), (17, 1)]) (some (.swr (fld w 0 11) (sA w)))
  | 0x47 => accept (zeros w [(0, 21)]) (some (.mldi (fld w 21 4) v))
  | 0x48 => accept (zeros w [(21, 4)]) (some (.bra (fld w 0 21)))
  | 0x49 => accept true (some (.bru (fld w 21 4) (fld w 0 21)))
  | 0x4A => accept true (some (.brz (fld w 21 4) (fld w 0 21)))
  | 0x4B => accept true (some (.brnz (fld w 21 4) (fld w 0 21)))
  | 0x4C => accept true (some (.brs (fld w 19 6) (fld w 0 19)))
  | 0x4D => accept (zeros w [(18, 7), (0, 9)]) (some (.jmpi (srcA w) (fld v 16 16) (fld v 0 16)))
  | 0x4E => accept (zeros w [(18, 7), (0, 9)] && zeros v [(16, 16)]) (some (.calli (srcA w) (fld v 0 16)))
  | 0x4F => accept (zeros w [(21, 4)]) (some (.call (fld w 0 21)))
  | 0x50 => accept (zeros w [(0, 25)]) (some .ret)
  | 0x51 => accept (zeros w [(16, 9)]) (some (.pad (fld w 0 16)))
  | 0x52 => accept true (some (.loop (fld w 19 6) (fld w 0 19)))
  | 0x53 => accept (zeros w [(0, 25)]) (some .exit)
  | 0x54 => accept (zeros w [(0, 25)]) (some .nop)
  | 0x55 => accept (zeros w [(0, 25)]) (some .brk)
  | 0x56 => accept (zeros w [(0, 25)]) (some .yield)
  | _ => .error .illegalValue

/-- Opcodes 0x58 to 0x67 (R85, R89 to R91, R174). -/
def decodeMemory (op : Nat) (w v : W32) : Except Reject Instr :=
  let off : BitVec 23 := fld v 0 23
  match op with
  | 0x58 => accept true ((memWord v).map fun m => .ld (fD w) (lAddr w) (fld w 0 4) m)
  | 0x59 => accept (zeros w [(0, 4)]) ((memWord v).map fun m => .st (fD w) (lAddr w) m)
  | 0x5A => accept (okLs w) ((memWord v).map fun m => .lds (sD w) (eSA w) (fld w 0 4) m)
  | 0x5B => accept (okLs w && zeros w [(0, 4)]) ((memWord v).map fun m => .sts (sD w) (eSA w) m)
  | 0x5C => accept (zeros w [(0, 4)]) ((atomWord v).map fun m => .atom (fD w) (lAddr w) m)
  | 0x5D => accept (zeros w [(18, 7), (0, 4)]) ((atomWord v).map fun m => .red (lAddr w) m)
  | 0x5E => accept (okLs w && zeros w [(0, 4)] && zeros v [(26, 6)])
      (match (fld v 23 3).toNat with
       | 1 => some (.qpush (sD w) (eSA w) false off)
       | 2 => some (.qpush (sD w) (eSA w) true off)
       | _ => none)
  | 0x5F => accept (okLs w && zeros w [(0, 4)] && zeros v [(26, 6)])
      (match (fld v 23 3).toNat with
       | 1 => some (.qpop (sD w) (eSA w) false off)
       | 2 => some (.qpop (sD w) (eSA w) true off)
       | _ => none)
  | 0x60 => accept (okLs w && zeros w [(0, 4)] && zeros v [(23, 7)])
      (match (fld v 30 2).toNat with
       | 0 => some (.barvInit (sD w) (eSA w) off)
       | 1 => some (.barvArr (sD w) (eSA w) off)
       | 2 => some (.barvTx (sD w) (eSA w) off)
       | _ => some (.barvArrtx (sD w) (eSA w) off))
  | 0x61 => accept (okLs w && zeros w [(0, 4)] && zeros v [(23, 9)]) (some (.bwait (sD w) (eSA w) off))
  | 0x62 => accept (zeros w [(0, 20)])
      (match FKind.ofBits (fld w 23 2), Scope.ofBits (fld w 20 3) with
       | some k, some s => some (.fence k s)
       | _, _ => none)
  | 0x63 => accept (okLs w && zeros w [(0, 4)] && zeros v [(29, 3)]) (some (.sapp (sD w) (eSA w) (fld v 23 6) off))
  | 0x64 => accept (zeros v [(23, 7)]) (some (.ldk (fD w) (lAddr w) (fld w 0 4) (MSize.ofBits (fld v 30 2)) off))
  | 0x65 => accept (zeros w [(0, 4)] && zeros v [(23, 7)])
      (some (.stk (fD w) (lAddr w) (MSize.ofBits (fld v 30 2)) off))
  | _ => .error .illegalValue

/-- Opcodes 0x68 to 0x77 (R86 and the engine chapters). -/
def decodeEngine (op : Nat) (w v : W32) : Except Reject Instr :=
  let d := fD w
  let sa := eSA w
  let sb := eSB w
  let tok := eTok w
  let vp : BitVec 7 := fld v 2 7
  let lp := bit v 1
  let fn := (fld v 28 4).toNat
  match op with
  | 0x68 => accept (zeros w [(24, 1)] && zeros v [(28, 4), (0, 20)])
      (some (.xcp (sD w) sa sb tok (bit v 27) (fld v 21 6) (bit v 20)))
  | 0x69 => match fn with
    | 0 => accept (zeros w [(0, 25)] && zeros v [(0, 28)]) (some .xdrain)
    | _ => accept (zeros w [(24, 1), (0, 18)] && zeros v [(0, 28)]) (some (.xqry (sD w)))
  | 0x6A => accept (zeros v [(0, 32)]) (some (.mma d sa sb tok))
  | 0x6B => match fn with
    | 0 => accept (zeros w [(0, 18)] && zeros v [(0, 28)]) (some (.mzero d))
    | 1 => accept (zeros w [(0, 25)] && zeros v [(0, 28)]) (some .mfenceOpr)
    | _ => accept (zeros w [(0, 25)] && zeros v [(2, 26)]) (some (.mprio (fld v 0 2)))
  | 0x6C => accept (zeros w [(6, 6)] && zeros v [(0, 1)])
      ((HFilter.ofBits (fld v 26 2)).map fun f =>
        .hld d sa tok (fld v 28 4) f (bit v 25) (bit v 24) (fld v 20 4) (fld v 16 4) (fld v 9 7) vp lp)
  | 0x6D => match fn with
    | 0 => accept (zeros w [(18, 7)] && zeros v [(0, 28)]) (some (.hopen sa sb tok))
    | 1 => accept (zeros w [(6, 6)] && zeros v [(9, 19), (0, 1)]) (some (.hmw d sa tok vp lp))
    | 2 => accept (zeros w [(18, 7)] && zeros v [(20, 8)]) (some (.hseal sa sb tok (fld v 0 20)))
    | 3 => accept (zeros w [(18, 7)] && zeros v [(14, 14), (8, 4)])
        (some (.hshort sa sb tok (fld v 12 2) (fld v 4 4) (fld v 0 4)))
    | 4 => accept (zeros w [(18, 7)] && zeros v [(20, 8)]) (some (.hinv sa sb tok (fld v 0 20)))
    | _ => accept (zeros w [(18, 7)] && zeros v [(9, 13), (0, 1)])
        (some (.hqry sa sb tok (fld v 24 4) (fld v 22 2) vp lp))
  | 0x6E => match fn with
    | 0 => accept (zeros w [(6, 6)] && zeros v [(2, 26), (0, 1)]) (some (.lins d sa tok lp))
    | 1 => accept (zeros w [(18, 7)] && zeros v [(9, 17), (0, 1)]) (some (.lres sa sb tok (bit v 27) (bit v 26) vp lp))
    | 2 => accept (zeros w [(18, 7), (6, 6)] && zeros v [(9, 19), (0, 1)]) (some (.lclr sa tok vp lp))
    | _ => accept (zeros w [(6, 6)] && zeros v [(9, 15), (0, 1)]) (some (.lqry d sa tok (fld v 24 4) vp lp))
  | 0x6F =>
    let sp := bit v 27
    match fn with
    | 0 => accept (zeros v [(9, 18), (0, 1)]) (some (.cinit d sa sb tok sp vp lp))
    | 1 => accept (zeros w [(6, 6)] && zeros v [(9, 18), (0, 1)]) (some (.cacc d sa tok sp vp lp))
    | 2 => accept (zeros w [(18, 7), (6, 6)] && zeros v [(9, 18), (0, 1)]) (some (.cflush sa tok sp vp lp))
    | 3 => accept (zeros w [(6, 6)] && zeros v [(9, 18), (0, 1)]) (some (.crd d sa tok sp vp lp))
    | _ => accept (zeros w [(6, 6)] && zeros v [(9, 18), (0, 1)]) (some (.cadj d sa tok sp vp lp))
  | 0x70 => accept (zeros w [(6, 6)] && zeros v [(24, 5), (9, 7), (0, 1)])
      (some (.rtrace d sa tok (bit v 31) (bit v 30) (bit v 29) (fld v 16 8) vp lp))
  | 0x71 => match fn with
    | 0 => accept (zeros w [(6, 12)] && zeros v [(24, 4), (0, 20)]) (some (.rtresume d tok (fld v 20 4)))
    | 1 => accept (zeros w [(18, 7), (6, 6)] && zeros v [(9, 19), (0, 1)]) (some (.rtsave sa tok vp lp))
    | 2 => accept (zeros w [(6, 6)] && zeros v [(9, 19), (0, 1)]) (some (.rtload d sa tok vp lp))
    | _ => accept (zeros w [(6, 19)] && zeros v [(0, 28)]) (some (.rtabort tok))
  | 0x72 => match fn with
    | 0 => accept (zeros w [(0, 12)] && zeros v [(6, 22)]) (some (.wgalloc d sa (fld v 0 6)))
    | _ => accept (zeros w [(0, 12)] && zeros v [(6, 18)]) (some (.wgallocTry d sa (fld v 24 4) (fld v 0 6)))
  | 0x73 => accept (zeros w [(0, 12)] && zeros v [(6, 26)]) (some (.wgcommit d sa (fld v 0 6)))
  | 0x74 => match fn with
    | 0 => accept (zeros w [(0, 18)] && zeros v [(0, 28)]) (some (.dlaunch d))
    | _ => accept (zeros w [(18, 7), (0, 12)] && zeros v [(0, 28)]) (some (.dlaunchS sa))
  | _ => .error .illegalValue

/-- Opcodes 0x78 to 0x7F (R68, R87, R183). -/
def decodeSystem (op : Nat) (w : W32) : Except Reject Instr :=
  match op with
  | 0x78 => accept (zeros w [(0, 10)]) (some (.rep (fld w 19 6) (fld w 16 3) (fld w 13 3) (fld w 10 3)))
  | 0x79 => accept (zeros w [(8, 17)]) (some (.trap (fld w 0 8)))
  | 0x7A => accept (zeros w [(0, 25)]) (some .tret)
  | 0x7B =>
    if fld w 0 16 == 0x0800#16 then accept (zeros w [(16, 3)]) (some (.hbar (fld w 19 6)))
    else accept (zeros w [(16, 3)]) (some (.hsr (fld w 19 6) (fld w 0 16)))
  | 0x7C => accept (zeros w [(16, 3)]) (some (.hsw (fld w 0 16) (fld w 19 6)))
  | 0x7D => if bit w 0 then accept (zeros w [(1, 24)]) (some .texitSaved) else accept (zeros w [(1, 24)]) (some .texitDone)
  | 0x7E => accept (zeros w [(0, 25)]) (some .icinv)
  | _ => .error .illegalValue

/-- The instruction of a first word and the word after it (R55, R56). The second is ignored by a one-word opcode. -/
def decodeWords (w v : W32) : Except Reject Instr :=
  let op := opcodeOf w
  if opcodeReserved op || functionIllegal w v then
    .ok (.reservedOpcode w (if opWords op = 1 then 0#32 else v))
  else if op < 0x30 then decodeVector op w v
  else if op < 0x58 then decodeScalar op w v
  else if op < 0x68 then decodeMemory op w v
  else if op < 0x78 then decodeEngine op w v
  else decodeSystem op w

/-- A little-endian word of four bytes (R4, R55). -/
def wordOfBytes (b0 b1 b2 b3 : Byte) : W32 := b3 ++ b2 ++ b1 ++ b0

/-- Decodes one instruction from bytes in address order and returns the rest (R55, R56). -/
def decode : List Byte → Except Reject (Instr × List Byte)
  | b0 :: b1 :: b2 :: b3 :: rest =>
    let w := wordOfBytes b0 b1 b2 b3
    if opWords (opcodeOf w) = 1 then (decodeWords w 0#32).map fun i => (i, rest)
    else
      match rest with
      | c0 :: c1 :: c2 :: c3 :: rest' => (decodeWords w (wordOfBytes c0 c1 c2 c3)).map fun i => (i, rest')
      | _ => .error .truncated
  | _ => .error .truncated

/-- The instruction of a table row's bits: the first word in bits 31..0, the second above it (R56). -/
def decodeTableWord (_nbits w : Nat) : Option Instr :=
  match decodeWords (BitVec.ofNat 32 w) (BitVec.ofNat 32 (w / 2 ^ 32)) with
  | .ok i => some i
  | .error _ => none

/-- Packs format V3 (R57). -/
def encV3 (op d : BitVec 7) (a b : VSrc) : W32 :=
  op ++ d ++ a.reg ++ BitVec.ofBool a.last ++ BitVec.ofBool a.keep ++ b.reg ++ BitVec.ofBool b.last
    ++ BitVec.ofBool b.keep

/-- Packs format VI, and V3 with nine given low bits (R57). -/
def encVI (op d : BitVec 7) (a : VSrc) (imm : BitVec 9) : W32 :=
  op ++ d ++ a.reg ++ BitVec.ofBool a.last ++ BitVec.ofBool a.keep ++ imm

/-- Packs format S3 (R57). -/
def encS3 (op : BitVec 7) (d a b : BitVec 6) : W32 := op ++ 0#1 ++ d ++ 0#1 ++ a ++ 0#2 ++ 0#1 ++ b ++ 0#2

/-- Packs format K (R57). -/
def encK (op : BitVec 7) (md ma mb : BitVec 4) (func : BitVec 3) : W32 := op ++ md ++ ma ++ mb ++ func ++ 0#10

/-- Packs formats BR (R57). -/
def encBR (op : BitVec 7) (mc : BitVec 4) (off : BitVec 21) : W32 := op ++ mc ++ off

/-- Packs format BS (R57). -/
def encBS (op : BitVec 7) (sc : BitVec 6) (off : BitVec 19) : W32 := op ++ sc ++ off

/-- Packs format L (R57). -/
def encL (op d : BitVec 7) (m : LAddr) (ahead : BitVec 4) : W32 :=
  op ++ d ++ m.sb ++ m.vx ++ BitVec.ofBool m.lx ++ ahead

/-- Packs a scalar format L word (R85). -/
def encLs (op : BitVec 7) (d sb : BitVec 6) (ahead : BitVec 4) : W32 := op ++ 0#1 ++ d ++ sb ++ 127#7 ++ 0#1 ++ ahead

/-- Packs format E (R57). -/
def encE (op d : BitVec 7) (sa sb tok : BitVec 6) : W32 := op ++ d ++ sa ++ sb ++ tok

/-- Packs format P (R57). -/
def encP (op : BitVec 7) (payload : BitVec 25) : W32 := op ++ payload

/-- Packs the lookahead word (R64). -/
def encLa (ahead : BitVec 4) : W32 := 0#28 ++ ahead

/-- Packs the memory word (R89). -/
def encMem (m : MemWord) : W32 :=
  m.size.bits ++ m.space.bits ++ 0#1 ++ BitVec.ofBool m.ordered ++ m.scope.bits ++ m.off

/-- Packs the atomic word (R90). -/
def encAtom (m : AtomWord) : W32 :=
  BitVec.ofBool (!m.wide) ++ BitVec.ofBool (!m.wide) ++ 0#1 ++ BitVec.ofBool m.sp ++ m.order.bits ++ m.scope.bits
    ++ m.op.bits ++ m.vb ++ m.off

/-- Packs a word two of FN, 19 middle bits, a register, its last-use bit and a zero (R300, R316, R324, R349). -/
def encF (fn : BitVec 4) (mid : BitVec 19) (v : BitVec 7) (l : Bool) : W32 :=
  fn ++ mid ++ v ++ BitVec.ofBool l ++ 0#1

/-- The seven-bit D field that holds a scalar register (R58). -/
def padS (d : BitVec 6) : BitVec 7 := 0#1 ++ d

/-- The words of an instruction; none for an event (R57, R79 to R94, and the engine chapters). -/
def encode : Instr → Option (List W32)
  | .vadd d a b => some [encV3 0x01 d a b]
  | .vsub d a b => some [encV3 0x02 d a b]
  | .vmul d a b => some [encV3 0x03 d a b]
  | .vmulh d a b => some [encV3 0x04 d a b]
  | .vfma d a b => some [encV3 0x05 d a b]
  | .vfms d a b => some [encV3 0x06 d a b]
  | .vmin d a b => some [encV3 0x07 d a b]
  | .vmax d a b => some [encV3 0x08 d a b]
  | .vand d a b => some [encV3 0x09 d a b]
  | .vor d a b => some [encV3 0x0A d a b]
  | .vxor d a b => some [encV3 0x0B d a b]
  | .vshl d a b => some [encV3 0x0C d a b]
  | .vshr d a b => some [encV3 0x0D d a b]
  | .vsel d a b => some [encV3 0x0E d a b]
  | .vabsd d a b => some [encV3 0x0F d a b]
  | .vdiv d a b ah => some [encV3 0x10 d a b, encLa ah]
  | .vrem d a b ah => some [encV3 0x11 d a b, encLa ah]
  | .vaddi d a imm => some [encVI 0x12 d a imm]
  | .vmuli d a imm => some [encVI 0x13 d a imm]
  | .vshli d a imm => some [encVI 0x14 d a imm]
  | .vshri d a imm => some [encVI 0x15 d a imm]
  | .vandi d a imm => some [encVI 0x16 d a imm]
  | .vmov d a => some [encVI 0x17 d a 0]
  | .vldi d lit => some [encVI 0x18 d ⟨0, false, false⟩ 0, lit]
  | .vneg d a => some [encVI 0x19 d a 0]
  | .vabs d a => some [encVI 0x1A d a 0]
  | .vpopc d a => some [encVI 0x1B d a 0]
  | .vclz d a => some [encVI 0x1C d a 0]
  | .vbfx d a b => some [encV3 0x1D d a b]
  | .vbfi d a b => some [encV3 0x1E d a b]
  | .vlerp d a b => some [encV3 0x1F d a b]
  | .vcvt d a t r s => some [encVI 0x20 d a (t.bits ++ r.bits ++ BitVec.ofBool s ++ 0#1)]
  | .vexp2 d a ah => some [encV3 0x21 d a ⟨0, false, false⟩, encLa ah]
  | .vlog2 d a ah => some [encV3 0x21 d a ⟨1, false, false⟩, encLa ah]
  | .vrcp d a ah => some [encV3 0x21 d a ⟨2, false, false⟩, encLa ah]
  | .vrsq d a ah => some [encV3 0x21 d a ⟨3, false, false⟩, encLa ah]
  | .vsqrt d a ah => some [encV3 0x21 d a ⟨4, false, false⟩, encLa ah]
  | .vsinp d a ah => some [encV3 0x21 d a ⟨5, false, false⟩, encLa ah]
  | .vcosp d a ah => some [encV3 0x21 d a ⟨6, false, false⟩, encLa ah]
  | .vtanh d a ah => some [encV3 0x21 d a ⟨7, false, false⟩, encLa ah]
  | .vcmp md c a la b lb =>
      some [(0x22#7 ++ md ++ c.bits ++ a ++ BitVec.ofBool la ++ b ++ BitVec.ofBool lb ++ 0#1 : W32)]
  | .vclass d a => some [encVI 0x23 d a 0]
  | .vrint d a r => some [encVI 0x24 d a (0#4 ++ r.bits ++ 0#2)]
  | .xperm d a b ah => some [encV3 0x28 d a b, encLa ah]
  | .xbfly d a x ah => some [encVI 0x29 d a (0#2 ++ x ++ 0#2), encLa ah]
  | .xbcast d a x ah => some [encVI 0x2A d a (0#2 ++ x ++ 0#2), encLa ah]
  | .xred d a o => some [encVI 0x2B d a (0#4 ++ o.bits ++ 0#2)]
  | .xscan d a o i => some [encVI 0x2C d a (0#3 ++ BitVec.ofBool i ++ o.bits ++ 0#2)]
  | .xpsum d ma i => some [encVI 0x2D d ⟨0#3 ++ ma, false, false⟩ (0#3 ++ BitVec.ofBool i ++ 0#5)]
  | .vtos sd a => some [encVI 0x2E (padS sd) a 0]
  | .stov d sa => some [encVI 0x2F d ⟨padS sa, false, false⟩ 0]
  | .sadd d a b => some [encS3 0x30 d a b]
  | .ssub d a b => some [encS3 0x31 d a b]
  | .smul d a b => some [encS3 0x32 d a b]
  | .smulh d a b => some [encS3 0x33 d a b]
  | .sand d a b => some [encS3 0x34 d a b]
  | .sor d a b => some [encS3 0x35 d a b]
  | .sxor d a b => some [encS3 0x36 d a b]
  | .sshl d a b => some [encS3 0x37 d a b]
  | .sshr d a b => some [encS3 0x38 d a b]
  | .ssra d a b => some [encS3 0x39 d a b]
  | .saddi d a imm => some [(0x3A#7 ++ 0#1 ++ d ++ 0#1 ++ a ++ imm : W32)]
  | .sldi d lit => some [(0x3B#7 ++ 0#1 ++ d ++ 0#18 : W32), lit]
  | .scmp c dc a b => some [(0x3C#7 ++ c.bits ++ dc ++ 0#1 ++ a ++ 0#2 ++ 0#1 ++ b ++ 0#2 : W32)]
  | .smin d a b => some [encS3 0x3D d a b]
  | .smax d a b => some [encS3 0x3E d a b]
  | .smov d a => some [encS3 0x3F d a 0]
  | .mand md ma mb => some [encK 0x40 md ma mb 0]
  | .mor md ma mb => some [encK 0x40 md ma mb 1]
  | .mxor md ma mb => some [encK 0x40 md ma mb 2]
  | .mandn md ma mb => some [encK 0x40 md ma mb 3]
  | .mnot md ma => some [encK 0x40 md ma 0 4]
  | .mmov md ma => some [encK 0x40 md ma 0 5]
  | .mtos sd ma => some [encS3 0x41 sd (0#2 ++ ma) 0]
  | .stom md sa => some [encS3 0x42 (0#2 ++ md) sa 0]
  | .mcnt sd ma => some [encS3 0x43 sd (0#2 ++ ma) 0]
  | .mffs sd ma => some [encS3 0x43 sd (0#2 ++ ma) 1]
  | .setmode et rm g sat wet wrm wg wsat =>
      some [(0x44#7 ++ et ++ rm ++ g ++ BitVec.ofBool sat ++ BitVec.ofBool wet ++ BitVec.ofBool wrm
        ++ BitVec.ofBool wg ++ BitVec.ofBool wsat ++ 0#9 : W32)]
  | .srd d idx => some [(0x45#7 ++ d ++ 0#7 ++ idx : W32)]
  | .swr idx sa => some [(0x46#7 ++ 0#7 ++ 0#1 ++ sa ++ idx : W32)]
  | .mldi md lit => some [(0x47#7 ++ md ++ 0#21 : W32), lit]
  | .bra off => some [encBR 0x48 0 off]
  | .bru mc off => some [encBR 0x49 mc off]
  | .brz mc off => some [encBR 0x4A mc off]
  | .brnz mc off => some [encBR 0x4B mc off]
  | .brs sc off => some [encBS 0x4C sc off]
  | .jmpi a join tag => some [encVI 0x4D 0 a 0, (join ++ tag : W32)]
  | .calli a tag => some [encVI 0x4E 0 a 0, (0#16 ++ tag : W32)]
  | .call off => some [encBR 0x4F 0 off]
  | .ret => some [encP 0x50 0]
  | .pad tag => some [encP 0x51 (0#9 ++ tag)]
  | .loop sc off => some [encBS 0x52 sc off]
  | .exit => some [encP 0x53 0]
  | .nop => some [encP 0x54 0]
  | .brk => some [encP 0x55 0]
  | .yield => some [encP 0x56 0]
  | .ld d m ah w => some [encL 0x58 d m ah, encMem w]
  | .st d m w => some [encL 0x59 d m 0, encMem w]
  | .lds sd sb ah w => some [encLs 0x5A sd sb ah, encMem w]
  | .sts sd sb w => some [encLs 0x5B sd sb 0, encMem w]
  | .atom d m w => some [encL 0x5C d m 0, encAtom w]
  | .red m w => some [encL 0x5D 0 m 0, encAtom w]
  | .qpush sd sb gang off => some [encLs 0x5E sd sb 0, (0#6 ++ (if gang then 2#3 else 1#3) ++ off : W32)]
  | .qpop sd sb gang off => some [encLs 0x5F sd sb 0, (0#6 ++ (if gang then 2#3 else 1#3) ++ off : W32)]
  | .barvInit sd sb off => some [encLs 0x60 sd sb 0, (0#2 ++ 0#7 ++ off : W32)]
  | .barvArr sd sb off => some [encLs 0x60 sd sb 0, (1#2 ++ 0#7 ++ off : W32)]
  | .barvTx sd sb off => some [encLs 0x60 sd sb 0, (2#2 ++ 0#7 ++ off : W32)]
  | .barvArrtx sd sb off => some [encLs 0x60 sd sb 0, (3#2 ++ 0#7 ++ off : W32)]
  | .bwait sd sb off => some [encLs 0x61 sd sb 0, (0#9 ++ off : W32)]
  | .fence k s => some [encP 0x62 (k.bits ++ s.bits ++ 0#20)]
  | .sapp sd sb sc off => some [encLs 0x63 sd sb 0, (0#3 ++ sc ++ off : W32)]
  | .ldk d m ah size off => some [encL 0x64 d m ah, (size.bits ++ 0#7 ++ off : W32)]
  | .stk d m size off => some [encL 0x65 d m 0, (size.bits ++ 0#7 ++ off : W32)]
  | .xcp d sa sb tok batch nm1 bytes =>
      some [encE 0x68 (padS d) sa sb tok, (0#4 ++ BitVec.ofBool batch ++ nm1 ++ BitVec.ofBool bytes ++ 0#20 : W32)]
  | .xdrain => some [encE 0x69 0 0 0 0, 0]
  | .xqry sd => some [encE 0x69 (padS sd) 0 0 0, (1#4 ++ 0#28 : W32)]
  | .mma d sa sb tok => some [encE 0x6A d sa sb tok, 0]
  | .mzero d => some [encE 0x6B d 0 0 0, 0]
  | .mfenceOpr => some [encE 0x6B 0 0 0 0, (1#4 ++ 0#28 : W32)]
  | .mprio p => some [encE 0x6B 0 0 0 0, (2#4 ++ 0#26 ++ p : W32)]
  | .hld d sa tok age f fault short mm cm1 vc vp lp =>
      some [encE 0x6C d sa 0 tok, (age ++ f.bits ++ BitVec.ofBool fault ++ BitVec.ofBool short ++ mm ++ cm1 ++ vc ++ vp
        ++ BitVec.ofBool lp ++ 0#1 : W32)]
  | .hopen sa sb tok => some [encE 0x6D 0 sa sb tok, (0#4 ++ 0#28 : W32)]
  | .hmw d sa tok vp lp => some [encE 0x6D d sa 0 tok, encF 1 0 vp lp]
  | .hseal sa sb tok n => some [encE 0x6D 0 sa sb tok, (2#4 ++ 0#8 ++ n : W32)]
  | .hshort sa sb tok slot k j => some [encE 0x6D 0 sa sb tok, (3#4 ++ 0#14 ++ slot ++ 0#4 ++ k ++ j : W32)]
  | .hinv sa sb tok n => some [encE 0x6D 0 sa sb tok, (4#4 ++ 0#8 ++ n : W32)]
  | .hqry sa sb tok sel sslot vp lp => some [encE 0x6D 0 sa sb tok, encF 5 (sel ++ sslot ++ 0#13) vp lp]
  | .lins d sa tok lp => some [encE 0x6E d sa 0 tok, encF 0 0 0 lp]
  | .lres sa sb tok free cov vp lp =>
      some [encE 0x6E 0 sa sb tok, encF 1 (BitVec.ofBool free ++ BitVec.ofBool cov ++ 0#17) vp lp]
  | .lclr sa tok vp lp => some [encE 0x6E 0 sa 0 tok, encF 2 0 vp lp]
  | .lqry d sa tok layer vp lp => some [encE 0x6E d sa 0 tok, encF 3 (layer ++ 0#15) vp lp]
  | .cinit d sa sb tok sp va lv => some [encE 0x6F d sa sb tok, encF 0 (BitVec.ofBool sp ++ 0#18) va lv]
  | .cacc d sa tok sp va lv => some [encE 0x6F d sa 0 tok, encF 1 (BitVec.ofBool sp ++ 0#18) va lv]
  | .cflush sa tok sp va lv => some [encE 0x6F 0 sa 0 tok, encF 2 (BitVec.ofBool sp ++ 0#18) va lv]
  | .crd d sa tok sp va lv => some [encE 0x6F d sa 0 tok, encF 3 (BitVec.ofBool sp ++ 0#18) va lv]
  | .cadj d sa tok sp va lv => some [encE 0x6F d sa 0 tok, encF 4 (BitVec.ofBool sp ++ 0#18) va lv]
  | .rtrace d sa tok first cullb yield mask vr lr =>
      some [encE 0x70 d sa 0 tok, (BitVec.ofBool first ++ BitVec.ofBool cullb ++ BitVec.ofBool yield ++ 0#5 ++ mask
        ++ 0#7 ++ vr ++ BitVec.ofBool lr ++ 0#1 : W32)]
  | .rtresume d tok ma => some [encE 0x71 d 0 0 tok, (0#4 ++ 0#4 ++ ma ++ 0#20 : W32)]
  | .rtsave sa tok va lv => some [encE 0x71 0 sa 0 tok, encF 1 0 va lv]
  | .rtload d sa tok va lv => some [encE 0x71 d sa 0 tok, encF 2 0 va lv]
  | .rtabort tok => some [encE 0x71 0 0 0 tok, (3#4 ++ 0#28 : W32)]
  | .wgalloc d sa node => some [encE 0x72 d sa 0 0, (0#4 ++ 0#22 ++ node : W32)]
  | .wgallocTry d sa mf node => some [encE 0x72 d sa 0 0, (1#4 ++ mf ++ 0#18 ++ node : W32)]
  | .wgcommit d sa node => some [encE 0x73 d sa 0 0, (0#26 ++ node : W32)]
  | .dlaunch d => some [encE 0x74 d 0 0 0, (0#4 ++ 0#28 : W32)]
  | .dlaunchS sa => some [encE 0x74 0 sa 0 0, (1#4 ++ 0#28 : W32)]
  | .rep c ds as bs => some [encP 0x78 (c ++ ds ++ as ++ bs ++ 0#10)]
  | .trap code => some [encP 0x79 (0#17 ++ code)]
  | .tret => some [encP 0x7A 0]
  | .hsr sd sel => some [encP 0x7B (sd ++ 0#3 ++ sel)]
  | .hbar sd => some [encP 0x7B (sd ++ 0#3 ++ 0x0800#16)]
  | .hsw sel sa => some [encP 0x7C (sa ++ 0#3 ++ sel)]
  | .texitDone => some [encP 0x7D 0]
  | .texitSaved => some [encP 0x7D 1]
  | .icinv => some [encP 0x7E 0]
  | .reservedOpcode w v => if opWords (opcodeOf w) = 1 then some [w] else some [w, v]
  | _ => none

/-- The decoder's reading of an encoded instruction. -/
def decodeEncoded (i : Instr) : Except Reject Instr :=
  match encode i with
  | some [w] => decodeWords w 0#32
  | some [w, v] => decodeWords w v
  | _ => .error .truncated

/-- The length of an instruction in words (R56). -/
def Instr.words (i : Instr) : Nat :=
  match encode i with
  | some ws => ws.length
  | none => 0

end Sys2Proof
end

