-- ==== Sys2Proof/Config.lean ====
section
/-!
DEFINITION. The free values: what the manual leaves open. Each is a constant with no body, so nothing proves a value of
it (log entries 3, 7 to 19 and 46 name them). Those indexed by a tick take a fresh value at each step.
-/
namespace Sys2Proof.Config

/-- Which enabled act the machine performs next (R35, R185, R205, R251); DESIGN CHOICE, log 3. -/
opaque schedule : Nat → Nat

/-- Which of the values within the bound of R112 a VSFU function returns, by function, f32 or f16 (true: f32) and input;
DESIGN CHOICE, log 8. -/
opaque sfuPick : Nat → Bool → Nat → Nat
/-- For VEXP2 (0) and VLOG2 (1), whether f32, and the place of a result among the format's values: the least place of an
argument that has that result or a higher one, within R112's bound (log 8). -/
opaque sfuStep : Nat → Bool → Int → Int

/-- The translation-buffer entry replaced at capacity (R20); DESIGN CHOICE, log 9. -/
opaque tlbVictim : Nat → Nat

/-- The cycles of a core's clock between two reads of CYC (R8, R47); DESIGN CHOICE, log 7. -/
opaque cycles : Nat → Nat

/-- Whether a matrix request enters the table in the cycle of the request before it (R266); DESIGN CHOICE, log 7. -/
opaque sameCycle : Nat → Bool

/-- How many of the writes that race with a read it misses (R191, R192); DESIGN CHOICE, log 19. -/
opaque staleRead : Nat → Nat → Nat

/-- The save areas that the control cores give a team the distributor pre-empts, by rank and group (R208, R225); DESIGN CHOICE,
log 46. -/
opaque saveAreas : Nat → List (Nat × Nat)

/-- Which old or new value a fetch of a word written since the last ICINV returns (R184); DESIGN CHOICE, log 10. -/
opaque staleFetch : Nat → Nat

/-- Which free pool slot a WGALLOC grant takes (R236); DESIGN CHOICE, log 11. -/
opaque poolSlot : Nat → Nat → Nat

/-- Which index's value remains where a box writes one byte more than once (R284); DESIGN CHOICE, log 12. -/
opaque overlapPick : Nat → Nat → Nat

/-- Whether a byte or entry of a FAILED or CANCELLED transfer takes its new value (R195, R199, R309); DESIGN CHOICE, log 13. -/
opaque partDone : Nat → Nat → Bool

/-- The bytes of an insertion-buffer entry at or beyond NBUF after a retirement (R333); DESIGN CHOICE, log 14. -/
opaque bufferWord : Nat → Nat → BitVec 64

/-- The REPI that an SWR of a value above 63 leaves (R180, R221); DESIGN CHOICE, log 15. -/
opaque wideRepi : Nat → BitVec 6

/-- The answer of the far side of a link: 0 served, 1 refused, otherwise poisoned (R372); DESIGN CHOICE, log 16. -/
opaque farAnswer : Nat → Nat → Nat

/-- A channel of a composed pixel where the manual does not give it, and which of the two nearest values of the destination's
format a channel takes (R362); DESIGN CHOICE, log 17. -/
opaque pixelChannel : Nat → Nat → Nat
opaque pixelPick : Nat → Nat → Bool

/-- The side of an encoder's blocks in pixels, less one (R365); DESIGN CHOICE, log 17. -/
opaque encoderBlock : Nat → Nat

/-- The length of an access unit, its bytes, and whether it is a random-access point (R364, R371); DESIGN CHOICE, log 17. -/
opaque unitLength : Nat → Nat
opaque unitByte : Nat → Nat → Byte
opaque unitKey : Nat → Bool

/-- The device identity certificate chain, signature and supported capabilities of SPDM 1.3 (R368); DESIGN CHOICE, log 18. -/
opaque certChain : List Byte
opaque identitySign : List Byte → List Byte
opaque spdmVersion : List Byte
opaque spdmCapabilities : List Byte

/-- The fused hash of the root key, and the RSA moduli and exponents of the root and firmware keys (R367); DESIGN CHOICE, log 18. -/
opaque rootModulus : Nat
opaque rootExponent : Nat
opaque firmwareModulus : Nat
opaque firmwareExponent : Nat

/-- The digest of the boot ROM, and of what Gularo OS measures of a cut and of a slice's configuration (R368); DESIGN CHOICE, log 18. -/
opaque romDigest : BitVec 256
opaque cutDigest : Nat → BitVec 256
opaque sliceDigest : Nat → Nat → BitVec 256

/-- The slice, plus one, that the window of a Mukai port names, 0 where it has none (R372); DESIGN CHOICE, log 16. -/
opaque peerSlice : Nat → Nat

end Sys2Proof.Config
end

