-- ==== Sys2Proof/Machine/State.lean ====
section
/-!
DEFINITION. The state of a Zwiral Z7 module as plain data, the reasons a step can stop, and the state right after module
reset. INVENTORY.md lists each field with the rule of spec/ that names it and its reset value.
-/
namespace Sys2Proof.Machine

/-- A vector clock (R190): a thread's number and how many of its releases are known. Groups have even numbers, engine
items odd ones. Kept sorted by thread, with no zero count. -/
abbrev Clock := List (Nat × Nat)

/-- Who takes part in an ordered operation, for the scopes of R187. -/
structure Party where
  slice : Nat
  gang  : Nat
  team  : Nat
  gid   : Nat
  deriving DecidableEq, Repr

/-- One release that a location or object carries (R189): who released, at which scope, and what it knew. -/
structure RelHead where
  party : Party
  scope : Scope
  clk   : Clock
  deriving DecidableEq, Repr

/-- The metadata of one earlier access to a 64-byte line of a RACECHK page (R193). -/
structure Access where
  thread : Nat
  agent  : Nat
  epoch  : Nat
  rel    : Nat
  bytes  : BitVec 64
  write  : Bool
  plain  : Bool
  deriving DecidableEq, Repr

/-- One write to a data location, with what stood there before it (R186, R192): its bytes from `key`, the releases its words
carried, and who wrote. `seq` counts the writes of the machine. -/
structure Wrote where
  key    : Nat
  seq    : Nat
  old    : List Byte
  heads  : List (Nat × List RelHead)
  thread : Nat
  epoch  : Nat
  plain  : Bool
  deriving DecidableEq, Repr

/-- What happens-before knows of one split alone (R188, R189, R194): the clocks of the tokens it has read, the releases that
its FENCE.rel gives its later stores, the releases its loads have met for a later FENCE.acq, and for each 8-byte word it
has read the number of the writes that it may no longer miss (R186). `waited` holds the token registers that its next
instruction has waited for (R24). -/
structure FlowOrd where
  clk      : Clock
  relFence : List RelHead
  acqSeen  : List RelHead
  seen     : List (Nat × Nat)
  waited   : List Nat
  deriving DecidableEq, Repr

/-- A page kind (R18). -/
inductive PKind where
  | scratch | main | host | peer
  deriving DecidableEq, Repr

/-- An installed translation (R19, R20): the page of `2^size` bytes at `base` of a context. -/
structure TlbEntry where
  ctx   : Nat
  base  : Nat
  size  : Nat
  frame : Nat
  kind  : PKind
  race  : Bool
  x     : Bool
  w     : Bool
  rd    : Bool
  deriving DecidableEq, Repr

/-- The final status of an item, a copy descriptor or a lane (R23, R24). -/
inductive ItemEnd where
  | done
  | failed (cause : Nat)
  | cancelled
  | code (status : Nat)
  deriving DecidableEq, Repr

/-- The ray state record of a held or traversing lane (R341), with the item that bound its slot (R339). `held` is 2
CANDIDATE, 4 SUSPENDED, 0 traversing; `high` is bit 28 of the index of a leaf's rest (R344). -/
structure Ray where
  owner : Nat
  world : Vector W32 8
  hit   : Vector W32 5
  cand  : Vector W32 5
  stack : List W32
  cur   : W32
  held  : Nat
  sbase : Nat
  level : Bool
  mask  : BitVec 8
  yield : Bool
  cullb : Bool
  first : Bool
  inst  : BitVec 28
  root  : Word
  high  : Bool
  deriving DecidableEq, Repr

/-- What a lane of a ray item reports at its final status (R348). -/
structure RayOut where
  status : Nat
  cause  : Nat
  t      : W32
  prim   : W32
  inst   : W32
  u      : W32
  v      : W32
  deriving DecidableEq, Repr

/-- The functions of HCTL (R300). -/
inductive HctlFn where
  | hopen | hmw | hseal | hshort | hinv | hqry
  deriving DecidableEq, Repr

/-- The functions of LOP and COP (R316, R324). -/
inductive LcuFn where
  | lins | lres | lclr | lqry | cinit | cacc | cflush | crd | cadj
  deriving DecidableEq, Repr

/-- The functions of the ray unit (R342, R349). -/
inductive RayFn where
  | trace | resume | save | load | abort
  deriving DecidableEq, Repr

/-- How one item of an XCP command stands (R250, R251, R260): not started; started, with its descriptor as it was read and the
parts of a REDUCE that have been added; or final, with its status and DBYTES. -/
inductive CopyState where
  | queued
  | running (desc : List Word) (moved : List Nat)
  | final (e : ItemEnd) (dbytes : Nat)
  deriving DecidableEq, Repr

/-- What an engine item is to do, as its command captured it (R23, R250, R272, R299, R300, R317, R342, R349). -/
inductive Work where
  /-- An XCP command: descriptor, status-array and barrier addresses, BYTES, BATCH, and how each item stands (R250, R251,
  R260). -/
  | copy (desc : Word) (sts bar : Option Word) (bytes batch : Bool) (items : List CopyState)
  /-- An MMA: its format block's four dwords, barrier, priority, entry time, issue slot, running pass, and what the group's last
  MFENCE.opr ordered (R196). -/
  | mma (block : List Word) (bar : Word) (prio entered slot : Nat) (pass : Bool) (opr : Clock)
  /-- An HLD: word two's AGE, filter, policy and path, the miss mask, channels and cause register, and what its end kills
  under policy FAULT. -/
  | hld (age : Nat) (filter : HFilter) (fault short : Bool) (mm : Nat) (c : Nat) (vc : Nat) (kills : List (Nat × Mask))
  /-- An HCTL function: word two's count or selector, K, J and slot, whether SB names a register, and the lanes of HMW whose
  entries are written already (R197). -/
  | hctl (fn : HctlFn) (n k j slot : Nat) (sbf : Bool) (part : Mask)
  /-- An LCU item: function, space and option bits, layer or parameters, how many lanes are done, the reported lanes and
  count, a failure met. -/
  | lcu (fn : LcuFn) (sp free cov : Bool) (param : Word) (next : Nat) (bits : Mask) (count : Nat) (fail : Option Nat)
  /-- A ray item: function, accept mask, and each lane's report so far. -/
  | ray (fn : RayFn) (accept : Mask) (outs : Vector (Option RayOut) 32) (count : Nat) (suspend : Bool)
  /-- An arrival or adjustment on a gang peer's barrier object (R175). -/
  | arrival (addr : Word) (arrives : Bool) (bytes : W32)
  deriving DecidableEq, Repr

/-- An accepted engine item that has not reached its final status (R23). `flow` is the record that issued it, 4 for the handler,
and `lanes` its split's members then. -/
structure Item where
  id     : Nat
  ctx    : Nat
  core   : Nat
  party  : Party
  flow   : Nat
  lanes  : Mask
  tok    : BitVec 6
  eff    : Mask
  sa     : Word
  sb     : Word
  vs     : List LaneVec
  d      : Nat
  outs   : List LaneVec
  drop   : List Nat
  dropM  : Bool
  clk    : Clock
  waits  : List (Nat × Nat)
  work   : Work
  deriving DecidableEq, Repr

/-- One lane of a RED or ATOM that has not been performed, with the second value of .cas (R170, R171). -/
structure RedLane where
  lane  : Nat
  addr  : Word
  data  : Word
  swap  : Word
  deriving DecidableEq, Repr

/-- What an ATOM has beyond a RED (R170): the flow that issued it and its PC, the register its old values go to if it was
not held, the lanes that have returned, and those that met an uncorrectable error. -/
structure AtomBack where
  flow : Nat
  pc   : Word
  d    : Option Nat
  eff  : Mask
  got  : List (Nat × Nat)
  bad  : Mask
  deriving DecidableEq, Repr

/-- An issued RED or ATOM with lanes still to perform (R170, R171, R173). `rel` is the issuing group's count of releases and
`acq` the scope of an acquiring ATOM. -/
structure Red where
  id    : Nat
  ctx   : Nat
  core  : Nat
  party : Party
  uid   : Nat
  tidx  : Nat
  seq   : BitVec 32
  word  : AtomWord
  sgn   : Bool
  lanes : List RedLane
  heads : List RelHead
  rel   : Nat
  wait  : Option Nat
  back  : Option AtomBack
  deriving DecidableEq, Repr

/-- Why a split or a handler flow is not ready although its group runs (R209, R217). -/
inductive Sleep where
  | awake
  /-- Within the cycles after a YIELD (R210). -/
  | yield
  /-- Waiting for an unused split record (R38). -/
  | record
  /-- Waiting on a replayable fault at an address, for these lanes (R22). -/
  | xlate (va : Nat) (lanes : Mask)
  /-- In BWAIT on a parity of the object of a team (R176). -/
  | bwait (team off : Nat) (par : Bool)
  /-- A BWAIT whose phase has flipped, with what its return acquires (R176). -/
  | woken (clk : Clock)
  /-- In QPUSH (with the value) or QPOP (with the register) on an object; `due` once it was accessed (R178). -/
  | queue (team off : Nat) (push : Option Word) (sd : BitVec 6) (gang due : Bool)
  /-- In WGALLOC: graph, node, register, lanes and place in the order of sleepers (R238). -/
  | wgalloc (graph node d : Nat) (lanes : Mask) (order : Nat)
  /-- In DLAUNCH, waiting for queue room for these packets, each with its lane (R245). -/
  | room (addrs : List (Nat × Word))
  /-- In RTRACE or RTLOAD, waiting for ray slots (R339). -/
  | slots (order : Nat) (item : Item) (kills : List (Nat × Mask))
  /-- In XDRAIN, waiting for the items below a number (R263). -/
  | drain (below : Nat)
  /-- In HSR HBAR with its destination (R222). -/
  | hbar (sd : BitVec 6)
  /-- In an HLD under policy FAULT (R299). -/
  | hld (item : Nat)
  /-- In an ATOM some of whose lanes met an uncorrectable error (R170). -/
  | atom (lanes : Mask)
  deriving DecidableEq, Repr

/-- A split record (R34). It is unused when it has no member. -/
structure Split where
  pc      : Word
  members : Mask
  exec    : Mask
  mode    : BitVec 12
  repi    : BitVec 6
  join    : Option Word
  ojoin   : Option Word
  sleep   : Sleep
  ord     : FlowOrd
  deriving DecidableEq, Repr

/-- A long-latency result not yet written, with the instructions left in its window (R65). -/
structure Pend where
  flow : Nat
  win  : Nat
  vs   : List (Nat × Mask × LaneVec)
  ss   : List (Nat × Word)
  deriving DecidableEq, Repr

/-- A trap cause held by the group (R221). -/
structure Pending where
  record : Nat
  cause  : Nat
  hinfo  : Word
  deriving DecidableEq, Repr

/-- How the handler flow stands: running, stopped by TRAP or BRK, or stopped by a double fault (R220). -/
inductive HandlerStop where
  | running | debug | dead
  deriving DecidableEq, Repr

/-- The handler flow and its banked registers (R53, R218). `kill` marks a KILL handler (R228) and `dflt` the context's
default handler (R377). -/
structure Handler where
  pc      : Word
  mode    : BitVec 12
  repi    : BitVec 6
  sleep   : Sleep
  cause   : Nat
  hpc     : Word
  hinfo   : Word
  traprec : Nat
  sbank   : Vector Word 8
  slive   : BitVec 8
  tokBusy : BitVec 8
  m14     : Mask
  m15     : Mask
  stop    : HandlerStop
  kill    : Bool
  dflt    : Bool
  ord     : FlowOrd
  deriving DecidableEq, Repr

/-- A group (R32 to R54): registers, liveness, split records, handler, and the hidden state of R221. `pendRest` holds the fields
of PENDING as HSW wrote them, `relMark` the count of writes before the first of its releases that a later acquire may pass
(R191), and `oprClk` what its last MFENCE.opr ordered (R196). -/
structure Group where
  gid      : Nat
  role     : Nat
  budget   : Nat
  slot     : Nat
  resid    : Nat
  launched : Mask
  v        : Vector LaneVec 128
  vlive    : Vector Mask 128
  s        : Vector Word 64
  slive    : BitVec 64
  m        : Vector Mask 16
  stat     : BitVec 10
  trapen   : BitVec 10
  ksp      : Word
  kwin     : Word × Word
  recs     : Vector Split 4
  handler  : Option Handler
  pending  : Option Pending
  preempt  : Bool
  pendRest : Word
  pends    : List Pend
  tokBusy  : BitVec 64
  tokClk   : List (Nat × Clock)
  mprio    : BitVec 2
  rays     : Vector (Option Ray) 32
  saveArea : Word
  hbarIn   : Bool
  retired  : Bool
  saved    : Bool
  eccV     : List (Nat × Nat)
  eccS     : List Nat
  eccM     : List Nat
  clk      : Clock
  rels     : Nat
  relMark  : Option Nat
  oprClk   : Clock
  deriving DecidableEq, Repr

/-- A resident or saved team (R42). `core` is none while the team is saved (R226). `ended` lists its items, REDs and arrivals
that are final, with what an acquire of each gains (R263). -/
structure Team where
  uid      : Nat
  grid     : Nat
  ctx      : Nat
  slice    : Nat
  tidx     : Nat
  gang     : Nat
  gmap     : Word
  core     : Option Nat
  lastCore : Nat
  shBytes  : Nat
  shared   : List Host.Cell
  groups   : List Group
  teamArea : Word
  ended    : List (Nat × Clock)
  deriving DecidableEq, Repr

/-- How a launch stands (R202, R203, R198). -/
inductive GridState where
  | queued | eligible | complete
  deriving DecidableEq, Repr

/-- A launch and its grid (R200, R202, R243): the packet's 96 dwords as copied, the cooked team counts, the next team to
place, the teams that have completed, and for a consumer grid its batch. `clk` is what its team starts acquire, `fin` what
its completion releases. -/
structure Grid where
  uid     : Nat
  seq     : BitVec 32
  ctx     : Nat
  slice   : Nat
  queue   : Option Nat
  packet  : List Word
  addr    : Nat
  image   : List Host.Cell
  dims    : Nat × Nat × Nat
  state   : GridState
  placed  : Nat
  done    : Nat
  batch   : Option (Nat × Nat × List Nat)
  clk     : Clock
  fin     : Clock
  capture : Option Nat
  wait    : Option Nat
  deriving DecidableEq, Repr

/-- The states of a pool slot other than free (R236). -/
inductive SlotState where
  | allocated (node : Nat)
  | committed (node : Nat) (clk : Clock)
  | held (node : Nat) (grid : Nat)
  deriving DecidableEq, Repr

/-- A node of a loaded graph (R233) with its template's packet as it was checked and its queue of committed slots, oldest
first. -/
structure Node where
  template : Nat
  succ     : Word
  floor    : Nat
  timeout  : Nat
  entry    : Bool
  recBytes : Nat
  batch    : Nat
  packet   : List Word
  queue    : List Nat
  deriving DecidableEq, Repr

/-- A loaded work graph (R233, R236): `slots` lists the slots that are not free, `freed` what a returned slot carries. -/
structure Graph where
  uid      : Nat
  ctx      : Nat
  handle   : Nat
  pool     : Nat
  nslots   : Nat
  slotSize : Nat
  nodes    : List Node
  slots    : List (Nat × SlotState)
  freed    : List (Nat × Clock)
  deriving DecidableEq, Repr

/-- A standing entry of a reduction-fault log (R172, R173). It is unreported: a REDLOG trap reports a team's entries and
halts the context, and the control cores then drain them all (R366). -/
structure LogMark where
  n      : Nat
  team   : Nat
  launch : BitVec 32
  bytes  : List Byte
  deriving DecidableEq, Repr

/-- A context (R30, R172, R200, R366, R370). Its tables start at `root`; a slice has no level-1 table of its own beside those of its
contexts (R17; DEDUCED, log 45). -/
structure Context where
  id       : Nat
  slice    : Nat
  root     : Nat
  handler  : Word
  logBase  : Nat
  logN     : Nat
  logMarks : List LogMark
  logOvf   : Bool
  halted   : Bool
  killed   : Bool
  capBase  : Nat
  capBytes : Nat
  capUsed  : Nat
  deriving DecidableEq, Repr

/-- A page the control cores are moving (R22): its context, address, entry addresses and old frame. -/
structure Migration where
  ctx     : Nat
  va      : Nat
  entry   : Nat
  copies  : Nat
  size    : Nat
  old     : Nat
  pte     : Word
  deriving DecidableEq, Repr

/-- Where a record comes from: the global core number (R12), none for the distributor, and the launch's sequence number
(R202), none where no launch stands behind it. -/
structure Origin where
  core : Option Nat
  seq  : Option (BitVec 32)
  deriving DecidableEq, Repr

/-- The records sent to the control cores (R22, R204, R220, R228, R298, R359, R362, R366, R375, R377). -/
inductive Report where
  | xlate (ctx va : Nat) (malformed : Bool) (from_ : Origin)
  | launch (ctx : Nat) (seq : BitVec 32)
  | fault (ctx team gid cause : Nat) (hpc hinfo : Word) (from_ : Origin)
  | debug (ctx team gid : Nat) (pc : Word) (from_ : Origin)
  | poison (ctx space page : Nat)
  | plane (engine head plane : Nat)
  /-- The reduction-fault log as the tenant is handed it: the standing entries with their bytes (R172, R366). -/
  | redlog (ctx : Nat) (entries : List (Nat × List Byte))
  /-- A log entry of a captured grid (R370). -/
  | logEntry (ctx n : Nat) (bytes : List Byte)
  | corrected (site : ErrSite)
  | killed (ctx : Nat)
  /-- A frame or an encoder's work that a change of the cut cancels (R23, R359). -/
  | cancelled (engine unit : Nat) (encode : Bool)
  deriving DecidableEq, Repr

/-- A capture record (R215, R370), which stands in the tenant's region from `base`, and where its notes stand once the grid has
completed, 0 without one. -/
structure Capture where
  id         : Nat
  ctx        : Nat
  slice      : Nat
  packet     : List Word
  seq        : BitVec 32
  meas       : List (BitVec 256)
  inputs     : List (Nat × List Byte)
  outputs    : List (Nat × List Byte)
  reports    : List Report
  incomplete : Bool
  base       : Nat
  notes      : Nat
  deriving DecidableEq, Repr

/-- A latched plane descriptor (R362, R363). -/
structure Plane where
  addr   : Word
  pitch  : Nat
  fmt    : Nat
  width  : Nat
  height : Nat
  dx     : Int
  dy     : Int
  deriving DecidableEq, Repr

/-- A configured virtual head (R361, R363): the frame it is at, what it has acquired, its latched planes while a frame is
read. -/
structure DispHead where
  engine  : Nat
  head    : Nat
  cfg     : HeadCfg
  frame   : Nat
  clk     : Clock
  latched : Option (List (Option Plane))
  deriving DecidableEq, Repr

/-- A candidate vector of an encoder block in the codec's precision, with its weights (R365). -/
structure Cand where
  dx   : Int
  dy   : Int
  conf : Nat
  dz   : Nat
  deriving DecidableEq, Repr

/-- A configured encode stream (R364, R365, R371): where its next unit goes, the lengths of the units not yet returned, how
many entries it wrote and the tenant returned, whether the next unit is a random-access point, the next frame to encode,
the candidates of the last frame's encoder blocks in row order, and what it has acquired. -/
structure Stream where
  engine  : Nat
  stream  : Nat
  cfg     : StreamCfg
  auPos   : Nat
  lengths : List Nat
  written : Nat
  taken   : Nat
  nextKey : Bool
  nextFrame : Nat
  cands   : List (Option Cand)
  clk     : Clock
  deriving DecidableEq, Repr

/-- How boot stands (R367). -/
inductive BootState where
  | atStage (k : Nat)
  | running
  | recovery
  /-- After an uncorrectable error in the Millers' own state (R375): every slice is halted until module reset. -/
  | halted
  deriving DecidableEq, Repr

/-- What SPDM answers on the host link (R368), and what a window access returns (R15). -/
inductive Response where
  | version (bytes : List Byte)
  | capabilities (bytes : List Byte)
  | algorithms
  | digest (d : BitVec 256)
  | certificate (bytes : List Byte)
  | auth (nonce : BitVec 256) (bytes : List Byte)
  | measurements (nonce : BitVec 256) (ms : List (Nat × BitVec 256)) (signed : List Byte)
  | unsupported
  | windowData (bytes : List Byte)
  | windowWritten
  | linkError
  | refusedConfig
  deriving DecidableEq, Repr

/-- A matrix engine's arbiter, table clock, running pass and pending errors (R265 to R267, R278). -/
structure Matrix where
  cluster  : Nat
  last     : Nat
  clock    : Nat
  lastFrom : Nat × Nat
  errA     : List Nat
  errB     : Bool
  errArray : Bool
  deriving DecidableEq, Repr

/-- A block whose corrected errors are counted together (R375). -/
inductive ErrBlock where
  | stack (n : Nat) | die (n : Nat) | shared (core : Nat) | registers (core : Nat) | operandA (cluster : Nat)
  | operandB (cluster : Nat) | array (cluster : Nat) | icache (core : Nat) | millers
  deriving DecidableEq, Repr

/-- What starts after a wake in index order (R374). -/
inductive StartKind where
  | cluster | matrix | bank
  deriving DecidableEq, Repr

/-- How many clusters, matrix engines and store-die banks of an eighth of the module have started; in index order, they are its
lowest (R30, R374). -/
structure Starts where
  clusters : Nat
  matrices : Nat
  banks    : Nat
  deriving DecidableEq, Repr

/-- Which flow issues: a team, a group of it, and record 0 to 3 or 4 for the handler. -/
structure Issuer where
  team : Nat
  gid  : Nat
  flow : Nat
  deriving DecidableEq, Repr

/-- The state of a module. -/
structure State where
  tick      : Nat
  cur       : Option Issuer
  inputs    : List Instr
  nextId    : Nat
  mem       : List Host.Cell
  eccMem    : List Nat
  eccShared : List (Nat × Nat)
  cut       : Nat
  det       : List Nat
  contexts  : List Context
  queues    : List (Nat × Nat × Nat)
  seqs      : List (Nat × BitVec 32)
  grids     : List Grid
  teams     : List Team
  graphs    : List Graph
  items     : List Item
  reds      : List Red
  matrices  : List Matrix
  tlb1      : List (Nat × TlbEntry)
  tlb2      : List (Nat × TlbEntry)
  migrating : List Migration
  refused   : List (Nat × Nat)
  reports   : List Report
  wlog      : List (Nat × Nat × W32)
  icMark    : List (Nat × Nat)
  cyc       : List (Nat × Word)
  locs      : List (Nat × List RelHead)
  hist      : List Wrote
  flips     : List (Nat × List RelHead)
  endRels   : List (Nat × Nat)
  lines     : List (Nat × List Access)
  fenceClk  : List (Nat × Clock)
  captures  : List Capture
  heads     : List DispHead
  streams   : List Stream
  boot      : BootState
  flash     : List FlashImage
  meas      : Vector (BitVec 256) 13
  fuses     : Nat
  rollback  : Option Nat
  spdmAlgs  : List Requester
  responses : List (Requester × Response)
  linksDown : List Link
  clocks    : List (ClockBlock × Nat)
  started   : Vector Starts 8
  corrected : List (ErrBlock × Nat)
  deriving DecidableEq, Repr

/-- Why a step stops with a fault. -/
inductive Fault where
  /-- `exec` of an instruction while no flow issues: `State.cur` names no flow. Raised by `withIssuer`; `step` never
  raises it, since it names the issuing flow first. Safe: nothing is claimed of such a state. -/
  | noIssuer
  deriving DecidableEq, Repr

/-- Why a step is refused. -/
inductive Refusal where
  /-- An instruction without a meaning, by its mnemonic. Raised only by an arm of `exec`. Safe. -/
  | notModelled (mnemonic : String)
  /-- An event given to `exec` in a state in which it cannot take place (nothing that its operands name is due). `step`
  performs only events that are due, and skips an outside event that is not. Safe: no next state is claimed. -/
  | notDue (event : String)
  deriving DecidableEq, Repr

/-- The outcome of a meaning. -/
abbrev Out := Host.Outcome State Fault Refusal

/-- Nothing known beyond the group's clock. -/
def FlowOrd.fresh : FlowOrd := ⟨[], [], [], [], []⟩

/-- An unused split record. -/
def Split.unused : Split := ⟨0, 0, 0, 0, 0, none, none, .awake, FlowOrd.fresh⟩

/-- The machine right after module reset: nothing resident, boot at stage 0, MEAS zero (R368), no cluster started
(R374), memory with nothing listed. -/
def State.reset : State where
  tick := 0
  cur := none
  inputs := []
  nextId := 0
  mem := []
  eccMem := []
  eccShared := []
  cut := 1
  det := []
  contexts := []
  queues := []
  seqs := []
  grids := []
  teams := []
  graphs := []
  items := []
  reds := []
  matrices := []
  tlb1 := []
  tlb2 := []
  migrating := []
  refused := []
  reports := []
  wlog := []
  icMark := []
  cyc := []
  locs := []
  hist := []
  flips := []
  endRels := []
  lines := []
  fenceClk := []
  captures := []
  heads := []
  streams := []
  boot := .atStage 0
  flash := []
  meas := Vector.replicate 13 0
  fuses := 0
  rollback := none
  spdmAlgs := []
  responses := []
  linksDown := []
  clocks := []
  started := Vector.replicate 8 ⟨0, 0, 0⟩
  corrected := []

end Sys2Proof.Machine
end

