-- ==== Sys2Proof/Machine/Mem.lean ====
section
/-!
DEFINITION. Bytes of memory in canonical form, little-endian reads and writes of them (R4), and the writes of physical
memory and of a team's shared memory with their ECC words (R165, R375) and the record of rewritten words (R184).
-/
namespace Sys2Proof.Machine

/-- One byte; an unlisted address reads as zero (DESIGN CHOICE, log 1; R207 for shared memory). -/
def Memory.read : List Host.Cell → Nat → Byte
  | [], _ => 0
  | (k, b) :: t, a => if k = a then b else Memory.read t a

/-- Writes one byte and keeps the canonical form. -/
def Memory.write : List Host.Cell → Nat → Byte → List Host.Cell
  | [], a, b => if b = 0 then [] else [(a, b)]
  | (k, c) :: t, a, b =>
    if a < k then (if b = 0 then (k, c) :: t else (a, b) :: (k, c) :: t)
    else if k = a then (if b = 0 then t else (a, b) :: t)
    else (k, c) :: Memory.write t a b

/-- Addresses rise strictly from above `lo`, and no listed byte is zero. -/
def Memory.wfFrom : Option Nat → List Host.Cell → Bool
  | _, [] => true
  | lo, (k, b) :: t => (match lo with | none => true | some l => decide (l < k)) && b != 0 && Memory.wfFrom (some k) t

/-- The canonical form of a memory. -/
def Memory.wf (m : List Host.Cell) : Bool := Memory.wfFrom none m

/-- `n` bytes from an address, lowest first. -/
def Memory.bytes (m : List Host.Cell) (a : Nat) : Nat → List Byte
  | 0 => []
  | n + 1 => Memory.read m a :: Memory.bytes m (a + 1) n

/-- `n` bytes as a little-endian number (R4). -/
def Memory.nat (m : List Host.Cell) (a : Nat) : Nat → Nat
  | 0 => 0
  | n + 1 => (Memory.read m a).toNat + 256 * Memory.nat m (a + 1) n

/-- Writes bytes upward from an address. -/
def Memory.put (m : List Host.Cell) (a : Nat) : List Byte → List Host.Cell
  | [] => m
  | b :: bs => Memory.put (Memory.write m a b) (a + 1) bs

/-- The `n` little-endian bytes of a number (R4). -/
def leBytes : Nat → Nat → List Byte
  | 0, _ => []
  | n + 1, x => BitVec.ofNat 8 x :: leBytes n (x / 256)

/-- A little-endian number from bytes (R4). -/
def leNat : List Byte → Nat
  | [] => 0
  | b :: bs => b.toNat + 256 * leNat bs

def Memory.word (m : List Host.Cell) (a : Nat) : Word := BitVec.ofNat 64 (Memory.nat m a 8)

/-- The 8-byte ECC words that `n` bytes from `a` cover whole (R165). -/
def wholeWord (a n w : Nat) : Bool := decide (a ≤ 8 * w) && decide (8 * w + 8 ≤ a + n)

/-- Whether `n` bytes from `a` touch the 8-byte word `w`. -/
def touchesWord (a n w : Nat) : Bool := decide (8 * w < a + n) && decide (a < 8 * w + 8)

/-- The old contents of the instruction words that a write changes (R184). -/
def rewritten (m m' : List Host.Cell) (a n seq : Nat) : List (Nat × Nat × W32) :=
  (List.range ((a + n + 3) / 4 - a / 4)).filterMap fun i =>
    let w := 4 * (a / 4 + i)
    if Memory.nat m w 4 = Memory.nat m' w 4 then none else some (seq, w, BitVec.ofNat 32 (Memory.nat m w 4))

/-- Writes bytes at a physical address: the bytes, the ECC words they replace (R165), the rewritten words (R184). -/
def State.poke (s : State) (pa : Nat) (bs : List Byte) : State :=
  let m' := Memory.put s.mem pa bs
  { s with
    mem := m'
    eccMem := s.eccMem.filter fun w => !wholeWord pa bs.length w
    wlog := rewritten s.mem m' pa bs.length s.wlog.length ++ s.wlog }

/-- Whether a read of `n` bytes at a physical address meets an uncorrectable error (R165 row 7). -/
def State.badMem (s : State) (pa n : Nat) : Bool := s.eccMem.any fun w => touchesWord pa n w

/-- Whether a read of a team's shared memory meets an uncorrectable error. -/
def State.badShared (s : State) (team off n : Nat) : Bool :=
  s.eccShared.any fun e => e.1 == team && touchesWord off n e.2

end Sys2Proof.Machine
end

