-- ==== Sys2Proof/Machine/Order.lean ====
section
/-!
DEFINITION. Happens-before (R185 to R190) as vector clocks, the scopes of R187, and the race metadata of R193.
-/
namespace Sys2Proof.Machine

/-- A clock's count of a thread. -/
def Clock.get : Clock → Nat → Nat
  | [], _ => 0
  | (k, n) :: c, t => if k = t then n else Clock.get c t

/-- Raises a clock's count of a thread to at least `n`. -/
def Clock.raise : Clock → Nat → Nat → Clock
  | [], t, n => if n = 0 then [] else [(t, n)]
  | (k, m) :: c, t, n =>
    if t < k then (if n = 0 then (k, m) :: c else (t, n) :: (k, m) :: c)
    else if k = t then (k, max m n) :: c
    else (k, m) :: Clock.raise c t n

/-- The join of two clocks (R190). -/
def Clock.join (a b : Clock) : Clock := b.foldl (fun c e => c.raise e.1 e.2) a

/-- The number of a group in the module. -/
def groupUid (team gid : Nat) : Nat := 32 * team + gid

/-- The threads of happens-before: a group, and an engine item (R185, R194). -/
def groupThread (uid : Nat) : Nat := 2 * uid
def itemThread (id : Nat) : Nat := 2 * id + 1

/-- Whether a scope of one party contains another (R187). -/
def scopeCovers (sc : Scope) (p q : Party) : Bool :=
  match sc with
  | .group => p.team == q.team && p.gid == q.gid
  | .team => p.team == q.team
  | .gang => p.gang == q.gang
  | .slice => p.slice == q.slice
  | .sys => true

/-- What an acquire at a scope gains from releases (R187, R189): those whose scopes contain both parties. -/
def acquireFrom (p : Party) (sc : Scope) (hs : List RelHead) (c : Clock) : Clock :=
  hs.foldl (fun c h => if scopeCovers sc p h.party && scopeCovers h.scope h.party p then c.join h.clk else c) c

/-- Whether an earlier access happens-before a thread with clock `c` (R190). -/
def Access.before (x : Access) (c : Clock) : Bool := decide (x.epoch ≤ c.get x.thread)

/-- Whether two accesses race (R191). The agent of an item is its issuing group (R193). -/
def Access.races (x y : Access) (c : Clock) : Bool :=
  x.agent != y.agent && (x.bytes &&& y.bytes) != 0#64 && (x.write || y.write) && (x.plain || y.plain) && !x.before c

/-- Adds an access to a line's metadata, joined with an equal one of the same epoch. -/
def addAccess (y : Access) : List Access → List Access
  | [] => [y]
  | x :: xs =>
    if x.thread = y.thread ∧ x.epoch = y.epoch ∧ x.rel = y.rel ∧ x.write = y.write ∧ x.plain = y.plain then
      { x with bytes := x.bytes ||| y.bytes } :: xs
    else x :: addAccess y xs

/-- A value of a sparse list, or a default. -/
def assocGet {α : Type} (d : α) : List (Nat × α) → Nat → α
  | [], _ => d
  | (k, v) :: t, a => if k = a then v else assocGet d t a

/-- Sets a value of a sparse list kept sorted by key. -/
def assocSet {α : Type} : List (Nat × α) → Nat → α → List (Nat × α)
  | [], a, x => [(a, x)]
  | (k, v) :: t, a, x =>
    if a < k then (a, x) :: (k, v) :: t else if k = a then (a, x) :: t else (k, v) :: assocSet t a x

/-- Removes a key of a sparse list. -/
def assocDel {α : Type} (l : List (Nat × α)) (a : Nat) : List (Nat × α) := l.filter fun e => e.1 != a

end Sys2Proof.Machine
end

