-- ==== Sys2Proof/Machine/Ops.lean ====
section
/-!
DEFINITION. The operations every family shares: finding and changing teams, groups and contexts; split records and their
merging (R34 to R40); outstanding results (R65, R67); taking a trap and returning from one (R216 to R220); the view an
issuing flow has of its registers (R29, R50 to R54) and the commit of what an instruction writes.
-/
namespace Sys2Proof.Machine

/-! ## Finding and changing parts of the state -/

def State.team? (s : State) (u : Nat) : Option Team := s.teams.find? fun t => t.uid == u

def Team.group? (t : Team) (g : Nat) : Option Group := t.groups.find? fun x => x.gid == g

def State.group? (s : State) (u g : Nat) : Option Group := (s.team? u).bind fun t => t.group? g

def State.modTeam (s : State) (u : Nat) (f : Team → Team) : State :=
  { s with teams := s.teams.map fun t => if t.uid = u then f t else t }

def Team.modGroup (t : Team) (g : Nat) (f : Group → Group) : Team :=
  { t with groups := t.groups.map fun x => if x.gid = g then f x else x }

def State.modGroup (s : State) (u g : Nat) (f : Group → Group) : State := s.modTeam u fun t => t.modGroup g f

def State.context? (s : State) (c : Nat) : Option Context := s.contexts.find? fun x => x.id == c

def State.modContext (s : State) (c : Nat) (f : Context → Context) : State :=
  { s with contexts := s.contexts.map fun x => if x.id = c then f x else x }

def State.grid? (s : State) (u : Nat) : Option Grid := s.grids.find? fun g => g.uid == u

def State.modGrid (s : State) (u : Nat) (f : Grid → Grid) : State :=
  { s with grids := s.grids.map fun g => if g.uid = u then f g else g }

def State.item? (s : State) (i : Nat) : Option Item := s.items.find? fun x => x.id == i

def State.modItem (s : State) (i : Nat) (f : Item → Item) : State :=
  { s with items := s.items.map fun x => if x.id = i then f x else x }

def State.dropItem (s : State) (i : Nat) : State := { s with items := s.items.filter fun x => x.id != i }

def State.report (s : State) (r : Report) : State := { s with reports := s.reports ++ [r] }

/-- The dword of a launch packet (R200). -/
def Grid.dword (g : Grid) (n : Nat) : Word := g.packet.getD n 0

/-- A bit field of a dword (R4). -/
def bits (w : Word) (hi lo : Nat) : Nat := w.toNat / 2 ^ lo % 2 ^ (hi + 1 - lo)

/-- One bit of a dword (R4). -/
def bitOf (w : Word) (i : Nat) : Bool := w.getLsbD i

/-- The cluster of a core (R12). -/
def clusterOf (core : Nat) : Nat := core / 4

/-- Updates the `i`-th element of a vector when there is one. -/
def vset {α : Type} {n : Nat} (v : Vector α n) (i : Nat) (x : α) : Vector α n := v.setIfInBounds i x

/-- The `i`-th element of a vector, or a default. -/
def vget {α : Type} {n : Nat} (v : Vector α n) (i : Nat) (d : α) : α := (v[i]?).getD d

/-- The lanes of a mask, ascending (R7). -/
def lanesOf (m : Mask) : List Nat := (List.range 32).filter fun l => m.getLsbD l

/-- The mask of lanes that satisfy a test. -/
def maskOf (f : Nat → Bool) : Mask :=
  BitVec.ofNat 32 ((List.range 32).foldl (fun a l => if f l then a + 2 ^ l else a) 0)

/-- The lowest set lane (R144). -/
def lowestLane (m : Mask) : Option Nat := (lanesOf m).head?

/-- The lanes that take a new value. -/
def mergeLanes (m : Mask) (new old : LaneVec) : LaneVec :=
  Vector.ofFn fun (i : Fin 32) => if m.getLsbD i.val then new[i.val] else old[i.val]

/-! ## Split records -/

/-- Whether a record holds a split (R34). -/
def Split.used (r : Split) : Bool := r.members != 0#32

def Group.record (g : Group) (k : Nat) : Split := vget g.recs k Split.unused

def Group.setRec (g : Group) (k : Nat) (r : Split) : Group := { g with recs := vset g.recs k r }

def Group.modRec (g : Group) (k : Nat) (f : Split → Split) : Group := g.setRec k (f (g.record k))

/-- The live lanes: those in a record (R33, R34). -/
def Group.live (g : Group) : Mask := (List.range 4).foldl (fun m k => m ||| (g.record k).members) 0#32

/-- The unused records, lowest first (R37). -/
def Group.freeRecs (g : Group) : List Nat := (List.range 4).filter fun k => !(g.record k).used

/-- Whether a split waits for a record (R38). -/
def Group.waitsRecord (g : Group) (k : Nat) : Bool := (g.record k).sleep == .record && g.freeRecs.isEmpty

/-- Whether a split is held at its join by another record (R40). -/
def Group.heldAtJoin (g : Group) (k : Nat) : Bool :=
  let r := g.record k
  r.join == some r.pc && (List.range 4).any fun j =>
    let q := g.record j
    j != k && q.used && q.join == r.join && q.pc != r.pc && !g.waitsRecord j

/-! ## Registers as they stand -/

/-- Writes lanes of a vector register and revives them (R50). A write replaces the ECC words of the lanes. -/
def Group.writeV (g : Group) (r : Nat) (m : Mask) (x : LaneVec) : Group :=
  { g with
    v := vset g.v r (mergeLanes m x (vget g.v r (LaneVec.splat 0)))
    vlive := vset g.vlive r (vget g.vlive r 0 ||| m)
    eccV := g.eccV.filter fun e => !(e.1 == r && m.getLsbD e.2) }

/-- Kills lanes of a vector register (R50). -/
def Group.killV (g : Group) (r : Nat) (m : Mask) : Group := { g with vlive := vset g.vlive r (vget g.vlive r 0 &&& ~~~m) }

/-- The key of a token register: the banked ones of the handler stand above the others (R53). -/
def tokKey (handler : Bool) (r : Nat) : Nat := if handler && decide (56 ≤ r) then 64 + r else r

/-- Writes a scalar register and revives it; S0 discards it (R46, R50). In handler mode S56 to S63 are banked (R53). What it
held is no token any more. -/
def Group.writeS (g : Group) (handler : Bool) (r : Nat) (x : Word) : Group :=
  if r = 0 then g
  else
    let toks := g.tokClk.filter fun e => e.1 != tokKey handler r
    match handler && decide (56 ≤ r), g.handler with
    | true, some h =>
      { g with tokClk := toks, handler := some { h with sbank := vset h.sbank (r - 56) x, slive := h.slive ||| BitVec.ofNat 8 (2 ^ (r - 56)) } }
    | _, _ =>
      { g with tokClk := toks, s := vset g.s r x, slive := g.slive ||| BitVec.ofNat 64 (2 ^ r), eccS := g.eccS.filter fun e => e != r }

/-- Writes a mask register other than M0 (R46, R53). -/
def Group.writeM (g : Group) (handler : Bool) (r : Nat) (x : Mask) : Group :=
  match handler && decide (14 ≤ r), g.handler with
  | true, some h => { g with handler := some (if r = 14 then { h with m14 := x } else { h with m15 := x }) }
  | _, _ => { g with m := vset g.m r x, eccM := g.eccM.filter fun e => e != r }

/-! ## Outstanding results -/

/-- Writes an outstanding result and revives its destinations (R65). -/
def Group.deliver (g : Group) (p : Pend) : Group :=
  let g := p.vs.foldl (fun g w => g.writeV w.1 w.2.1 w.2.2) g
  p.ss.foldl (fun g w => g.writeS (p.flow == 4) w.1 w.2) g

/-- Writes the outstanding results that satisfy a test, oldest first, and keeps the others (R67). -/
def Group.drainIf (g : Group) (f : Pend → Bool) : Group :=
  let g' := (g.pends.filter f).foldl Group.deliver g
  { g' with pends := g.pends.filter fun p => !f p }

/-- Waits for every long-latency result of one flow (R67). -/
def Group.drainFlow (g : Group) (fl : Nat) : Group := g.drainIf fun p => p.flow == fl

/-- Waits for every long-latency result of the group (R67, R218). -/
def Group.drainAll (g : Group) : Group := g.drainIf fun _ => true

/-! ## What has started (R374) -/

/-- The units of a kind in an eighth of the module. The manual gives no number of store-die banks: one stands for each die
(DESIGN CHOICE, log 47). -/
def StartKind.size : StartKind → Nat
  | .bank => 1
  | _ => 16

def Starts.get (x : Starts) : StartKind → Nat
  | .cluster => x.clusters
  | .matrix => x.matrices
  | .bank => x.banks

def Starts.set (x : Starts) (k : StartKind) (n : Nat) : Starts :=
  match k with
  | .cluster => { x with clusters := n }
  | .matrix => { x with matrices := n }
  | .bank => { x with banks := n }

/-- Whether a unit has started. -/
def State.hasStarted (s : State) (k : StartKind) (n : Nat) : Bool :=
  decide (n % k.size < (vget s.started (n / k.size) ⟨0, 0, 0⟩).get k)

/-! ## What a split alone knows (R188, R189, R194) -/

/-- Joins two clocks' counterparts of one split with another's. -/
def FlowOrd.join (a b : FlowOrd) : FlowOrd :=
  { clk := a.clk.join b.clk
    relFence := a.relFence ++ b.relFence.filter fun h => !a.relFence.contains h
    acqSeen := a.acqSeen ++ b.acqSeen.filter fun h => !a.acqSeen.contains h
    seen := b.seen.foldl (fun l e => assocSet l e.1 (max e.2 (assocGet 0 l e.1))) a.seen
    waited := a.waited ++ b.waited }

def Group.ordOf (g : Group) (fl : Nat) : FlowOrd :=
  if fl = 4 then (match g.handler with | some h => h.ord | none => .fresh) else (g.record fl).ord

def Group.modOrd (g : Group) (fl : Nat) (f : FlowOrd → FlowOrd) : Group :=
  if fl = 4 then { g with handler := g.handler.map fun h => { h with ord := f h.ord } }
  else g.modRec fl fun r => { r with ord := f r.ord }

/-! ## Merging (R39) -/

/-- Whether records `i` and `j` merge at this boundary (R39, R159). A split that waits on an item of its own stays, and so does
a woken BWAIT, which is past its instruction (R176). -/
def Group.mergeable (g : Group) (i j : Nat) : Bool :=
  let a := g.record i
  let b := g.record j
  let free (r : Split) : Bool := match r.sleep with | .hld _ | .atom _ | .woken _ => false | _ => true
  a.used && b.used && a.pc == b.pc && a.repi == 0#6 && b.repi == 0#6 && free a && free b

/-- The sleep of a merged split: it sleeps on only while both sleep after a YIELD; otherwise it issues again. -/
def mergeSleep (a b : Sleep) : Sleep := if a = .yield ∧ b = .yield then .yield else .awake

/-- A held cause of a record that merges into another is the other's: it stands at the same instruction (R221, R299). -/
def Group.movePending (g : Group) (j i : Nat) : Group :=
  { g with pending := g.pending.map fun p => if p.record = j then { p with record := i } else p }

/-- Merges record `j` into the lower record `i` (R39). -/
def Group.mergePair (g : Group) (i j : Nat) : Group :=
  let g := (g.drainFlow i).drainFlow j
  let a := g.record i
  let b := g.record j
  let low := if (lowestLane a.members).getD 32 < (lowestLane b.members).getD 32 then a else b
  let joined := a.join == some a.pc && b.join == some a.pc &&
    !(List.range 4).any fun k => k != i && k != j && (g.record k).used && (g.record k).join == a.join
  ((g.setRec i
    { a with
      members := a.members ||| b.members
      exec := a.exec ||| b.exec
      mode := low.mode
      repi := low.repi
      join := if joined then a.ojoin else a.join
      ojoin := if joined then none else a.ojoin
      sleep := mergeSleep a.sleep b.sleep
      ord := a.ord.join b.ord }).setRec j Split.unused).movePending j i

/-- The merges of an instruction boundary (R39). Records are frozen in handler mode (R53). -/
def Group.merge (g : Group) : Group :=
  match g.handler with
  | some _ => g
  | none =>
    [(0, 1), (0, 2), (0, 3), (1, 2), (1, 3), (2, 3)].foldl
      (fun g p => if g.mergeable p.1 p.2 then g.mergePair p.1 p.2 else g) g

/-! ## Halting a context, traps (R216 to R220, R366) -/

/-- The number of teams of a grid (R45). -/
def Grid.teamCount (g : Grid) : Nat := g.dims.1 * g.dims.2.1 * g.dims.2.2

/-- The control cores halt a context (R366): its queues are emptied, each launch completed without starting a team. No
further team of a halted context starts. -/
def State.haltContext (s : State) (c : Nat) : State :=
  { s.modContext c (fun x => { x with halted := true }) with
    grids := s.grids.map fun g => if g.ctx = c ∧ g.state = .queued then { g with state := .complete, wait := none } else g }

/-- The control cores drain a context's reduction-fault log and hand it to the tenant (R172, R366). -/
def State.drainLog (s : State) (c : Nat) : State :=
  match s.context? c with
  | none => s
  | some x =>
    (s.modContext c fun x => { x with logMarks := [] }).report (.redlog c (x.logMarks.map fun m => (m.n, m.bytes)))

/-- The resumption state of a sleeping split at handler entry (R176, R217): a woken BWAIT has returned; every other
sleeper stands at its instruction, which executes again. A split that waits on its own HLD or ATOM goes on waiting. -/
def Split.settle (r : Split) : Split :=
  match r.sleep with
  | .woken _ => { r with pc := r.pc + 8, sleep := .awake }
  | .hld _ | .atom _ => r
  | _ => { r with sleep := .awake }

/-- What woken BWAITs of a group acquire (R176). -/
def Group.wokenClk (g : Group) : Clock :=
  (List.range 4).foldl (fun c k => match (g.record k).sleep with | .woken w => Clock.join c w | _ => c) g.clk

/-- Handler MODE at entry: i64, RNE, no guard, no saturation (R218). -/
def handlerMode : BitVec 12 := 0

/-- The group's state at handler entry (R218), after the waits of R67. -/
def Group.enter (g : Group) (addr : Word) (dflt : Bool) (rec cause : Nat) (hinfo hpc : Word) : Group :=
  let g := { g.drainAll with clk := g.wokenClk }
  { g with
    recs := Vector.ofFn fun (k : Fin 4) => (g.record k.val).settle
    handler := some
      { pc := addr, mode := handlerMode, repi := 0, sleep := .awake, cause := cause, hpc := hpc, hinfo := hinfo,
        traprec := rec, sbank := Vector.replicate 8 0, slive := 0, tokBusy := 0, m14 := 0, m15 := 0,
        stop := .running, kill := cause == 0x51, dflt := dflt, ord := .fresh }
    hbarIn := if cause = 0x50 then false else g.hbarIn }

/-- The handler entry address of a team's groups and whether it is the context's default (R200, R218). -/
def State.handlerOf (s : State) (t : Team) : Word × Bool :=
  let own : Word := match s.grid? t.grid with | some g => g.dword 5 | none => 0
  if own = 0 then ((match s.context? t.ctx with | some c => c.handler | none => 0), true) else (own, false)

/-- Taking a trap (R218): the group enters handler mode under a cause, its records frozen. Start-up self-test, which R53 names and
gives no cause, event or entry, enters no handler (DEDUCED, log 45). -/
def State.takeTrap (s : State) (u gid rec cause : Nat) (hinfo hpc : Word) : State :=
  match s.team? u with
  | none => s
  | some t => s.modGroup u gid fun g => g.enter (s.handlerOf t).1 (s.handlerOf t).2 rec cause hinfo hpc

/-- A capture record takes the fault records and log entries of its grid (R370). -/
def State.captureNote (s : State) (grid : Nat) (r : Report) : State :=
  match (s.grid? grid).bind Grid.capture with
  | some c => { s with captures := s.captures.map fun x => if x.id = c then { x with reports := x.reports ++ [r] } else x }
  | none => s

/-- Where a team's records come from: its core, and its launch's sequence number (R12, R202). -/
def State.origin (s : State) (t : Team) : Origin := ⟨some (t.core.getD t.lastCore), (s.grid? t.grid).map Grid.seq⟩

/-- A record of a grid goes to the control cores. -/
def State.gridReport (s : State) (grid : Nat) (r : Report) : State := (s.report r).captureNote grid r

/-- A fault record of a group goes to the control cores (R12, R202, R220, R366, R377). -/
def State.faultReport (s : State) (t : Team) (gid cause : Nat) (hpc hinfo : Word) : State :=
  s.gridReport t.grid (.fault t.ctx t.uid gid cause hpc hinfo (s.origin t))

/-- A double fault: the group stops, a fault record goes out and the context is halted (R220). -/
def State.doubleFault (s : State) (u gid cause : Nat) (hpc hinfo : Word) : State :=
  match s.team? u with
  | none => s
  | some t =>
    ((s.modGroup u gid fun g => { g with handler := g.handler.map fun h => { h with stop := .dead } }).faultReport t gid cause
      hpc hinfo).haltContext t.ctx

/-- The control cores act on a REDLOG trap by halting the context and draining its log (R173, R366). -/
def State.redlogHalt (s : State) (ctx cause : Nat) : State :=
  if cause = 0x21 then (s.haltContext ctx).drainLog ctx else s

/-! ## Items, holds and tokens (R24, R29) -/

/-- The vector registers an item holds, as runs (R29). -/
def Item.heldV (i : Item) : List (Nat × Nat) :=
  match i.work with
  | .mma .. => [(i.d, 64)]
  | .hld _ _ _ _ _ c vc _ => (i.d, (c + 1) / 2) :: (if vc = 0 then [] else [(vc, 1)])
  | .lcu .lqry .. | .lcu .crd .. => [(i.d, 3)]
  | .ray .trace .. | .ray .resume .. | .ray .load .. => [(i.d, 3)]
  | _ => []

/-- The mask registers an item holds (R29). -/
def Item.heldM (i : Item) : List Nat :=
  match i.work with
  | .hld _ _ _ _ mm _ _ _ => if mm = 0 then [] else [mm]
  | _ => []

/-- The mask registers an item holds as a flow names them: M14 and M15 of the handler are not those of the splits (R53). -/
def Item.heldMFor (i : Item) (fl : Nat) : List Nat := i.heldM.filter fun m => decide (m < 14) || (i.flow == 4) == (fl == 4)

/-- Whether an item was issued by the split that issues now, whatever divisions and merges came between: they share lanes. -/
def Item.ofSplit (i : Item) (handler : Bool) (lanes : Mask) : Bool := (i.flow == 4) == handler && (i.lanes &&& lanes) != 0#32

/-- The items of a group. -/
def State.itemsOf (s : State) (u gid : Nat) : List Item :=
  s.items.filter fun i => i.party.team == u && i.party.gid == gid

def inRuns (rs : List (Nat × Nat)) (r : Nat) : Bool := rs.any fun x => decide (x.1 ≤ r) && decide (r < x.1 + x.2)

/-! ## The view of the issuing flow -/

/-- What an issuing flow sees (R53, R54): its team and group, the registers held, and how the instruction ends. `back` is
the address HPC takes, `next` the PC after it, `repi` the repeat iteration it leaves, and `last` whether it counts in
lookahead windows (R65). -/
structure View where
  s     : State
  u     : Nat
  t     : Team
  g     : Group
  fl    : Nat
  heldV : List (Nat × Nat)
  heldM : List Nat
  back  : Word
  next  : Word
  repi  : BitVec 6
  last  : Bool

/-- Service mode (R53). -/
def View.svc (v : View) : Bool := v.fl != 4

/-- A KILL handler (R228). -/
def View.inKill (v : View) : Bool :=
  !v.svc && (match v.g.handler with | some h => h.kill | none => false)

def View.split (v : View) : Split := v.g.record v.fl

def Group.pcOf (g : Group) (fl : Nat) : Word :=
  if fl = 4 then (match g.handler with | some h => h.pc | none => 0) else (g.record fl).pc

def Group.repiOf (g : Group) (fl : Nat) : BitVec 6 :=
  if fl = 4 then (match g.handler with | some h => h.repi | none => 0) else (g.record fl).repi

def View.mode (v : View) : BitVec 12 :=
  if v.svc then v.split.mode else (match v.g.handler with | some h => h.mode | none => 0)

/-- MODE.ET (R61). A MODE never holds ET 15 (R62, R63, R204). -/
def View.et (v : View) : ETy :=
  match (v.mode.extractLsb' 8 4).toNat with
  | 0 => .i64 | 1 => .n64 | 2 => .i32 | 3 => .n32 | 4 => .i16 | 5 => .n16 | 6 => .i8 | 7 => .n8 | 8 => .f64 | 9 => .f32
  | 10 => .f16 | 11 => .bf16 | 12 => .e4m3 | 13 => .e5m2 | _ => .e2m1

/-- MODE.RM (R61). -/
def View.rm (v : View) : RMode :=
  match (v.mode.extractLsb' 5 3).toNat with
  | 0 => .rne | 1 => .rtz | 2 => .rup | 3 => .rdn | _ => .rto

/-- MODE.G (R61). -/
def View.guardReg (v : View) : Nat := (v.mode.extractLsb' 1 4).toNat

/-- MODE.SAT (R61). -/
def View.sat (v : View) : Bool := v.mode.getLsbD 0

/-- A mask register's stored value: M0 is EXEC, or LAUNCHED in handler mode, where M14 and M15 are banked (R46, R53,
R145). -/
def View.mraw (v : View) (r : Nat) : Mask :=
  if v.svc then (if r = 0 then v.split.exec else vget v.g.m r 0)
  else if r = 0 then v.g.launched
  else
    match v.g.handler with
    | some h => if r = 14 then h.m14 else if r = 15 then h.m15 else vget v.g.m r 0
    | none => vget v.g.m r 0

/-- A mask operand as read: POISON where it is held (R29). -/
def View.rdM (v : View) (r : Nat) : Mask := if v.heldM.contains r then poisonMask else v.mraw r

/-- EFFMASK (R54). The guard mask is no register that the instruction names: it is read as it stands even where an item holds
it (DEDUCED, log 45). `guarded` marks a VSEL, a store, an atomic or a branch. -/
def View.eff (v : View) (guarded : Bool) : Mask :=
  if v.svc then (if v.guardReg = 0 then v.split.exec else v.split.exec &&& v.mraw v.guardReg)
  else if guarded && v.guardReg != 0 then v.mraw v.guardReg &&& v.g.launched
  else v.g.launched

/-- A scalar register's liveness (R50, R53). -/
def View.sLive (v : View) (r : Nat) : Bool :=
  if r = 0 then true
  else if !v.svc && decide (56 ≤ r) then
    (match v.g.handler with | some h => h.slive.getLsbD (r - 56) | none => false)
  else v.g.slive.getLsbD r

/-- A scalar operand as read: S0 is zero, a dead register POISON (R46, R51). -/
def View.rdS (v : View) (r : Nat) : Word :=
  if r = 0 then 0
  else if !v.sLive r then poison
  else if !v.svc && decide (56 ≤ r) then
    (match v.g.handler with | some h => vget h.sbank (r - 56) 0 | none => 0)
  else vget v.g.s r 0

/-- The lanes in which a vector register is live (R50). -/
def View.vLive (v : View) (r : Nat) : Mask := vget v.g.vlive r 0

/-- A vector register's stored lanes. -/
def View.vraw (v : View) (r : Nat) : LaneVec := vget v.g.v r (LaneVec.splat 0)

/-- A vector operand as read: POISON where it is held or dead (R29, R51). -/
def View.rdV (v : View) (r : Nat) : LaneVec :=
  if inRuns v.heldV r then LaneVec.splat poison
  else
    let live := v.vLive r
    let raw := v.vraw r
    Vector.ofFn fun (i : Fin 32) => if live.getLsbD i.val then raw[i.val] else poison

/-- A token register's busy bit (R24, R53). -/
def View.busy (v : View) (r : Nat) : Bool :=
  if r = 0 then false
  else if !v.svc && decide (56 ≤ r) then
    (match v.g.handler with | some h => h.tokBusy.getLsbD (r - 56) | none => false)
  else v.g.tokBusy.getLsbD r

/-- What happens-before the flow's next access: what its group knows, and what its split alone knows (R185, R194). -/
def View.ord (v : View) : FlowOrd := v.g.ordOf v.fl

def View.clk (v : View) : Clock := v.g.clk.join v.ord.clk

/-- Where the issuing group's records come from. -/
def View.origin (v : View) : Origin := v.s.origin v.t

/-- The issuing party (R187). -/
def View.party (v : View) : Party := ⟨v.t.slice, v.t.gang, v.u, v.g.gid⟩

/-! ## Committing an instruction -/

/-- What an instruction writes when it completes: vector lanes, scalars, masks, kills, a branch target, a result still
outstanding. -/
structure Eff where
  vw    : List (Nat × Mask × LaneVec) := []
  sw    : List (Nat × Word) := []
  mw    : List (Nat × Mask) := []
  kills : List (Nat × Mask) := []
  pc    : Option Word := none
  pend  : Option Pend := none

/-- Sets a flow's PC and repeat iteration. -/
def Group.setFlow (g : Group) (fl : Nat) (pc : Word) (repi : BitVec 6) : Group :=
  if fl = 4 then { g with handler := g.handler.map fun h => { h with pc := pc, repi := repi } }
  else g.modRec fl fun r => { r with pc := pc, repi := repi }

/-- Sets what a flow sleeps on. -/
def Group.setSleep (g : Group) (fl : Nat) (sl : Sleep) : Group :=
  if fl = 4 then { g with handler := g.handler.map fun h => { h with sleep := sl } }
  else g.modRec fl fun r => { r with sleep := sl }

def Group.sleepOf (g : Group) (fl : Nat) : Sleep :=
  if fl = 4 then (match g.handler with | some h => h.sleep | none => .awake) else (g.record fl).sleep

/-- One more instruction of a flow has executed: its open windows shrink (R65). -/
def Group.countWindow (g : Group) (fl : Nat) : Group :=
  { g with pends := g.pends.map fun p => if p.flow = fl then { p with win := p.win - 1 } else p }

/-- A write to M0 in service mode sets EXEC within MEMBERS and is discarded in handler mode (R34, R145). -/
def Group.writeMask (g : Group) (fl r : Nat) (x : Mask) : Group :=
  if r = 0 then (if fl = 4 then g else g.modRec fl fun q => { q with exec := x &&& q.members })
  else g.writeM (fl == 4) r x

/-- Kills, then writes; writes to held registers are discarded (R29, R50). -/
def Group.apply (g : Group) (fl : Nat) (heldV : List (Nat × Nat)) (heldM : List Nat) (e : Eff) : Group :=
  let g := e.kills.foldl (fun g k => g.killV k.1 k.2) g
  let g := e.vw.foldl (fun g w => if inRuns heldV w.1 then g else g.writeV w.1 w.2.1 w.2.2) g
  let g := e.sw.foldl (fun g w => g.writeS (fl == 4) w.1 w.2) g
  e.mw.foldl (fun g w => if heldM.contains w.1 then g else g.writeMask fl w.1 w.2) g

/-- The STAT bits an instruction sets; handler mode sets none (R48, R218). -/
def View.statBits (v : View) (st : BitVec 10) : BitVec 10 := if v.svc then st else 0

/-- The end of an instruction in its group: effects, STAT, PC, windows, a new outstanding result, merges (R39, R65). -/
def Group.finish (g : Group) (v : View) (st : BitVec 10) (e : Eff) : Group :=
  let g := g.apply v.fl v.heldV v.heldM e
  let g := { g with stat := g.stat ||| v.statBits st }
  let g := g.setFlow v.fl (e.pc.getD v.next) v.repi
  let g := if v.last then g.countWindow v.fl else g
  let g := match e.pend with | some p => { g with pends := g.pends ++ [p] } | none => g
  g.merge

/-- The members of the issuing split; in handler mode every launched lane (R53). -/
def View.members (v : View) : Mask := if v.svc then v.split.members else v.g.launched

/-- Completes an instruction: the next state. -/
def View.finish (v : View) (st : BitVec 10) (e : Eff) : Out :=
  .next (v.s.modGroup v.u v.g.gid fun g => g.finish v st e)

/-- The instruction waits, and the flow is not ready until an event wakes it (R209). STAT keeps what was met. -/
def View.sleep (v : View) (st : BitVec 10) (sl : Sleep) : Out :=
  .next (v.s.modGroup v.u v.g.gid fun g => { g.setSleep v.fl sl with stat := g.stat ||| v.statBits st })

/-- The instruction waits without any change; it issues again later (R24, R209). -/
def View.wait (v : View) : Out := .next v.s

/-- A precise trap of the issuing instruction (R216, R217, R220): in service mode its flags stand in STAT and the group
enters its handler, resuming at `resume`; in handler mode it is a double fault. -/
def View.trapTo (v : View) (resume : Word) (st : BitVec 10) (cause : Nat) (hinfo : Word) : Out :=
  if v.svc then
    let s := v.s.modGroup v.u v.g.gid fun g =>
      { g.modRec v.fl (fun r => { r with pc := resume }) with stat := g.stat ||| st }
    .next ((s.takeTrap v.u v.g.gid v.fl cause hinfo v.back).redlogHalt v.t.ctx cause)
  else .next (v.s.doubleFault v.u v.g.gid cause v.back hinfo)

/-- A precise trap that resumes at the instruction. -/
def View.trap (v : View) (st : BitVec 10) (cause : Nat) (hinfo : Word) : Out := v.trapTo v.back st cause hinfo

/-- A replayable fault: the flow waits and the fault record goes to the control cores (R22, R216). It enters no handler, and
the flow's windows stay open while it waits (DEDUCED, log 45). -/
def View.xlate (v : View) (st : BitVec 10) (va : Nat) (malformed : Bool) (lanes : Mask) : Out :=
  { v with s := v.s.gridReport v.t.grid (.xlate v.t.ctx va malformed v.origin) }.sleep st (.xlate va lanes)

/-- A trap that an event raises at a split's instruction: taken at once in service mode, held while the group's handler
runs, a double fault of the handler's own (R217, R220). -/
def State.raise (s : State) (u gid fl cause : Nat) (hinfo hpc : Word) : State :=
  match s.group? u gid with
  | none => s
  | some g =>
    let s1 := s.modGroup u gid fun g => g.setSleep fl .awake
    if fl = 4 then s1.doubleFault u gid cause hpc hinfo
    else if g.handler.isSome then
      s1.modGroup u gid fun g => { g with pending := some (g.pending.getD ⟨fl, cause, hinfo⟩) }
    else s1.takeTrap u gid fl cause hinfo hpc

/-- The record that holds lanes of a split which issued as record `fl` (R37, R39). -/
def Group.recordOf (g : Group) (fl : Nat) (lanes : Mask) : Nat :=
  if fl = 4 then 4 else ((List.range 4).find? fun k => ((g.record k).members &&& lanes) != 0#32).getD fl

/-- An access of a group's earlier instruction finds that the gang peer has left its core: GANG at the split (R161, R283). -/
def State.raiseGang (s : State) (u gid fl : Nat) (lanes : Mask) : State :=
  match s.group? u gid with
  | some g =>
    let k := g.recordOf fl lanes
    if g.live == 0#32 && k != 4 then s else s.raise u gid k 0x14 0 (g.pcOf k)
  | none => s

/-- HINFO from failing lanes. -/
def hinfoLanes (m : Mask) : Word := m.zeroExtend 64

/-- The view of a flow, if it exists. -/
def State.viewOf (s : State) (u gid fl words : Nat) : Option View :=
  match s.team? u with
  | none => none
  | some t =>
    match t.group? gid with
    | none => none
    | some g =>
      if fl = 4 && g.handler.isNone then none
      else
        let pc := g.pcOf fl
        let its := s.itemsOf u gid
        some
          { s := s, u := u, t := t, g := g, fl := fl, heldV := its.flatMap Item.heldV, heldM := its.flatMap fun i => i.heldMFor fl,
            back := pc, next := pc + BitVec.ofNat 64 (4 * words), repi := g.repiOf fl, last := true }

/-- The instruction after a window waits until the result is written (R65): the results whose windows have closed are
written before the flow issues. -/
def State.closeWindows (s : State) (u gid fl : Nat) : State :=
  s.modGroup u gid fun g => g.drainIf fun p => p.flow == fl && p.win == 0

/-- Runs the issuing flow's instruction of `words` words (R56). -/
def withIssuer (s : State) (words : Nat) (f : View → Out) : Out :=
  match s.cur with
  | none => .fault .noIssuer
  | some c =>
    match (s.closeWindows c.team c.gid c.flow).viewOf c.team c.gid c.flow words with
    | none => .fault .noIssuer
    | some v => f v

end Sys2Proof.Machine
end

