-- ==== Sys2Proof/Machine/Operands.lean ====
section
/-!
DEFINITION. Operand forms and the checks every instruction makes at issue, in the order of R376: the decoder's PRIV,
ILLREG and ILLTYPE (R59), busy tokens and ATOM results (R24, R170), LAVIOL (R66), HRA (R29), DEADRD (R51), and ECC on a
register read (R375).
-/
namespace Sys2Proof.Machine

/-- A register file, in the coding of HINFO[40:39] (R216). -/
inductive RFile where
  | v | s | m
  deriving DecidableEq, Repr

def RFile.code : RFile → Nat
  | .v => 0 | .s => 1 | .m => 2

/-- One register field of an instruction's words, or an implicit register, in field order (R376): the run of registers it
names, whether they are read, for a read the (destination lane, source lane) pairs if not the EFFMASK lanes, whether
the core itself reads it and so meets its ECC errors, and whether HRA is judged only later (R272). -/
structure Opnd where
  file  : RFile
  reg   : Nat
  run   : Nat := 1
  rd    : Bool := false
  reads : Option (List (Nat × Nat)) := none
  lanes : Option Mask := none
  ecc   : Bool := true
  late  : Bool := false

/-- A vector source field: its register and last-use bit (R52). KEEP changes only timing. Under REP the register may run
past the encodable numbers (R157). -/
structure Src where
  reg  : Nat
  last : Bool

def vsrc (a : VSrc) : Src := ⟨a.reg.toNat, a.last⟩

def opRd (r : Nat) : Opnd := { file := .v, reg := r, rd := true }
def opWr (r : Nat) : Opnd := { file := .v, reg := r }
def opRun (r n : Nat) (rd : Bool) : Opnd := { file := .v, reg := r, run := n, rd := rd }
def opS (r : Nat) : Opnd := { file := .s, reg := r, rd := true }
def opSw (r : Nat) : Opnd := { file := .s, reg := r }
def opMr (r : Nat) : Opnd := { file := .m, reg := r, rd := true }
def opMw (r : Nat) : Opnd := { file := .m, reg := r }

/-- The registers an operand names, lowest first. -/
def Opnd.regs (o : Opnd) : List Nat := (List.range o.run).map fun i => o.reg + i

/-- The first register field outside its file: a vector register at or beyond the budget (R43, R59), or under REP a
scalar above 63 or a mask above 15 (R157). -/
def firstBeyond (budget : Nat) (ops : List Opnd) : Option Nat :=
  ops.findSome? fun o => o.regs.find? fun r =>
    decide ((match o.file with | .v => budget | .s => 64 | .m => 16) ≤ r)

/-- Whether an operand names a busy token register (R24). -/
def View.namesBusy (v : View) (ops : List Opnd) : Bool :=
  ops.any fun o => o.file == .s && o.regs.any v.busy

/-- Whether an operand names the destination of an ATOM whose old values have not returned (R170). -/
def View.namesAtom (v : View) (ops : List Opnd) : Bool :=
  v.s.reds.any fun r => r.party.team == v.u && r.party.gid == v.g.gid &&
    (match r.back with
     | some b => (match b.d with | some d => ops.any fun o => o.file == .v && o.regs.any fun x => x == d | none => false)
     | none => false)

/-- The first register named that an open window of the flow has as a destination (R66). -/
def View.breach (v : View) (ops : List Opnd) : Option Nat :=
  let ps := v.g.pends.filter fun p => p.flow == v.fl
  if ps.isEmpty then none
  else ops.findSome? fun o => o.regs.find? fun r => ps.any fun p =>
    match o.file with
    | .v => p.vs.any fun w => w.1 == r
    | .s => r != 0 && p.ss.any fun w => w.1 == r
    | .m => false

/-- The first held register named (R29). -/
def View.heldNamed (v : View) (ops : List Opnd) : Option Nat :=
  if v.heldV.isEmpty && v.heldM.isEmpty then none
  else ops.findSome? fun o => o.regs.find? fun r => !o.late &&
    match o.file with
    | .v => inRuns v.heldV r
    | .s => false
    | .m => v.heldM.contains r

/-- The destination lanes in which a read of vector register `r` meets a lane of a mask. -/
def Opnd.hits (o : Opnd) (eff m : Mask) : Mask :=
  match o.reads with
  | some ps => maskOf fun l => ps.any fun p => p.1 == l && m.getLsbD p.2
  | none => (o.lanes.getD eff) &&& m

/-- HINFO of DEADRD and ECC: the lanes, the register and its file (R216). -/
def hinfoReg (lanes : Mask) (r : Nat) (f : RFile) : Word :=
  lanes.zeroExtend 64 ||| BitVec.ofNat 64 (r * 2 ^ 32 + f.code * 2 ^ 39)

/-- The first read of a dead register, with its HINFO (R51, R216, R376). A held register is not dead. -/
def View.deadRead (v : View) (eff : Mask) (ops : List Opnd) : Option Word :=
  ops.findSome? fun o =>
    if !o.rd then none
    else o.regs.findSome? fun r =>
      match o.file with
      | .v =>
        if inRuns v.heldV r then none
        else
          let m := o.hits eff (~~~(v.vLive r))
          if m == 0#32 then none else some (hinfoReg m r .v)
      | .s => if v.sLive r then none else some (hinfoReg 0 r .s)
      | .m => none

/-- The first register read that meets an uncorrectable error, with its HINFO (R216, R375). -/
def View.eccRead (v : View) (eff : Mask) (ops : List Opnd) : Option Word :=
  if v.g.eccV.isEmpty && v.g.eccS.isEmpty && v.g.eccM.isEmpty then none
  else ops.findSome? fun o =>
    if !o.rd || !o.ecc then none
    else o.regs.findSome? fun r =>
      match o.file with
      | .v =>
        let m := o.hits eff (maskOf fun l => v.g.eccV.contains (r, l))
        if m == 0#32 then none else some (hinfoReg m r .v)
      | .s => if v.g.eccS.contains r && !(!v.svc && decide (56 ≤ r)) then some (hinfoReg 0 r .s) else none
      | .m => if r != 0 && v.g.eccM.contains r && !(!v.svc && decide (14 ≤ r)) then some (hinfoReg 0 r .m) else none

/-- Reading a token register at its final status is an acquire from the item for the issuing split, and so is the wait of an
instruction that names it as a destination or as a token (R24, R188, R194): one that names a final register so, with no wait,
acquires nothing (R358). The register's release stays for the group's other splits until it is written again. -/
def Group.acquireTokens (g : Group) (fl : Nat) (ops : List Opnd) : Group :=
  let waited := (g.ordOf fl).waited
  if g.tokClk.isEmpty && waited.isEmpty then g
  else
    let named (k : Nat) : Bool := ops.any fun o => o.file == .s &&
      o.regs.any fun r => tokKey (fl == 4) r == k && (o.rd || waited.contains k)
    g.modOrd fl fun o =>
      { o with clk := (g.tokClk.filter fun e => named e.1).foldl (fun c e => Clock.join c e.2) o.clk, waited := [] }

/-- A view whose group is replaced. -/
def View.withGroup (v : View) (g : Group) : View :=
  { v with g := g, s := v.s.modGroup v.u v.g.gid fun _ => g }

/-- The view over a changed state. -/
def View.onState (v : View) (s : State) : View := { v with s := s, g := (s.group? v.u v.g.gid).getD v.g }

/-- An instruction that names a busy token register waits, and has then waited for it (R24). -/
def View.waitTokens (v : View) (ops : List Opnd) : Out :=
  let ks := (ops.filter fun o => o.file == .s).flatMap fun o => (o.regs.filter v.busy).map (tokKey (v.fl == 4))
  (v.withGroup (v.g.modOrd v.fl fun o => { o with waited := ks ++ o.waited.filter fun k => !ks.contains k })).wait

def statDeadrd : BitVec 10 := 0x001
def statLaviol : BitVec 10 := 0x002
def statDivu : BitVec 10 := 0x004
def statHra : BitVec 10 := 0x008

/-- Items 3 and 4 of R376, HRA and DEADRD, after the STAT bits `st` of items before them: each sets its STAT bit, and traps
when it is enabled. -/
def View.heldDead (v : View) (eff : Mask) (ops : List Opnd) (st : BitVec 10) (body : BitVec 10 → Out) : Out :=
  let hr := v.heldNamed ops
  let st2 := st ||| if hr.isSome then statHra else 0
  if v.svc && v.g.trapen.getLsbD 3 && hr.isSome then v.trap st2 0x0A (BitVec.ofNat 64 (hr.getD 0))
  else
    let dr := v.deadRead eff ops
    let st3 := st2 ||| if dr.isSome then statDeadrd else 0
    if v.svc && v.g.trapen.getLsbD 0 && dr.isSome then v.trap st3 0x08 (dr.getD 0)
    else body st3

/-- Items 2 to 5 of R376: LAVIOL, HRA, DEADRD, and ECC on a register. -/
def View.registerChecks (v : View) (eff : Mask) (ops : List Opnd) (body : View → BitVec 10 → Out) : Out :=
  let br := v.breach ops
  let st1 : BitVec 10 := if br.isSome then statLaviol else 0
  if v.svc && v.g.trapen.getLsbD 1 && br.isSome then v.trap st1 0x09 (BitVec.ofNat 64 (br.getD 0))
  else
    v.heldDead eff ops st1 fun st3 =>
      match v.eccRead eff ops with
      | some h => v.trap st3 0x60 h
      | none => body v st3

/-- Issues an instruction (R376): `early` is a decoder trap of its own (PRIV, ILLOP) and `illType` ILLTYPE; the operands
stand in field order; `eff` is the mask of its vector reads. -/
def View.issue (v : View) (early : Option Nat) (illType : Bool) (eff : Mask) (ops : List Opnd)
    (body : View → BitVec 10 → Out) : Out :=
  match early with
  | some c => v.trap 0 c 0
  | none =>
    match firstBeyond v.g.budget ops with
    | some r => v.trap 0 0x02 (BitVec.ofNat 64 (r % 128))
    | none =>
      if illType then v.trap 0 0x03 0
      else if v.namesBusy ops then v.waitTokens ops
      else if v.namesAtom ops then v.wait
      else (v.withGroup (v.g.acquireTokens v.fl ops)).registerChecks eff ops body

end Sys2Proof.Machine
end

