-- ==== Sys2Proof/Machine/Address.lean ====
section
/-!
DEFINITION. Translation (R17 to R22), the shares of the slices (R21, R30; DESIGN CHOICE, log 2), shared addresses (R161), and the byte
accesses of an agent with their ordering and race metadata (R186 to R193).
-/
namespace Sys2Proof.Machine

/-! ## Shares of the slices -/

/-- Where the stacks, store dies, and host and peer windows lie in the 56-bit physical space (DESIGN CHOICE, log 2). -/
def stackBase (n : Nat) : Nat := n * 2 ^ 36
def dieBase (n : Nat) : Nat := 2 ^ 40 + n * 2 ^ 30
def hostBase (slice : Nat) : Nat := 2 ^ 52 + slice * 2 ^ 48
def peerBase (slice : Nat) : Nat := 2 ^ 54 + slice * 2 ^ 48

/-- Whether `n` bytes at a physical address lie within a region. -/
def inRegion (pa n base size : Nat) : Bool := decide (base ≤ pa) && decide (pa + n ≤ base + size)

/-- The share of a slice under a cut (R21, R30): its stacks, store dies and windows. A frame lies whole in one of them
(R11). -/
def inShare (cut slice pa n : Nat) : Bool :=
  let per := 8 / cut
  (List.range per).any (fun i => inRegion pa n (stackBase (slice * per + i)) (2 ^ 36)
    || inRegion pa n (dieBase (slice * per + i)) (2 ^ 30))
    || inRegion pa n (hostBase slice) (2 ^ 48) || inRegion pa n (peerBase slice) (2 ^ 48)

/-- The slice's stacks alone: what a host or peer window reaches (R15, R31). -/
def inMain (cut slice pa n : Nat) : Bool :=
  let per := 8 / cut
  (List.range per).any fun i => inRegion pa n (stackBase (slice * per + i)) (2 ^ 36)

/-! ## The walk -/

/-- The outcome of a walk or lookup (R19 to R22). -/
inductive Xl where
  | ok (e : TlbEntry)
  | absent (malformed : Bool)
  | outside
  deriving DecidableEq, Repr

/-- The bits of an entry that must be zero, and SIZE, whose code 3 is illegal in a pointer as in a leaf (R18). -/
def pteZeros (e : Word) : Bool := bits e 60 58 == 0 && bits e 12 5 == 0 && bits e 57 56 != 3

def pteKind (e : Word) : PKind :=
  match bits e 63 62 with
  | 0 => .scratch | 1 => .main | 2 => .host | _ => .peer

/-- The log2 of a page of a SIZE code (R18). -/
def pageLog (size : Nat) : Nat := match size with | 0 => 13 | 1 => 19 | _ => 25

/-- The frame field as an address (R18). -/
def pteFrame (e : Word) : Nat := bits e 55 13 * 2 ^ 13

/-- A leaf's translation at an address, or malformed (R18, R19). -/
def leafEntry (ctx va : Nat) (e : Word) (sizes : List Nat) : Xl :=
  let z := bits e 57 56
  let k := pageLog z
  if !sizes.contains z || pteFrame e % 2 ^ k ≠ 0 then .absent true
  else
    .ok { ctx := ctx, base := va / 2 ^ k * 2 ^ k, size := k, frame := pteFrame e, kind := pteKind e,
          race := bitOf e 61 && pteKind e == .scratch, x := bitOf e 4, w := bitOf e 3, rd := bitOf e 2 }

/-- The table index of a level (R17). -/
def levelIndex (level va : Nat) : Nat := va / 2 ^ (13 + 10 * (4 - level)) % 1024

/-- One level of the walk (R17 to R19). `fuel` counts the levels left. -/
def walkFrom (m : List Host.Cell) (cut slice ctx va : Nat) : Nat → Nat → Xl
  | 0, _ => .absent true
  | fuel + 1, table =>
    let level := 4 - fuel
    if !inShare cut slice table 8192 then .outside
    else
      let e := Memory.word m (table + 8 * levelIndex level va)
      if !bitOf e 0 then .absent false
      else if !pteZeros e then .absent true
      else if bitOf e 1 then
        (if level = 3 then leafEntry ctx va e [2] else if level = 4 then leafEntry ctx va e [0, 1] else .absent true)
      else if level = 4 then .absent true
      else walkFrom m cut slice ctx va fuel (pteFrame e)

/-- The walk of an address in a context, with the share check of its leaf (R17, R21). -/
def State.walk (s : State) (c : Context) (va : Nat) : Xl :=
  match walkFrom s.mem s.cut c.slice c.id va 4 c.root with
  | .ok e => if inShare s.cut c.slice e.frame (2 ^ e.size) then .ok e else .outside
  | r => r

/-! ## Translation buffers -/

def TlbEntry.covers (e : TlbEntry) (ctx va : Nat) : Bool :=
  e.ctx == ctx && decide (e.base ≤ va) && decide (va < e.base + 2 ^ e.size)

def tlbFind (l : List (Nat × TlbEntry)) (owner ctx va : Nat) : Option TlbEntry :=
  (l.find? fun p => p.1 == owner && p.2.covers ctx va).map Prod.snd

/-- Drops the `n`-th entry of an owner. -/
def dropNth (l : List (Nat × TlbEntry)) (owner : Nat) : Nat → List (Nat × TlbEntry)
  | n => match l with
    | [] => []
    | p :: t => if p.1 = owner then (match n with | 0 => t | k + 1 => p :: dropNth t owner k) else p :: dropNth t owner n

/-- Fills a buffer of a capacity; which entry is replaced at capacity is open (R20; DESIGN CHOICE, log 9). -/
def tlbFill (l : List (Nat × TlbEntry)) (owner cap victim : Nat) (e : TlbEntry) : List (Nat × TlbEntry) :=
  let n := (l.filter fun p => p.1 == owner).length
  (owner, e) :: (if n < cap then l else dropNth l owner (victim % cap))

/-- A lookup by a core: its 64 entries, the cluster's 2,048, then the walk, which fills both (R20). -/
def State.translate (s : State) (core ctx va : Nat) : Xl × State :=
  match tlbFind s.tlb1 core ctx va with
  | some e => (.ok e, s)
  | none =>
    match tlbFind s.tlb2 (clusterOf core) ctx va with
    | some e => (.ok e, { s with tlb1 := tlbFill s.tlb1 core 64 (Config.tlbVictim s.tick) e })
    | none =>
      match s.context? ctx with
      | none => (.absent false, s)
      | some c =>
        match s.walk c va with
        | .ok e =>
          (.ok e, { s with
            tlb1 := tlbFill s.tlb1 core 64 (Config.tlbVictim s.tick) e
            tlb2 := tlbFill s.tlb2 (clusterOf core) 2048 (Config.tlbVictim s.tick) e })
        | r => (r, s)

/-- What a core's lookup of an address would give, without filling a buffer. -/
def State.peek (s : State) (core ctx va : Nat) : Xl :=
  match tlbFind s.tlb1 core ctx va with
  | some e => .ok e
  | none =>
    match tlbFind s.tlb2 (clusterOf core) ctx va with
    | some e => .ok e
    | none => match s.context? ctx with | some c => s.walk c va | none => .absent false

/-- The physical address of an address in a translated page. -/
def TlbEntry.pa (e : TlbEntry) (va : Nat) : Nat := e.frame + (va - e.base)

/-! ## Races -/

/-- The releases an agent has executed since an access (R193); those of a group that has ended stay counted. -/
def State.relsSince (s : State) (x : Access) : Nat :=
  match s.group? (x.agent / 32) (x.agent % 32) with
  | some g => g.rels - x.rel
  | none => assocGet 0 s.endRels x.agent - x.rel

/-- The release count and own epoch of a group's next access. -/
def State.relsOf (s : State) (u gid : Nat) : Nat := match s.group? u gid with | some g => g.rels | none => 0

/-- The pieces of an access in 64-byte lines: line number and byte mask. -/
def linePieces (pa n : Nat) : List (Nat × BitVec 64) :=
  (List.range ((pa + n + 63) / 64 - pa / 64)).map fun i =>
    let line := pa / 64 + i
    let lo := if i = 0 then pa % 64 else 0
    let hi := min 64 (pa + n - 64 * line)
    (line, BitVec.ofNat 64 (2 ^ hi - 2 ^ lo))

/-- Whether an access races with an earlier one that the home still detects (R191, R193). -/
def State.raceAt (s : State) (y : Access) (c : Clock) (pa n : Nat) : Bool :=
  (linePieces pa n).any fun p => (assocGet [] s.lines p.1).any fun x =>
    x.races { y with bytes := p.2 } c && decide (s.relsSince x < 256)

/-- Records an access in its lines' metadata (R193). -/
def State.noteAccess (s : State) (y : Access) (pa n : Nat) : State :=
  let note (ls : List (Nat × List Access)) (p : Nat × BitVec 64) : List (Nat × List Access) :=
    assocSet ls p.1 (addAccess { y with bytes := p.2 } (assocGet [] ls p.1))
  { s with lines := (linePieces pa n).foldl note s.lines }

/-! ## Releases and acquires at locations -/

/-- The key of a shared-memory location among ordered locations; physical addresses keep their own numbers. -/
def sharedKey (team off : Nat) : Nat := 2 ^ 60 + team * 2 ^ 24 + off

/-- A release by a flow of a group at a scope (R188): what it publishes, and the group after it. -/
def Group.release (g : Group) (u fl : Nat) (p : Party) (sc : Scope) : Group × RelHead :=
  let t := groupThread (groupUid u g.gid)
  let c := g.clk.raise t (g.clk.get t + 1)
  ({ g with clk := c, rels := g.rels + 1, relMark := none }, ⟨p, sc, c.join (g.ordOf fl).clk⟩)

/-- A release by a flow of the state. -/
def State.releaseBy (s : State) (u gid fl : Nat) (p : Party) (sc : Scope) : State × RelHead :=
  match s.group? u gid with
  | some g => let r := g.release u fl p sc; (s.modGroup u gid fun _ => r.1, r.2)
  | none => (s, ⟨p, sc, []⟩)

/-- A group acquires a clock; no later acquire of its passes an earlier release (R191). -/
def State.acquireClk (s : State) (u gid : Nat) (c : Clock) : State :=
  s.modGroup u gid fun g => { g with clk := g.clk.join c, relMark := none }

/-- The release heads at a location. -/
def State.headsAt (s : State) (k : Nat) : List RelHead := assocGet [] s.locs k

/-- Adds a release to those of a location; one of the same party and scope joins the earlier. -/
def addHead (hs : List RelHead) (h : RelHead) : List RelHead :=
  if hs.any fun x => x.party == h.party && x.scope == h.scope then
    hs.map fun x => if x.party = h.party ∧ x.scope = h.scope then { x with clk := x.clk.join h.clk } else x
  else hs ++ [h]

/-- A plain or releasing write to a location replaces its heads: by the release's, and by those of the writer's earlier
FENCE.rel (R189). A read-modify-write keeps the heads before it (`keep`). -/
def State.setHeads (s : State) (k : Nat) (keep : Bool) (hs : List RelHead) : State :=
  let hs := if keep then hs.foldl addHead (s.headsAt k) else hs
  { s with locs := if hs.isEmpty then assocDel s.locs k else assocSet s.locs k hs }

/-! ## Shared memory -/

/-- The team of the gang of `t` on a cluster core, itself included (R161). -/
def State.gangTeamOn (s : State) (t : Team) (cc : Nat) : Option Team :=
  match t.core with
  | none => none
  | some core =>
    let want := core / 4 * 4 + cc
    if want = core then some t else s.teams.find? fun x => x.gang == t.gang && x.core == some want

/-- The fate of a shared address for `n` bytes (R161, R165 row 1). -/
inductive ShAddr where
  | ok (team off : Nat)
  | shbound
  | gang
  deriving DecidableEq, Repr

/-- Resolves a shared address of a team (R161). -/
def State.shAddr (s : State) (t : Team) (a : Word) (n : Nat) : ShAddr :=
  let sel := bits a 23 21
  let off := bits a 20 0
  if bits a 63 24 ≠ 0 || (sel ≠ 0 && sel < 4) then .shbound
  else if sel = 0 then (if off + n ≤ t.shBytes then .ok t.uid off else .shbound)
  else
    match s.gangTeamOn t (sel - 4) with
    | none => .gang
    | some x => if off + n ≤ x.shBytes then .ok x.uid off else .shbound

def State.sharedOf (s : State) (u : Nat) : List Host.Cell := match s.team? u with | some t => t.shared | none => []

/-- Writes bytes of a team's shared memory and the ECC words they replace (R165). -/
def State.pokeShared (s : State) (u off : Nat) (bs : List Byte) : State :=
  { s.modTeam u (fun t => { t with shared := Memory.put t.shared off bs }) with
    eccShared := s.eccShared.filter fun e => !(e.1 == u && wholeWord off bs.length e.2) }

/-- An access to an object's bytes makes its queue sleepers test again (R178). -/
def State.touchQueue (s : State) (u off n : Nat) : State :=
  let hit (sl : Sleep) : Sleep :=
    match sl with
    | .queue t o p d g due => .queue t o p d g (due || (t == u && decide (o < off + n) && decide (off < o + 64)))
    | x => x
  { s with teams := s.teams.map fun t => { t with groups := t.groups.map fun g =>
      { g with
        recs := Vector.ofFn fun (k : Fin 4) => { g.record k.val with sleep := hit (g.record k.val).sleep }
        handler := g.handler.map fun h => { h with sleep := hit h.sleep } } } }

end Sys2Proof.Machine
end

