-- ==== Sys2Proof/Machine/Fetch.lean ====
section
/-!
DEFINITION. Instruction fetch (R55, R56, R184) and its faults.
-/
namespace Sys2Proof.Machine

/-- What a fetch of one word gives (R22, R55, R375). -/
inductive Fetched where
  | word (w : W32)
  | absent (malformed : Bool)
  | prot
  | ecc
  deriving DecidableEq, Repr

/-- The old contents of a word rewritten since the core's last ICINV, which its instruction cache may still hold (R184). -/
def State.staleWords (s : State) (core pa : Nat) : List W32 :=
  s.wlog.filterMap fun e => if e.2.1 = pa ∧ assocGet 0 s.icMark core ≤ e.1 then some e.2.2 else none

/-- The word that a core's cache returns for a physical address: the current one, or where it was rewritten since the
last ICINV any of its contents since then (R184; DESIGN CHOICE, log 10). -/
def State.cachedWord (s : State) (core pa : Nat) : W32 :=
  let now := BitVec.ofNat 32 (Memory.nat s.mem pa 4)
  match s.staleWords core pa with
  | [] => now
  | old =>
    let all := now :: old
    all.getD (Config.staleFetch (s.tick * 2 ^ 56 + pa) % all.length) now

/-- Fetches one instruction word (R55): the page must be present, in the slice and executable. A fetch raises no KIND: it reads a
page of any kind that has X, since the row of R15 names no fetch (DEDUCED, log 45). -/
def State.fetchWord (s : State) (core ctx : Nat) (pc : Word) : Fetched × State :=
  if bits pc 63 53 ≠ 0 then (.prot, s)
  else
    match s.translate core ctx pc.toNat with
    | (.absent mal, s) => (.absent mal, s)
    | (.outside, s) => (.prot, s)
    | (.ok e, s) =>
      if !e.x then (.prot, s)
      else if s.badMem (e.pa pc.toNat) 4 then (.ecc, s)
      else (.word (s.cachedWord core (e.pa pc.toNat)), s)

/-- HINFO of an ECC on memory (R216). -/
def hinfoMem (lanes : Mask) : Word := lanes.zeroExtend 64 ||| BitVec.ofNat 64 (0x7F * 2 ^ 32 + 3 * 2 ^ 39)

/-- A fetch by the issuing flow: the word, or what the fault does at this instruction (R22, R55; no lane fails a fetch,
so HINFO names none). -/
def View.fetch (v : View) (pc : Word) (k : W32 → View → Out) : Out :=
  let r := v.s.fetchWord (v.t.core.getD v.t.lastCore) v.t.ctx pc
  let v := { v with s := r.2 }
  match r.1 with
  | .word w => k w v
  | .absent mal => v.xlate 0 pc.toNat mal 0
  | .prot => v.trap 0 0x11 0
  | .ecc => v.trap 0 0x60 (hinfoMem 0)

/-- Fetches the one or two words at the flow's PC (R56). -/
def View.fetchInstr (v : View) (k : W32 → W32 → View → Out) : Out :=
  v.fetch v.back fun w0 v =>
    if opWords (opcodeOf w0) = 2 then v.fetch (v.back + 4) fun w1 v => k w0 w1 v else k w0 0 v

end Sys2Proof.Machine
end

