-- ==== Sys2Proof/Machine/Num.lean ====
section
/-!
DEFINITION. Exact numbers, number formats and rounding (R96 to R105, R111): rationals, the float formats, ROUND with its
flags, and the float operations on decoded values. A sub-element is handled as the natural number of its bits.
-/
namespace Sys2Proof.Machine

/-- An exact rational: `num / den`, with `den` not zero. It need not be in lowest terms (R7: arithmetic is exact). -/
structure Q where
  num : Int
  den : Nat
  deriving DecidableEq, Repr

def Q.ofInt (n : Int) : Q := ⟨n, 1⟩
def Q.zero : Q := ⟨0, 1⟩
def Q.add (a b : Q) : Q := if a.den = b.den then ⟨a.num + b.num, a.den⟩ else ⟨a.num * b.den + b.num * a.den, a.den * b.den⟩
def Q.neg (a : Q) : Q := ⟨-a.num, a.den⟩
def Q.sub (a b : Q) : Q := a.add b.neg
def Q.mul (a b : Q) : Q := ⟨a.num * b.num, a.den * b.den⟩
/-- The reciprocal; used only where the operand is not zero. -/
def Q.inv (a : Q) : Q := if a.num < 0 then ⟨-(a.den : Int), a.num.natAbs⟩ else ⟨a.den, a.num.natAbs⟩
def Q.div (a b : Q) : Q := a.mul b.inv
def Q.abs (a : Q) : Q := ⟨a.num.natAbs, a.den⟩
def Q.lt (a b : Q) : Bool := decide (a.num * b.den < b.num * a.den)
def Q.le (a b : Q) : Bool := decide (a.num * b.den ≤ b.num * a.den)
def Q.eq (a b : Q) : Bool := decide (a.num * b.den = b.num * a.den)
def Q.isZero (a : Q) : Bool := decide (a.num = 0)
def Q.isNeg (a : Q) : Bool := decide (a.num < 0)
def Q.max (a b : Q) : Q := if a.lt b then b else a
def Q.min (a b : Q) : Q := if b.lt a then b else a
/-- `n · 2^e`. -/
def Q.dyadic (n : Int) (e : Int) : Q := if 0 ≤ e then ⟨n * 2 ^ e.toNat, 1⟩ else ⟨n, 2 ^ (-e).toNat⟩
/-- The largest integer not above the value. -/
def Q.floor (a : Q) : Int := a.num.fdiv a.den

/-- The special-value rule of a float type (R99). -/
inductive Specials where
  | ieee | e4m3 | none
  deriving DecidableEq, Repr

/-- A float format (R99). -/
structure FFmt where
  w    : Nat
  fb   : Nat
  eb   : Nat
  bias : Nat
  sp   : Specials
  deriving DecidableEq, Repr

def fmtF64 : FFmt := ⟨64, 52, 11, 1023, .ieee⟩
def fmtF32 : FFmt := ⟨32, 23, 8, 127, .ieee⟩
def fmtF16 : FFmt := ⟨16, 10, 5, 15, .ieee⟩
def fmtBf16 : FFmt := ⟨16, 7, 8, 127, .ieee⟩
def fmtE4m3 : FFmt := ⟨8, 3, 4, 7, .e4m3⟩
def fmtE5m2 : FFmt := ⟨8, 2, 5, 15, .ieee⟩
def fmtE2m1 : FFmt := ⟨4, 1, 2, 1, .none⟩

/-- The canonical NaN of a type; e2m1 has none and takes +0 (R101, R108). -/
def FFmt.nan (F : FFmt) : Nat :=
  match F.sp with
  | .ieee => (2 ^ F.eb - 1) * 2 ^ F.fb + 2 ^ (F.fb - 1)
  | .e4m3 => 0x7F
  | .none => 0

/-- The bits of +∞ of a type that has it (R99). -/
def FFmt.infBits (F : FFmt) : Nat := (2 ^ F.eb - 1) * 2 ^ F.fb

/-- The bits of the largest finite magnitude (R99). -/
def FFmt.maxBits (F : FFmt) : Nat :=
  match F.sp with
  | .ieee => F.infBits - 1
  | .e4m3 => 0x7E
  | .none => 2 ^ (F.w - 1) - 1

/-- The weight of the sign bit. -/
def FFmt.signBit (F : FFmt) (neg : Bool) : Nat := if neg then 2 ^ (F.w - 1) else 0

/-- A float value: NaN, an infinity, or the finite `± m · 2^e` (R99). -/
inductive FVal where
  | nan
  | inf (neg : Bool)
  | fin (neg : Bool) (m : Nat) (e : Int)
  deriving DecidableEq, Repr

/-- The value of a bit pattern (R99). -/
def FFmt.decode (F : FFmt) (bits : Nat) : FVal :=
  let neg := bits / 2 ^ (F.w - 1) % 2 == 1
  let ex := bits / 2 ^ F.fb % 2 ^ F.eb
  let fr := bits % 2 ^ F.fb
  let top := ex == 2 ^ F.eb - 1
  if F.sp == .ieee && top then (if fr = 0 then .inf neg else .nan)
  else if F.sp == .e4m3 && top && fr == 2 ^ F.fb - 1 then .nan
  else if ex = 0 then .fin neg fr (1 - (F.bias : Int) - F.fb)
  else .fin neg (2 ^ F.fb + fr) ((ex : Int) - F.bias - F.fb)

/-- The signed exact value of a finite float. -/
def FVal.q : FVal → Q
  | .fin neg m e => Q.dyadic (if neg then -(m : Int) else m) e
  | _ => Q.zero

def FVal.isNan : FVal → Bool
  | .nan => true
  | _ => false

def FVal.isInf : FVal → Bool
  | .inf _ => true
  | _ => false

def FVal.isZero : FVal → Bool
  | .fin _ 0 _ => true
  | _ => false

def FVal.neg : FVal → Bool
  | .inf n => n
  | .fin n _ _ => n
  | .nan => false

def FVal.negate : FVal → FVal
  | .inf n => .inf (!n)
  | .fin n m e => .fin (!n) m e
  | .nan => .nan

/-- The event bits of STAT (R48, R106): the flags an operation raises. -/
abbrev Flags := BitVec 10

def flNone : Flags := 0
def flInv : Flags := 0x010
def flDz : Flags := 0x020
def flOf : Flags := 0x040
def flUf : Flags := 0x080
def flIx : Flags := 0x100
def flSat : Flags := 0x200

/-- Floor of the base-2 logarithm of a positive rational. -/
def Q.log2 (x : Q) : Int :=
  let n := x.num.natAbs
  let k : Int := (n.log2 : Int) - x.den.log2
  if (Q.dyadic 1 k).le x.abs then k else k - 1

/-- The choice between the two neighbours of an inexact value (R103): `m` is the lower magnitude, `rem / den` the
remainder. Answers the chosen magnitude. -/
def roundMag (rm : RMode) (neg : Bool) (m rem den : Nat) : Nat :=
  if rem = 0 then m
  else
    match rm with
    | .rne => if den < 2 * rem then m + 1 else if 2 * rem < den then m else if m % 2 = 0 then m else m + 1
    | .rtz => m
    | .rup => if neg then m else m + 1
    | .rdn => if neg then m + 1 else m
    | .rto => if m % 2 = 1 then m else m + 1

/-- ROUND of the magnitude of a non-zero value as an index into the ordered magnitudes of the format with its exponent
range unbounded above (R103), and whether it is exact. -/
def roundIdx (F : FFmt) (rm : RMode) (neg : Bool) (x : Q) : Nat × Bool :=
  let qmin : Int := 1 - (F.bias : Int) - F.fb
  let q : Int := max (x.log2 - F.fb) qmin
  let s := x.abs.mul (Q.dyadic 1 (-q))
  let n := s.num.natAbs
  let m := n / s.den
  let rem := n % s.den
  (((q - qmin).toNat) * 2 ^ F.fb + roundMag rm neg m rem s.den, rem == 0)

/-- Delivery of an overflowing result of a type that has infinities (R104). -/
def overflowBits (F : FFmt) (rm : RMode) (neg : Bool) : Nat :=
  F.signBit neg +
    match rm with
    | .rne => F.infBits
    | .rtz | .rto => F.maxBits
    | .rup => if neg then F.maxBits else F.infBits
    | .rdn => if neg then F.infBits else F.maxBits

/-- ROUND of a non-zero exact value with its flags (R103 to R106), for a type that has infinities. -/
def roundQ (F : FFmt) (rm : RMode) (x : Q) : Nat × Flags :=
  if x.isZero then (0, flNone)
  else
    let neg := x.isNeg
    let r := roundIdx F rm neg x
    if F.maxBits < r.1 then (overflowBits F rm neg, flOf ||| flIx)
    else
      (F.signBit neg + r.1,
        if r.2 then flNone else if r.1 < 2 ^ F.fb then flUf ||| flIx else flIx)

/-- The sign of an exact zero sum of two finite addends (R102). -/
def zeroSumNeg (rm : RMode) (na nb : Bool) : Bool := if na == nb then na else rm == .rdn

/-- ROUND(a + b) (R102, R106, R111). -/
def fAdd (F : FFmt) (rm : RMode) (a b : FVal) : Nat × Flags :=
  match a, b with
  | .nan, _ => (F.nan, flNone)
  | _, .nan => (F.nan, flNone)
  | .inf x, .inf y => if x == y then (F.signBit x + F.infBits, flNone) else (F.nan, flInv)
  | .inf x, _ => (F.signBit x + F.infBits, flNone)
  | _, .inf y => (F.signBit y + F.infBits, flNone)
  | .fin na _ _, .fin nb _ _ =>
    let s := a.q.add b.q
    if s.isZero then (F.signBit (zeroSumNeg rm na nb), flNone) else roundQ F rm s

/-- ROUND(a · b) (R106, R111). -/
def fMul (F : FFmt) (rm : RMode) (a b : FVal) : Nat × Flags :=
  let neg := a.neg != b.neg
  if a.isNan || b.isNan then (F.nan, flNone)
  else if (a.isInf && b.isZero) || (a.isZero && b.isInf) then (F.nan, flInv)
  else if a.isInf || b.isInf then (F.signBit neg + F.infBits, flNone)
  else if a.isZero || b.isZero then (F.signBit neg, flNone)
  else roundQ F rm (a.q.mul b.q)

/-- ROUND(a · b + d), rounded once (R102, R106, R111). -/
def fFma (F : FFmt) (rm : RMode) (a b d : FVal) : Nat × Flags :=
  let pneg := a.neg != b.neg
  if !a.isNan && !b.isNan && ((a.isInf && b.isZero) || (a.isZero && b.isInf)) then (F.nan, flInv)
  else if a.isNan || b.isNan || d.isNan then (F.nan, flNone)
  else if a.isInf || b.isInf then
    (match d with
     | .inf dn => if dn == pneg then (F.signBit pneg + F.infBits, flNone) else (F.nan, flInv)
     | _ => (F.signBit pneg + F.infBits, flNone))
  else
    match d with
    | .inf dn => (F.signBit dn + F.infBits, flNone)
    | _ =>
      let s := (a.q.mul b.q).add d.q
      if s.isZero then (F.signBit (zeroSumNeg rm pneg d.neg), flNone) else roundQ F rm s

/-- ROUND(a / b) (R106, R111, R124). -/
def fDiv (F : FFmt) (rm : RMode) (a b : FVal) : Nat × Flags :=
  let neg := a.neg != b.neg
  if a.isNan || b.isNan then (F.nan, flNone)
  else if (a.isInf && b.isInf) || (a.isZero && b.isZero) then (F.nan, flInv)
  else if a.isInf then (F.signBit neg + F.infBits, flNone)
  else if b.isInf || a.isZero then (F.signBit neg, flNone)
  else if b.isZero then (F.signBit neg + F.infBits, flDz)
  else roundQ F rm (a.q.div b.q)

/-- One binary digit of the integer square root, from the top. -/
def isqrtGo (n : Nat) : Nat → Nat → Nat
  | 0, r => r
  | k + 1, r => if (r + 2 ^ k) * (r + 2 ^ k) ≤ n then isqrtGo n k (r + 2 ^ k) else isqrtGo n k r

/-- The integer square root. -/
def isqrt (n : Nat) : Nat := isqrtGo n (n.log2 / 2 + 1) 0

/-- A rational on the same side of every rounding boundary of the format as the square root of `m · 2^e`, and equal to
it where it is exact (R111: VSQRT is correctly rounded). -/
def sqrtQ (m : Nat) (e : Int) : Q :=
  let m1 := if e % 2 = 0 then m else 2 * m
  let e1 := if e % 2 = 0 then e else e - 1
  let big := m1 * 2 ^ 140
  let r := isqrt big
  Q.dyadic (if r * r = big then 2 * (r : Int) else 2 * (r : Int) + 1) ((e1 - 140) / 2 - 1)

/-- Square root, correctly rounded (R106, R111, R113). -/
def fSqrt (F : FFmt) (rm : RMode) (a : FVal) : Nat × Flags :=
  match a with
  | .nan => (F.nan, flNone)
  | .inf neg => if neg then (F.nan, flInv) else (F.infBits, flNone)
  | .fin neg m e =>
    if m = 0 then (F.signBit neg, flNone)
    else if neg then (F.nan, flInv)
    else roundQ F rm (sqrtQ m e)

/-- Strict order of two non-NaN values; -0 equals +0 (R132). -/
def FVal.lt (a b : FVal) : Bool :=
  match a, b with
  | .inf na, .inf nb => na && !nb
  | .inf na, _ => na
  | _, .inf nb => !nb
  | _, _ => a.q.lt b.q

/-- Equality of two non-NaN values; -0 equals +0 (R132). -/
def FVal.eqv (a b : FVal) : Bool :=
  match a, b with
  | .nan, _ => false
  | _, .nan => false
  | .inf na, .inf nb => na == nb
  | .inf _, _ => false
  | _, .inf _ => false
  | _, _ => a.q.eq b.q

/-- minimumNumber or maximumNumber on bit patterns (R111): -0 is below +0; NaN yields the other operand. -/
def fMinMax (F : FFmt) (isMax : Bool) (x y : Nat) : Nat :=
  let a := F.decode x
  let b := F.decode y
  if a.isNan then (if b.isNan then F.nan else y)
  else if b.isNan then x
  else
    let aBelow := a.lt b || (a.eqv b && a.neg && !b.neg)
    if isMax then (if aBelow then y else x) else (if aBelow then x else y)

/-- The width of an element type (R32). -/
def tyWidth : ETy → Nat
  | .i64 | .n64 | .f64 => 64
  | .i32 | .n32 | .f32 => 32
  | .i16 | .n16 | .f16 | .bf16 => 16
  | .i8 | .n8 | .e4m3 | .e5m2 => 8
  | .e2m1 => 4

/-- The float format of a float type (R99). -/
def tyFmt : ETy → Option FFmt
  | .f64 => some fmtF64 | .f32 => some fmtF32 | .f16 => some fmtF16 | .bf16 => some fmtBf16
  | .e4m3 => some fmtE4m3 | .e5m2 => some fmtE5m2 | .e2m1 => some fmtE2m1
  | _ => none

/-- The signed integer types (R96). -/
def tySigned : ETy → Bool
  | .i64 | .i32 | .i16 | .i8 => true
  | _ => false

/-- The integer types (R96). -/
def tyInt : ETy → Bool
  | .i64 | .n64 | .i32 | .n32 | .i16 | .n16 | .i8 | .n8 => true
  | _ => false

/-- The narrow float types, which arithmetic refuses (R59, R119). -/
def tyNarrow : ETy → Bool
  | .e4m3 | .e5m2 | .e2m1 => true
  | _ => false

/-- The integer value of `w` bits, signed or not (R96). -/
def intVal (signed : Bool) (w x : Nat) : Int :=
  if signed && decide (2 ^ (w - 1) ≤ x) then (x : Int) - 2 ^ w else x

/-- The low `w` bits of an integer. -/
def wrapInt (w : Nat) (x : Int) : Nat := (x % (2 ^ w : Int)).toNat

/-- The bounds of an integer type (R96). -/
def intMin (signed : Bool) (w : Nat) : Int := if signed then -(2 ^ (w - 1) : Int) else 0
def intMax (signed : Bool) (w : Nat) : Int := if signed then 2 ^ (w - 1) - 1 else 2 ^ w - 1

/-- Delivery of an exact integer under SAT (R97, R118). -/
def deliverInt (signed : Bool) (w : Nat) (sat : Bool) (x : Int) : Nat × Flags :=
  if sat && decide (x < intMin signed w) then (wrapInt w (intMin signed w), flSat)
  else if sat && decide (intMax signed w < x) then (wrapInt w (intMax signed w), flSat)
  else (wrapInt w x, flNone)

/-- ROUND of an exact value to an integer (R103 with the integers as the grid), and whether it is exact. -/
def roundInt (rm : RMode) (x : Q) : Int × Bool :=
  let n := x.num.natAbs
  let m := roundMag rm x.isNeg (n / x.den) (n % x.den) x.den
  (if x.isNeg then -(m : Int) else m, n % x.den == 0)

/-- ROUND of an exact non-zero value into a float type of a conversion, with the narrow types' cases (R108). -/
def convRound (F : FFmt) (rm : RMode) (sat : Bool) (x : Q) : Nat × Flags :=
  if x.isZero then (0, flNone)
  else
    let neg := x.isNeg
    let r := roundIdx F rm neg x
    if F.maxBits < r.1 then
      (if F.sp == .none || sat then F.signBit neg + F.maxBits
       else if F.sp == .e4m3 then F.nan
       else overflowBits F rm neg,
       flOf ||| flIx)
    else
      (F.signBit neg + r.1, if r.2 then flNone else if r.1 < 2 ^ F.fb then flUf ||| flIx else flIx)

/-- Float-to-float conversion (R101, R108). -/
def convFF (G : FFmt) (rm : RMode) (sat : Bool) (a : FVal) : Nat × Flags :=
  match a with
  | .nan => if G.sp == .none then (0, flInv) else (G.nan, flNone)
  | .inf neg =>
    (match G.sp with
     | .ieee => (G.signBit neg + G.infBits, flNone)
     | .e4m3 => (if sat then G.signBit neg + G.maxBits else G.nan, flInv)
     | .none => (G.signBit neg + G.maxBits, flInv))
  | .fin neg m _ => if m = 0 then (G.signBit neg, flNone) else convRound G rm sat a.q

/-- Float-to-integer conversion (R109). -/
def convFI (signed : Bool) (w : Nat) (rm : RMode) (a : FVal) : Nat × Flags :=
  match a with
  | .nan => (0, flInv)
  | .inf neg => (wrapInt w (if neg then intMin signed w else intMax signed w), flInv)
  | .fin _ _ _ =>
    let r := roundInt rm a.q
    if r.1 < intMin signed w then (wrapInt w (intMin signed w), flInv)
    else if intMax signed w < r.1 then (wrapInt w (intMax signed w), flInv)
    else (wrapInt w r.1, if r.2 then flNone else flIx)

/-- CONV of one element from type `s` to type `d` (R108 to R110, R129). -/
def conv (s d : ETy) (rm : RMode) (sat : Bool) (x : Nat) : Nat × Flags :=
  match tyFmt s, tyFmt d with
  | some F, some G =>
    if s = d then (if (F.decode x).isNan then F.nan else x, flNone) else convFF G rm sat (F.decode x)
  | some F, none => convFI (tySigned d) (tyWidth d) rm (F.decode x)
  | none, some G => convRound G rm sat (Q.ofInt (intVal (tySigned s) (tyWidth s) x))
  | none, none => deliverInt (tySigned d) (tyWidth d) sat (intVal (tySigned s) (tyWidth s) x)

/-- RNE32 of an exact value (R7); an exact zero is +0. -/
def rne32 (x : Q) : Nat := (roundQ fmtF32 .rne x).1

/-- The sub-element `s` of width `w` of a lane (R32). -/
def subElem (w s : Nat) (x : Word) : Nat := x.toNat / 2 ^ (w * s) % 2 ^ w

/-- The number of sub-elements of width `w` in a lane (R32). -/
def subCount (w : Nat) : Nat := 64 / w

/-- The lane whose sub-elements of width `w`, from the lowest, are given (R32). -/
def packSubs (w : Nat) : List Nat → Nat
  | [] => 0
  | x :: xs => x % 2 ^ w + 2 ^ w * packSubs w xs

/-- The lane of given sub-elements. -/
def laneOfSubs (w : Nat) (xs : List Nat) : Word := BitVec.ofNat 64 (packSubs w xs)

/-- The sub-elements of a lane, lowest first. -/
def subsOf (w : Nat) (x : Word) : List Nat := (List.range (subCount w)).map fun s => subElem w s x

end Sys2Proof.Machine
end

