-- ==== Sys2Proof/Machine/Flags.lean ====
section
/-!
DEFINITION. Flags of vector instructions (R48, R106, R107): each lane's flags join in STAT, and an enabled float flag
raises FPX with the lanes in which it arose.
-/
namespace Sys2Proof.Machine

/-- The float flags that TRAPEN can enable (R48). -/
def floatFlags : Flags := 0x1F0

/-- The lanes whose flags are enabled in TRAPEN; none in handler mode (R107, R218). -/
def View.fpxLanes (v : View) (fs : Vector Flags 32) : Mask :=
  if v.svc then maskOf fun l => (vget fs l 0 &&& v.g.trapen &&& floatFlags) != 0#10 else 0#32

/-- The union of the lanes' flags. -/
def allFlags (fs : Vector Flags 32) : Flags := fs.foldl (fun a b => a ||| b) 0

/-- Raises FPX if an enabled flag arose, or completes with the effect (R107). -/
def View.finishFlags (v : View) (st : BitVec 10) (fs : Vector Flags 32) (e : Eff) : Out :=
  let bad := v.fpxLanes fs
  if bad != 0#32 then v.trap (st ||| allFlags fs) 0x0B (hinfoLanes bad) else v.finish (st ||| allFlags fs) e

/-- Writes one vector register in the lanes of a mask from a per-lane function with flags (R117). -/
def View.laneWrite (v : View) (st : BitVec 10) (d : Nat) (m : Mask) (kills : List (Nat × Mask))
    (f : Nat → Word × Flags) : Out :=
  let rs : Vector (Word × Flags) 32 := Vector.ofFn fun (i : Fin 32) => if m.getLsbD i.val then f i.val else (0, 0)
  v.finishFlags st (Vector.ofFn fun (i : Fin 32) => rs[i.val].2)
    { vw := [(d, m, Vector.ofFn fun (i : Fin 32) => rs[i.val].1)], kills := kills }

/-- The lane of a source operand. -/
def lane (x : LaneVec) (l : Nat) : Word := vget x l 0

/-- Applies a function to each sub-element of a lane, joining flags (R7, R32). -/
def mapSubs (w : Nat) (f : Nat → Nat × Flags) : Word × Flags :=
  let rs := (List.range (subCount w)).map f
  (laneOfSubs w (rs.map Prod.fst), rs.foldl (fun a r => a ||| r.2) 0)

/-- The kills of source fields with last use, in the lanes of a mask (R50). -/
def killsOf (m : Mask) (ss : List Src) : List (Nat × Mask) :=
  (ss.filter fun s => s.last).map fun s => (s.reg, m)

/-- The outstanding result of a long-latency vector instruction: a held destination takes nothing (R29, R65). -/
def View.laterV (v : View) (ahead : BitVec 4) (ws : List (Nat × Mask × LaneVec)) : Pend :=
  { flow := v.fl, win := ahead.toNat, vs := ws.filter fun w => !inRuns v.heldV w.1, ss := [] }

end Sys2Proof.Machine
end

