-- ==== Sys2Proof/Machine/Scalar.lean ====
section
/-!
DEFINITION. Scalar and mask instructions, SETMODE and the special registers (R61 to R63, R134 to R137, R145 to R147,
R180, with the registers of R46 to R49).
-/
namespace Sys2Proof.Machine

/-! ## Scalar arithmetic -/

/-- A scalar instruction of two sources (R134, R135). -/
def View.sca2 (v : View) (d a b : Nat) (f : Word → Word → Word) : Out :=
  v.issue none false 0 [opSw d, opS a, opS b] fun v st => v.finish st { sw := [(d, f (v.rdS a) (v.rdS b))] }

/-- A scalar instruction of one source (R135, R136). -/
def View.sca1 (v : View) (d a : Nat) (f : Word → Word) : Out :=
  v.issue none false 0 [opSw d, opS a] fun v st => v.finish st { sw := [(d, f (v.rdS a))] }

/-- The shift amount of the scalar shifts (R135). -/
def shiftAmount (b : Word) : Nat := b.toNat % 64

/-- Bits [127:64] of the exact signed product (R135). -/
def mulHigh (a b : Word) : Word := BitVec.ofInt 64 ((a.toInt * b.toInt).fdiv (2 ^ 64 : Nat))

/-- The condition of SCMP (R92). -/
def scmpHolds (c : Cond) (a b : Word) : Bool :=
  match c with
  | .eq => a == b
  | .ne => a != b
  | .lt => a.slt b
  | .le => a.sle b
  | .gt => b.slt a
  | .ge => b.sle a
  | .ltu => a.ult b
  | .leu => a.ule b
  | .gtu => b.ult a
  | .geu => b.ule a
  | .uno | .ord => false

def bodySadd (d a b : Nat) (v : View) : Out := v.sca2 d a b fun x y => x + y
def bodySsub (d a b : Nat) (v : View) : Out := v.sca2 d a b fun x y => x - y
def bodySmul (d a b : Nat) (v : View) : Out := v.sca2 d a b fun x y => x * y
def bodySmulh (d a b : Nat) (v : View) : Out := v.sca2 d a b mulHigh
def bodySand (d a b : Nat) (v : View) : Out := v.sca2 d a b fun x y => x &&& y
def bodySor (d a b : Nat) (v : View) : Out := v.sca2 d a b fun x y => x ||| y
def bodySxor (d a b : Nat) (v : View) : Out := v.sca2 d a b fun x y => x ^^^ y
def bodySshl (d a b : Nat) (v : View) : Out := v.sca2 d a b fun x y => x <<< shiftAmount y
def bodySshr (d a b : Nat) (v : View) : Out := v.sca2 d a b fun x y => x >>> shiftAmount y
def bodySsra (d a b : Nat) (v : View) : Out := v.sca2 d a b fun x y => x.sshiftRight (shiftAmount y)
def bodySmin (d a b : Nat) (v : View) : Out := v.sca2 d a b fun x y => if y.slt x then y else x
def bodySmax (d a b : Nat) (v : View) : Out := v.sca2 d a b fun x y => if x.slt y then y else x
def bodySmov (d a : Nat) (v : View) : Out := v.sca1 d a id
def bodySaddi (d a : Nat) (k : BitVec 11) (v : View) : Out := v.sca1 d a fun x => x + k.signExtend 64

def execSadd (d a b : BitVec 6) (s : State) : Out := withIssuer s 1 (bodySadd d.toNat a.toNat b.toNat)
def execSsub (d a b : BitVec 6) (s : State) : Out := withIssuer s 1 (bodySsub d.toNat a.toNat b.toNat)
def execSmul (d a b : BitVec 6) (s : State) : Out := withIssuer s 1 (bodySmul d.toNat a.toNat b.toNat)
def execSmulh (d a b : BitVec 6) (s : State) : Out := withIssuer s 1 (bodySmulh d.toNat a.toNat b.toNat)
def execSand (d a b : BitVec 6) (s : State) : Out := withIssuer s 1 (bodySand d.toNat a.toNat b.toNat)
def execSor (d a b : BitVec 6) (s : State) : Out := withIssuer s 1 (bodySor d.toNat a.toNat b.toNat)
def execSxor (d a b : BitVec 6) (s : State) : Out := withIssuer s 1 (bodySxor d.toNat a.toNat b.toNat)
def execSshl (d a b : BitVec 6) (s : State) : Out := withIssuer s 1 (bodySshl d.toNat a.toNat b.toNat)
def execSshr (d a b : BitVec 6) (s : State) : Out := withIssuer s 1 (bodySshr d.toNat a.toNat b.toNat)
def execSsra (d a b : BitVec 6) (s : State) : Out := withIssuer s 1 (bodySsra d.toNat a.toNat b.toNat)
def execSmin (d a b : BitVec 6) (s : State) : Out := withIssuer s 1 (bodySmin d.toNat a.toNat b.toNat)
def execSmax (d a b : BitVec 6) (s : State) : Out := withIssuer s 1 (bodySmax d.toNat a.toNat b.toNat)
def execSmov (d a : BitVec 6) (s : State) : Out := withIssuer s 1 (bodySmov d.toNat a.toNat)
def execSaddi (d a : BitVec 6) (k : BitVec 11) (s : State) : Out := withIssuer s 1 (bodySaddi d.toNat a.toNat k)

/-- The literal sign-extended (R136). -/
def execSldi (d : BitVec 6) (lit : W32) (s : State) : Out :=
  withIssuer s 2 fun v =>
    v.issue none false 0 [opSw d.toNat] fun v st => v.finish st { sw := [(d.toNat, lit.signExtend 64)] }

/-- Writes 1 or 0 to one of S0 to S7 (R137). -/
def execScmp (c : Cond) (dc : BitVec 3) (a b : BitVec 6) (s : State) : Out :=
  withIssuer s 1 fun v => v.sca2 dc.toNat a.toNat b.toNat fun x y => if scmpHolds c x y then 1 else 0

/-! ## Masks -/

/-- A mask operation of two sources (R146). -/
def View.mask2 (v : View) (md ma mb : Nat) (f : Mask → Mask → Mask) : Out :=
  v.issue none false 0 [opMw md, opMr ma, opMr mb] fun v st => v.finish st { mw := [(md, f (v.rdM ma) (v.rdM mb))] }

/-- A mask operation of one source (R146). -/
def View.mask1 (v : View) (md ma : Nat) (f : Mask → Mask) : Out :=
  v.issue none false 0 [opMw md, opMr ma] fun v st => v.finish st { mw := [(md, f (v.rdM ma))] }

def execMand (md ma mb : BitVec 4) (s : State) : Out :=
  withIssuer s 1 fun v => v.mask2 md.toNat ma.toNat mb.toNat fun x y => x &&& y
def execMor (md ma mb : BitVec 4) (s : State) : Out :=
  withIssuer s 1 fun v => v.mask2 md.toNat ma.toNat mb.toNat fun x y => x ||| y
def execMxor (md ma mb : BitVec 4) (s : State) : Out :=
  withIssuer s 1 fun v => v.mask2 md.toNat ma.toNat mb.toNat fun x y => x ^^^ y
def execMandn (md ma mb : BitVec 4) (s : State) : Out :=
  withIssuer s 1 fun v => v.mask2 md.toNat ma.toNat mb.toNat fun x y => x &&& ~~~y
def execMnot (md ma : BitVec 4) (s : State) : Out := withIssuer s 1 fun v => v.mask1 md.toNat ma.toNat fun x => ~~~x
def execMmov (md ma : BitVec 4) (s : State) : Out := withIssuer s 1 fun v => v.mask1 md.toNat ma.toNat id

/-- A scalar from a mask (R147). -/
def View.maskTo (v : View) (d ma : Nat) (f : Mask → Word) : Out :=
  v.issue none false 0 [opSw d, opMr ma] fun v st => v.finish st { sw := [(d, f (v.rdM ma))] }

def bodyMtos (d ma : Nat) (v : View) : Out := v.maskTo d ma fun x => x.zeroExtend 64
def bodyMcnt (d ma : Nat) (v : View) : Out := v.maskTo d ma fun x => BitVec.ofNat 64 (lanesOf x).length
def bodyMffs (d ma : Nat) (v : View) : Out := v.maskTo d ma fun x => BitVec.ofNat 64 ((lowestLane x).getD 32)

/-- A mask from the low half of a scalar (R147). -/
def bodyStom (md a : Nat) (v : View) : Out :=
  v.issue none false 0 [opMw md, opS a] fun v st => v.finish st { mw := [(md, (v.rdS a).setWidth 32)] }

def execMtos (d : BitVec 6) (ma : BitVec 4) (s : State) : Out := withIssuer s 1 (bodyMtos d.toNat ma.toNat)
def execMcnt (d : BitVec 6) (ma : BitVec 4) (s : State) : Out := withIssuer s 1 (bodyMcnt d.toNat ma.toNat)
def execMffs (d : BitVec 6) (ma : BitVec 4) (s : State) : Out := withIssuer s 1 (bodyMffs d.toNat ma.toNat)
def execStom (md : BitVec 4) (a : BitVec 6) (s : State) : Out := withIssuer s 1 (bodyStom md.toNat a.toNat)

def execMldi (md : BitVec 4) (lit : W32) (s : State) : Out :=
  withIssuer s 2 fun v =>
    v.issue none false 0 [opMw md.toNat] fun v st => v.finish st { mw := [(md.toNat, lit)] }

/-! ## MODE and the special registers -/

/-- Whether a 64-bit value is a legal MODE (R62). -/
def modeLegal (x : Word) : Bool :=
  decide (x.toNat < 2 ^ 12) && x.extractLsb' 8 4 != 15#4 && decide ((x.extractLsb' 5 3).toNat ≤ 4)

/-- Sets the MODE of a flow (R60, R218). -/
def Group.setMode (g : Group) (fl : Nat) (m : BitVec 12) : Group :=
  if fl = 4 then { g with handler := g.handler.map fun h => { h with mode := m } }
  else g.modRec fl fun r => { r with mode := m }

/-- The fields that SETMODE writes (R63). -/
def setmodeValue (old : BitVec 12) (et : BitVec 4) (rm : BitVec 3) (g : BitVec 4) (sat wet wrm wg wsat : Bool) :
    BitVec 12 :=
  (if wet then et else old.extractLsb' 8 4) ++ (if wrm then rm else old.extractLsb' 5 3)
    ++ (if wg then g else old.extractLsb' 1 4) ++ BitVec.ofBool (if wsat then sat else old.getLsbD 0)

def execSetmode (et : BitVec 4) (rm : BitVec 3) (g : BitVec 4) (sat wet wrm wg wsat : Bool) (s : State) : Out :=
  withIssuer s 1 fun v =>
    v.issue none false 0 [] fun v st =>
      if (wet && et == 15#4) || (wrm && decide (4 < rm.toNat)) then v.trap st 0x04 0
      else (v.withGroup (v.g.setMode v.fl (setmodeValue v.mode et rm g sat wet wrm wg wsat))).finish st {}

/-- The team index or team counts in the layout of TID (R47). -/
def packDims (x y z : Nat) : Word := BitVec.ofNat 64 (x % 65536 + y % 65536 * 2 ^ 16 + z % 65536 * 2 ^ 32)

/-- The team index of a linear index (R45). -/
def tidOf (d : Nat × Nat × Nat) (i : Nat) : Word := packDims (i % d.1) (i / d.1 % d.2.1) (i / d.1 / d.2.1)

def View.dims (v : View) : Nat × Nat × Nat := match v.s.grid? v.t.grid with | some g => g.dims | none => (1, 1, 1)

/-- The core a team runs on. -/
def View.core (v : View) : Nat := v.t.core.getD v.t.lastCore

/-- The frozen or own repeat iteration that SRD REPI reads (R47, R180). -/
def View.repiRead (v : View) : BitVec 6 :=
  if v.svc then v.split.repi else (match v.g.handler with | some h => (v.g.record h.traprec).repi | none => 0)

/-- A special register other than LANE and CYC (R47 to R49). -/
def View.special (v : View) (idx : Nat) : Word :=
  match idx with
  | 1 => BitVec.ofNat 64 v.g.gid
  | 2 => tidOf v.dims v.t.tidx
  | 3 => packDims v.dims.1 v.dims.2.1 v.dims.2.2
  | 4 => BitVec.ofNat 64 v.g.role
  | 5 => BitVec.ofNat 64 v.core
  | 6 => BitVec.ofNat 64 (clusterOf v.core)
  | 7 => BitVec.ofNat 64 (clusterOf v.core / 32)
  | 8 => BitVec.ofNat 64 v.t.slice
  | 10 => v.g.stat.zeroExtend 64
  | 11 => v.g.trapen.zeroExtend 64
  | 12 => v.mode.zeroExtend 64
  | 13 => v.g.ksp
  | 14 => v.repiRead.zeroExtend 64
  | 15 => v.t.gmap
  | 16 => match v.g.handler with | some h => BitVec.ofNat 64 h.cause | none => 0
  | 17 => match v.g.handler with | some h => h.hpc | none => 0
  | 18 => match v.g.handler with | some h => h.hinfo | none => 0
  | _ => 0

/-- The count of CYC that a read returns: the last one read on the core, and the cycles since (R47; DESIGN CHOICE, log 7). -/
def State.cycNow (s : State) (core : Nat) : Word := assocGet 0 s.cyc core + BitVec.ofNat 64 (Config.cycles s.tick)

/-- SRD (R180): LANE into a vector register, every other index into a scalar. -/
def bodySrd (d idx : Nat) (v : View) : Out :=
  if idx = 0 then
    v.issue none false (v.eff false) [opWr d] fun v st =>
      v.finish st { vw := [(d, v.eff false, Vector.ofFn fun (i : Fin 32) => BitVec.ofNat 64 i.val)] }
  else
    v.issue (if v.svc && decide (16 ≤ idx) then some 0x05 else none) false 0 [opSw d] fun v st =>
      if idx = 9 then
        let c := v.s.cycNow v.core
        { v with s := { v.s with cyc := assocSet v.s.cyc v.core c } }.finish st { sw := [(d, c)] }
      else v.finish st { sw := [(d, v.special idx)] }

/-- The REPI that SWR leaves in the record TRAPREC names (R180; a value above 63 is open, DESIGN CHOICE, log 15). -/
def swrRepi (tick : Nat) (x : Word) : BitVec 6 := if x.toNat < 64 then x.setWidth 6 else Config.wideRepi tick

/-- SWR (R47, R62, R180). A write to STAT comes before the events of the same SWR set their bits (R48; DEDUCED, log 45). -/
def bodySwr (idx a : Nat) (v : View) : Out :=
  v.issue (if idx = 14 && v.svc then some 0x05 else none) false 0 [opS a] fun v st =>
    let x := v.rdS a
    match idx with
    | 10 => (v.withGroup { v.g with stat := x.setWidth 10 }).finish (if v.svc then st else 0) {}
    | 11 =>
      if x.toNat < 2 ^ 9 then (v.withGroup { v.g with trapen := x.setWidth 10 }).finish st {} else v.trap st 0x01 0
    | 12 => if modeLegal x then (v.withGroup (v.g.setMode v.fl (x.setWidth 12))).finish st {} else v.trap st 0x04 0
    | 13 => if x.extractLsb' 0 4 == 0#4 then (v.withGroup { v.g with ksp := x }).finish st {} else v.trap st 0x13 0
    | _ =>
      (v.withGroup (match v.g.handler with
        | some h => v.g.modRec h.traprec fun r => { r with repi := swrRepi v.s.tick x }
        | none => v.g)).finish st {}

def execSrd (d : BitVec 7) (idx : BitVec 11) (s : State) : Out := withIssuer s 1 (bodySrd d.toNat idx.toNat)
def execSwr (idx : BitVec 11) (a : BitVec 6) (s : State) : Out := withIssuer s 1 (bodySwr idx.toNat a.toNat)

end Sys2Proof.Machine
end

