-- ==== Sys2Proof/Machine/Control.lean ====
section
/-!
DEFINITION. Branches, calls, indirect jumps with their divisions, and the other control instructions (R36 to R38, R148 to
R156).
-/
namespace Sys2Proof.Machine

/-! ## Direct branches -/

/-- The target of a branch: words from its first word (R148). -/
def branchTarget {n : Nat} (at_ : Word) (off : BitVec n) : Word := at_ + 4 * off.signExtend 64

/-- X of R149 and R150: EXEC in service mode, EFFMASK in handler mode. -/
def View.branchMask (v : View) : Mask := if v.svc then v.split.exec else v.eff true

/-- The PC after a conditional branch (R148). -/
def View.branch (v : View) (st : BitVec 10) (taken : Bool) (target : Word) (e : Eff) : Out :=
  v.finish st { e with pc := if taken then some target else none }

def execBra (off : BitVec 21) (s : State) : Out :=
  withIssuer s 1 fun v => v.issue none false 0 [] fun v st => v.branch st true (branchTarget v.back off) {}

/-- BRU (R150): the whole split follows the lowest active lane; a divergent condition sets DIVU and may trap. -/
def execBru (mc : BitVec 4) (off : BitVec 21) (s : State) : Out :=
  withIssuer s 1 fun v =>
    v.issue none false 0 [opMr mc.toNat] fun v st =>
      let x := v.branchMask
      let m := v.rdM mc.toNat
      match lowestLane x with
      | none => v.branch st false 0 {}
      | some l =>
        let c := m.getLsbD l
        let differ := if c then x &&& ~~~m else x &&& m
        let st := if differ == 0#32 then st else st ||| statDivu
        if differ != 0#32 && v.svc && v.g.trapen.getLsbD 2 then v.trap st 0x07 (hinfoLanes differ)
        else v.branch st c (branchTarget v.back off) {}

def execBrz (mc : BitVec 4) (off : BitVec 21) (s : State) : Out :=
  withIssuer s 1 fun v =>
    v.issue none false 0 [opMr mc.toNat] fun v st =>
      v.branch st (v.branchMask &&& v.rdM mc.toNat == 0#32) (branchTarget v.back off) {}

def execBrnz (mc : BitVec 4) (off : BitVec 21) (s : State) : Out :=
  withIssuer s 1 fun v =>
    v.issue none false 0 [opMr mc.toNat] fun v st =>
      v.branch st (v.branchMask &&& v.rdM mc.toNat != 0#32) (branchTarget v.back off) {}

def execBrs (sc : BitVec 6) (off : BitVec 19) (s : State) : Out :=
  withIssuer s 1 fun v =>
    v.issue none false 0 [opS sc.toNat] fun v st =>
      v.branch st (v.rdS sc.toNat != 0) (branchTarget v.back off) {}

/-- LOOP decrements, then branches while the value is not zero (R149). -/
def execLoop (sc : BitVec 6) (off : BitVec 19) (s : State) : Out :=
  withIssuer s 1 fun v =>
    v.issue (if sc = 0 then some 0x01 else none) false 0 [opS sc.toNat] fun v st =>
      let n := v.rdS sc.toNat - 1
      v.branch st (n != 0) (branchTarget v.back off) { sw := [(sc.toNat, n)] }

def execCall (off : BitVec 21) (s : State) : Out :=
  withIssuer s 1 fun v =>
    v.issue none false 0 [opSw 62] fun v st =>
      v.branch st true (branchTarget v.back off) { sw := [(62, v.next)] }

/-- RET branches to S62, which must be an instruction address (R151). No lane fails, so HINFO names none. -/
def execRet (s : State) : Out :=
  withIssuer s 1 fun v =>
    v.issue none false 0 [opS 62] fun v st =>
      let a := v.rdS 62
      if bits a 1 0 ≠ 0 then v.trap st 0x13 0
      else if bits a 63 53 ≠ 0 then v.trap st 0x11 0
      else v.branch st true a {}

/-! ## Indirect branches -/

/-- The targets of a division with their lanes, by the lowest lane that names each (R37). -/
def targetsOf (x : Mask) (a : LaneVec) : List (Word × Mask) :=
  (lanesOf x).foldl (fun ts l =>
    let t := vget a l 0
    if ts.any fun p => p.1 == t then ts.map fun p => if p.1 = t then (t, p.2 ||| maskOf fun i => i == l) else p
    else ts ++ [(t, maskOf fun i => i == l)]) []

/-- New records for the targets that leave a split, lowest unused number first (R37). A new record's REPI is 0 (DEDUCED, log 21);
its lanes know what the split's knew. -/
def Group.newRecs (g : Group) (x : Split) (j oj : Option Word) (ts : List (Word × Mask)) (free : List Nat) : Group :=
  (ts.zip free).foldl (fun g p =>
    g.setRec p.2 { pc := p.1.1, members := p.1.2, exec := p.1.2, mode := x.mode, repi := 0, join := j, ojoin := oj,
                   sleep := .awake, ord := x.ord }) g

/-- A split's lanes divide among two or more targets while a record is unused (R37): the group, and the lanes that leave
the instruction. -/
def Group.divide (g : Group) (k : Nat) (ts : List (Word × Mask)) (join : Option Word) : Group × Mask :=
  let x := g.record k
  let j := match join with | some a => some a | none => x.join
  let oj := if x.join = j then x.ojoin else x.join
  let free := g.freeRecs
  let keep := decide (ts.length ≤ free.length + 1)
  let moved := if keep then ts.drop 1 else ts.take free.length
  let gone := moved.foldl (fun m p => m ||| p.2) 0#32
  let first := (ts.headD (x.pc, 0#32)).2
  let x' : Split :=
    if keep then { x with exec := first, pc := (ts.headD (x.pc, 0#32)).1, members := x.members &&& ~~~gone, join := j, ojoin := oj }
    else { x with exec := x.exec &&& ~~~gone, members := x.members &&& ~~~gone, join := j, ojoin := oj }
  ((g.setRec k x').newRecs x j oj moved free, if keep then x.exec else gone)

/-- What R152 finds for one target. -/
inductive TargetFate where
  | ok | absent (malformed : Bool) | prot | ecc | notPad
  deriving DecidableEq, Repr

/-- Fetches a target word and compares it with the PAD of a tag (R152, R154). -/
def State.targetFate (s : State) (core ctx : Nat) (t : Word) (tag : BitVec 16) : TargetFate × State :=
  let r := s.fetchWord core ctx t
  (match r.1 with
   | .word w => if w == encP 0x51 (0#9 ++ tag) then .ok else .notPad
   | .absent mal => .absent mal
   | .prot => .prot
   | .ecc => .ecc, r.2)

/-- The fates of several targets, with the state after the lookups. -/
def State.targetFates (s : State) (core ctx : Nat) (tag : BitVec 16) :
    List (Word × Mask) → List (Word × Mask × TargetFate) × State
  | [] => ([], s)
  | p :: ps =>
    let r := s.targetFate core ctx p.1 tag
    let q := State.targetFates r.2 core ctx tag ps
    ((p.1, p.2, r.1) :: q.1, q.2)

/-- The lanes of targets that satisfy a test. -/
def lanesWhere (fs : List (Word × Mask × TargetFate)) (f : TargetFate → Bool) : Mask :=
  fs.foldl (fun m p => if f p.2.2 then m ||| p.2.1 else m) 0#32

def TargetFate.isAbsent : TargetFate → Bool
  | .absent _ => true
  | _ => false

/-- The checks of R152 in their order, then `k`. -/
def View.checkTargets (v : View) (st : BitVec 10) (ts : List (Word × Mask)) (tag : BitVec 16) (k : View → Out) : Out :=
  let bad (f : Word → Bool) : Mask := ts.foldl (fun m p => if f p.1 then m ||| p.2 else m) 0#32
  let m1 := bad fun t => bits t 1 0 != 0
  let m2 := bad fun t => bits t 63 53 != 0
  if m1 != 0#32 then v.trap st 0x13 (hinfoLanes m1)
  else if m2 != 0#32 then v.trap st 0x11 (hinfoLanes m2)
  else
    let r := v.s.targetFates v.core v.t.ctx tag ts
    let v := { v with s := r.2 }
    match r.1.find? fun p => p.2.2.isAbsent with
    | some p => v.xlate st p.1.toNat (p.2.2 == .absent true) (lanesWhere r.1 TargetFate.isAbsent)
    | none =>
      let m3 := lanesWhere r.1 fun f => f == .prot
      let me := lanesWhere r.1 fun f => f == .ecc
      let m4 := lanesWhere r.1 fun f => f == .notPad
      if m3 != 0#32 then v.trap st 0x11 (hinfoLanes m3)
      else if me != 0#32 then v.trap st 0x60 (hinfoMem me)
      else if m4 != 0#32 then v.trap st 0x06 (hinfoLanes m4)
      else k v

/-- JMPI and CALLI after their operands are read (R153). `link` is S62's new value, for CALLI; `join` the join point. -/
def View.indirect (v : View) (a : Src) (tag : BitVec 16) (join : Option Word) (link : Option Word) : Out :=
  let x := if v.svc then v.split.exec else v.eff true
  let used := if v.svc then x else match lowestLane x with | some l => maskOf fun i => i == l | none => 0#32
  let ops := { opRd a.reg with lanes := some used } :: (if link.isSome then [opSw 62] else [])
  v.issue none false used ops fun v st =>
    let ts := targetsOf used (v.rdV a.reg)
    if ts.isEmpty then v.finish st {}
    else
      v.checkTargets st ts tag fun v =>
        let sw : List (Nat × Word) := match link with | some w => [(62, w)] | none => []
        if ts.length = 1 then
          v.finish st { sw := sw, kills := killsOf x [a], pc := some (ts.headD (0, 0)).1 }
        else if v.g.freeRecs.isEmpty then
          (v.withGroup (sw.foldl (fun g w => g.writeS (v.fl == 4) w.1 w.2) v.g)).sleep st .record
        else
          let d := (v.g.drainFlow v.fl).divide v.fl ts join
          (v.withGroup d.1).finish st { sw := sw, kills := killsOf d.2 [a], pc := some (d.1.record v.fl).pc }

/-- The join point of a JMPI (R36): an offset of 0 means none of its own. -/
def jmpiJoin (at_ : Word) (off : BitVec 16) : Option Word := if off = 0 then none else some (branchTarget at_ off)

def execJmpi (a : VSrc) (join tag : BitVec 16) (s : State) : Out :=
  withIssuer s 2 fun v => v.indirect (vsrc a) tag (jmpiJoin v.back join) none

def execCalli (a : VSrc) (tag : BitVec 16) (s : State) : Out :=
  withIssuer s 2 fun v => v.indirect (vsrc a) tag (some v.next) (some v.next)

/-! ## NOP, PAD, YIELD, BRK -/

def execPad (_tag : BitVec 16) (s : State) : Out :=
  withIssuer s 1 fun v => v.issue none false 0 [] fun v st => v.finish st {}

def execNop (s : State) : Out :=
  withIssuer s 1 fun v => v.issue none false 0 [] fun v st => v.finish st {}

/-- YIELD waits for the flow's results, and the flow is not ready for a while (R67, R156, R210). -/
def execYield (s : State) : Out :=
  withIssuer s 1 fun v =>
    v.issue none false 0 [] fun v st => (v.withGroup ((v.g.drainFlow v.fl).setSleep v.fl .yield)).finish st {}

/-- TRAP and BRK (R156, R181, R220): in service mode a trap that resumes after the instruction; in handler mode the group
stops with a debug record once the handler's results are written (R67), and may resume at the next instruction. -/
def View.stop (v : View) (st : BitVec 10) (cause : Nat) (hinfo : Word) : Out :=
  if v.svc then v.trapTo v.next st cause hinfo
  else
    let s := v.s.modGroup v.u v.g.gid fun g =>
      let g := g.drainFlow 4
      { g with handler := g.handler.map fun h => { h with pc := v.next, stop := .debug } }
    .next (s.report (.debug v.t.ctx v.u v.g.gid v.back v.origin))

def execBrk (s : State) : Out :=
  withIssuer s 1 fun v => v.issue none false 0 [] fun v st => v.stop st 0x40 0

/-! ## EXIT -/

/-- The first unreported entry of a team's own in its context's reduction-fault log (R173). -/
def State.ownEntry (s : State) (t : Team) : Option Nat :=
  match s.context? t.ctx with
  | none => none
  | some c =>
    let seq := match s.grid? t.grid with | some g => g.seq | none => 0
    (c.logMarks.find? fun m => m.team == t.tidx && m.launch == seq).map LogMark.n

/-- Whether a RED or ATOM of the group has not been performed or logged (R170, R173). -/
def View.redsOut (v : View) : Bool :=
  v.s.reds.any fun r => r.party.team == v.u && r.party.gid == v.g.gid && !r.lanes.isEmpty

/-- The lanes of a split's EXEC exit (R33, R34): they leave the record. -/
def Group.exitLanes (g : Group) (k : Nat) (m : Mask) : Group :=
  let r := g.record k
  g.setRec k
    (if r.members &&& ~~~m == 0#32 then Split.unused else { r with members := r.members &&& ~~~m, exec := r.exec &&& ~~~m })

/-- A lane's report without a hit (R340, R348). -/
def RayOut.plain (status cause : Nat) : RayOut := ⟨status, cause, 0x7F800000, 0, 0, 0, 0⟩

/-- Whether a lane keeps its slot with this report: CANDIDATE or SUSPENDED (R339, R340). -/
def RayOut.holds (o : RayOut) : Bool := o.status == 2 || o.status == 4

/-- A ray item whose lanes `m` have exited: those whose slot it works on or keeps are to be reported ABORTED (R339). -/
def Item.exitRays (i : Item) (rays : Vector (Option Ray) 32) (m : Mask) : Item :=
  match i.work with
  | .ray fn acc outs n sus =>
    let mine (l : Nat) : Bool :=
      match vget rays l none with
      | some r => if fn == .load then r.owner == i.id else decide (r.owner ≤ i.id)
      | none => false
    if fn == .save || fn == .abort then i
    else
      { i with work := .ray fn acc (Vector.ofFn fun (l : Fin 32) =>
          if m.getLsbD l.val && i.eff.getLsbD l.val && (outs[l.val].elim true RayOut.holds) && mine l.val then some (RayOut.plain 6 0)
          else outs[l.val]) n sus }
  | _ => i

/-- Whether an unfinished RTLOAD of a group bound a slot (R339). -/
def State.loadOwns (s : State) (r : Ray) : Bool :=
  s.items.any fun i => i.id == r.owner && (match i.work with | .ray .load .. => true | _ => false)

/-- Lanes of a group exit as the ray unit sees it (R339): their slots are freed, those of an unfinished RTLOAD at its end. -/
def State.exitRays (s : State) (u gid : Nat) (m : Mask) : State :=
  match s.group? u gid with
  | none => s
  | some g =>
    let keep (o : Option Ray) : Bool := match o with | some r => s.loadOwns r | none => false
    let free (rays : Vector (Option Ray) 32) : Vector (Option Ray) 32 :=
      Vector.ofFn fun (l : Fin 32) => if m.getLsbD l.val && !keep rays[l.val] then none else rays[l.val]
    let its := s.items.map fun i => if i.party.team = u ∧ i.party.gid = gid then i.exitRays g.rays m else i
    { s with items := its }.modGroup u gid fun g => { g with rays := free g.rays }

/-- EXIT (R155). With EXEC = 0 it does nothing, and the split's windows stay open (DEDUCED, log 45). -/
def execExit (s : State) : Out :=
  withIssuer s 1 fun v =>
    v.issue (if v.svc then none else some 0x01) false 0 [] fun v st =>
      let x := v.split.exec
      if x == 0#32 then v.finish st {}
      else
        let v := v.withGroup (v.g.drainFlow v.fl)
        let last := v.g.live &&& ~~~x == 0#32
        if last && v.redsOut then v.wait
        else
          match if last then v.s.ownEntry v.t else none with
          | some n => v.trap st 0x21 (BitVec.ofNat 64 n)
          | none =>
            let v := v.withGroup (v.g.exitLanes v.fl x)
            (v.onState (v.s.exitRays v.u v.g.gid x)).finish st {}

end Sys2Proof.Machine
end

