-- ==== Sys2Proof/Machine/Access.lean ====
section
/-!
DEFINITION. The accesses of memory instructions: addresses (R160 to R164), the checks of R165 in their order, and the
reads and writes at the homes with their release and race metadata (R186 to R193).
-/
namespace Sys2Proof.Machine

/-- Where one piece of an access lies: in a team's shared memory, or at a physical address. -/
inductive Loc where
  | sh (team off : Nat)
  | at (pa va : Nat) (race : Bool)
  deriving DecidableEq, Repr

/-- What an access asks for. -/
structure Req where
  space  : Space
  z      : Nat
  align  : Nat
  rd     : Bool
  wr     : Bool
  plain  : Bool
  scalar : Bool
  ecc    : Bool

/-- A mask from a list of lanes. -/
def laneMask (ls : List Nat) : Mask := maskOf fun i => ls.contains i

/-- HINFO of failing lanes; the scalar forms name none (R168). -/
def Req.hinfo (q : Req) (ls : List Nat) : Word := if q.scalar then 0 else hinfoLanes (laneMask ls)

/-- The virtual address that a lane's address names (R162, R163). -/
def View.vaOf (v : View) (q : Req) (a : Nat × Word) : Word :=
  match q.space with
  | .sk => v.g.ksp + a.2 + BitVec.ofNat 64 (q.z * a.1)
  | _ => a.2

/-- Whether bytes lie in the group's stack window (R163). -/
def Group.inWindow (g : Group) (va : Word) (z : Nat) : Bool :=
  decide (g.kwin.1.toNat ≤ va.toNat) && decide (va.toNat + z ≤ g.kwin.1.toNat + g.kwin.2.toNat)

/-- Row 1 of R165: each cause in its order with the lanes that fail it. -/
def View.row1 (v : View) (q : Req) (as : List (Nat × Word)) : List (Nat × List Nat) :=
  let lanes (f : Nat × Word → Bool) : List Nat := (as.filter f).map Prod.fst
  match q.space with
  | .sh =>
    [(0x15, lanes fun a => v.s.shAddr v.t a.2 q.z == .shbound), (0x14, lanes fun a => v.s.shAddr v.t a.2 q.z == .gang)]
  | .sp => [(0x11, lanes fun a => bits a.2 63 53 != 0)]
  | .sk =>
    [(0x16, lanes fun a => !v.g.inWindow (v.vaOf q a) q.z), (0x11, lanes fun a => bits (v.vaOf q a) 63 53 != 0)]

/-- Row 2 of R165 (R164): the address, or A_l for the spill stack. -/
def row2 (q : Req) (as : List (Nat × Word)) : List Nat := (as.filter fun a => a.2.toNat % q.align ≠ 0).map Prod.fst

/-- The pieces of at most 8 bytes of an access. -/
def Req.pieces (q : Req) : Nat := max 1 (q.z / 8)
def Req.piece (q : Req) : Nat := min q.z 8

/-- Translates addresses in order, filling the translation buffers. -/
def State.translateAll (s : State) (core ctx : Nat) : List (Nat × Nat) → List (Nat × Nat × Xl) × State
  | [] => ([], s)
  | p :: ps =>
    let r := s.translate core ctx p.2
    let q := State.translateAll r.2 core ctx ps
    ((p.1, p.2, r.1) :: q.1, q.2)

/-- Whether a translation allows an access (R22). -/
def Xl.permits (x : Xl) (q : Req) : Bool :=
  match x with
  | .ok e => (!q.rd || e.rd) && (!q.wr || e.w)
  | _ => false

/-- The race metadata of an access of the issuing group (R193). -/
def View.accessOf (v : View) (q : Req) : Access :=
  let u := groupUid v.u v.g.gid
  { thread := groupThread u, agent := u, epoch := v.g.clk.get (groupThread u) + 1, rel := v.g.rels, bytes := 0,
    write := q.wr, plain := q.plain }

/-- The lanes whose results satisfy a test. -/
def lanesThat (rs : List (Nat × Nat × Xl)) (f : Nat → TlbEntry → Bool) : List Nat :=
  rs.filterMap fun r => match r.2.2 with | .ok e => if f r.2.1 e then some r.1 else none | _ => none

/-- The pieces of each lane, ascending. -/
def locsOf (as : List (Nat × Word)) (rs : List (Nat × Nat × Xl)) : List (Nat × List Loc) :=
  as.map fun a => (a.1, rs.filterMap fun r =>
    match r.2.2 with
    | .ok e => if r.1 = a.1 then some (.at (e.pa r.2.1) r.2.1 e.race) else none
    | _ => none)

/-- Rows 3 to 7 of R165 for the translated spaces. -/
def View.translated (v : View) (st : BitVec 10) (q : Req) (as : List (Nat × Word))
    (k : View → List (Nat × List Loc) → Out) : Out :=
  let ps := as.flatMap fun a => (List.range q.pieces).map fun i => (a.1, (v.vaOf q a).toNat + 8 * i)
  let r := v.s.translateAll v.core v.t.ctx ps
  let v := { v with s := r.2 }
  let rs := r.1
  match rs.find? fun x => x.2.2 == .absent true || x.2.2 == .absent false with
  | some x =>
    v.xlate st x.2.1 (x.2.2 == .absent true)
      (if q.scalar then 0 else laneMask ((rs.filter fun y => y.2.2 == .absent true || y.2.2 == .absent false).map Prod.fst))
  | none =>
    let l4 := (rs.filter fun x => !x.2.2.permits q).map Prod.fst
    let l5 := lanesThat rs fun _ e => e.kind != .scratch
    let l6 := lanesThat rs fun va e => e.race && v.s.raceAt (v.accessOf q) v.clk (e.pa va) q.piece
    let l7 := lanesThat rs fun va e => q.ecc && v.s.badMem (e.pa va) q.piece
    if !l4.isEmpty then v.trap st 0x11 (q.hinfo l4)
    else if !l5.isEmpty then v.trap st 0x12 (q.hinfo l5)
    else if !l6.isEmpty then v.trap st 0x20 (q.hinfo l6)
    else if !l7.isEmpty then v.trap st 0x60 (q.hinfo l7 ||| hinfoMem 0)
    else k v (locsOf as rs)

/-- The team and offset of a shared address that row 1 passed. -/
def View.shLoc (v : View) (q : Req) (a : Word) : Nat × Nat :=
  match v.s.shAddr v.t a q.z with
  | .ok u off => (u, off)
  | _ => (v.u, 0)

/-- Rows 1 and 2 of R165, which RED checks alone (R171), then `k`. -/
def View.rows12 (v : View) (st : BitVec 10) (q : Req) (as : List (Nat × Word)) (k : Out) : Out :=
  match (v.row1 q as).find? fun c => !c.2.isEmpty with
  | some c => v.trap st c.1 (q.hinfo c.2)
  | none => if (row2 q as).isEmpty then k else v.trap st 0x13 (q.hinfo (row2 q as))

/-- The checks of R165, then `k` with each lane's pieces. -/
def View.access (v : View) (st : BitVec 10) (q : Req) (as : List (Nat × Word))
    (k : View → List (Nat × List Loc) → Out) : Out :=
  v.rows12 st q as
    (match q.space with
     | .sh =>
       let locs := as.map fun a =>
         let x := v.shLoc q a.2
         (a.1, (List.range q.pieces).map fun i => Loc.sh x.1 (x.2 + 8 * i))
       let l7 := (as.filter fun a => q.ecc && v.s.badShared (v.shLoc q a.2).1 (v.shLoc q a.2).2 q.z).map Prod.fst
       if l7.isEmpty then k v locs else v.trap st 0x60 (q.hinfo l7 ||| hinfoMem 0)
     | _ => v.translated st q as k)

/-! ## At the homes -/

/-- Reads a little-endian number at a location (R186). -/
def State.locRead (s : State) (l : Loc) (n : Nat) : Nat :=
  match l with
  | .sh u off => Memory.nat (s.sharedOf u) off n
  | .at pa _ _ => Memory.nat s.mem pa n

/-- Writes bytes at a location (R186); sleepers on a queue object that they touch test again (R178). -/
def State.locWrite (s : State) (l : Loc) (bs : List Byte) : State :=
  match l with
  | .sh u off => (s.pokeShared u off bs).touchQueue u off bs.length
  | .at pa _ _ => s.poke pa bs

/-- Whether a read at a location meets an uncorrectable error (R165). -/
def State.locBad (s : State) (l : Loc) (n : Nat) : Bool :=
  match l with
  | .sh u off => s.badShared u off n
  | .at pa _ _ => s.badMem pa n

/-- The keys of the 4-byte words of a location, under which releases are kept. -/
def Loc.keys (l : Loc) (n : Nat) : List Nat :=
  let a := match l with | .sh u off => sharedKey u off | .at pa _ _ => pa
  (List.range ((n + 3) / 4)).map fun i => (a / 4 + i) * 4

/-- Notes an access in the race metadata of a RACECHK page (R193). -/
def State.noteLoc (s : State) (y : Access) (l : Loc) (n : Nat) : State :=
  match l with
  | .at pa _ true => s.noteAccess y pa n
  | _ => s

/-- The number of a location's first byte among those of all locations. -/
def Loc.key : Loc → Nat
  | .sh u off => sharedKey u off
  | .at pa _ _ => pa

/-- The location `i` bytes on. -/
def Loc.plus (l : Loc) (i : Nat) : Loc :=
  match l with
  | .sh u off => .sh u (off + i)
  | .at pa va race => .at (pa + i) (va + i) race

/-- The bytes at a location. -/
def State.locBytes (s : State) (l : Loc) (n : Nat) : List Byte :=
  match l with
  | .sh u off => Memory.bytes (s.sharedOf u) off n
  | .at pa _ _ => Memory.bytes s.mem pa n

/-- Whether two byte ranges meet. -/
def rangesMeet (a n b m : Nat) : Bool := decide (a < b + m) && decide (b < a + n)

/-- Writes a value at a location, with the releases it carries (R189, R193) and what stood there before (R192). -/
def State.storeAt (s : State) (y : Access) (keep : Bool) (hs : List RelHead) (l : Loc) (n x : Nat) : State :=
  let w : Wrote :=
    { key := l.key, seq := s.hist.length, old := s.locBytes l n, heads := (l.keys n).map fun k => (k, s.headsAt k)
      thread := y.thread, epoch := y.epoch, plain := y.plain }
  (l.keys n).foldl (fun s k => s.setHeads k keep hs)
    ((({ s with hist := w :: s.hist } : State).noteLoc y l n).locWrite l (leBytes n x))

/-- A write of an object operation, of a thread at an epoch, or (thread and epoch 0) of the control cores and the units they
serve, which no later read misses. -/
def State.homeWrite (s : State) (w : Nat × Nat) (l : Loc) (bs : List Byte) : State :=
  let n := bs.length
  ({ s with
      hist := { key := l.key, seq := s.hist.length, old := s.locBytes l n, heads := (l.keys n).map fun k => (k, s.headsAt k)
                thread := w.1, epoch := w.2, plain := false } :: s.hist } : State).locWrite l bs

/-- The thread and epoch of what a release publishes. -/
def RelHead.writer (h : RelHead) : Nat × Nat :=
  let t := groupThread (groupUid h.party.team h.party.gid)
  (t, h.clk.get t)

/-- A write by the control cores or a unit they serve: what it replaces carries no release any more (R189). -/
def State.ctlPoke (s : State) (pa : Nat) (bs : List Byte) : State :=
  let l := Loc.at pa 0 false
  (l.keys bs.length).foldl (fun s k => s.setHeads k false []) (s.homeWrite (0, 0) l bs)

/-! ## Reads that race (R186, R191, R192)

The home holds one value, and an atomic reads it. A load or an engine's read that races with writes may have been performed
before them: it misses some number of the newest writes to its bytes, each of which races with it. An acquire may also
have been performed before the releases that its own group made since its last other ordered access (R191); it then misses
what was written since. No read misses a write that its split has read or a later one (R186). -/

/-- Who reads: its thread, what happens-before it, whether the access is plain, what its split has seen, and the count of
writes from which an acquire may miss (R191). -/
structure Reader where
  thread : Nat
  clk    : Clock
  plain  : Bool
  seen   : List (Nat × Nat)
  mark   : Option Nat

/-- The number of writes that a split must see of `n` bytes (R186). -/
def seenAt (seen : List (Nat × Nat)) (key n : Nat) : Nat :=
  (List.range ((key + n + 7) / 8 - key / 8)).foldl (fun m i => max m (assocGet 0 seen (key / 8 + i))) 0

/-- Whether a read may miss a write: they race, or the read is an acquire performed before its group's release. -/
def Reader.mayMiss (r : Reader) (floor : Nat) (w : Wrote) : Bool :=
  w.thread != r.thread && decide (floor ≤ w.seq) &&
    (((w.plain || r.plain) && !decide (w.epoch ≤ r.clk.get w.thread)) ||
      (match r.mark with | some m => decide (m ≤ w.seq) | none => false))

/-- The newest writes to `n` bytes that a read may miss, newest first. -/
def State.missable (s : State) (r : Reader) (key n : Nat) : List Wrote :=
  (s.hist.filter fun w => rangesMeet w.key w.old.length key n).takeWhile (r.mayMiss (seenAt r.seen key n))

/-- The writes that a read misses (DESIGN CHOICE, log 19). -/
def State.missed (s : State) (r : Reader) (key n : Nat) : List Wrote :=
  match s.missable r key n with
  | [] => []
  | w :: ws => (w :: ws).take (Config.staleRead s.tick key % (ws.length + 2))

/-- Bytes from `key` as they stood before a write. -/
def Wrote.undo (key : Nat) (bs : List Byte) (w : Wrote) : List Byte :=
  bs.zipIdx.map fun b =>
    if w.key ≤ key + b.2 ∧ key + b.2 < w.key + w.old.length then w.old.getD (key + b.2 - w.key) 0 else b.1

/-- The bytes that one single-copy atomic read of a location returns (R186, R192). -/
def State.readBytes (s : State) (r : Reader) (l : Loc) (n : Nat) : List Byte :=
  (s.missed r l.key n).foldl (Wrote.undo l.key) (s.locBytes l n)

/-- The same as a little-endian number. -/
def State.readNat (s : State) (r : Reader) (l : Loc) (n : Nat) : Nat := leNat (s.readBytes r l n)

/-- The releases that the value read carries, at the words of the location (R189). -/
def State.readHeads (s : State) (r : Reader) (l : Loc) (n : Nat) : List RelHead :=
  let ws := s.missed r l.key n
  (l.keys n).flatMap fun k =>
    ws.foldl (fun hs w => match w.heads.find? fun e => e.1 == k with | some e => e.2 | none => hs) (s.headsAt k)

/-- The number of writes after which a read was performed. -/
def State.readTime (s : State) (r : Reader) (l : Loc) (n : Nat) : Nat :=
  match (s.missed r l.key n).getLast? with | some w => w.seq | none => s.hist.length

/-- What a split has seen after a read or an atomic (R186). -/
def noteSeen (seen : List (Nat × Nat)) (key n time : Nat) : List (Nat × Nat) :=
  (List.range ((key + n + 7) / 8 - key / 8)).foldl
    (fun l i => assocSet l (key / 8 + i) (max time (assocGet 0 l (key / 8 + i)))) seen

/-- How the issuing flow reads; `acq` is the scope of an acquire. -/
def View.reader (v : View) (q : Req) (acq : Option Scope) : Reader :=
  { thread := groupThread (groupUid v.u v.g.gid), clk := v.clk, plain := q.plain, seen := v.ord.seen
    mark := if acq.isSome then v.g.relMark else none }

/-- What a read by a flow changes in its group: an acquire joins what the value's releases carry, any read is noted for a
later FENCE.acq (R189), and its split will not see older writes. -/
def Group.readNote (g : Group) (fl : Nat) (p : Party) (acq : Option Scope) (hs : List RelHead) (key n : Nat)
    (time : Option Nat) : Group :=
  let g := g.modOrd fl fun o =>
    { o with
      acqSeen := (hs.filter fun h => !o.acqSeen.contains h) ++ o.acqSeen
      seen := match time with | some t => noteSeen o.seen key n t | none => o.seen }
  match acq with
  | some sc => { g with clk := acquireFrom p sc hs g.clk }
  | none => g

/-- One read by the issuing flow (R188, R189, R193). -/
def View.readOne (v : View) (q : Req) (acq : Option Scope) (s : State) (l : Loc) : State :=
  let r := v.reader q acq
  let n := q.piece
  let time := if (s.missable r l.key n).isEmpty then none else some (s.readTime r l n)
  (s.noteLoc (v.accessOf q) l n).modGroup v.u v.g.gid fun g =>
    g.readNote v.fl v.party acq (s.readHeads r l n) l.key n time

/-- When the acquires of an instruction have been performed, as the next acquire finds it (R191): at the latest of their
times where one of them missed a write, and else now. -/
def View.acquireMark (v : View) (q : Req) (acq : Option Scope) (ls : List Loc) : Option Nat :=
  let r := v.reader q acq
  let ts := ls.filterMap fun l => if (v.s.missed r l.key q.piece).isEmpty then none else some (v.s.readTime r l q.piece)
  if ts.isEmpty then none else some (ts.foldl max 0)

/-- The reads of an instruction at their locations. -/
def View.readSide (v : View) (q : Req) (acq : Option Scope) (ls : List Loc) : View :=
  let w := v.onState (ls.foldl (v.readOne q acq) v.s)
  if acq.isSome then w.withGroup { w.g with relMark := v.acquireMark q acq ls } else w

/-- A release by the issuing flow at a scope, with the view after it (R188). -/
def View.release (v : View) (sc : Scope) : View × RelHead :=
  let r := v.g.release v.u v.fl v.party sc
  (v.withGroup r.1, r.2)

/-- A release that is not also an acquire, which a later acquire may pass (R191). -/
def View.pureRelease (v : View) (sc : Scope) : View × RelHead :=
  let r := v.g.release v.u v.fl v.party sc
  (v.withGroup { r.1 with relMark := some (v.g.relMark.getD v.s.hist.length) }, r.2)

/-! ## Outstanding REDs and ATOMs -/

/-- Where a lane of a RED or ATOM will be performed, as its address maps now. -/
def State.redLoc (s : State) (r : Red) (x : RedLane) : Option Loc :=
  if r.word.sp then
    match s.peek r.core r.ctx x.addr.toNat with
    | .ok e => some (.at (e.pa x.addr.toNat) x.addr.toNat e.race)
    | _ => none
  else
    match s.team? r.party.team with
    | some t => (match s.shAddr t x.addr (if r.word.wide then 8 else 4) with | .ok u off => some (.sh u off) | _ => none)
    | none => none

/-- Whether a lane of a RED or ATOM touches bytes at a location: by its place, or by its address where it waits for a page. -/
def State.redMeets (s : State) (r : Red) (n : Nat) (l : Loc) (x : RedLane) : Bool :=
  let z := if r.word.wide then 8 else 4
  match s.redLoc r x, l with
  | some k, l => rangesMeet l.key n k.key z
  | none, .at _ va _ => r.word.sp && rangesMeet va n x.addr.toNat z
  | none, .sh .. => false

/-- Whether an unperformed lane of the issuing group touches one of the locations. Such an access waits: a split sees its
own writes (R185, R186). -/
def View.redBlocks (v : View) (q : Req) (ls : List Loc) : Bool :=
  v.s.reds.any fun r => r.party.team == v.u && r.party.gid == v.g.gid && r.lanes.any fun x => ls.any fun l => v.s.redMeets r q.piece l x

/-- A RED.rel is a release that is not also an acquire (R188). -/
def Red.pureRel (r : Red) : Bool := r.word.order == .rel && r.back.isNone

/-- Whether an ordered access of the issuing group waits for its unperformed REDs and ATOMs: they come before it in program
order, and of them an acquire passes the pure releases alone (R191). -/
def View.redsBefore (v : View) (acquire : Bool) : Bool :=
  v.s.reds.any fun r => r.party.team == v.u && r.party.gid == v.g.gid && !r.lanes.isEmpty && !(acquire && r.pureRel)

/-! ## Addresses of the instructions -/

/-- The registers that form a vector address, in field order (R160). With no lane nothing is read. -/
def addrOps (m : LAddr) (eff : Mask) : List Opnd :=
  { opS m.sb.toNat with rd := eff != 0#32 } :: (if m.vx = 127#7 then [] else [opRd m.vx.toNat])

/-- The lanes' addresses (R160). -/
def View.addrs (v : View) (m : LAddr) (off : Word) (eff : Mask) : List (Nat × Word) :=
  let x := v.rdV m.vx.toNat
  let base := v.rdS m.sb.toNat + off
  (lanesOf eff).map fun l => (l, if m.vx = 127#7 then base else base + vget x l 0)

/-- The one address of the scalar forms (R160). -/
def View.addr1 (v : View) (sb : BitVec 6) (off : BitVec 23) : List (Nat × Word) :=
  [(0, v.rdS sb.toNat + off.signExtend 64)]

/-- LX kills the index register (R160). -/
def addrKills (m : LAddr) (eff : Mask) : List (Nat × Mask) := if m.lx then [(m.vx.toNat, eff)] else []

/-- Bytes of a SIZE, and its registers per lane (R166). -/
def sizeBytes : MSize → Nat
  | .b64 => 8 | .b128 => 16 | .b256 => 32 | .b32 => 4

def sizeRegs : MSize → Nat
  | .b64 => 1 | .b128 => 2 | .b256 => 4 | .b32 => 1

end Sys2Proof.Machine
end

