-- ==== Sys2Proof/Machine/Memory.lean ====
section
/-!
DEFINITION. Loads, stores, atomics, reductions, shared append and fences (R160 to R174, R179).
-/
namespace Sys2Proof.Machine

/-! ## Loads and stores -/

def Req.load (space : Space) (size : MSize) (plain scalar : Bool) : Req :=
  { space := space, z := sizeBytes size, align := sizeBytes size, rd := true, wr := false, plain := plain, scalar := scalar,
    ecc := true }

def Req.store (space : Space) (size : MSize) (plain scalar : Bool) : Req :=
  { space := space, z := sizeBytes size, align := sizeBytes size, rd := false, wr := true, plain := plain, scalar := scalar,
    ecc := false }

/-- The values that lanes read, by lane and piece; `acq` is the scope of an acquire. -/
def View.readLanes (v : View) (q : Req) (acq : Option Scope) (locs : List (Nat × List Loc)) : List (Nat × List Nat) :=
  locs.map fun p => (p.1, p.2.map fun l => v.s.readNat (v.reader q acq) l q.piece)

/-- Whether a load waits: an unperformed RED or ATOM of its group touches its bytes, or it is an acquire that does not pass
them (R186, R191). -/
def View.loadWaits (v : View) (q : Req) (acq : Option Scope) (ls : List Loc) : Bool :=
  v.redBlocks q ls || (acq.isSome && v.redsBefore true)

/-- Piece `i` of each lane as a register. -/
def pieceReg (vals : List (Nat × List Nat)) (i : Nat) : LaneVec :=
  Vector.ofFn fun (l : Fin 32) => BitVec.ofNat 64 ((assocGet [] vals l.val).getD i 0)

/-- A vector load (R166, R169); `acq` its acquire scope. -/
def View.load (v : View) (d : BitVec 7) (m : LAddr) (ahead : BitVec 4) (q : Req) (k : Nat) (acq : Option Scope)
    (off : Word) : Out :=
  let eff := v.eff false
  v.issue none false eff (opRun d.toNat k false :: addrOps m eff) fun v st =>
    if eff == 0#32 then v.finish st {}
    else
      v.access st q (v.addrs m off eff) fun v locs =>
        if v.loadWaits q acq (locs.flatMap Prod.snd) then v.wait
        else
          let vals := v.readLanes q acq locs
          let ws := (List.range k).map fun i => (d.toNat + i, eff, pieceReg vals i)
          (v.readSide q acq (locs.flatMap Prod.snd)).finish st
            { kills := addrKills m eff, pend := some (v.laterV ahead ws) }

/-- Performs a store's lanes in ascending order, the piece at each location (R167). -/
def State.storeLanes (s : State) (y : Access) (keep : Bool) (hs : List RelHead) (n : Nat) (ws : List (Loc × Nat)) : State :=
  ws.foldl (fun s w => s.storeAt y keep hs w.1 n w.2) s

/-- What a store releases: its own release and those of earlier FENCE.rel (R188, R189). -/
def View.storeHeads (v : View) (rel : Option Scope) : View × List RelHead :=
  match rel with
  | some sc => ((v.pureRelease sc).1, (v.pureRelease sc).2 :: v.ord.relFence)
  | none => (v, v.ord.relFence)

/-- A vector store (R166, R167, R169); `rel` its release scope. -/
def View.store (v : View) (d : BitVec 7) (m : LAddr) (q : Req) (k : Nat) (rel : Option Scope) (off : Word) : Out :=
  let eff := v.eff true
  v.issue none false eff (opRun d.toNat k true :: addrOps m eff) fun v st =>
    if eff == 0#32 then v.finish st {}
    else
      v.access st q (v.addrs m off eff) fun v locs =>
        if v.redBlocks q (locs.flatMap Prod.snd) || (rel.isSome && v.redsOut) then v.wait
        else
          let data := (List.range k).map fun i => v.rdV (d.toNat + i)
          let ws := locs.flatMap fun p => p.2.zipIdx.map fun l =>
            (l.1, (lane (data.getD l.2 (LaneVec.splat 0)) p.1).toNat % 2 ^ (8 * q.piece))
          let h := v.storeHeads rel
          (h.1.onState (h.1.s.storeLanes (v.accessOf q) false h.2 q.piece ws)).finish st { kills := addrKills m eff }

/-- The scope of an ordered access. -/
def ordScope (w : MemWord) : Option Scope := if w.ordered then some w.scope else none

def execLd (d : BitVec 7) (m : LAddr) (ahead : BitVec 4) (w : MemWord) (s : State) : Out :=
  withIssuer s 2 fun v =>
    v.load d m ahead (Req.load w.space w.size (!w.ordered) false) (sizeRegs w.size) (ordScope w) (w.off.signExtend 64)

def execSt (d : BitVec 7) (m : LAddr) (w : MemWord) (s : State) : Out :=
  withIssuer s 2 fun v =>
    v.store d m (Req.store w.space w.size (!w.ordered) false) (sizeRegs w.size) (ordScope w) (w.off.signExtend 64)

def execLdk (d : BitVec 7) (m : LAddr) (ahead : BitVec 4) (size : MSize) (off : BitVec 23) (s : State) : Out :=
  withIssuer s 2 fun v => v.load d m ahead (Req.load .sk size true false) (sizeRegs size) none (off.signExtend 64)

def execStk (d : BitVec 7) (m : LAddr) (size : MSize) (off : BitVec 23) (s : State) : Out :=
  withIssuer s 2 fun v => v.store d m (Req.store .sk size true false) (sizeRegs size) none (off.signExtend 64)

/-- LDS (R168): a load into S0 is performed and discarded. -/
def execLds (sd sb : BitVec 6) (ahead : BitVec 4) (w : MemWord) (s : State) : Out :=
  withIssuer s 2 fun v =>
    let q := Req.load w.space w.size (!w.ordered) true
    v.issue none false 0 [opSw sd.toNat, opS sb.toNat] fun v st =>
      v.access st q (v.addr1 sb w.off) fun v locs =>
        let ls := locs.flatMap Prod.snd
        if v.loadWaits q (ordScope w) ls then v.wait
        else
          let x := match ls with | l :: _ => v.s.readNat (v.reader q (ordScope w)) l q.piece | [] => 0
          (v.readSide q (ordScope w) ls).finish st
            { pend := some { flow := v.fl, win := ahead.toNat, vs := [], ss := [(sd.toNat, BitVec.ofNat 64 x)] } }

def execSts (sd sb : BitVec 6) (w : MemWord) (s : State) : Out :=
  withIssuer s 2 fun v =>
    let q := Req.store w.space w.size (!w.ordered) true
    v.issue none false 0 [opS sd.toNat, opS sb.toNat] fun v st =>
      v.access st q (v.addr1 sb w.off) fun v locs =>
        let ls := locs.flatMap Prod.snd
        if v.redBlocks q ls || (w.ordered && v.redsOut) then v.wait
        else
          let h := v.storeHeads (ordScope w)
          let ws := ls.map fun l => (l, (v.rdS sd.toNat).toNat % 2 ^ (8 * q.piece))
          (h.1.onState (h.1.s.storeLanes (v.accessOf q) false h.2 q.piece ws)).finish st {}

/-! ## Atomics -/

/-- The bytes of an atomic (R170). -/
def atomBytes (w : AtomWord) : Nat := if w.wide then 8 else 4

/-- The new value of an atomic (R170): `sgn` unless MODE.ET is an n type. -/
def atomNew (op : AOp) (n : Nat) (sgn : Bool) (old x c : Nat) : Nat :=
  let w := 8 * n
  let lt := decide (intVal sgn w old < intVal sgn w x)
  match op with
  | .add => (old + x) % 2 ^ w
  | .min => if lt then old else x
  | .max => if lt then x else old
  | .and => old &&& x
  | .or => old ||| x
  | .xor => old ^^^ x
  | .swap => x
  | .cas => if old = x then c else old
  | .fadd =>
    let F := if n = 8 then fmtF64 else fmtF32
    (fAdd F .rne (F.decode old) (F.decode x)).1

def acquires : AOrder → Bool
  | .acq | .acqrel => true
  | _ => false

def releases : AOrder → Bool
  | .rel | .acqrel => true
  | _ => false

/-- Whether minimum and maximum are signed under the element type (R170). -/
def signedAtom (t : ETy) : Bool := match t with | .n64 | .n32 | .n16 | .n8 => false | _ => true

def Req.atomic (w : AtomWord) : Req :=
  { space := if w.sp then .sp else .sh, z := atomBytes w, align := atomBytes w, rd := true, wr := true, plain := false,
    scalar := false, ecc := false }

/-- One read-modify-write at a location: the old value, and the state after it (R170, R189). -/
def State.rmw (s : State) (y : Access) (hs : List RelHead) (l : Loc) (n : Nat) (f : Nat → Nat) : Nat × State :=
  let old := s.locRead l n
  (old, s.storeAt y true hs l n (f old))

/-- The vector data operands of an atomic: VB, and VB+1 for .cas (R170). -/
def atomOps (w : AtomWord) : List Opnd := [opRun w.vb.toNat (if w.op == .cas then 2 else 1) true]

/-- The view after what an ATOM or RED releases, with the releases its writes carry (R188, R189); RED.rel is a release that a
later acquire may pass. An acquiring operation is an acquire when it is performed. -/
def View.atomHeads (v : View) (w : AtomWord) (atom : Bool) : View × List RelHead :=
  if releases w.order && !atom then v.storeHeads (some w.scope)
  else if releases w.order then ((v.release w.scope).1, (v.release w.scope).2 :: v.ord.relFence)
  else (v.withGroup { v.g with relMark := none }, v.ord.relFence)

/-- What an ATOM or RED asks of the homes: its lanes with their values as captured at issue (R170, R171). -/
def View.newRed (v : View) (w : AtomWord) (as : List (Nat × Word)) (hs : List RelHead) (back : Option AtomBack) : Red :=
  let xs := v.rdV w.vb.toNat
  let cs := v.rdV (w.vb.toNat + 1)
  { id := v.s.nextId, ctx := v.t.ctx, core := v.core, party := v.party, uid := groupUid v.u v.g.gid, tidx := v.t.tidx,
    seq := (match v.s.grid? v.t.grid with | some g => g.seq | none => 0), word := w, sgn := signedAtom v.et
    lanes := as.map fun a => { lane := a.1, addr := a.2, data := lane xs a.1, swap := if w.op == .cas then lane cs a.1 else 0 }
    heads := hs, rel := v.g.rels, wait := none, back := back }

/-- The view with a RED or ATOM on its way. Its accesses are those of a thread of their own, which come before the group's
later ones (R185). -/
def View.sendRed (v : View) (r : Red) : View :=
  let v := v.withGroup { v.g with clk := v.g.clk.raise (itemThread r.id) 1 }
  v.onState { v.s with nextId := v.s.nextId + 1, reds := v.s.reds ++ [r] }

/-- The most requests to memory that a core has outstanding (R1). -/
def coreRequests : Nat := 512

/-- Whether a core may have `n` more requests to memory outstanding (R1). -/
def View.roomForRed (v : View) (n : Nat) : Bool :=
  decide (((v.s.reds.filter fun r => r.core == v.core).map fun r => r.lanes.length).sum + n ≤ coreRequests)

/-- ATOM (R170): the checks of R165 are made at issue, and the lanes' operations are performed at their homes one by one. A
split with a lane whose line is uncorrectable waits at the ATOM for its return. -/
def execAtom (d : BitVec 7) (m : LAddr) (w : AtomWord) (s : State) : Out :=
  withIssuer s 2 fun v =>
    let eff := v.eff true
    let q := Req.atomic w
    v.issue none false eff (opWr d.toNat :: addrOps m eff ++ atomOps w) fun v st =>
      if eff == 0#32 then v.finish st {}
      else
        let as := v.addrs m (w.off.signExtend 64) eff
        v.access st q as fun v locs =>
          if !v.roomForRed as.length then v.wait
          else
            let bad := laneMask ((locs.filter fun p => p.2.any fun l => v.s.locBad l (atomBytes w)).map Prod.fst)
            let h := v.atomHeads w true
            let b : AtomBack :=
              { flow := v.fl, pc := v.back, d := if inRuns v.heldV d.toNat then none else some d.toNat, eff := eff, got := [],
                bad := 0 }
            let x := h.1.sendRed (v.newRed w as h.2 (some b))
            if bad == 0#32 then x.finish st { kills := addrKills m eff }
            else (x.withGroup (x.g.apply v.fl v.heldV v.heldM { kills := addrKills m eff })).sleep st (.atom bad)

/-- RED (R171): rows 1 and 2 of R165 are checked at issue. -/
def execRed (m : LAddr) (w : AtomWord) (s : State) : Out :=
  withIssuer s 2 fun v =>
    let eff := v.eff true
    let q := Req.atomic w
    v.issue none false eff (addrOps m eff ++ atomOps w) fun v st =>
      if eff == 0#32 then v.finish st {}
      else
        let as := v.addrs m (w.off.signExtend 64) eff
        v.rows12 st q as
          (if !v.roomForRed as.length then v.wait
           else
             let h := v.atomHeads w false
             (h.1.sendRed (v.newRed w as h.2 none)).finish st { kills := addrKills m eff })

/-! ## Performing a RED (R171, R172) -/

/-- The reduction-fault log's entry for a failed lane (R172). -/
def Red.entry (r : Red) (x : RedLane) (cause n : Nat) : List Byte :=
  let aop := match r.word.op with
    | .add => 0 | .min => 1 | .max => 2 | .and => 3 | .or => 4 | .xor => 5 | .swap => 6 | .cas => 7 | .fadd => 8
  leBytes 8 x.addr.toNat ++ leBytes 8 x.data.toNat
    ++ leBytes 8 (r.tidx % 2 ^ 32 * 2 ^ 32 + cause * 2 ^ 24 + aop * 2 ^ 20 + (if r.word.wide then 0 else 3) * 2 ^ 18
        + x.lane * 2 ^ 13 + r.party.gid * 2 ^ 8)
    ++ leBytes 8 (n % 2 ^ 32 * 2 ^ 32 + r.seq.toNat)

/-- Logs a failed lane: the entry at base + 32·(n mod 256), or the overflow flag and a halt where 256 stand (R172). -/
def State.logRed (s : State) (r : Red) (x : RedLane) (cause : Nat) : State :=
  match s.context? r.ctx with
  | none => s
  | some c =>
    if 256 ≤ c.logMarks.length then
      ((s.modContext r.ctx fun c => { c with logN := c.logN + 1, logOvf := true }).haltContext r.ctx).drainLog r.ctx
    else
      let bs := r.entry x cause c.logN
      let s1 := s.modContext r.ctx fun c =>
        { c with logN := c.logN + 1, logMarks := c.logMarks ++ [{ n := c.logN, team := r.tidx, launch := r.seq, bytes := bs }] }
      let s1 := s1.captureNote ((s.team? r.party.team).elim 0 Team.grid) (.logEntry r.ctx c.logN bs)
      match s1.walk c (c.logBase + 32 * (c.logN % 256)) with
      | .ok e => s1.ctlPoke (e.pa (c.logBase + 32 * (c.logN % 256))) bs
      | _ => s1

/-- A RED or ATOM whose last lane has ended is final for its team's XDRAIN (R263). -/
def State.redEnded (s : State) (r : Red) : State :=
  s.modTeam r.party.team fun t => { t with ended := t.ended ++ [(r.id, [(itemThread r.id, 1)])] }

/-- Ends the lane that stands first in a RED or ATOM, with what the lane gives an ATOM: the others stay. A RED without a lane is
gone; an ATOM stays until its values return. -/
def State.redNext (s : State) (id : Nat) (f : AtomBack → AtomBack) : State :=
  let step (r : Red) : Red := if r.id = id then { r with lanes := r.lanes.drop 1, wait := none, back := r.back.map f } else r
  let s := match s.reds.find? fun r => r.id == id with
    | some r => if r.lanes.length ≤ 1 then s.redEnded r else s
    | none => s
  { s with reds := (s.reds.map step).filter fun r => !r.lanes.isEmpty || r.back.isSome }

/-- The race metadata of a RED or ATOM; it counts as its issuing group (R193). -/
def Red.access (r : Red) : Access :=
  { thread := itemThread r.id, agent := r.uid, epoch := 1, rel := r.rel, bytes := 0, write := true, plain := false }

/-- An acquiring ATOM gains what its location's releases carry, and its split has read the location (R186, R188). -/
def State.atomAcquire (s : State) (r : Red) (b : AtomBack) (l : Loc) : State :=
  let hs := (l.keys (atomBytes r.word)).flatMap s.headsAt
  let time := s.hist.length
  s.modGroup r.party.team r.party.gid fun g =>
    g.readNote b.flow r.party (if acquires r.word.order then some r.word.scope else none) hs l.key (atomBytes r.word) (some time)

/-- Performs one lane of a RED or ATOM at a location as one indivisible operation (R170). A RED logs an uncorrectable error,
an ATOM keeps the lane for its ECC. R193's race of a RED or ATOM as the later access is reported by no one: R171 and R172 give
a RED no such cause, and an ATOM checked row 6 at issue (DEDUCED, log 45). -/
def State.redAt (s : State) (r : Red) (x : RedLane) (l : Loc) : State :=
  let n := atomBytes r.word
  match r.back with
  | none =>
    if s.locBad l n then (s.logRed r x 0x60).redNext r.id id
    else
      (s.rmw r.access r.heads l n fun old => atomNew r.word.op n r.sgn old (x.data.toNat % 2 ^ (8 * n)) 0).2.redNext r.id id
  | some b =>
    if s.locBad l n then s.redNext r.id fun b => { b with bad := b.bad ||| laneMask [x.lane] }
    else
      let o := (s.atomAcquire r b l).rmw r.access r.heads l n fun old =>
        atomNew r.word.op n r.sgn old (x.data.toNat % 2 ^ (8 * n)) (x.swap.toNat % 2 ^ (8 * n))
      o.2.redNext r.id fun b => { b with got := b.got ++ [(x.lane, o.1)] }

/-- A lane of a RED that fails is logged; an ATOM passed its checks at issue, and a lane whose page is gone since is not
performed. -/
def State.redFails (s : State) (r : Red) (x : RedLane) (cause : Nat) : State :=
  match r.back with
  | none => (s.logRed r x cause).redNext r.id id
  | some _ => s.redNext r.id fun b => { b with bad := b.bad ||| laneMask [x.lane] }

/-- Where a record about a RED comes from. -/
def Red.origin (r : Red) : Origin := ⟨some r.core, some r.seq⟩

/-- Where a lane of a RED or ATOM stands: ready, waiting for its page, or failing with a cause (R171). -/
def State.redLane (s : State) (r : Red) (x : RedLane) : State :=
  if r.word.sp then
    match s.translate r.core r.ctx x.addr.toNat with
    | (.absent mal, s) =>
      { s.gridReport ((s.team? r.party.team).elim 0 Team.grid) (.xlate r.ctx x.addr.toNat mal r.origin) with
        reds := s.reds.map fun q => if q.id = r.id then { q with wait := some x.addr.toNat } else q }
    | (.outside, s) => s.redFails r x 0x11
    | (.ok e, s) =>
      if !e.rd || !e.w then s.redFails r x 0x11
      else if e.kind != .scratch then s.redFails r x 0x12
      else s.redAt r x (.at (e.pa x.addr.toNat) x.addr.toNat e.race)
  else
    match s.team? r.party.team with
    | none => s.redNext r.id id
    | some t =>
      match s.shAddr t x.addr (atomBytes r.word) with
      | .ok u off => s.redAt r x (.sh u off)
      | _ => (s.redNext r.id id).raiseGang r.party.team r.party.gid (r.back.elim 0 AtomBack.flow) (laneMask [x.lane])

/-- Whether a RED or ATOM is the oldest unperformed one of its group: they are performed in program order (R185, R191). -/
def State.redOldest (s : State) (r : Red) : Bool :=
  s.reds.all fun x => !(x.party.team == r.party.team && x.party.gid == r.party.gid && !x.lanes.isEmpty && decide (x.id < r.id))

/-- The RED or ATOM of a number, if its next lane can be performed. -/
def State.redDue (s : State) (id : Nat) (atom : Bool) : Option Red :=
  s.reds.find? fun r => r.id == id && r.wait.isNone && r.back.isSome == atom && s.redOldest r

/-- RED_PERFORM: the next lane of a RED that does not wait for a page (R171). -/
def execRedPerform (red : Nat) (s : State) : Out :=
  match s.redDue red false with
  | none => .refused (.notDue "RED_PERFORM")
  | some r =>
    match r.lanes with
    | [] => .next (s.redNext red id)
    | x :: _ => .next (s.redLane r x)

/-- The next lane of an ATOM is performed at its home (R170). -/
def State.atomPerform (s : State) (id : Nat) : State :=
  match s.redDue id true with
  | some r => (match r.lanes with | x :: _ => s.redLane r x | [] => s)
  | none => s

/-! ## Shared append and fences -/

/-- The split has read a location by an atomic (R186). -/
def View.sawAtomic (v : View) (l : Loc) (n : Nat) : View :=
  v.withGroup (v.g.modOrd v.fl fun o => { o with seen := noteSeen o.seen l.key n v.s.hist.length })

def execSapp (sd sb sc : BitVec 6) (off : BitVec 23) (s : State) : Out :=
  withIssuer s 2 fun v =>
    let q : Req := { space := .sh, z := 8, align := 8, rd := true, wr := true, plain := false, scalar := true, ecc := true }
    v.issue none false 0 [opSw sd.toNat, opS sb.toNat, opS sc.toNat] fun v st =>
      v.access st q (v.addr1 sb off) fun v locs =>
        match locs.flatMap Prod.snd with
        | [] => v.finish st {}
        | l :: _ =>
          if v.redsBefore false then v.wait
          else
            let v := v.withGroup { v.g with relMark := none }
            let r := v.s.rmw (v.accessOf q) v.ord.relFence l 8 fun old => (old + (v.rdS sc.toNat).toNat) % 2 ^ 64
            ((v.onState r.2).sawAtomic l 8).finish st { sw := [(sd.toNat, BitVec.ofNat 64 r.1)] }

/-- What a FENCE does to happens-before (R179, R189, R190). -/
def View.fenceOrder (v : View) (kind : FKind) (sc : Scope) : View :=
  let v1 := if kind == .rel then v
    else v.withGroup { v.g with clk := acquireFrom v.party sc v.ord.acqSeen v.g.clk, relMark := none }
  let wide := kind == .full && (sc == .slice || sc == .sys)
  let v2 := if wide then v1.withGroup { v1.g with clk := v1.g.clk.join (assocGet [] v1.s.fenceClk v1.t.slice) } else v1
  if kind == .acq then v2
  else
    let r := v2.release sc
    let v3 := r.1.withGroup (r.1.g.modOrd r.1.fl fun o =>
      { o with relFence := r.2 :: o.relFence.filter fun h => h.scope != sc })
    if wide then v3.onState { v3.s with fenceClk := assocSet v3.s.fenceClk v3.t.slice v3.clk } else v3

def execFence (kind : FKind) (sc : Scope) (s : State) : Out :=
  withIssuer s 1 fun v =>
    v.issue none false 0 [] fun v st =>
      let wide := sc == .slice || sc == .sys
      if v.redsOut then v.wait
      else
        match if wide then v.s.ownEntry v.t else none with
        | some n => v.trap st 0x21 (BitVec.ofNat 64 n)
        | none => (v.fenceOrder kind sc).finish st {}

end Sys2Proof.Machine
end

