-- ==== Sys2Proof/Machine/Sync.lean ====
section
/-!
DEFINITION. Barrier objects and named queues (R25 to R28, R175 to R178), with the events that end their waits.
-/
namespace Sys2Proof.Machine

/-! ## Sleeping flows -/

/-- Changes what every flow sleeps on, given its party. -/
def State.mapSleeps (s : State) (f : Party → Sleep → Sleep) : State :=
  { s with teams := s.teams.map fun t => { t with groups := t.groups.map fun g =>
      let p : Party := ⟨t.slice, t.gang, t.uid, g.gid⟩
      { g with
        recs := Vector.ofFn fun (k : Fin 4) => { g.record k.val with sleep := f p (g.record k.val).sleep }
        handler := g.handler.map fun h => { h with sleep := f p h.sleep } } } }

/-- What the flow of a team and group sleeps on; awake where there is no such flow. -/
def State.sleepAt (s : State) (u gid fl : Nat) : Sleep :=
  match s.group? u gid with
  | some g => if fl ≤ 4 then g.sleepOf fl else .awake
  | none => .awake

/-- The flow no longer sleeps. -/
def View.awaken (v : View) : View := v.withGroup (v.g.setSleep v.fl .awake)

/-! ## The barrier object (R25 to R27) -/

/-- A barrier object's fields. -/
structure BarObj where
  phase    : Bool
  pending  : BitVec 16
  expected : BitVec 16
  tx       : BitVec 32
  status0  : Word
  status1  : Word
  hi0      : Word
  hi1      : Word
  deriving DecidableEq, Repr

/-- Reads a barrier object. `hi0` and `hi1` keep the bits that must be zero. -/
def readBar (m : List Host.Cell) (off : Nat) : BarObj :=
  let w0 := Memory.word m off
  let w1 := Memory.word m (off + 8)
  { phase := w0.getLsbD 32, pending := w0.extractLsb' 16 16, expected := w0.extractLsb' 0 16, tx := w1.extractLsb' 0 32,
    status0 := Memory.word m (off + 16), status1 := Memory.word m (off + 24), hi0 := w0 >>> 33, hi1 := w1 >>> 32 }

def BarObj.bytes (b : BarObj) : List Byte :=
  leBytes 8 (b.hi0.toNat * 2 ^ 33 + b.phase.toNat * 2 ^ 32 + b.pending.toNat * 2 ^ 16 + b.expected.toNat)
    ++ leBytes 8 (b.hi1.toNat * 2 ^ 32 + b.tx.toNat) ++ leBytes 8 b.status0.toNat ++ leBytes 8 b.status1.toNat

/-- The object right after BARV.init (R175). -/
def BarObj.fresh (n : BitVec 16) : BarObj :=
  { phase := false, pending := n, expected := n, tx := 0, status0 := 0, status1 := 0, hi0 := 0, hi1 := 0 }

/-- The steps of R27: the object after an arrival or a byte adjustment, and whether the phase flipped. -/
def BarObj.arrive (b : BarObj) (status : Word) (arrives : Bool) (bytes : BitVec 32) : BarObj × Bool :=
  let b := if b.phase then { b with status1 := b.status1 ||| status } else { b with status0 := b.status0 ||| status }
  let b := { b with pending := if arrives then b.pending - 1 else b.pending, tx := b.tx - bytes }
  if b.pending = 0 ∧ b.tx = 0 then
    let b := { b with phase := !b.phase, pending := b.expected }
    (if b.phase then { b with status1 := 0 } else { b with status0 := 0 }, true)
  else (b, false)

/-- The first flip after a split began to sleep in BWAIT wakes it; it acquires every release into the object so far. A BWAIT
that finds the phase flipped acquires what had been released by then (R176). -/
def State.wakeBwait (s : State) (u off : Nat) : State :=
  let hs := s.headsAt (sharedKey u off)
  ({ s with flips := assocSet s.flips (sharedKey u off) hs } : State).mapSleeps fun p sl =>
    match sl with
    | .bwait t o par => if t = u ∧ o = off then .woken (acquireFrom p .gang hs []) else .bwait t o par
    | x => x

/-- An arrival at an object's home, one indivisible operation, releasing into the object (R27, R188). -/
def State.arrive (s : State) (u off : Nat) (status : Word) (arrives : Bool) (bytes : BitVec 32) (h : RelHead) : State :=
  let r := (readBar (s.sharedOf u) off).arrive status arrives bytes
  let s := (s.homeWrite h.writer (.sh u off) r.1.bytes).setHeads (sharedKey u off) true [h]
  if r.2 then s.wakeBwait u off else s

/-- The object's access: 32 bytes, 8-byte aligned (R175). -/
def Req.barrier (rd : Bool) : Req :=
  { space := .sh, z := 32, align := 8, rd := rd, wr := true, plain := false, scalar := true, ecc := rd }

/-- The address checks of R175, then `k` with the object's team, offset and shared address. -/
def View.barrier (v : View) (st : BitVec 10) (sb : BitVec 6) (off : BitVec 23) (rd : Bool)
    (k : View → Nat → Nat → Word → Out) : Out :=
  let q := Req.barrier rd
  v.access st q (v.addr1 sb off) fun v _ =>
    let a := v.rdS sb.toNat + off.signExtend 64
    let l := v.shLoc q a
    if v.redsBefore true || v.redBlocks { q with z := 8 } ((List.range 4).map fun i => Loc.sh l.1 (l.2 + 8 * i)) then v.wait
    else k v l.1 l.2 a

/-- BARV.arr, .tx and .arrtx: a release into the object, performed at once in the own core and as an in-flight item on a
gang peer's object (R175). -/
def View.arrival (v : View) (st : BitVec 10) (u off : Nat) (a : Word) (arrives : Bool) (bytes : BitVec 32) : Out :=
  if v.redsOut then v.wait
  else
    let r := v.release .gang
    let v := r.1
    if u = v.u then (v.onState (v.s.arrive u off 0 arrives bytes r.2)).finish st {}
    else
      let i : Item :=
        { id := v.s.nextId, ctx := v.t.ctx, core := v.core, party := v.party, flow := v.fl, lanes := v.members, tok := 0, eff := 0, sa := 0,
          sb := 0, vs := [], d := 0, outs := [], drop := [], dropM := false, clk := r.2.clk, waits := [],
          work := .arrival a arrives bytes }
      (v.onState { v.s with nextId := v.s.nextId + 1, items := v.s.items ++ [i] }).finish st {}

def execBarvInit (sd sb : BitVec 6) (off : BitVec 23) (s : State) : Out :=
  withIssuer s 2 fun v =>
    v.issue none false 0 [opS sd.toNat, opS sb.toNat] fun v st =>
      v.barrier st sb off false fun v u o _ =>
        let x := v.rdS sd.toNat
        if bits x 15 0 = 0 || bits x 63 16 ≠ 0 then v.trap st 0x01 0
        else
          let v := v.withGroup { v.g with relMark := none }
          let s := v.s.storeAt (v.accessOf (Req.barrier false)) false v.ord.relFence (.sh u o) 32
            (leNat (BarObj.fresh (x.setWidth 16)).bytes)
          (v.onState { s with flips := assocDel s.flips (sharedKey u o) }).finish st {}

def execBarvArr (_sd sb : BitVec 6) (off : BitVec 23) (s : State) : Out :=
  withIssuer s 2 fun v =>
    v.issue none false 0 [opS sb.toNat] fun v st =>
      v.barrier st sb off true fun v u o a => v.arrival st u o a true 0

def execBarvTx (sd sb : BitVec 6) (off : BitVec 23) (s : State) : Out :=
  withIssuer s 2 fun v =>
    v.issue none false 0 [opS sd.toNat, opS sb.toNat] fun v st =>
      v.barrier st sb off true fun v u o a => v.arrival st u o a false (-((v.rdS sd.toNat).setWidth 32))

def execBarvArrtx (sd sb : BitVec 6) (off : BitVec 23) (s : State) : Out :=
  withIssuer s 2 fun v =>
    v.issue none false 0 [opS sd.toNat, opS sb.toNat] fun v st =>
      v.barrier st sb off true fun v u o a => v.arrival st u o a true (-((v.rdS sd.toNat).setWidth 32))

/-- An arrival has been performed, for its team's XDRAIN (R263). -/
def State.arrivalEnded (s : State) (i : Item) : State :=
  (s.dropItem i.id).modTeam i.party.team fun t => { t with ended := t.ended ++ [(i.id, i.clk)] }

/-- BARRIER_ARRIVAL: an arrival reaches a gang peer's object (R175); where the peer has left, it raises GANG (R283). -/
def execBarrierArrival (item : Nat) (s : State) : Out :=
  match s.item? item with
  | none => .refused (.notDue "BARRIER_ARRIVAL")
  | some i =>
    match i.work with
    | .arrival a arrives bytes =>
      let s := s.arrivalEnded i
      match s.team? i.party.team with
      | none => .next s
      | some t =>
        match s.shAddr t a 32 with
        | .ok u off => .next (s.arrive u off 0 arrives bytes ⟨i.party, .gang, i.clk⟩)
        | _ => .next (s.raiseGang i.party.team i.party.gid i.flow i.lanes)
    | _ => .refused (.notDue "BARRIER_ARRIVAL")

/-- What had been released into a barrier object when its phase last flipped. -/
def State.flipHeads (s : State) (u off : Nat) : List RelHead := assocGet [] s.flips (sharedKey u off)

/-- BWAIT (R28, R176). -/
def execBwait (sd sb : BitVec 6) (off : BitVec 23) (s : State) : Out :=
  withIssuer s 2 fun v =>
    v.issue none false 0 [opS sd.toNat, opS sb.toNat] fun v st =>
      v.barrier st sb off true fun v u o _ =>
        let v := v.withGroup (v.g.drainFlow v.fl)
        let par := (v.rdS sd.toNat).getLsbD 0
        if (readBar (v.s.sharedOf u) o).phase != par then
          (v.onState (v.s.acquireClk v.u v.g.gid (acquireFrom v.party .gang (v.s.flipHeads u o) []))).finish st {}
        else v.sleep st (.bwait u o par)

/-- The clock with which a BWAIT returns: it was woken, or the object's phase now differs (R175, R176). -/
def State.bwaitReturn (s : State) (p : Party) (sl : Sleep) : Option Clock :=
  match sl with
  | .woken c => some c
  | .bwait u off par =>
    if (readBar (s.sharedOf u) off).phase != par then some (acquireFrom p .gang (s.flipHeads u off) []) else none
  | _ => none

/-- Whether a team no longer holds the core on which a gang peer looked for its object (R161). -/
def State.peerGone (s : State) (u : Nat) : Bool := match s.team? u with | some t => t.core.isNone | none => true

/-- Whether a BWAIT sleeps on the object of a team that has left its core. -/
def State.bwaitGone (s : State) (sl : Sleep) : Bool := match sl with | .bwait u _ _ => s.peerGone u | _ => false

/-- BWAIT_WAKE: a woken BWAIT returns (R176); one whose object's team has left its core raises GANG (R283). -/
def execBwaitWake (team gid fl : Nat) (s : State) : Out :=
  match s.viewOf team gid fl 2 with
  | none => .refused (.notDue "BWAIT_WAKE")
  | some v =>
    if s.bwaitGone (s.sleepAt team gid fl) then v.awaken.trap 0 0x14 0 else
    match s.bwaitReturn v.party (s.sleepAt team gid fl) with
    | none => .refused (.notDue "BWAIT_WAKE")
    | some c => (v.onState (s.acquireClk team gid c)).awaken.finish 0 {}

/-! ## Named queues (R177, R178) -/

/-- A named queue object's fields. -/
structure QueueObj where
  ring  : Nat
  logd  : Nat
  head  : BitVec 32
  tail  : BitVec 32
  allow : Nat
  deriving DecidableEq, Repr

/-- Reads a queue object in an allocation of `size` bytes; none where it is malformed (R177). -/
def readQueue (m : List Host.Cell) (off size : Nat) : Option QueueObj :=
  let w (i : Nat) : Word := Memory.word m (off + 8 * i)
  let q : QueueObj :=
    { ring := bits (w 0) 31 0, logd := bits (w 1) 3 0, head := (w 2).setWidth 32, tail := (w 3).setWidth 32,
      allow := bits (w 4) 15 0 }
  let zero := bits (w 0) 63 32 == 0 && bits (w 1) 63 4 == 0 && bits (w 2) 63 32 == 0 && bits (w 3) 63 32 == 0
    && bits (w 4) 63 16 == 0 && w 5 == 0 && w 6 == 0 && w 7 == 0
  let held := (q.tail - q.head).toNat
  if zero && decide (q.logd ≤ 8) && q.ring % 8 == 0 && decide (q.ring < 2 ^ 21)
      && decide (q.ring + 8 * 2 ^ q.logd ≤ size) && decide (held ≤ 2 ^ q.logd) && decide (q.allow ≤ 2 ^ q.logd - held)
  then some q else none

/-- What a test of a queue object gives; `bad` is a read that meets an uncorrectable error (R165 row 7). -/
inductive QueueTest where
  | done (s : State) (value : Word)
  | wait
  | malformed
  | bad

/-- One push of a value or pop at an object, as one operation (R178), by a flow of the group `p` at a scope. -/
def State.queueTest (s : State) (u off : Nat) (push : Option Word) (p : Party) (fl : Nat) (sc : Scope) : QueueTest :=
  let m := s.sharedOf u
  let size := match s.team? u with | some t => t.shBytes | none => 0
  if s.badShared u off 64 then .bad else
  match readQueue m off size with
  | none => .malformed
  | some q =>
    let key := sharedKey u off
    match push with
    | some x =>
      if q.allow = 0 then .wait
      else
        let r := s.releaseBy p.team p.gid fl p sc
        let e := q.ring + 8 * (q.tail.toNat % 2 ^ q.logd)
        let s := r.1.homeWrite r.2.writer (.sh u e) (leBytes 8 x.toNat)
        let s := s.homeWrite r.2.writer (.sh u (off + 24)) (leBytes 8 (q.tail + 1).toNat ++ leBytes 8 (q.allow - 1))
        .done ((s.setHeads key true [r.2]).touchQueue u off 64) 0
    | none =>
      if q.tail = q.head then .wait
      else
        let e := q.ring + 8 * (q.head.toNat % 2 ^ q.logd)
        if s.badShared u e 8 then .bad else
        let x := Memory.word m e
        let s := s.acquireClk p.team p.gid (acquireFrom p sc (s.headsAt key) [])
        let w := (s.releaseBy p.team p.gid fl p sc).2.writer
        let s := s.homeWrite w (.sh u (off + 16)) (leBytes 8 (q.head + 1).toNat)
        let s := s.homeWrite w (.sh u (off + 32)) (leBytes 8 (q.allow + 1))
        .done (s.touchQueue u off 64) x

/-- Ends a push or pop that has been performed: the PC moves on, and a pop writes its register. -/
def View.queueDone (v : View) (st : BitVec 10) (push : Bool) (sd : Nat) (s : State) (x : Word) : Out :=
  (v.onState s).finish st { sw := if push then [] else [(sd, x)] }

def queueScope (gang : Bool) : Scope := if gang then .gang else .team

/-- QPUSH and QPOP: the address checks, the scope, and one test (R178). -/
def View.queueOp (v : View) (st : BitVec 10) (push : Bool) (sd sb : BitVec 6) (gang : Bool) (off : BitVec 23) : Out :=
  let q : Req := { space := .sh, z := 64, align := 64, rd := true, wr := true, plain := false, scalar := true, ecc := true }
  let a := v.addr1 sb off
  let l := v.shLoc q (v.rdS sb.toNat + off.signExtend 64)
  let peer := !gang && l.1 != v.u
  match (v.row1 q a).find? fun c => !c.2.isEmpty with
  | some c => v.trap st c.1 0
  | none =>
    if peer then v.trap st 0x14 0
    else
      v.access st q a fun v _ =>
        if v.redsBefore (!push) || v.redBlocks { q with z := 8 } ((List.range 8).map fun i => Loc.sh l.1 (l.2 + 8 * i)) then
          v.wait
        else
          let v := v.withGroup (v.g.drainFlow v.fl)
          let x := if push then some (v.rdS sd.toNat) else none
          match v.s.queueTest l.1 l.2 x v.party v.fl (queueScope gang) with
          | .done s y => v.queueDone st push sd.toNat s y
          | .wait => v.sleep st (.queue l.1 l.2 x sd gang false)
          | .malformed => v.trap st 0x15 0
          | .bad => v.trap st 0x60 (hinfoMem 0)

def execQpush (sd sb : BitVec 6) (gang : Bool) (off : BitVec 23) (s : State) : Out :=
  withIssuer s 2 fun v =>
    v.issue none false 0 [opS sd.toNat, opS sb.toNat] fun v st => v.queueOp st true sd sb gang off

def execQpop (sd sb : BitVec 6) (gang : Bool) (off : BitVec 23) (s : State) : Out :=
  withIssuer s 2 fun v =>
    v.issue none false 0 [opSw sd.toNat, opS sb.toNat] fun v st => v.queueOp st false sd sb gang off

/-- QUEUE_RETEST: a sleeper tests its object again after an access to it (R178). An object whose team has left its core raises
GANG, as a first test would. -/
def execQueueRetest (team gid fl : Nat) (s : State) : Out :=
  match s.viewOf team gid fl 2, s.sleepAt team gid fl with
  | some v, .queue u off push sd gang true =>
    if v.redsBefore push.isNone then .refused (.notDue "QUEUE_RETEST") else
    let w := v.awaken
    if s.peerGone u then w.trap 0 0x14 0 else
    (match w.s.queueTest u off push v.party fl (queueScope gang) with
     | .done s y => w.queueDone 0 push.isSome sd.toNat s y
     | .wait => v.sleep 0 (.queue u off push sd gang false)
     | .malformed => w.trap 0 0x15 0
     | .bad => w.trap 0 0x60 (hinfoMem 0))
  | _, _ => .refused (.notDue "QUEUE_RETEST")

end Sys2Proof.Machine
end

