-- ==== Sys2Proof/Machine/System.lean ====
section
/-!
DEFINITION. The system instructions (R181 to R184, R219 to R222), reserved opcodes (R88), and the events of traps and
waits within a core (R38, R65, R170, R210, R217 to R222).
-/
namespace Sys2Proof.Machine

/-! ## Traps and returns -/

/-- A reserved opcode or illegal function value raises ILLOP, its length fixed by the opcode (R56, R59, R88). -/
def execReservedOpcode (w0 _w1 : W32) (s : State) : Out :=
  withIssuer s (opWords (opcodeOf w0)) fun v => v.trap 0 0x01 0

def execTrap (code : BitVec 8) (s : State) : Out :=
  withIssuer s 1 fun v => v.issue none false 0 [] fun v st => v.stop st 0x41 (code.zeroExtend 64)

/-- A record made consistent: EXEC within MEMBERS, no lane of an earlier record, none unlaunched (R33, R219). A lane that has
exited and that HSW MASKS names again is a member again: R219 removes none (DEDUCED, log 45). -/
def Split.consistent (r : Split) (taken launched : Mask) : Split :=
  let m := r.members &&& launched &&& ~~~taken
  if m == 0#32 then Split.unused else { r with members := m, exec := r.exec &&& m }

/-- The records as TRET resumes them, before merging (R219). -/
def Group.consistentRecs (g : Group) : Vector Split 4 :=
  let r0 := (g.record 0).consistent 0 g.launched
  let r1 := (g.record 1).consistent r0.members g.launched
  let r2 := (g.record 2).consistent (r0.members ||| r1.members) g.launched
  let r3 := (g.record 3).consistent (r0.members ||| r1.members ||| r2.members) g.launched
  #v[r0, r1, r2, r3]

/-- TRET in the group: the results of the handler are written, the banked registers end, and the records resume (R182,
R219). -/
def Group.tret (g : Group) : Group :=
  let g := g.drainFlow 4
  { g with handler := none, recs := g.consistentRecs }.merge

/-- Every lane exits (R182): no record is used. -/
def Group.allExit (g : Group) : Group :=
  let g := g.drainFlow 4
  { g with handler := none, recs := Vector.replicate 4 Split.unused, pending := none, preempt := false }

/-- A team leaves its core when every group that has not retired has executed TEXIT.saved (R182): its allocation and
registers go. -/
def State.leave (s : State) (u : Nat) : State :=
  match s.team? u with
  | none => s
  | some t =>
    if t.core.isSome && t.groups.all (fun g => g.retired || g.saved) && t.groups.any (fun g => g.saved) then
      { s.modTeam u (fun t => { t with core := none, lastCore := t.core.getD t.lastCore, shared := [] }) with
        eccShared := s.eccShared.filter fun e => e.1 != u }
    else s

/-- Whether a RED or ATOM of a group is still on its way: TEXIT waits for it. -/
def View.stillOut (v : View) : Bool := v.s.reds.any fun r => r.party.team == v.u && r.party.gid == v.g.gid && r.back.isSome

/-- TEXIT.done of a group. -/
def State.texitDone (s : State) (u gid : Nat) : State :=
  (s.modGroup u gid Group.allExit).exitRays u gid (BitVec.allOnes 32)

/-- TEXIT.saved of a group. -/
def State.texitSaved (s : State) (u gid : Nat) : State :=
  ((s.exitRays u gid (BitVec.allOnes 32)).modGroup u gid fun g =>
    { g.drainFlow 4 with handler := none, saved := true }).leave u

/-- PRIV in service mode (R53, R59). -/
def View.privCheck (v : View) : Option Nat := if v.svc then some 0x05 else none

def execTret (s : State) : Out :=
  withIssuer s 1 fun v =>
    v.issue v.privCheck false 0 [] fun v _ =>
      if v.inKill then .next (v.s.texitDone v.u v.g.gid) else .next (v.s.modGroup v.u v.g.gid Group.tret)

def execTexitDone (s : State) : Out :=
  withIssuer s 1 fun v =>
    v.issue v.privCheck false 0 [] fun v _ => if v.stillOut then v.wait else .next (v.s.texitDone v.u v.g.gid)

/-- TEXIT.saved. A killed group does not resume, so in a KILL handler it ends the group (R228). -/
def execTexitSaved (s : State) : Out :=
  withIssuer s 1 fun v =>
    v.issue v.privCheck false 0 [] fun v _ =>
      if v.stillOut then v.wait
      else if v.inKill then .next (v.s.texitDone v.u v.g.gid)
      else .next (v.s.texitSaved v.u v.g.gid)

/-! ## Hidden state (R221, R222) -/

/-- An address field, NONE reading all ones. -/
def joinWord (j : Option Word) : Word := j.getD (BitVec.allOnes 64)

def wordJoin (x : Word) : Option Word := if x = BitVec.allOnes 64 then none else some x

/-- The PENDING selector: the cause held (R217). -/
def Group.pendingWord (g : Group) : Word :=
  match g.pending with
  | some p => BitVec.ofNat 64 (2 ^ 63 + p.record % 4 * 2 ^ 40 + p.cause % 256 * 2 ^ 32 + p.hinfo.toNat % 2 ^ 32)
  | none => if g.preempt then BitVec.ofNat 64 (2 ^ 63 + 0x50 * 2 ^ 32) ||| g.pendRest else g.pendRest

/-- Writes the PENDING selector. A PREEMPT keeps its record and HINFO, and so does a value without VALID, with its cause. -/
def Group.setPending (g : Group) (x : Word) : Group :=
  if bitOf x 63 then
    if bits x 39 32 = 0x50 then
      { g with pending := none, preempt := true, pendRest := BitVec.ofNat 64 (bits x 41 40 * 2 ^ 40 + bits x 31 0) }
    else
      { g with pending := some ⟨bits x 41 40, bits x 39 32, BitVec.ofNat 64 (bits x 31 0)⟩, preempt := false, pendRest := 0 }
  else { g with pending := none, preempt := false, pendRest := BitVec.ofNat 64 (bits x 41 0) }

/-- A field of a split record (R221). -/
def Split.field (r : Split) (f : Nat) : Word :=
  match f with
  | 0 => r.pc
  | 1 => BitVec.ofNat 64 (r.members.toNat * 2 ^ 32 + r.exec.toNat)
  | 2 => BitVec.ofNat 64 (r.repi.toNat * 2 ^ 12 + r.mode.toNat)
  | 3 => joinWord r.join
  | _ => joinWord r.ojoin

/-- Hidden state as HSR reads it (R221). -/
def View.hidden (v : View) (sel : Nat) : Word :=
  if sel < 0x0200 then (v.g.record (bits (BitVec.ofNat 64 sel) 5 4)).field (sel % 16)
  else if sel = 0x0200 then (match v.g.handler with | some h => BitVec.ofNat 64 h.traprec | none => 0)
  else if sel = 0x0201 then v.g.pendingWord
  else if sel = 0x0300 then v.g.slive ||| 1
  else if sel < 0x0500 then (vget v.g.vlive (sel - 0x0400) 0).zeroExtend 64
  else if sel = 0x0500 then v.g.tokBusy
  else if sel < 0x0640 then (if v.g.slive.getLsbD (sel - 0x0600) then vget v.g.s (sel - 0x0600) 0 else poison)
  else if sel < 0x0642 then (vget v.g.m (14 + (sel - 0x0640)) 0).zeroExtend 64
  else if sel = 0x0700 then v.g.saveArea
  else v.t.teamArea

/-- The register that VLIVE names, which must lie in the budget (R222). -/
def selOps (sel : BitVec 16) : List Opnd :=
  if 0x0400 ≤ sel.toNat ∧ sel.toNat < 0x0480 then [opWr (sel.toNat - 0x0400)] else []

def execHsr (sd : BitVec 6) (sel : BitVec 16) (s : State) : Out :=
  withIssuer s 1 fun v =>
    v.issue v.privCheck false 0 (opSw sd.toNat :: selOps sel) fun v st =>
      v.finish st { sw := [(sd.toNat, v.hidden sel.toNat)] }

/-- Whether a value keeps the field rules of a writable selector (R221, R222). -/
def hswLegal (sel : Nat) (x : Word) : Bool :=
  if sel < 0x0200 then
    match sel % 16 with
    | 0 => bits x 1 0 == 0
    | 2 => bits x 63 18 == 0 && modeLegal (BitVec.ofNat 64 (bits x 11 0))
    | _ => true
  else if sel = 0x0201 then bits x 62 42 == 0
  else if sel = 0x0500 then x == 0
  else true

/-- Writes a field of a split record (R221). -/
def Split.setField (r : Split) (f : Nat) (x : Word) : Split :=
  match f with
  | 0 => { r with pc := x }
  | 1 => { r with members := x.extractLsb' 32 32, exec := x.extractLsb' 0 32 }
  | 2 => { r with mode := x.extractLsb' 0 12, repi := x.extractLsb' 12 6 }
  | 3 => { r with join := wordJoin x }
  | _ => { r with ojoin := wordJoin x }

/-- Hidden state as HSW writes it (R221, R222). A write to a service register revives it (R50). -/
def Group.setHidden (g : Group) (sel : Nat) (x : Word) : Group :=
  if sel < 0x0200 then g.modRec (bits (BitVec.ofNat 64 sel) 5 4) fun r => r.setField (sel % 16) x
  else if sel = 0x0201 then g.setPending x
  else if sel = 0x0300 then { g with slive := x ||| 1 }
  else if sel < 0x0500 then { g with vlive := vset g.vlive (sel - 0x0400) (x.setWidth 32) }
  else if sel = 0x0500 then { g with tokBusy := 0 }
  else if sel < 0x0640 then g.writeS false (sel - 0x0600) x
  else g.writeM false (14 + (sel - 0x0640)) (x.setWidth 32)

def execHsw (sel : BitVec 16) (sa : BitVec 6) (s : State) : Out :=
  withIssuer s 1 fun v =>
    v.issue v.privCheck false 0 (opS sa.toNat :: selOps sel) fun v st =>
      let x := v.rdS sa.toNat
      if hswLegal sel.toNat x then (v.withGroup (v.g.setHidden sel.toNat x)).finish st {} else v.trap st 0x01 0

/-- HSR HBAR: an arrival and a sleep (R222). -/
def execHbar (sd : BitVec 6) (s : State) : Out :=
  withIssuer s 1 fun v =>
    v.issue v.privCheck false 0 [opSw sd.toNat] fun v st =>
      if v.redsOut then v.wait
      else
        let r := v.release .gang
        (r.1.withGroup { r.1.g with hbarIn := true }).sleep st (.hbar sd)

/-- ICINV waits for its split's earlier engine items and, since they store, its group's REDs and ATOMs; it then empties the
core's instruction cache (R184). -/
def execIcinv (s : State) : Out :=
  withIssuer s 1 fun v =>
    v.issue none false 0 [] fun v st =>
      if v.redsOut || (v.s.itemsOf v.u v.g.gid).any (fun i => i.ofSplit (!v.svc) v.members) then v.wait
      else { v with s := { v.s with icMark := assocSet v.s.icMark v.core v.s.wlog.length } }.finish st {}

/-! ## Events -/

/-- LONG_LATENCY_RESULT: the result whose window has closed is written (R65). -/
def execLongLatencyResult (team gid idx : Nat) (s : State) : Out :=
  match s.group? team gid with
  | none => .refused (.notDue "LONG_LATENCY_RESULT")
  | some g =>
    match g.pends[idx]? with
    | none => .refused (.notDue "LONG_LATENCY_RESULT")
    | some p =>
      if p.win = 0 then
        .next (s.modGroup team gid fun g => { g.deliver p with pends := g.pends.eraseIdx idx })
      else .refused (.notDue "LONG_LATENCY_RESULT")

/-- The oldest ATOM of a flow whose lanes have all ended. -/
def State.atomDone (s : State) (u gid fl : Nat) : Option (Red × AtomBack) :=
  (s.reds.find? fun r => r.party.team == u && r.party.gid == gid && r.lanes.isEmpty && r.back.any fun b => b.flow == fl).bind
    fun r => r.back.map fun b => (r, b)

/-- The old values of an ATOM are written to the lanes that were performed (R170). -/
def Group.atomWrite (g : Group) (b : AtomBack) : Group :=
  match b.d with
  | some d => g.writeV d (b.eff &&& ~~~b.bad) (pieceReg (b.got.map fun p => (p.1, [p.2])) 0)
  | none => g

/-- Whether a split waits at an ATOM for its return. -/
def Sleep.isAtom : Sleep → Bool
  | .atom _ => true
  | _ => false

/-- A split that waited at the ATOM goes on, unless the ATOM's trap is raised there. -/
def Group.atomAwake (g : Group) (fl : Nat) (pc : Word) : Group :=
  if (g.sleepOf fl).isAtom && g.pcOf fl == pc then (g.setSleep fl .awake).setFlow fl (pc + 8) (g.repiOf fl) else g

/-- ATOM_RETURN: the old values of a flow's ATOM are written, and ECC is raised at it for lanes that were not performed
(R170). The trap names the record that holds those lanes now. -/
def execAtomReturn (team gid fl : Nat) (s : State) : Out :=
  match s.atomDone team gid fl with
  | none => .refused (.notDue "ATOM_RETURN")
  | some (r, b) =>
    let s1 := ({ s with reds := s.reds.filter fun x => x.id != r.id } : State).modGroup team gid fun g => g.atomWrite b
    if b.bad == 0#32 then .next (s1.modGroup team gid fun g => g.atomAwake fl b.pc)
    else
      let k := match s1.group? team gid with | some g => g.recordOf fl b.bad | none => fl
      .next (s1.raise team gid k 0x60 (hinfoMem b.bad) b.pc)

/-- RECORD_FREE_WAIT_END: a record is unused, and the waiting split executes its JMPI or CALLI again (R38). -/
def execRecordFreeWaitEnd (team gid fl : Nat) (s : State) : Out :=
  match s.group? team gid with
  | none => .refused (.notDue "RECORD_FREE_WAIT_END")
  | some g =>
    if g.sleepOf fl == .record && !g.freeRecs.isEmpty then .next (s.modGroup team gid fun g => g.setSleep fl .awake)
    else .refused (.notDue "RECORD_FREE_WAIT_END")

/-- YIELD_EXPIRY: the cycles after a YIELD are over (R210). -/
def execYieldExpiry (team gid fl : Nat) (s : State) : Out :=
  if s.sleepAt team gid fl = .yield then .next (s.modGroup team gid fun g => g.setSleep fl .awake)
  else .refused (.notDue "YIELD_EXPIRY")

/-- Whether a group holds a cause that it takes at its next boundary in service mode (R217). -/
def Group.entryDue (g : Group) : Bool :=
  !g.retired && !g.saved && g.handler.isNone && g.live != 0#32 && (g.pending.isSome || g.preempt)

/-- TRAP_ENTRY: the group takes the cause it holds, a trap before a pre-emption (R217, R218). -/
def execTrapEntry (team gid : Nat) (s : State) : Out :=
  match s.group? team gid with
  | none => .refused (.notDue "TRAP_ENTRY")
  | some g =>
    if g.entryDue then
      match g.pending with
      | some p =>
        .next ((s.modGroup team gid fun g => { g with pending := none }).takeTrap team gid p.record p.cause p.hinfo
          (g.pcOf (p.record % 4)))
      | none =>
        .next ((s.modGroup team gid fun g => { g with preempt := false, pendRest := 0 }).takeTrap team gid 0 0x50
          (BitVec.ofNat 64 (bits g.pendRest 31 0)) 0)
    else .refused (.notDue "TRAP_ENTRY")

/-- The teams that take part in a team's handler barrier: its gang, or itself (R222). -/
def State.gangOf (s : State) (t : Team) : List Team := s.teams.filter fun x => x.gang == t.gang

/-- Whether every group of a gang that has not retired has arrived at HBAR. -/
def State.hbarFull (s : State) (t : Team) : Bool :=
  (s.gangOf t).all (fun x => x.groups.all fun g => g.retired || g.hbarIn)
    && (s.gangOf t).any fun x => x.groups.any fun g => g.hbarIn

/-- A group's return from HBAR with the count and clock of the round (R222). -/
def Group.hbarReturn (g : Group) (n : Nat) (c : Clock) : Group :=
  match g.sleepOf 4 with
  | .hbar sd =>
    let g := ((g.writeS true sd.toNat (BitVec.ofNat 64 n)).setFlow 4 (g.pcOf 4 + 4) (g.repiOf 4)).countWindow 4
    { g.setSleep 4 .awake with hbarIn := false, clk := g.clk.join c }
  | _ => { g with hbarIn := false }

/-- HBAR_RELEASE: all have arrived; the sleepers return and a new round begins (R222). -/
def execHbarRelease (team : Nat) (s : State) : Out :=
  match s.team? team with
  | none => .refused (.notDue "HBAR_RELEASE")
  | some t =>
    if s.hbarFull t then
      let ts := s.gangOf t
      let n := (ts.map fun x => (x.groups.filter fun g => g.hbarIn).length).sum
      let c := ts.foldl (fun c x => x.groups.foldl (fun c g => if g.hbarIn then Clock.join c g.clk else c) c) []
      .next { s with teams := s.teams.map fun x =>
        if x.gang = t.gang then { x with groups := x.groups.map fun g => g.hbarReturn n c } else x }
    else .refused (.notDue "HBAR_RELEASE")

/-- HANDLER_RESUME: the control cores resume a handler stopped by TRAP or BRK (R220). -/
def execHandlerResume (team gid : Nat) (s : State) : Out :=
  match (s.group? team gid).bind Group.handler with
  | none => .refused (.notDue "HANDLER_RESUME")
  | some h =>
    if h.stop = .debug then
      .next (s.modGroup team gid fun g => { g with handler := some { h with stop := .running } })
    else .refused (.notDue "HANDLER_RESUME")

end Sys2Proof.Machine
end

