-- ==== Sys2Proof/Machine/Items.lean ====
section
/-!
DEFINITION. Engine items in common (R23 to R29): the issue of a command, an item's reach of memory (R15, R22, R255, R372),
and its final status in the token, the barrier object and the registers.
-/
namespace Sys2Proof.Machine

/-! ## Issue -/

/-- The operands of a token field (R24). -/
def tokOps (tok : BitVec 6) : List Opnd := if tok = 0 then [] else [opSw tok.toNat]

/-- An optional scalar field, 0 naming none. -/
def optS (r : BitVec 6) : List Opnd := if r = 0 then [] else [opS r.toNat]

/-- Engine commands in a KILL handler are double faults (R228; the cause reported is the handler's, DESIGN CHOICE, log 25). -/
def View.engineIssue (v : View) (eff : Mask) (ops : List Opnd) (body : View → BitVec 10 → Out) : Out :=
  if v.inKill then v.trap 0 0x51 0 else v.issue none false eff ops body

/-- The lanes' values of a register as an item captures them. -/
def View.capture (v : View) (r : Nat) : LaneVec := v.rdV r

/-- An item as its command captures it, before its work is named. -/
def View.newItem (v : View) (tok : BitVec 6) (eff : Mask) (work : Work) : Item :=
  { id := v.s.nextId, ctx := v.t.ctx, core := v.core, party := v.party, flow := v.fl, lanes := v.members, tok := tok, eff := eff, sa := 0,
    sb := 0, vs := [], d := 0, outs := [], drop := [], dropM := false, clk := [], waits := [], work := work }

/-- Marks a token register busy (R24). -/
def Group.busyToken (g : Group) (handler : Bool) (tok : Nat) : Group :=
  if tok = 0 then g
  else if handler && decide (56 ≤ tok) then
    { g with handler := g.handler.map fun h => { h with tokBusy := h.tokBusy ||| BitVec.ofNat 8 (2 ^ (tok - 56)) } }
  else { g with tokBusy := g.tokBusy ||| BitVec.ofNat 64 (2 ^ tok) }

/-- The registers of an item that other items hold: their results are discarded (R29). -/
def View.heldBefore (v : View) (i : Item) : Item :=
  { i with
    drop := i.heldV.flatMap fun r => ((List.range r.2).map fun k => r.1 + k).filter fun x => inRuns v.heldV x
    dropM := i.heldM.any fun m => v.heldM.contains m }

/-- The view with an item posted: its issue is a release toward the item (R188, R194). -/
def View.posted (v : View) (i : Item) : View :=
  let r := v.release .group
  let v := r.1
  let i := v.heldBefore { i with clk := r.2.clk }
  let v := v.withGroup (v.g.busyToken (v.fl == 4) i.tok.toNat)
  v.onState { v.s with nextId := v.s.nextId + 1, items := v.s.items ++ [i] }

/-- Posts an item and completes the command; a release waits for the group's REDs. -/
def View.post (v : View) (st : BitVec 10) (i : Item) (e : Eff) : Out :=
  if v.redsOut then v.wait else (v.posted i).finish st e

/-! ## Reach of memory -/

/-- A run of bytes that an item reads or writes: shared or virtual. -/
structure Run where
  sh   : Bool
  addr : Word
  n    : Nat
  rd   : Bool
  wr   : Bool
  deriving DecidableEq, Repr

/-- What a run meets: where its pieces lie, a page to wait for, or a failure cause (R22, R255). -/
inductive RunFate where
  | ok (ls : List (Loc × Nat))
  | wait (va : Nat) (malformed : Bool)
  | fail (cause : Nat)
  deriving DecidableEq, Repr

/-- The parts of a virtual run in 8 KiB pages. -/
def pageParts (va n : Nat) : List (Nat × Nat) :=
  (List.range ((va + n + 8191) / 8192 - va / 8192)).map fun i =>
    let lo := max va ((va / 8192 + i) * 8192)
    (lo, min (va + n) ((va / 8192 + i + 1) * 8192) - lo)

/-- Whether the link behind a page's frame is down (R372; DESIGN CHOICE, log 2). -/
def State.linkOut (s : State) (e : TlbEntry) (pa : Nat) : Bool :=
  match e.kind with
  | .host => s.linksDown.contains .host
  | .peer => s.linksDown.contains (.mukai (pa % 2 ^ 48 / 2 ^ 44))
  | _ => false

/-- The answer of the far side of a HOST or PEER page (R372; DESIGN CHOICE, log 16). -/
def State.farCause (s : State) (e : TlbEntry) (pa : Nat) : Option Nat :=
  match e.kind with
  | .host | .peer =>
    if s.linkOut e pa then some 0x60
    else match Config.farAnswer s.tick pa with | 0 => none | 1 => some 0x11 | _ => some 0x60
  | _ => none

/-- Who accesses, for the race metadata: an item counts as its issuing group (R193). -/
structure Agent where
  core : Nat
  ctx  : Nat
  acc  : Access
  clk  : Clock

def Item.agent (i : Item) (s : State) : Agent :=
  let u := groupUid i.party.team i.party.gid
  { core := i.core, ctx := i.ctx, clk := i.clk
    acc := { thread := itemThread i.id, agent := u, epoch := 1, rel := s.relsOf i.party.team i.party.gid, bytes := 0,
             write := false, plain := true } }

/-- One page part of a run, in a translated page. -/
def State.partFate (s : State) (g : Agent) (reach : PKind → Bool) (r : Run) (e : TlbEntry) (va n : Nat) : RunFate :=
  let pa := e.pa va
  if (r.rd && !e.rd) || (r.wr && !e.w) then .fail 0x11
  else if !reach e.kind then .fail 0x12
  else
    match s.farCause e pa with
    | some c => .fail c
    | none =>
      if e.race && s.raceAt { g.acc with write := r.wr } g.clk pa n then .fail 0x20
      else if r.rd && s.badMem pa n then .fail 0x60
      else .ok [(.at pa va e.race, n)]

/-- Two parts of one run: a failure stands before a wait, the first of each. -/
def RunFate.and : RunFate → RunFate → RunFate
  | .fail c, _ => .fail c
  | _, .fail c => .fail c
  | .wait a m, _ => .wait a m
  | _, .wait a m => .wait a m
  | .ok a, .ok b => .ok (a ++ b)

/-- The parts of a virtual run. A page that the control cores refused to this item fails (R22). -/
def State.partFates (s : State) (g : Agent) (reach : PKind → Bool) (r : Run) : List (Nat × Nat) → RunFate × State
  | [] => (.ok [], s)
  | p :: ps =>
    let x := s.translate g.core g.ctx p.1
    let f : RunFate := match x.1 with
      | .absent mal => if s.refused.contains (g.acc.thread, p.1 / 8192) then .fail 0x11 else .wait p.1 mal
      | .outside => .fail 0x11
      | .ok e => x.2.partFate g reach r e p.1 p.2
    let q := State.partFates x.2 g reach r ps
    (f.and q.1, q.2)

/-- What a run meets (R255): a shared run lies in a gang allocation of `t`. -/
def State.runFate (s : State) (g : Agent) (t : Option Team) (reach : PKind → Bool) (r : Run) : RunFate × State :=
  if r.n = 0 then (.ok [], s)
  else if r.sh then
    (match t with
     | none => .fail 0x14
     | some t =>
       match s.shAddr t r.addr r.n with
       | .shbound => .fail 0x15
       | .gang => .fail 0x14
       | .ok u off => if r.rd && s.badShared u off r.n then .fail 0x60 else .ok [(.sh u off, r.n)], s)
  else if 2 ^ 53 < r.addr.toNat + r.n then (.fail 0x11, s)
  else s.partFates g reach r (pageParts r.addr.toNat r.n)

/-- Several runs, in order. -/
def State.runFates (s : State) (g : Agent) (t : Option Team) (reach : PKind → Bool) : List Run → List RunFate × State
  | [] => ([], s)
  | r :: rs =>
    let x := s.runFate g t reach r
    let q := State.runFates x.2 g t reach rs
    (x.1 :: q.1, q.2)

/-- The whole of several runs. -/
def joinFates (fs : List RunFate) : RunFate := fs.foldl RunFate.and (.ok [])

def RunFate.locs : RunFate → List (Loc × Nat)
  | .ok ls => ls
  | _ => []

/-- How an engine reads: its writes since issue aside, no thread's writes are its own (R194). -/
def Agent.reader (g : Agent) : Reader :=
  { thread := g.acc.thread, clk := g.clk, plain := g.acc.plain, seen := [], mark := none }

/-- The bytes an engine reads at a location: each byte may miss writes that race with it (R192, R195). -/
def State.engineBytes (s : State) (r : Reader) (l : Loc) (n : Nat) : List Byte :=
  if (s.missable r l.key n).isEmpty then s.locBytes l n
  else (List.range n).flatMap fun i => s.readBytes r (l.plus i) 1

/-- Reads a run's bytes. -/
def State.runBytes (s : State) (g : Agent) (ls : List (Loc × Nat)) : List Byte :=
  ls.flatMap fun l => s.engineBytes g.reader l.1 l.2

/-- Notes an item's reads of its runs. -/
def State.noteRuns (s : State) (g : Agent) (wr : Bool) (ls : List (Loc × Nat)) : State :=
  ls.foldl (fun s l => s.noteLoc { g.acc with write := wr } l.1 l.2) s

/-- Writes bytes over a run's parts: a plain write, which carries no release (R189). -/
def State.runWrite (s : State) (g : Agent) : List (Loc × Nat) → List Byte → State
  | [], _ => s
  | (l, n) :: ls, bs =>
    State.runWrite (s.storeAt { g.acc with write := true } false [] l n (leNat (bs.take n))) g ls (bs.drop n)

/-- All kinds but a few. -/
def reachAll (_ : PKind) : Bool := true
def reachScratch (k : PKind) : Bool := k == .scratch

/-! ## Waits on pages -/

/-- Where a record about an item comes from (R12, R202). -/
def State.itemOrigin (s : State) (i : Item) : Origin :=
  ⟨some i.core, (s.team? i.party.team).bind fun t => (s.grid? t.grid).map Grid.seq⟩

/-- A part of an item waits for a page; the fault record goes to the control cores (R22). -/
def State.itemWaits (s : State) (id idx va : Nat) (malformed : Bool) : State :=
  match s.item? id with
  | none => s
  | some i =>
    (s.modItem id fun i => { i with waits := i.waits ++ [(idx, va)] }).gridReport ((s.team? i.party.team).elim 0 Team.grid)
      (.xlate i.ctx va malformed (s.itemOrigin i))

def Item.waiting (i : Item) (idx : Nat) : Bool := i.waits.any fun w => w.1 == idx

/-! ## Final status -/

/-- The token layout (R24). -/
def tokenWord (e : ItemEnd) (result : Nat) : Word :=
  match e with
  | .done => BitVec.ofNat 64 (result % 2 ^ 40)
  | .failed c => BitVec.ofNat 64 (2 ^ 48 + c % 256 * 2 ^ 40 + result % 2 ^ 40)
  | .cancelled => BitVec.ofNat 64 (2 * 2 ^ 48 + result % 2 ^ 40)
  | .code k => BitVec.ofNat 64 (k % 2 ^ 16 * 2 ^ 48 + result % 2 ^ 40)

/-- Writes a token register that is still busy, with what its reader acquires (R24). A register whose busy bit HSW TOKBUSY has
cleared takes no status, nor does a banked register of a handler that has ended (DEDUCED, log 45). -/
def Group.writeToken (g : Group) (handler : Bool) (tok : Nat) (x : Word) (c : Clock) : Group :=
  if tok = 0 then g
  else if handler && decide (56 ≤ tok) then
    match g.handler with
    | some h =>
      if h.tokBusy.getLsbD (tok - 56) then
        { (g.writeS true tok x) with
          handler := (g.writeS true tok x).handler.map fun h => { h with tokBusy := h.tokBusy &&& ~~~BitVec.ofNat 8 (2 ^ (tok - 56)) }
          tokClk := (tokKey true tok, c) :: g.tokClk.filter fun e => e.1 != tokKey true tok }
      else g
    | none => g
  else if g.tokBusy.getLsbD tok then
    { (g.writeS false tok x) with
      tokBusy := g.tokBusy &&& ~~~BitVec.ofNat 64 (2 ^ tok)
      tokClk := (tok, c) :: g.tokClk.filter fun e => e.1 != tok }
  else g

/-- The clock of an item after its accesses. -/
def Item.doneClk (i : Item) : Clock := i.clk.raise (itemThread i.id) 1

/-- An item is final: the completion of its grid releases its accesses (R198), its team's XDRAIN acquires them (R263), and what
was refused to it is forgotten. -/
def State.itemFinal (s : State) (i : Item) : State :=
  let s := { s with refused := s.refused.filter fun r => r.1 != itemThread i.id }
  let s := s.modTeam i.party.team fun t => { t with ended := t.ended ++ [(i.id, i.doneClk)] }
  match s.team? i.party.team with
  | some t => s.modGrid t.grid fun g => { g with fin := g.fin.join i.doneClk }
  | none => s

/-- An item's final status: its token is written and the item is gone, so its registers are no longer held (R23, R24,
R29). -/
def State.closeItem (s : State) (i : Item) (x : Word) : State :=
  let s := s.modGroup i.party.team i.party.gid fun g => g.writeToken (i.flow == 4) i.tok.toNat x i.doneClk
  (s.itemFinal i).dropItem i.id

/-- Writes an item's vector results where they are not discarded: (offset from D, lanes, values) (R29). -/
def State.itemWriteV (s : State) (i : Item) (ws : List (Nat × Mask × LaneVec)) : State :=
  s.modGroup i.party.team i.party.gid fun g =>
    ws.foldl (fun g w => if i.drop.contains w.1 then g else g.writeV w.1 w.2.1 w.2.2) g

/-- Whether the barrier object of a command can still be reached: its team may have left its core (R283). -/
def State.barReached (s : State) (i : Item) (bar : Word) : Bool :=
  match s.team? i.party.team with
  | none => false
  | some t => match s.shAddr t bar 32 with | .ok _ _ => true | _ => false

/-- The arrival or adjustment of a completing command on its barrier object; an object whose team has left takes none. -/
def State.itemArrive (s : State) (i : Item) (bar : Word) (status : Nat) (arrives : Bool) (bytes : Nat) : State :=
  match s.team? i.party.team with
  | none => s
  | some t =>
    match s.shAddr t bar 32 with
    | .ok u off =>
      s.arrive u off (BitVec.ofNat 64 status) arrives (BitVec.ofNat 32 bytes) ⟨i.party, .gang, i.doneClk⟩
    | _ => s

/-- The status bits of an item's end (R26). -/
def ItemEnd.barBits : ItemEnd → Nat
  | .failed _ => 2
  | .cancelled => 1
  | _ => 0

end Sys2Proof.Machine
end

