-- ==== Sys2Proof/Machine/Copy.lean ====
section
/-!
DEFINITION. The copy engine (R250 to R264): XCP, its descriptors and half-chains, the completion of an item and of its
command, XDRAIN and XQRY.
-/
namespace Sys2Proof.Machine

/-! ## Descriptors (R252 to R254, R256 to R258) -/

/-- A well-formed descriptor. `ext` and the strides are by dimension, dimension 0 first. -/
structure CopyDesc where
  src   : Word
  dst   : Word
  kind  : Nat
  chain : Nat
  st    : ETy
  dt    : ETy
  padz  : Bool
  blk   : Bool
  ssh   : Bool
  dsh   : Bool
  ext   : List Nat
  ss    : List Int
  ds    : List Int
  scale : Word
  len   : Nat
  p0    : Nat
  p1    : Nat
  deriving DecidableEq, Repr

/-- The type of a four-bit code (R61); 15 is none. -/
def etyOf (n : Nat) : Option ETy :=
  [ETy.i64, .n64, .i32, .n32, .i16, .n16, .i8, .n8, .f64, .f32, .f16, .bf16, .e4m3, .e5m2, .e2m1][n]?

/-- Bytes of an element, 1 for e2m1 (R253). -/
def etyBytes (t : ETy) : Nat := max 1 (tyWidth t / 8)

/-- The types of QUANT and REDUCE sources, of DEQ results, and of quantised data (R256). -/
def wideTy (t : ETy) : Bool := t == .f32 || t == .bf16
def deqTy (t : ETy) : Bool := t == .f32 || t == .f16 || t == .bf16
def quantTy (t : ETy) : Bool := t == .e4m3 || t == .e5m2 || t == .e2m1

/-- The pairings of R256. -/
def chainTypes (chain : Nat) (a b : ETy) : Bool :=
  match chain with
  | 0 => a == b
  | 1 | 3 => quantTy a && deqTy b
  | 2 => a == b && decide (tyWidth a ≤ 32)
  | 4 => wideTy a && quantTy b
  | 5 => wideTy a && a == b
  | _ => false

def isXpose (chain : Nat) : Bool := chain == 2 || chain == 3
def isDeq (chain : Nat) : Bool := chain == 1 || chain == 3

/-- Whether a chain has scales (R252). -/
def hasScale (chain : Nat) : Bool := isDeq chain || chain == 4

/-- The block length (R257) and the tile side (R256). -/
def blockLen (blk : Bool) : Nat := if blk then 32 else 128
def tileSide (t : ETy) : Nat := if tyWidth t ≤ 16 then 32 else 16

/-- The unit of padding of dimension 0 (R258). -/
def padUnit (chain : Nat) (blk : Bool) (t : ETy) : Nat :=
  max (if hasScale chain then blockLen blk else 0) (if isXpose chain then tileSide t else 0)

def roundUp (n u : Nat) : Nat := (n + u - 1) / u * u

/-- A signed 32-bit field of a dword. -/
def strideAt (w : Word) (lo : Nat) : Int := (w.extractLsb' lo 32).toInt

/-- Whether an address or stride is a multiple of a size. -/
def strideOk (sizeOf : Nat) (xs : List Int) : Bool := xs.all fun x => x % (sizeOf : Int) == 0

/-- A box descriptor (R252, R253, R256, R258), from its eight dwords. -/
def boxDesc (w : List Word) (kind chain : Nat) (st dt : ETy) : Option CopyDesc :=
  let c := w.getD 2 0
  let padz := bitOf c 48
  let blk := bitOf c 47
  let pe0 := bits c 31 16
  let sc := hasScale chain
  let ext := ((List.range 4).map fun k => bits (w.getD 3 0) (16 * k + 15) (16 * k)) ++ [bits c 15 0]
  let strideDims := if sc then 3 else 4
  let sw := (List.range strideDims).map fun k => w.getD (4 + k) 0
  let ss := 0 :: (sw.map fun x => strideAt x 0)
  let ds := 0 :: (sw.map fun x => strideAt x 32)
  let scale := if sc then w.getD 7 0 else 0
  let es := etyBytes st
  let ed := etyBytes dt
  let e0 := ext.getD 0 0
  let e1 := ext.getD 1 0
  let u0 := padUnit chain blk dt
  let p0 := if padz then (if pe0 = 0 then roundUp e0 u0 else pe0) else e0
  let p1 := if padz && isXpose chain then roundUp e1 (tileSide dt) else e1
  let e2m1 := st == .e2m1 || dt == .e2m1
  let ok :=
    decide (2 ≤ kind) && decide (kind ≤ (if sc then 4 else 5)) && (ext.take kind).all (fun e => e != 0)
      && (ext.drop kind).all (fun e => e == 0) && (sw.drop (kind - 1)).all (fun x => x == 0)
      && chainTypes chain st dt
      && (w.getD 0 0).toNat % es == 0 && (w.getD 1 0).toNat % ed == 0 && strideOk es ss && strideOk ed ds
      && (!sc || scale.toNat % (if blk then 1 else 4) == 0)
      && !(e2m1 && (e0 % 2 == 1 || pe0 % 2 == 1 || (isXpose chain && e1 % 2 == 1 && dt == .e2m1)))
      && (if padz then (decide (1 ≤ chain) && decide (chain ≤ 4) && decide (e0 ≤ p0) && p0 % u0 == 0) else pe0 == 0)
  if ok then
    some
      { src := w.getD 0 0, dst := w.getD 1 0, kind := kind, chain := chain, st := st, dt := dt, padz := padz, blk := blk,
        ssh := bitOf c 46, dsh := bitOf c 45, ext := ext.map fun e => max 1 e, ss := ss, ds := ds, scale := scale, len := 0,
        p0 := p0, p1 := p1 }
  else none

/-- A linear descriptor (R254). -/
def linearDesc (w : List Word) : Option CopyDesc :=
  let c := w.getD 2 0
  let len := bits (w.getD 3 0) 31 0
  if bits c 59 47 = 0 ∧ bits c 31 0 = 0 ∧ bits (w.getD 3 0) 63 32 = 0 ∧ len ≠ 0 ∧ (w.drop 4).all (fun x => x == 0) then
    some
      { src := w.getD 0 0, dst := w.getD 1 0, kind := 0, chain := 0, st := .n8, dt := .n8, padz := false, blk := false,
        ssh := bitOf c 46, dsh := bitOf c 45, ext := [len, 1, 1, 1, 1], ss := [], ds := [], scale := 0, len := len,
        p0 := len, p1 := 1 }
  else none

/-- A descriptor, or none where it is malformed (R252). -/
def parseDesc (w : List Word) : Option CopyDesc :=
  let c := w.getD 2 0
  if bits c 44 32 ≠ 0 then none
  else if bits c 63 60 = 0 then linearDesc w
  else
    match etyOf (bits c 56 53), etyOf (bits c 52 49) with
    | some a, some b => boxDesc w (bits c 63 60) (bits c 59 57) a b
    | _, _ => none

/-! ## What an item moves -/

/-- How a unit's bytes come from what it reads (R253, R256 to R259). -/
inductive CopyJob where
  | move
  | nibbles (hi : List Bool)
  | deq (s d : ETy) (hi blk : Bool)
  | quant (s d : ETy) (blk : Bool) (real total : Nat)
  | reduce (t : ETy)
  | zeros
  deriving DecidableEq, Repr

/-- An independent part of an item: the runs it reads and writes. -/
structure CopyUnit where
  reads  : List Run
  writes : List Run
  job    : CopyJob
  deriving DecidableEq, Repr

/-- The signed offset of an address. -/
def offsetBy (a : Word) (x : Int) : Word := a + BitVec.ofInt 64 x

/-- The address of row (i1, …, i4) (R253). -/
def rowAddr (a : Word) (strides : List Int) (idx : List Nat) : Word :=
  offsetBy a ((strides.zip (0 :: idx)).foldl (fun x p => x + p.1 * (p.2 : Int)) 0)

/-- Every (i1, i2, i3, i4) below the extents of dimensions 1 to 4, dimension 1 fastest. -/
def boxIndices (e1 e2 e3 e4 : Nat) : List (List Nat) :=
  (List.range e4).flatMap fun i4 => (List.range e3).flatMap fun i3 => (List.range e2).flatMap fun i2 =>
    (List.range e1).map fun i1 => [i1, i2, i3, i4]

/-- Source and destination runs. -/
def CopyDesc.srcRun (d : CopyDesc) (a : Word) (n : Nat) : Run := ⟨d.ssh, a, n, true, false⟩
def CopyDesc.dstRun (d : CopyDesc) (a : Word) (n : Nat) : Run := ⟨d.dsh, a, n, false, true⟩

/-- The blocks of a row (R257). -/
def CopyDesc.blocks (d : CopyDesc) : Nat :=
  if d.padz then d.p0 / blockLen d.blk else (d.ext.getD 0 0 + blockLen d.blk - 1) / blockLen d.blk

def CopyDesc.scaleBytes (d : CopyDesc) : Nat := if d.blk then 1 else 4

/-- The scale of block `j` of a row (R257). -/
def CopyDesc.scaleAddr (d : CopyDesc) (idx : List Nat) (j : Nat) : Word :=
  let e1 := d.ext.getD 1 1
  let e2 := d.ext.getD 2 1
  d.scale + BitVec.ofNat 64
    (d.scaleBytes * (j + d.blocks * (idx.getD 0 0 + e1 * (idx.getD 1 0 + e2 * idx.getD 2 0))))

/-- Bit offset of element `i` of a contiguous row, in bytes (R253). -/
def elemByte (t : ETy) (i : Nat) : Nat := i * tyWidth t / 8

/-- A row copied as bits, in parts that do not cross a source page. -/
def CopyDesc.moveRow (d : CopyDesc) (n : Nat) (idx : List Nat) : List CopyUnit :=
  let a := rowAddr d.src d.ss idx
  let b := rowAddr d.dst d.ds idx
  (pageParts a.toNat n).map fun p =>
    { reads := [d.srcRun (BitVec.ofNat 64 p.1) p.2]
      writes := [d.dstRun (b + BitVec.ofNat 64 (p.1 - a.toNat)) p.2]
      job := .move }

/-- One element of a DEQ or XPOSE item: `p` and `q` are its places in dimensions 0 and 1 (R253, R256 to R258). -/
def CopyDesc.element (d : CopyDesc) (idx : List Nat) (p : Nat) : CopyUnit :=
  let q := idx.getD 0 0
  let rest := idx.drop 1
  let real := decide (p < d.ext.getD 0 0) && decide (q < d.ext.getD 1 0)
  let dst :=
    if isXpose d.chain then rowAddr d.dst d.ds (p :: rest) + BitVec.ofNat 64 (elemByte d.dt q)
    else rowAddr d.dst d.ds idx + BitVec.ofNat 64 (elemByte d.dt p)
  let src := rowAddr d.src d.ss idx + BitVec.ofNat 64 (elemByte d.st p)
  let w := [d.dstRun dst (etyBytes d.dt)]
  if !real then { reads := [], writes := w, job := .zeros }
  else if isDeq d.chain then
    { reads := [d.srcRun src (etyBytes d.st), d.srcRun (d.scaleAddr idx (p / blockLen d.blk)) d.scaleBytes]
      writes := w, job := .deq d.st d.dt (p % 2 == 1) d.blk }
  else { reads := [d.srcRun src (etyBytes d.st)], writes := w, job := .move }

/-- One destination byte of an e2m1 transpose: the elements (p, q) and (p, q + 1) (R253, R258). -/
def CopyDesc.nibblePair (d : CopyDesc) (rest : List Nat) (p q : Nat) : CopyUnit :=
  let w := [d.dstRun (rowAddr d.dst d.ds (p :: rest) + BitVec.ofNat 64 (q / 2)) 1]
  if p < d.ext.getD 0 0 ∧ q < d.ext.getD 1 0 then
    { reads := [q, q + 1].map fun y =>
        d.srcRun (rowAddr d.src d.ss (y :: rest) + BitVec.ofNat 64 (elemByte d.st p)) 1
      writes := w, job := .nibbles [p % 2 == 1, p % 2 == 1] }
  else { reads := [], writes := w, job := .zeros }

/-- One block of a QUANT row: its data and its scale (R257, R258). -/
def CopyDesc.quantBlock (d : CopyDesc) (idx : List Nat) (j : Nat) : CopyUnit :=
  let b := blockLen d.blk
  let real := min b (d.ext.getD 0 0 - j * b)
  let total := if d.padz then b else real
  let src := rowAddr d.src d.ss idx + BitVec.ofNat 64 (elemByte d.st (j * b))
  let dst := rowAddr d.dst d.ds idx + BitVec.ofNat 64 (elemByte d.dt (j * b))
  { reads := if real = 0 then [] else [d.srcRun src (real * etyBytes d.st)]
    writes := [d.dstRun dst (total * tyWidth d.dt / 8), d.dstRun (d.scaleAddr idx j) d.scaleBytes]
    job := .quant d.st d.dt d.blk real total }

/-- One element of REDUCE (R259). -/
def CopyDesc.reduceElem (d : CopyDesc) (idx : List Nat) (p : Nat) : CopyUnit :=
  let o := BitVec.ofNat 64 (elemByte d.st p)
  { reads := [d.srcRun (rowAddr d.src d.ss idx + o) (etyBytes d.st)]
    writes := [{ d.dstRun (rowAddr d.dst d.ds idx + o) (etyBytes d.dt) with rd := true }]
    job := .reduce d.st }

/-- The units of an item (R253, R254, R256 to R259). -/
def CopyDesc.units (d : CopyDesc) : List CopyUnit :=
  let e (k : Nat) : Nat := d.ext.getD k 1
  if d.kind = 0 then d.moveRow d.len []
  else
    match d.chain with
    | 0 => (boxIndices (e 1) (e 2) (e 3) (e 4)).flatMap fun i => d.moveRow (e 0 * tyWidth d.st / 8) i
    | 4 => (boxIndices (e 1) (e 2) (e 3) (e 4)).flatMap fun i => (List.range d.blocks).map fun j => d.quantBlock i j
    | 5 => (boxIndices (e 1) (e 2) (e 3) (e 4)).flatMap fun i => (List.range (e 0)).map fun p => d.reduceElem i p
    | _ =>
      if d.chain = 2 ∧ d.st = .e2m1 then
        (boxIndices 1 (e 2) (e 3) (e 4)).flatMap fun i => (List.range d.p0).flatMap fun p =>
          (List.range (d.p1 / 2)).map fun h => d.nibblePair (i.drop 1) p (2 * h)
      else
        (boxIndices d.p1 (e 2) (e 3) (e 4)).flatMap fun i => (List.range d.p0).map fun p => d.element i p

/-- DBYTES (R260). -/
def CopyDesc.dbytes (d : CopyDesc) : Nat := d.units.foldl (fun n u => n + u.writes.foldl (fun n r => n + r.n) 0) 0

/-! ## The half-chains -/

/-- The four bits of an element within a byte (R253). -/
def nibbleOf (hi : Bool) (b : Byte) : Nat := if hi then b.toNat / 16 else b.toNat % 16

/-- The value of a block scale (R100, R257). -/
def scaleVal (blk : Bool) (bs : List Byte) : FVal :=
  if blk then (if leNat bs = 255 then .nan else .fin false 1 ((leNat bs : Int) - 127)) else fmtF32.decode (leNat bs)

/-- DEQ of one element (R256). -/
def deqElem (s d : ETy) (hi blk : Bool) (q sc : List Byte) : Nat :=
  match tyFmt s, tyFmt d with
  | some F, some G =>
    let x := if s = .e2m1 then nibbleOf hi (q.headD 0) else leNat q
    (fMul G .rne (F.decode x) (scaleVal blk sc)).1
  | _, _ => 0

/-- The largest magnitude among the finite values (R257). -/
def amaxOf (xs : List FVal) : Q :=
  xs.foldl (fun a x => if x.isNan || x.isInf then a else Q.max a x.q.abs) Q.zero

/-- MAX and EMAX (R257). -/
def quantMax : ETy → Nat × Int
  | .e4m3 => (448, 8)
  | .e5m2 => (57344, 15)
  | _ => (6, 2)

/-- The scale of a QUANT block: its stored code and its value (R257). -/
def quantScale (d : ETy) (blk : Bool) (amax : Q) : Nat × Q :=
  if amax.isZero then (if blk then 0x7F else 0x3F800000, Q.ofInt 1)
  else if blk then
    let e : Int := max (-127) (min 127 (amax.log2 - (quantMax d).2))
    ((e + 127).toNat, Q.dyadic 1 e)
  else
    let r := max (rne32 (amax.div (Q.ofInt (quantMax d).1))) 1
    (r, (fmtF32.decode r).q)

/-- One quantised element (R257, R108). -/
def quantElem (G : FFmt) (sc : Q) (x : FVal) : Nat :=
  match x with
  | .fin neg m _ => if m = 0 then G.signBit neg else (convRound G .rne true (x.q.div sc)).1
  | _ => (convFF G .rne true x).1

/-- Splits bytes into elements of `n` bytes. -/
def elemsOf (n : Nat) : Nat → List Byte → List Nat
  | 0, _ => []
  | k + 1, bs => leNat (bs.take n) :: elemsOf n k (bs.drop n)

/-- `n` dwords from bytes. -/
def dwordsOf (n : Nat) (bs : List Byte) : List Word := (elemsOf 8 n bs).map fun x => BitVec.ofNat 64 x

/-- Elements packed as bytes in row order (R253). -/
def rowBytes (t : ETy) (xs : List Nat) : List Byte := leBytes (xs.length * tyWidth t / 8) (packSubs (tyWidth t) xs)

/-- QUANT of one block: data and scale bytes (R257, R258). -/
def quantBytes (s d : ETy) (blk : Bool) (real total : Nat) (bs : List Byte) : List (List Byte) :=
  match tyFmt s, tyFmt d with
  | some F, some G =>
    let xs := (elemsOf (etyBytes s) real bs).map F.decode
    let sc := quantScale d blk (amaxOf xs)
    [rowBytes d (xs.map (quantElem G sc.2) ++ List.replicate (total - real) 0), leBytes (if blk then 1 else 4) sc.1]
  | _, _ => []

/-- The bytes of each run a unit writes, from the bytes of each run it reads; REDUCE also takes the old bytes. -/
def CopyUnit.values (u : CopyUnit) (ins : List (List Byte)) (old : List Byte) : List (List Byte) :=
  match u.job with
  | .move => [ins.headD []]
  | .nibbles hi =>
    [[BitVec.ofNat 8 (packSubs 4 ((hi.zip ins).map fun p => nibbleOf p.1 (p.2.headD 0)))]]
  | .deq s d hi blk => [leBytes (etyBytes d) (deqElem s d hi blk (ins.headD []) (ins.getD 1 []))]
  | .quant s d blk real total => quantBytes s d blk real total (ins.headD [])
  | .reduce t =>
    (match tyFmt t with
     | some F => [leBytes (etyBytes t) (fAdd F .rne (F.decode (leNat old)) (F.decode (leNat (ins.headD [])))).1]
     | none => [])
  | .zeros => u.writes.map fun r => List.replicate r.n 0

/-! ## Performing an item -/

/-- The kinds that the destination of a chain may have (R255, R372). -/
def dstReach (chain : Nat) (k : PKind) : Bool :=
  if 1 ≤ chain ∧ chain ≤ 3 then k == .scratch
  else if chain = 5 then k == .scratch || k == .main
  else true

/-- A unit with the fates of what it reads and writes. -/
structure UnitFate where
  unit  : CopyUnit
  reads : List RunFate
  dests : List RunFate

/-- The fates of an item's units. A REDUCE destination is accessed by atomics (R259). -/
def State.unitFates (s : State) (g : Agent) (t : Option Team) (chain : Nat) : List CopyUnit → List UnitFate × State
  | [] => ([], s)
  | u :: us =>
    let a := s.runFates g t reachAll u.reads
    let b := a.2.runFates { g with acc := { g.acc with plain := chain != 5 } } t (dstReach chain) u.writes
    let q := State.unitFates b.2 g t chain us
    ({ unit := u, reads := a.1, dests := b.1 } :: q.1, q.2)

def UnitFate.fate (f : UnitFate) : RunFate := joinFates (f.reads ++ f.dests)

/-- What a unit writes: each destination run with its bytes. A REDUCE takes the old value at its home. -/
def State.unitWrites (s : State) (g : Agent) (f : UnitFate) : List (List (Loc × Nat) × List Byte) :=
  let ins := f.reads.map fun r => s.runBytes g r.locs
  let old := match f.unit.job with
    | .reduce _ => ((f.dests.headD (.ok [])).locs).flatMap fun l => s.locBytes l.1 l.2
    | _ => []
  (f.dests.map RunFate.locs).zip (f.unit.values ins old)

/-- A list in an order that the free values pick (R284; DESIGN CHOICE, log 12). -/
def shuffle {α : Type} (seed : Nat) : Nat → List α → List α
  | 0, l => l
  | n + 1, l =>
    let k := Config.overlapPick seed n % l.length
    match l[k]? with
    | some x => x :: shuffle seed n (l.eraseIdx k)
    | none => l

/-- Writes runs whole. -/
def State.writeAll (s : State) (g : Agent) (ws : List (List (Loc × Nat) × List Byte)) : State :=
  ws.foldl (fun s w => s.runWrite g w.1 w.2) s

/-- Performs REDUCE units in turn, each a read-modify-write (R259). -/
def State.reduceAll (s : State) (g : Agent) (fs : List UnitFate) : State :=
  fs.foldl (fun s f => s.writeAll { g with acc := { g.acc with plain := false } } (s.unitWrites g f)) s

/-- The units of a REDUCE that have not been added yet. -/
def unitsLeft (moved : List Nat) (fs : List UnitFate) : List UnitFate :=
  (fs.zipIdx.filter fun p => !moved.contains p.2).map Prod.fst

/-- Notes the reads of an item. -/
def State.noteReads (s : State) (g : Agent) (fs : List UnitFate) : State :=
  fs.foldl (fun s f => f.reads.foldl (fun s r => s.noteRuns g false r.locs) s) s

/-- The rest of an item (R253 to R259): it reads before it writes, but for REDUCE (DESIGN CHOICE, log 26). -/
def State.copyWhole (s : State) (g : Agent) (chain : Nat) (moved : List Nat) (fs : List UnitFate) : State :=
  let s1 := s.noteReads g fs
  if chain = 5 then s1.reduceAll g (unitsLeft moved fs)
  else s1.writeAll g ((shuffle s.tick fs.length fs).flatMap fun f => s.unitWrites g f)

/-- The single bytes of runs that can be written. -/
def byteWrites (ws : List (List (Loc × Nat) × List Byte)) : List (Loc × Byte) :=
  ws.flatMap fun w =>
    (w.1.flatMap fun l => (List.range l.2).map l.1.plus).zip w.2

/-- The units of a REDUCE that a partial act adds. -/
def pickedUnits (tick : Nat) (moved : List Nat) (fs : List UnitFate) : List Nat :=
  ((fs.zipIdx.filter fun p => (match joinFates p.1.reads with | .ok _ => true | _ => false) && !moved.contains p.2
    && Config.partDone tick p.2)).map Prod.snd

/-- A part of an item (R195): each byte it can reach takes its new value or stays; an element of REDUCE is added whole. So an
item that ends FAILED or CANCELLED leaves its destination, and so a transfer becomes visible before its final status (DESIGN
CHOICE, log 13). -/
def State.copyPart (s : State) (g : Agent) (chain : Nat) (moved : List Nat) (fs : List UnitFate) : State :=
  if chain = 5 then
    s.reduceAll g ((pickedUnits s.tick moved fs).filterMap fun k => fs[k]?)
  else
    let able := fs.filter fun f => match joinFates f.reads with | .ok _ => true | _ => false
    let bs := byteWrites ((shuffle s.tick able.length able).flatMap fun f => s.unitWrites g f)
    ((bs.zipIdx.filter fun p => Config.partDone s.tick p.2).map Prod.fst).foldl
      (fun s b => s.runWrite g [(b.1, 1)] [b.2]) s

/-- Reads the descriptor of item `idx` (R250, R252). -/
def State.descOf (s : State) (i : Item) (desc : Word) (idx : Nat) : RunFate × List Word :=
  let r : Run := ⟨true, desc + BitVec.ofNat 64 (64 * idx), 64, true, false⟩
  match (s.runFate (i.agent s) (s.team? i.party.team) reachAll r).1 with
  | .ok ls => (.ok ls, dwordsOf 8 (s.runBytes (i.agent s) ls))
  | f => (f, [])

/-- Replaces how item `idx` of a command stands. -/
def Item.setCopy (i : Item) (idx : Nat) (c : CopyState) : Item :=
  match i.work with
  | .copy desc sts bar bytes batch items => { i with work := .copy desc sts bar bytes batch (items.set idx c) }
  | _ => i

/-- Sets the final status of item `idx`, with its record (R260). A record on a gang peer that has left its core fails the item
(R283). -/
def State.copyFinal (s : State) (i : Item) (idx : Nat) (e : ItemEnd) (db : Nat) : State :=
  match i.work with
  | .copy _ sts _ _ _ _ =>
    (match sts with
     | none => s.modItem i.id fun i => i.setCopy idx (.final e db)
     | some a =>
       let f := s.runFate (i.agent s) (s.team? i.party.team) reachAll ⟨true, a + BitVec.ofNat 64 (8 * idx), 8, false, true⟩
       let e := match f.1, e with | .fail c, .done => .failed c | _, e => e
       (f.2.runWrite (i.agent s) f.1.locs (leBytes 8 (tokenWord e (if e = .done then db else 0)).toNat)).modItem i.id
         fun i => i.setCopy idx (.final e db))
  | _ => s

/-- The cause of the first FAILED item, and whether any was CANCELLED (R261). -/
def copyEnd (es : List ItemEnd) : ItemEnd :=
  match es.find? fun e => match e with | .failed _ => true | _ => false with
  | some e => e
  | none => if es.contains .cancelled then .cancelled else .done

/-- The final status of an item that has one. -/
def CopyState.ended : CopyState → Option (ItemEnd × Nat)
  | .final e n => some (e, n)
  | _ => none

/-- When every item of a command is final, the barrier object and then the token (R261). -/
def State.copyClose (s : State) (id : Nat) : State :=
  match s.item? id with
  | none => s
  | some i =>
    match i.work with
    | .copy _ _ bar bytes batch items =>
      if items.any fun c => c.ended.isNone then s
      else
        let rs := items.filterMap CopyState.ended
        let es := rs.map Prod.fst
        let status := (if es.any fun e => e.barBits == 2 then 2 else 0) ||| (if es.contains .cancelled then 1 else 0)
        let s := match bar with
          | none => s
          | some a => s.itemArrive i a status (!bytes) (rs.foldl (fun (n : Nat) (r : ItemEnd × Nat) => n + r.2) 0)
        let result := if batch then (es.filter fun e => e == .done).length
          else match rs with | (.done, n) :: _ => n | _ => 0
        let e := if bar.all (s.barReached i) then copyEnd es else match copyEnd es with | .done => .failed 0x14 | e => e
        s.closeItem i (tokenWord e result)
    | _ => s

/-- The units of a started item and their fates, or the cause of a malformed descriptor. -/
def State.copyPlan (s : State) (i : Item) (ws : List Word) : Sum Nat (CopyDesc × List UnitFate) × State :=
  match parseDesc ws with
  | none => (.inl 0x01, s)
  | some d =>
    let f := s.unitFates (i.agent s) (s.team? i.party.team) d.chain d.units
    (.inr (d, f.1), f.2)

/-- The first item of a list that has not started. -/
def firstQueued (items : List CopyState) : Option Nat := items.findIdx? fun c => c == .queued

/-- The XCP commands of a cluster that hold a queue entry (R250). -/
def State.copyQueue (s : State) (cluster : Nat) : List Item :=
  s.items.filter fun i => clusterOf i.core == cluster && (match i.work with | .copy .. => true | _ => false)

/-- Whether item `idx` of a command starts next: every earlier command of the queue has started its items, and so have the
items before it (R251). -/
def State.copyStarts (s : State) (i : Item) (idx : Nat) : Bool :=
  let started (x : Item) : Bool := match x.work with | .copy _ _ _ _ _ items => (firstQueued items).isNone | _ => true
  (s.copyQueue (clusterOf i.core)).all (fun x => decide (i.id ≤ x.id) || started x)
    && (match i.work with | .copy _ _ _ _ _ items => firstQueued items == some idx | _ => false)

/-- An item starts: its descriptor is read, once (R250, R251). -/
def State.copyStart (s : State) (i : Item) (desc : Word) (idx : Nat) : State :=
  match s.descOf i desc idx with
  | (.ok ls, ws) => (s.noteRuns (i.agent s) false ls).modItem i.id fun i => i.setCopy idx (.running ws [])
  | (.fail c, _) => s.copyFinal i idx (.failed c) 0
  | (.wait _ _, _) => s.copyFinal i idx (.failed 0x01) 0

/-- The end of a started item: performed whole, failed, or waiting for a page (R22, R255). -/
def State.copyRun (s : State) (i : Item) (idx : Nat) (ws : List Word) (moved : List Nat) : State :=
  match s.copyPlan i ws with
  | (.inl c, s) => (s.copyFinal i idx (.failed c) 0).copyClose i.id
  | (.inr (d, fs), s) =>
    match joinFates (fs.map UnitFate.fate) with
    | .wait va mal => s.itemWaits i.id idx va mal
    | .fail c => ((s.copyPart (i.agent s) d.chain moved fs).copyFinal i idx (.failed c) d.dbytes).copyClose i.id
    | .ok _ => ((s.copyWhole (i.agent s) d.chain moved fs).copyFinal i idx .done d.dbytes).copyClose i.id

/-- How item `idx` of a command stands. -/
def Item.copyAt (i : Item) (idx : Nat) : Option CopyState :=
  match i.work with | .copy _ _ _ _ _ items => items[idx]? | _ => none

/-- COPY_ITEM_COMPLETE: item `idx` of an XCP command is performed and reaches its final status, or waits for a page (R22,
R255); one that has not started starts in its turn. -/
def execCopyItemComplete (item idx : Nat) (s : State) : Out :=
  match s.item? item with
  | none => .refused (.notDue "COPY_ITEM_COMPLETE")
  | some i =>
    match i.work, i.copyAt idx with
    | .copy desc _ _ _ _ _, some .queued =>
      if s.copyStarts i idx then
        (match (s.copyStart i desc idx).item? item with
         | none => .next (s.copyStart i desc idx)
         | some j =>
           match j.copyAt idx with
           | some (.running ws _) => .next ((s.copyStart i desc idx).copyRun j idx ws [])
           | _ => .next ((s.copyStart i desc idx).copyClose item))
      else .refused (.notDue "COPY_ITEM_COMPLETE")
    | .copy .., some (.running ws moved) =>
      if i.waiting idx then .refused (.notDue "COPY_ITEM_COMPLETE") else .next (s.copyRun i idx ws moved)
    | _, _ => .refused (.notDue "COPY_ITEM_COMPLETE")

/-- An item starts before it is performed (R251). -/
def State.copyBegin (s : State) (item idx : Nat) : State :=
  match s.item? item with
  | some i =>
    (match i.work with
     | .copy desc _ _ _ _ _ => if s.copyStarts i idx then (s.copyStart i desc idx).copyClose item else s
     | _ => s)
  | none => s

/-- Some bytes of a started item are written before its final status (R195). -/
def State.copyMove (s : State) (item idx : Nat) : State :=
  match s.item? item with
  | none => s
  | some i =>
    match i.copyAt idx with
    | some (.running ws moved) =>
      (match s.copyPlan i ws with
       | (.inl _, s) => s
       | (.inr (d, fs), s) =>
         match joinFates (fs.map UnitFate.fate) with
         | .wait .. => s
         | _ =>
           (s.copyPart (i.agent s) d.chain moved fs).modItem item fun i =>
             i.setCopy idx (.running ws (moved ++ if d.chain = 5 then pickedUnits s.tick moved fs else [])))
    | _ => s

/-- Ends every unfinished item of a command CANCELLED (R262) and completes the command. An item that had not started has
written nothing. -/
def State.copyCancel (s : State) (i : Item) (n : Nat) : State :=
  let one (s : State) (idx : Nat) : State :=
    match s.item? i.id with
    | none => s
    | some j =>
      match j.copyAt idx with
      | some .queued => s.copyFinal j idx .cancelled 0
      | some (.running ws moved) =>
        (match s.copyPlan j ws with
         | (.inl _, s) => s.copyFinal j idx .cancelled 0
         | (.inr (d, fs), s) => (s.copyPart (j.agent s) d.chain moved fs).copyFinal j idx .cancelled d.dbytes)
      | _ => s
  ((List.range n).foldl one s).copyClose i.id

/-! ## XCP, XDRAIN, XQRY -/

/-- The checks of R250: addresses first, then alignments, each in field order. -/
def View.copyChecks (v : View) (as : List (Word × Nat × Nat)) : Option Nat :=
  match as.find? fun a => v.s.shAddr v.t a.1 a.2.1 == .shbound with
  | some _ => some 0x15
  | none =>
    match as.find? fun a => v.s.shAddr v.t a.1 a.2.1 == .gang with
    | some _ => some 0x14
    | none => if as.any fun a => a.1.toNat % a.2.2 ≠ 0 then some 0x13 else none

/-- XCP (R250). -/
def execXcp (d sa sb tok : BitVec 6) (batch : Bool) (nm1 : BitVec 6) (bytes : Bool) (s : State) : Out :=
  withIssuer s 2 fun v =>
    v.engineIssue 0 (optS d ++ [opS sa.toNat] ++ optS sb ++ tokOps tok) fun v st =>
      let n := if batch then nm1.toNat + 1 else 1
      let rD := v.rdS d.toNat
      let rA := v.rdS sa.toNat
      let rB := v.rdS sb.toNat
      let cs := (if d = 0 then [] else [(rD, 8 * n, 8)]) ++ [(rA, 64 * n, 64)] ++ (if sb = 0 then [] else [(rB, 32, 8)])
      match v.copyChecks cs with
      | some c => v.trap st c 0
      | none =>
        if 64 ≤ (v.s.copyQueue (clusterOf v.core)).length then v.wait
        else
          let w : Work := .copy rA (if d = 0 then none else some rD) (if sb = 0 then none else some rB) bytes batch
            (List.replicate n .queued)
          v.post st (v.newItem tok 0 w) {}

/-- Whether items or REDs of a team issued before a number remain (R263). -/
def State.undrained (s : State) (u below : Nat) : Bool :=
  (s.items.any fun i => i.party.team == u && decide (i.id < below))
    || s.reds.any fun r => r.party.team == u && decide (r.id < below)

/-- The traversals of a team are to stop at the next step boundary (R263, R356). -/
def State.suspendRays (s : State) (u : Nat) : State :=
  { s with items := s.items.map fun i =>
      if i.party.team = u then
        (match i.work with
         | .ray fn acc outs n _ => { i with work := .ray fn acc outs n (fn == .trace || fn == .resume) }
         | _ => i)
      else i }

/-- XDRAIN's return acquires every item, RED and arrival of its team that was issued before it (R263). -/
def View.drained (v : View) (below : Nat) : View :=
  let c := match v.s.team? v.u with | some t => t.ended.foldl (fun c e => if e.1 < below then Clock.join c e.2 else c) [] | none => []
  v.onState (v.s.acquireClk v.u v.g.gid c)

/-- XDRAIN (R263): it returns at once where nothing is outstanding. -/
def execXdrain (s : State) : Out :=
  withIssuer s 2 fun v =>
    v.engineIssue 0 [] fun v st =>
      if v.s.undrained v.u v.s.nextId then (v.onState (v.s.suspendRays v.u)).sleep st (.drain v.s.nextId)
      else (v.drained v.s.nextId).finish st {}

/-- XDRAIN_COMPLETE: an XDRAIN returns (R263). -/
def execXdrainComplete (team gid fl : Nat) (s : State) : Out :=
  match s.viewOf team gid fl 2, s.sleepAt team gid fl with
  | some v, .drain below =>
    if s.undrained team below then .refused (.notDue "XDRAIN_COMPLETE") else (v.awaken.drained below).finish 0 {}
  | _, _ => .refused (.notDue "XDRAIN_COMPLETE")

/-- XQRY (R264). -/
def execXqry (sd : BitVec 6) (s : State) : Out :=
  withIssuer s 2 fun v =>
    v.engineIssue 0 [opSw sd.toNat] fun v st =>
      let q := v.s.copyQueue (clusterOf v.core)
      let own := (q.filter fun i => i.party.team == v.u && i.party.gid == v.g.gid).length
      v.finish st { sw := [(sd.toNat, BitVec.ofNat 64 (own % 2 ^ 16 * 2 ^ 16 + (64 - q.length)))] }

end Sys2Proof.Machine
end

