-- ==== Sys2Proof/Machine/Matrix.lean ====
section
/-!
DEFINITION. The matrix engine (R265 to R282): the reservation table and its arbiter, the products of the five families, and
the completion of a pass.
-/
namespace Sys2Proof.Machine

/-! ## The format block (R268, R271) -/

/-- The families of operand formats (R271). -/
inductive MmaFamily where
  | fp8 | fp4 | int8 | bf16 | fp16
  deriving DecidableEq, Repr

/-- One half of a format block. -/
structure MmaHalf where
  addr  : Word
  pitch : Nat
  blk   : Nat
  ty    : ETy
  scale : Word
  deriving DecidableEq, Repr

/-- The family of a format. -/
def mmaFamily : ETy → Option MmaFamily
  | .e4m3 | .e5m2 => some .fp8
  | .e2m1 => some .fp4
  | .i8 | .n8 => some .int8
  | .bf16 => some .bf16
  | .f16 => some .fp16
  | _ => none

/-- K and the sub-block of a family (R271). -/
def MmaFamily.k : MmaFamily → Nat
  | .fp8 | .int8 => 128 | .fp4 => 256 | .bf16 | .fp16 => 64

def MmaFamily.sub : MmaFamily → Nat
  | .fp8 | .int8 => 128 | _ => 32

/-- Whether a BLK is allowed for a family (R271). -/
def MmaFamily.allows (f : MmaFamily) (blk : Nat) : Bool :=
  match f with
  | .fp8 => decide (blk ≤ 2)
  | .fp4 => decide (blk ≤ 1)
  | _ => blk == 0

/-- One half, or none where it is malformed in itself (R268). -/
def mmaHalf (w0 w1 : Word) : Option MmaHalf :=
  match etyOf (bits w0 3 0) with
  | none => none
  | some t =>
    let h : MmaHalf :=
      { addr := BitVec.ofNat 64 (bits w0 63 32), pitch := bits w0 31 16, blk := bits w0 7 6, ty := t,
        scale := BitVec.ofNat 64 (bits w1 31 0) }
    if bits w0 15 8 = 0 ∧ bits w0 5 4 = 0 ∧ bits w1 63 32 = 0 ∧ h.addr.toNat % 16 = 0 ∧ h.pitch % 16 = 0 ∧ 128 ≤ h.pitch
        ∧ h.blk ≠ 3 ∧ (h.blk = 0 → h.scale = 0) ∧ (h.blk = 2 → h.scale.toNat % 4 = 0) then some h
    else none

/-- A well-formed format block: its family and halves (R268). -/
def mmaBlock (w : List Word) : Option (MmaFamily × MmaHalf × MmaHalf) :=
  match mmaHalf (w.getD 0 0) (w.getD 1 0), mmaHalf (w.getD 2 0) (w.getD 3 0) with
  | some a, some b =>
    (match mmaFamily a.ty, mmaFamily b.ty with
     | some f, some g =>
       if f = g ∧ f.allows a.blk ∧ f.allows b.blk ∧ ¬(a.blk + b.blk = 3) then some (f, a, b) else none
     | _, _ => none)
  | _, _ => none

/-! ## Operands in shared memory (R269) -/

/-- The bytes from the first row's start to the last row's end, and of the scales. The bytes between rows are no operand. -/
def MmaHalf.span (h : MmaHalf) : Nat := 63 * h.pitch + 128
def MmaHalf.scaleSpan (h : MmaHalf) (isA : Bool) (k : Nat) : Nat :=
  match h.blk with
  | 0 => 0
  | 1 => 64 * (k / 32)
  | _ => if isA then 256 else 4

/-- Where the rows or columns of a half lie, or why they cannot be read (R269, R278). -/
def State.mmaData (s : State) (t : Option Team) (h : MmaHalf) : RunFate :=
  match t.map fun t => s.shAddr t h.addr h.span with
  | some (.ok u off) =>
    let ls := (List.range 64).map fun i => (Loc.sh u (off + i * h.pitch), 128)
    if ls.any fun l => s.locBad l.1 l.2 then .fail 0x60 else .ok ls
  | some .shbound => .fail 0x15
  | _ => .fail 0x14

/-- The same of its scales. -/
def State.mmaScales (s : State) (g : Agent) (t : Option Team) (h : MmaHalf) (isA : Bool) (k : Nat) : RunFate :=
  (s.runFate g t reachAll ⟨true, h.scale, h.scaleSpan isA k, true, false⟩).1

/-- How an MMA reads its operands and format block (R196): ordered after what happens-before the MFENCE.opr that its group
executed last before it, and after nothing else. -/
def Item.oprAgent (i : Item) (s : State) (opr : Clock) : Agent := { i.agent s with clk := opr }

/-- A row of A or a column of B as element codes (R269). -/
def mmaLine (t : ETy) (bs : List Byte) : List Nat :=
  match tyWidth t with
  | 4 => bs.flatMap fun b => [b.toNat % 16, b.toNat / 16]
  | 8 => bs.map BitVec.toNat
  | _ => elemsOf 2 64 bs

/-- The scale of row or column `x` in group `g` (R269). -/
def mmaScale (h : MmaHalf) (isA : Bool) (k : Nat) (bs : List Byte) (x g : Nat) : FVal :=
  match h.blk with
  | 0 => .fin false 1 0
  | 1 => scaleVal true [bs.getD (x * (k / 32) + g) 0]
  | _ => fmtF32.decode (leNat ((bs.drop (if isA then 4 * x else 0)).take 4))

/-! ## Arithmetic (R273 to R276) -/

/-- An exact product; an infinity times zero is NaN. -/
def mulExact (a b : FVal) : FVal :=
  if a.isNan || b.isNan || (a.isInf && b.isZero) || (a.isZero && b.isInf) then .nan
  else
    match a, b with
    | .fin na m e, .fin nb n f => .fin (na != nb) (m * n) (e + f)
    | _, _ => .inf (a.neg != b.neg)

/-- GSUM and its rounding (R273): `RNE32(P)`. -/
def gsum (ps : List FVal) : Nat :=
  if ps.any FVal.isNan then fmtF32.nan
  else if ps.contains (.inf false) && ps.contains (.inf true) then fmtF32.nan
  else
    match ps.find? FVal.isInf with
    | some x => fmtF32.signBit x.neg + fmtF32.infBits
    | none => rne32 (ps.foldl (fun q p => q.add p.q) Q.zero)

def mul32 (t : Nat) (s : FVal) : Nat := (fMul fmtF32 .rne (fmtF32.decode t) s).1
def add32 (a b : Nat) : Nat := (fAdd fmtF32 .rne (fmtF32.decode a) (fmtF32.decode b)).1

/-- The scaled families (R273): groups ascending, each sum rounded, scaled by A's then B's scale, and added. -/
def scaledSum (c : Nat) (groups : List (List FVal × FVal × FVal)) : Nat :=
  groups.foldl (fun c g => add32 c (mul32 (mul32 (gsum g.1) g.2.1) g.2.2)) c

/-- One level of the tree of R275. -/
def treePairs : List FVal → List FVal
  | a :: b :: t => fmtF32.decode (fAdd fmtF32 .rne a b).1 :: treePairs t
  | l => l

/-- The tree of R275 over 64 products. -/
def treeSum (c : Nat) (ps : List FVal) : Nat :=
  let r := treePairs (treePairs (treePairs (treePairs (treePairs (treePairs ps)))))
  (fAdd fmtF32 .rne (fmtF32.decode c) (r.headD (.fin false 0 0))).1

/-- The INT8 sum (R274). -/
def intSum (c : Nat) (ps : List Int) : Nat := wrapInt 32 (ps.foldl (· + ·) (intVal true 32 c))

/-- Element codes as values. -/
def codeVals (t : ETy) (xs : List Nat) : List FVal :=
  match tyFmt t with | some F => xs.map F.decode | none => []

/-- One element C[i][j] (R273 to R275), from row `i` of A, column `j` of B and the scale bytes. -/
def mmaCell (f : MmaFamily) (a b : MmaHalf) (row col : List Nat) (sa sb : List Byte) (i j c : Nat) : Nat :=
  match f with
  | .int8 =>
    intSum c ((row.zip col).map fun p => intVal (a.ty == .i8) 8 p.1 * intVal (b.ty == .i8) 8 p.2)
  | .bf16 | .fp16 => treeSum c (((codeVals a.ty row).zip (codeVals b.ty col)).map fun p => mulExact p.1 p.2)
  | _ =>
    let g := if a.blk = 1 || b.blk = 1 then 32 else f.sub
    let ps := ((codeVals a.ty row).zip (codeVals b.ty col)).map fun p => mulExact p.1 p.2
    scaledSum c ((List.range (f.k / g)).map fun n =>
      ((ps.drop (n * g)).take g, mmaScale a true f.k sa i n, mmaScale b false f.k sb j n))

/-- The accumulator registers after a product (R270): the launched lanes of D to D+63. `ab` and `bb` hold the rows of A and the
columns of B one after another. -/
def mmaResult (f : MmaFamily) (a b : MmaHalf) (ab sa bb sb : List Byte) (acc : List LaneVec) (launched : Mask) :
    List LaneVec :=
  acc.zipIdx.map fun p =>
    let row := mmaLine a.ty ((ab.drop (p.2 * 128)).take 128)
    let cell (x : Word) (s j : Nat) : Nat :=
      mmaCell f a b row (mmaLine b.ty ((bb.drop (j * 128)).take 128)) sa sb p.2 j (subElem 32 s x)
    Vector.ofFn fun (l : Fin 32) =>
      if launched.getLsbD l.val then
        laneOfSubs 32 [cell p.1[l.val] 0 (2 * l.val), cell p.1[l.val] 1 (2 * l.val + 1)]
      else p.1[l.val]

/-! ## The table and the arbiter (R265 to R267) -/

/-- A cluster's matrix engine; LASTCORE is 3 at module reset (R266). -/
def State.matrix (s : State) (cluster : Nat) : Matrix :=
  (s.matrices.find? fun m => m.cluster == cluster).getD
    { cluster := cluster, last := 3, clock := 0, lastFrom := (0, 0), errA := [], errB := false, errArray := false }

def State.setMatrix (s : State) (m : Matrix) : State :=
  { s with matrices := m :: s.matrices.filter fun x => x.cluster != m.cluster }

/-- What the table keeps of a request. -/
structure MmaReq where
  block   : List Word
  bar     : Word
  prio    : Nat
  entered : Nat
  slot    : Nat
  pass    : Bool
  opr     : Clock

def Item.mma? (i : Item) : Option MmaReq :=
  match i.work with
  | .mma block bar prio entered slot pass opr => some ⟨block, bar, prio, entered, slot, pass, opr⟩
  | _ => none

def Item.inPass (i : Item) : Bool := match i.mma? with | some r => r.pass | none => false

/-- The requests of a cluster's table. -/
def State.mmaTable (s : State) (cluster : Nat) : List Item :=
  s.items.filter fun i => clusterOf i.core == cluster && i.mma?.isSome

/-- Whether request `x` is granted before `y` (R266). -/
def mmaBefore (last : Nat) (x y : Item) : Bool :=
  match x.mma?, y.mma? with
  | some a, some b =>
    let ka := (x.core % 4 + 3 - last) % 4
    let kb := (y.core % 4 + 3 - last) % 4
    if a.prio ≠ b.prio then decide (b.prio < a.prio)
    else if a.entered ≠ b.entered then decide (a.entered < b.entered)
    else if ka ≠ kb then decide (ka < kb)
    else decide (a.slot < b.slot)
  | _, _ => false

/-- The first of several requests in the order of R266. -/
def mmaFirst (last : Nat) : List Item → Option Item
  | [] => none
  | x :: xs =>
    match mmaFirst last xs with
    | none => some x
    | some y => if mmaBefore last y x then some y else some x

/-- The physical core that a shared address of an item names, and the offset there (R161); none where it names no core. -/
def Item.shPlace (i : Item) (a : Word) : Option (Nat × Nat) :=
  let sel := bits a 23 21
  if bits a 63 24 ≠ 0 ∨ (sel ≠ 0 ∧ sel < 4) then none
  else some (if sel = 0 then i.core else i.core / 4 * 4 + (sel - 4), bits a 20 0)

/-- What requests must share to be fused (R267): A's family, and of the B half the physical core and offset of ADDR, and the
PITCH, FMT, BLK and SCALE. The block may be malformed otherwise. -/
def Item.mmaKey (i : Item) : Option (MmaFamily × (Nat × Nat) × List Nat) :=
  match i.mma? with
  | none => none
  | some r =>
    let w2 := r.block.getD 2 0
    match (etyOf (bits (r.block.getD 0 0) 3 0)).bind mmaFamily, i.shPlace (BitVec.ofNat 64 (bits w2 63 32)) with
    | some f, some p => some (f, p, [bits w2 31 16, bits w2 3 0, bits w2 7 6, bits (r.block.getD 3 0) 31 0])
    | _, _ => none

/-- Up to `n` further requests of the same key, in the order of R266. -/
def mmaFuse (last : Nat) (x : Item) : Nat → List Item → List Item
  | 0, _ => []
  | n + 1, l =>
    match mmaFirst last (l.filter fun y => y.mmaKey.isSome && y.mmaKey == x.mmaKey) with
    | none => []
    | some y => y :: mmaFuse last x n (l.filter fun z => z.id != y.id)

/-- Moves a request into the pass. -/
def Item.intoPass (i : Item) : Item :=
  match i.work with
  | .mma block bar prio entered slot _ opr => { i with work := .mma block bar prio entered slot true opr }
  | _ => i

/-- The waiting requests of a free array that has started (R374). -/
def State.mmaWaiting (s : State) (cluster : Nat) : List Item :=
  let t := s.mmaTable cluster
  if t.any Item.inPass || !s.hasStarted .matrix cluster then [] else t

/-- MATRIX_GRANT: the arbiter grants one request and starts a pass (R266, R267, R213). LASTCORE is that request's core before
further requests are taken in the order of R266. -/
def execMatrixGrant (cluster : Nat) (s : State) : Out :=
  let w := s.mmaWaiting cluster
  let m := s.matrix cluster
  match mmaFirst m.last w with
  | none => .refused (.notDue "MATRIX_GRANT")
  | some x =>
    let more := if s.det.contains x.party.slice then [] else mmaFuse (x.core % 4) x 3 (w.filter fun y => y.id != x.id)
    let ids := x.id :: more.map fun y => y.id
    let s := s.setMatrix { m with last := x.core % 4 }
    .next { s with items := s.items.map fun i => if ids.contains i.id then i.intoPass else i }

/-! ## Completion (R277 to R279) -/

/-- How a request ends: its final status and the status bits of its arrival (R26, R278). -/
abbrev MmaEnd := ItemEnd × Nat

def mmaFail (cause bits : Nat) : MmaEnd := (.failed cause, bits ||| 2)

/-- What a request meets in one half: its operand, then its scales. -/
def State.mmaFate (s : State) (i : Item) (h : MmaHalf) (isA : Bool) (k : Nat) : RunFate :=
  let t := s.team? i.party.team
  (s.mmaData t h).and (s.mmaScales (i.agent s) t h isA k)

/-- A request's own failure before any shared error of the pass, with whether it lies in the B half (R278). -/
def State.mmaFault (s : State) (i : Item) (r : MmaReq) : Option (MmaEnd × Bool) :=
  if r.block.isEmpty then some (mmaFail 0x60 0, false)
  else
    match mmaBlock r.block with
    | none => some (mmaFail 0x01 0, false)
    | some (f, a, b) =>
      match s.mmaFate i a true f.k with
      | .fail c => some (mmaFail c 0, false)
      | _ =>
        match s.mmaFate i b false f.k with
        | .fail c => some (mmaFail c 0, c == 0x60)
        | _ => none

/-- Whether an accumulator that a request reads holds an uncorrectable error (R278). -/
def Group.accBad (g : Group) (i : Item) : Bool :=
  g.eccV.any fun e => decide (i.d ≤ e.1) && decide (e.1 < i.d + 64) && g.launched.getLsbD e.2 && !i.drop.contains e.1

/-- The end of the `k`-th request of a pass (R278). A barrier object on a gang peer that has left its core fails the request
(R283). -/
def State.mmaEnd (s : State) (m : Matrix) (bFails : Bool) (i : Item) (k : Nat) : MmaEnd :=
  let acc := match s.group? i.party.team i.party.gid with | some g => g.accBad i | none => false
  if m.errArray then mmaFail 0x60 8
  else if m.errB || m.errA.contains k then mmaFail 0x60 4
  else
    match i.mma? with
    | none => mmaFail 0x01 0
    | some r =>
      match s.mmaFault i r with
      | some (e, _) => e
      | none =>
        if bFails then mmaFail 0x60 0
        else if acc then mmaFail 0x60 16
        else if !s.barReached i r.bar then mmaFail 0x14 0
        else (.done, 0)

/-- The result of a request that ends DONE: each register's launched lanes. Its operands are read as R196 orders them: a byte
that a racing write has changed since is old or new. -/
def State.mmaValues (s : State) (i : Item) (launched : Mask) : List LaneVec :=
  match i.mma? with
  | none => []
  | some r =>
    match mmaBlock r.block with
    | none => []
    | some (f, a, b) =>
      let t := s.team? i.party.team
      let read (x : RunFate) : List Byte := s.runBytes (i.oprAgent s r.opr) x.locs
      let scales (h : MmaHalf) (isA : Bool) : List Byte := read (s.mmaScales (i.agent s) t h isA f.k)
      mmaResult f a b (read (s.mmaData t a)) (scales a true) (read (s.mmaData t b)) (scales b false) i.vs launched

/-- The lanes launched in an item's group. -/
def State.launchedIn (s : State) (i : Item) : Mask :=
  match s.group? i.party.team i.party.gid with | some g => g.launched | none => 0

/-- What a request writes to its accumulators: the product where it ends DONE. -/
def State.mmaOut (s : State) (p : Item × MmaEnd) : List LaneVec :=
  if p.2.1 = .done then s.mmaValues p.1 (s.launchedIn p.1) else []

/-- The completion of one request (R277): the accumulators, the arrival, the token. -/
def State.mmaFinish (s : State) (i : Item) (e : MmaEnd) (n : Nat) (out : List LaneVec) : State :=
  let s := s.itemWriteV i (out.zipIdx.map fun p => (i.d + p.2, s.launchedIn i, p.1))
  let bar := match i.mma? with | some r => r.bar | none => 0
  (s.itemArrive i bar e.2 true 0).closeItem i (tokenWord e.1 n)

/-- Completes the requests of a pass, each with its end; the array is free. The pass has read the operands of all of them before
the first arrives. -/
def State.mmaPass (s : State) (cluster : Nat) (ends : List (Item × MmaEnd)) : State :=
  let s := (ends.map fun p => (p, s.mmaOut p)).foldl (fun s p => s.mmaFinish p.1.1 p.1.2 ends.length p.2) s
  s.setMatrix { s.matrix cluster with errA := [], errB := false, errArray := false }

/-- The pass of a cluster with the end of each of its requests. -/
def State.mmaEnds (s : State) (cluster : Nat) : List (Item × MmaEnd) :=
  let pass := (s.mmaTable cluster).filter Item.inPass
  let bFails := pass.any fun i =>
    match i.mma? with
    | some r => (match s.mmaFault i r with | some (_, b) => b | none => false)
    | none => false
  pass.zipIdx.map fun p => (p.1, s.mmaEnd (s.matrix cluster) bFails p.1 p.2)

/-- MMA_COMPLETE: a pass ends (R277, R278). -/
def execMmaComplete (cluster : Nat) (s : State) : Out :=
  match s.mmaEnds cluster with
  | [] => .refused (.notDue "MMA_COMPLETE")
  | ends => .next (s.mmaPass cluster ends)

/-- An engine reset or a context kill (R279): the running pass ends whole, each of its requests DONE or CANCELLED; every waiting
request that `hit` names ends CANCELLED. A request that would fail ends CANCELLED, one that would be DONE either way (DESIGN
CHOICE, log 13). -/
def State.mmaCancel (s : State) (cluster : Nat) (hit : Item → Bool) : State :=
  let ends := s.mmaEnds cluster
  let s :=
    if ends.any fun p => hit p.1 then
      s.mmaPass cluster (ends.zipIdx.map fun p =>
        if p.1.2.1 = .done ∧ Config.partDone s.tick p.2 then p.1 else (p.1.1, (.cancelled, 1)))
    else s
  (s.mmaTable cluster).foldl (fun s i => if hit i && !i.inPass then s.mmaFinish i (.cancelled, 1) 0 [] else s) s

/-! ## The instructions -/

/-- The addresses of an MMA (R272 step 2). -/
def View.mmaChecks (v : View) (sa sb : Word) : Option Nat := v.copyChecks [(sa, 32, 32), (sb, 32, 8)]

/-- The cycle in which a request enters the table: that of the request before it, or a later one (R266; DESIGN CHOICE, log 7). -/
def State.mmaClock (s : State) (cluster core slot : Nat) : Nat :=
  let m := s.matrix cluster
  let used := (s.mmaTable cluster).any fun i =>
    match i.mma? with
    | some r => r.entered == m.clock && i.core == core && r.slot == slot
    | none => false
  if Config.sameCycle s.tick && m.lastFrom != (core, slot) && !used then m.clock else m.clock + 1

/-- The format block at an address, read once at issue; empty where an uncorrectable error stands in it (R268, R278). -/
def View.blockAt (v : View) (i : Item) (a : Word) : List Word :=
  match (v.s.runFate (i.agent v.s) (some v.t) reachAll ⟨true, a, 32, true, false⟩).1 with
  | .ok ls => dwordsOf 4 (v.s.runBytes (i.oprAgent v.s v.g.oprClk) ls)
  | _ => []

/-- MMA (R268, R272). The addresses are judged before HRA and DEADRD of the accumulators, as R272 orders its steps; the other
registers as R376 has it (DEDUCED, log 32). -/
def execMma (d : BitVec 7) (sa sb tok : BitVec 6) (s : State) : Out :=
  withIssuer s 2 fun v =>
    let acc : Opnd := { file := .v, reg := d.toNat, run := 64, rd := true, lanes := some v.g.launched, ecc := false }
    v.engineIssue v.g.launched ([{ acc with rd := false, late := true }, opS sa.toNat, opS sb.toNat] ++ tokOps tok) fun v st =>
      let a := v.rdS sa.toNat
      let b := v.rdS sb.toNat
      match v.mmaChecks a b with
      | some c => v.trap st c 0
      | none =>
        v.heldDead v.g.launched [acc] st fun st =>
          let cl := clusterOf v.core
          if decide (32 ≤ (v.s.mmaTable cl).length) || v.redsOut then v.wait
          else
            let block := v.blockAt (v.newItem tok 0 (.mma [] b 0 0 0 false [])) a
            let now := v.s.mmaClock cl v.core v.g.slot
            let i : Item :=
              { v.newItem tok v.g.launched (.mma block b v.g.mprio.toNat now v.g.slot false v.g.oprClk) with
                d := d.toNat
                vs := (List.range 64).map fun k => v.rdV (d.toNat + k) }
            let m := v.s.matrix cl
            (v.onState (v.s.setMatrix { m with clock := now, lastFrom := (v.core, v.g.slot) })).post st i {}

/-- MZERO (R280). -/
def execMzero (d : BitVec 7) (s : State) : Out :=
  withIssuer s 2 fun v =>
    v.engineIssue v.g.launched [opRun d.toNat 64 false] fun v st =>
      v.finish st { vw := (List.range 64).map fun k => (d.toNat + k, v.g.launched, LaneVec.splat 0) }

/-- Whether a shared-memory access that the group issued has not been performed at its home (R281). -/
def View.sharedOut (v : View) : Bool :=
  (v.s.reds.any fun r => r.party.team == v.u && r.party.gid == v.g.gid && !r.word.sp)
    || (v.s.itemsOf v.u v.g.gid).any fun i => match i.work with | .arrival .. => true | _ => false

/-- The MMAs that the group issues later read what happens-before its MFENCE.opr, its own writes among it (R196, R281). It
releases nothing: no other group learns of it. -/
def View.fenceOpr (v : View) : View :=
  let t := groupThread (groupUid v.u v.g.gid)
  let c := v.g.clk.raise t (v.g.clk.get t + 1)
  v.withGroup { v.g with clk := c, oprClk := v.g.oprClk.join (c.join v.ord.clk) }

/-- MFENCE.opr (R281). -/
def execMfenceOpr (s : State) : Out :=
  withIssuer s 2 fun v =>
    v.engineIssue 0 [] fun v st => if v.sharedOut then v.wait else v.fenceOpr.finish st {}

/-- MPRIO (R282). -/
def execMprio (p : BitVec 2) (s : State) : Out :=
  withIssuer s 2 fun v =>
    v.engineIssue 0 [] fun v st => (v.withGroup { v.g with mprio := p }).finish st {}

end Sys2Proof.Machine
end

