-- ==== Sys2Proof/Machine/Engine.lean ====
section
/-!
DEFINITION. Memory as an engine item reads it step by step (R15, R22, R193, R197): each read is checked, noted and
performed in turn, and the first that fails or waits ends the attempt. Writes are checked first and performed together.
-/
namespace Sys2Proof.Machine

/-- Why an attempt of an item ends early. -/
inductive EngStop where
  | wait (va : Nat) (malformed : Bool)
  | fail (cause : Nat)
  deriving DecidableEq, Repr

/-- The state and the item's clock as it reads. -/
structure EngSt where
  s   : State
  clk : Clock

/-- A computation of an item over memory. -/
abbrev Eng (α : Type) := ExceptT EngStop (StateM EngSt) α

/-- The kinds of a history space's own records, and of what only SCRATCH may hold (R15, R286). -/
def reachMeta (k : PKind) : Bool := k == .scratch || k == .main

/-- An item's access as its checks see it; `plain` accesses race (R191). -/
def Item.port (i : Item) (st : EngSt) (plain : Bool) : Agent :=
  let a := i.agent st.s
  { a with clk := st.clk, acc := { a.acc with plain := plain } }

/-- Checks a run; answers where it lies. -/
def engRun (i : Item) (plain : Bool) (reach : PKind → Bool) (r : Run) : Eng (List (Loc × Nat)) :=
  ExceptT.mk fun st =>
    let x := st.s.runFate (i.port st plain) (st.s.team? i.party.team) reach r
    let st := { st with s := x.2 }
    match x.1 with
    | .ok ls => (.ok ls, { st with s := if r.rd then st.s.noteRuns (i.port st plain) false ls else st.s })
    | .wait va mal => (.error (.wait va mal), st)
    | .fail c => (.error (.fail c), st)

/-- Ends the attempt with a cause. -/
def engFail {α : Type} (cause : Nat) : Eng α := ExceptT.mk fun st => (.error (.fail cause), st)

/-- Requires a condition, or ends the attempt with a cause. -/
def engNeed (ok : Bool) (cause : Nat) : Eng Unit := if ok then pure () else engFail cause

/-- Bytes at a virtual address. -/
def engBytes (i : Item) (plain : Bool) (reach : PKind → Bool) (va : Word) (n : Nat) : Eng (List Byte) := do
  let ls ← engRun i plain reach ⟨false, va, n, true, false⟩
  ExceptT.mk fun st => (.ok (st.s.runBytes (i.port st plain) ls), st)

/-- A little-endian number at a virtual address, read whole where it is aligned (R186). -/
def engNat (i : Item) (plain : Bool) (reach : PKind → Bool) (va : Word) (n : Nat) : Eng Nat := do
  let ls ← engRun i plain reach ⟨false, va, n, true, false⟩
  ExceptT.mk fun st =>
    match ls with
    | [l] => (.ok (st.s.readNat (i.port st plain).reader l.1 n), st)
    | _ => (.ok (leNat (st.s.runBytes (i.port st plain) ls)), st)

/-- Bytes at an address of shared memory. -/
def engShared (i : Item) (a : Word) (n : Nat) : Eng (List Byte) := do
  let ls ← engRun i true reachAll ⟨true, a, n, true, false⟩
  ExceptT.mk fun st => (.ok (st.s.runBytes (i.port st true) ls), st)

/-- The item acquires the releases of what it has read at an address (R189, R197). -/
def engAcquire (i : Item) (sc : Scope) (ls : List (Loc × Nat)) : Eng Unit :=
  ExceptT.mk fun st =>
    let r := (i.port st false).reader
    (.ok (), { st with clk := ls.foldl (fun c l => acquireFrom i.party sc (st.s.readHeads r l.1 l.2) c) st.clk })

/-- A write that an item is to perform: where, the bytes, whether it is a plain access, whether it carries the item's
release, and whether an item that is cancelled may have done it. -/
structure EngWrite where
  locs  : List (Loc × Nat)
  bytes : List Byte
  plain : Bool
  rel   : Bool
  part  : Bool

/-- Checks a write to a virtual address. -/
def engWrite (i : Item) (plain rel part : Bool) (reach : PKind → Bool) (va : Word) (bs : List Byte) : Eng EngWrite := do
  let ls ← engRun i plain reach ⟨false, va, bs.length, false, true⟩
  pure ⟨ls, bs, plain, rel, part⟩

/-- Performs one write. -/
def State.engPut (s : State) (i : Item) (clk : Clock) (w : EngWrite) : State :=
  let s := s.runWrite (i.port ⟨s, clk⟩ w.plain) w.locs w.bytes
  if w.rel then
    (w.locs.flatMap fun l => l.1.keys l.2).foldl
      (fun s k => s.setHeads k true [⟨i.party, .slice, clk.raise (itemThread i.id) 1⟩]) s
  else s

/-- Performs writes in order. -/
def State.engPuts (s : State) (i : Item) (clk : Clock) (ws : List EngWrite) : State :=
  ws.foldl (fun s w => s.engPut i clk w) s

/-- The `k`-th captured register's lane. -/
def Item.v (i : Item) (k l : Nat) : Word := lane (i.vs.getD k (LaneVec.splat 0)) l

/-- Runs an attempt of an item from a state. -/
def Eng.attempt {α : Type} (m : Eng α) (i : Item) (s : State) : Except EngStop α × EngSt :=
  (ExceptT.run m).run ⟨s, i.clk⟩

end Sys2Proof.Machine
end

