-- ==== Sys2Proof/Machine/Place.lean ====
section
/-!
DEFINITION. The placement of one instruction for the next step: a context with a page table and a code page, and a team of
one group whose split stands at it (DESIGN CHOICE, log 6).
-/
namespace Sys2Proof.Machine

/-- A page-table pointer or leaf with every permission (R18). -/
def placedPte (frame : Nat) (leaf : Bool) : Nat := frame + (if leaf then 0x1F else 1)

/-- The page tables of a context that maps the page at 0x2000 to the frame at 0x8000, the tables standing at 0x0, 0x2000,
0x4000 and 0x6000 of the first stack, and the instruction's eight bytes at the frame. -/
def placedMemory (w : Nat) : List Host.Cell :=
  let m := Memory.put [] 0x8000 (leBytes 8 w)
  let m := Memory.put m 0x6008 (leBytes 8 (placedPte 0x8000 true))
  let m := Memory.put m 0x4000 (leBytes 8 (placedPte 0x6000 false))
  let m := Memory.put m 0x2000 (leBytes 8 (placedPte 0x4000 false))
  Memory.put m 0x0000 (leBytes 8 (placedPte 0x2000 false))

def placedContext : Context :=
  { id := 0, slice := 0, root := 0, handler := 0x2000, logBase := 0, logN := 0, logMarks := [], logOvf := false,
    halted := false, killed := false, capBase := 0, capBytes := 0, capUsed := 0 }

/-- A group at its start (R34, R46, R207). -/
def Group.atStart (gid role budget slot resid : Nat) (launched : Mask) (mode : BitVec 12) (trapen : BitVec 10)
    (ksp : Word) (kwin : Word × Word) (entry : Word) : Group :=
  { gid := gid, role := role, budget := budget, slot := slot, resid := resid, launched := launched,
    v := Vector.replicate 128 (LaneVec.splat 0), vlive := Vector.replicate 128 0,
    s := Vector.replicate 64 0, slive := 1, m := Vector.replicate 16 0, stat := 0, trapen := trapen,
    ksp := ksp, kwin := kwin,
    recs := vset0 { pc := entry, members := launched, exec := launched, mode := mode, repi := 0, join := none, ojoin := none, sleep := .awake, ord := .fresh },
    handler := none, pending := none, preempt := false, pendRest := 0, pends := [], tokBusy := 0, tokClk := [], mprio := 0,
    rays := Vector.replicate 32 none, saveArea := 0, hbarIn := false, retired := launched == 0, saved := false,
    eccV := [], eccS := [], eccM := [], clk := [], rels := 0, relMark := none, oprClk := [] }
where
  vset0 (r : Split) : Vector Split 4 := (Vector.replicate 4 Split.unused).setIfInBounds 0 r

def placedTeam : Team :=
  { uid := 0, grid := 0, ctx := 0, slice := 0, tidx := 0, gang := 0, gmap := 8, core := some 0, lastCore := 0,
    shBytes := 393216, shared := [],
    groups := [Group.atStart 0 0 128 0 0 0xFFFFFFFF#32 0x900 0 0 (0, 0) 0x2000],
    teamArea := 0, ended := [] }

def placedGrid : Grid :=
  { uid := 0, seq := 0, ctx := 0, slice := 0, queue := some 0, packet := [], addr := 0, image := [], dims := (1, 1, 1),
    state := .eligible, placed := 1, done := 0, batch := none, clk := [], fin := [], capture := none, wait := none }

end Sys2Proof.Machine
end

