-- ==== Sys2Proof/Machine/Launch.lean ====
section
/-!
DEFINITION. Launch packets and their checks (R200, R201, R204), queues and dispatch (R202, R203), capture (R215, R370), the
placement and start of teams (R44, R45, R205 to R207, R214, R226), retirement (R155) and completion (R198, R237).
-/
namespace Sys2Proof.Machine

/-! ## The packet (R200) -/

def pktWord (p : List Word) (n : Nat) : Word := p.getD n 0

/-- Lanes per team. -/
def pktLanes (p : List Word) : Nat := bits (pktWord p 0) 63 48

/-- The number of roles. -/
def pktRoles (p : List Word) : Nat := bits (pktWord p 1) 41 40 + 1

/-- The groups and the budget of a role. -/
def pktGroups (p : List Word) (r : Nat) : Nat := bits (pktWord p 1) (5 + 6 * r) (6 * r)
def pktBudget (p : List Word) (r : Nat) : Nat := 8 * (bits (pktWord p 1) (27 + 4 * r) (24 + 4 * r) + 1)

/-- The role of each group of a team, in GID order. -/
def pktGroupRoles (p : List Word) : List Nat :=
  (List.range (pktRoles p)).flatMap fun r => List.replicate (pktGroups p r) r

/-- Teams per gang; 1 is none (R45). -/
def pktGang (p : List Word) : Nat := match bits (pktWord p 1) 43 42 with | 1 => 2 | 2 => 4 | _ => 1

def pktShared (p : List Word) : Nat := bits (pktWord p 2) 18 0
def pktCapture (p : List Word) : Bool := bitOf (pktWord p 3) 10
def pktIndirect (p : List Word) : Bool := bitOf (pktWord p 3) 9
def pktOverlap (p : List Word) : Bool := bitOf (pktWord p 3) 8
def pktPrio (p : List Word) : Nat := bits (pktWord p 3) 7 6
def pktQueue (p : List Word) : Nat := bits (pktWord p 3) 5 0
def pktDims (p : List Word) : Nat × Nat × Nat :=
  (bits (pktWord p 0) 15 0, bits (pktWord p 0) 31 16, bits (pktWord p 0) 47 32)

/-- The registers of a team (R44). -/
def pktRegs (p : List Word) : Nat := ((pktGroupRoles p).map (pktBudget p)).sum

/-- A set bit in a field marked zero, COUNT without INDIRECT and groups beyond NROLES among them. -/
def pktZeros (p : List Word) : Bool :=
  bits (pktWord p 1) 63 44 == 0 && bits (pktWord p 2) 63 19 == 0 && bits (pktWord p 3) 63 11 == 0
    && bits (pktWord p 7) 63 22 == 0 && (List.range 21).all (fun i => pktWord p (12 + i) == 0)
    && (pktIndirect p || pktWord p 6 == 0)
    && (List.range 4).all fun r => decide (r < pktRoles p) || pktGroups p r == 0

/-- An instruction address (R200). -/
def codeAddr (a : Word) : Bool := bits a 63 53 == 0 && bits a 1 0 == 0

/-- Whether a mode is one that R62 takes. -/
def pktModeOk (p : List Word) : Bool :=
  bits (pktWord p 7) 11 8 != 15 && decide (bits (pktWord p 7) 7 5 < 5)

/-- The checks of R204 that read the packet alone, for these team counts. -/
def packetOk (p : List Word) (dims : Nat × Nat × Nat) : Bool :=
  pktZeros p && bits (pktWord p 1) 43 42 != 3
    && (List.range (pktRoles p)).all (fun r => decide (1 ≤ pktGroups p r) && decide (pktGroups p r ≤ 32))
    && bits (pktWord p 8) 3 0 == 0 && bits (pktWord p 9) 3 0 == 0 && !bitOf (pktWord p 10) 0 && !bitOf (pktWord p 7) 21
    && decide (1 ≤ pktLanes p) && decide (pktLanes p ≤ 32 * (pktGroupRoles p).length)
    && decide ((pktGroupRoles p).length ≤ 32) && decide (pktRegs p ≤ 2048) && decide (pktShared p ≤ 393216)
    && dims.1 * dims.2.1 * dims.2.2 % pktGang p == 0
    && codeAddr (pktWord p 4) && codeAddr (pktWord p 5) && pktModeOk p
    && (!pktIndirect p || bits (pktWord p 6) 1 0 == 0)

/-! ## What control cores and distributor read -/

/-- The parts of a virtual run as a context's tables map it: none where a page fails a test or is absent. -/
def State.ctlLocs (s : State) (c : Context) (ok : TlbEntry → Bool) (va n : Nat) : Option (List (Nat × Nat)) :=
  if 2 ^ 53 < va + n then none
  else
    (pageParts va n).foldr (fun p acc =>
      match acc, s.walk c p.1 with
      | some ls, .ok e => if ok e then some ((e.pa p.1, p.2) :: ls) else none
      | _, _ => none) (some [])

/-- Bytes of a context, where every page passes a test and no word met an uncorrectable error. -/
def State.ctlBytes (s : State) (c : Context) (ok : TlbEntry → Bool) (va n : Nat) : Option (List Byte) :=
  match s.ctlLocs c ok va n with
  | some ls => if ls.any fun l => s.badMem l.1 l.2 then none else some (ls.flatMap fun l => Memory.bytes s.mem l.1 l.2)
  | none => none

/-- The control cores or a unit they serve write bytes of a context, where every page is present. -/
def State.ctlWrite (s : State) (c : Context) (ok : TlbEntry → Bool) (va : Nat) (bs : List Byte) : Option State :=
  (s.ctlLocs c ok va bs.length).map fun ls =>
    (ls.foldl (fun (x : State × List Byte) l => (x.1.ctlPoke l.1 (x.2.take l.2), x.2.drop l.2)) (s, bs)).1

/-- The pages a launch packet may lie in (R200). -/
def packetPage (e : TlbEntry) : Bool := e.rd && (e.kind == .scratch || e.kind == .main)

/-- The 96 dwords of a packet. -/
def State.packetAt (s : State) (c : Context) (va : Nat) : Option (List Word) :=
  if va % 64 ≠ 0 then none
  else (s.ctlBytes c packetPage va 768).map fun bs => (elemsOf 8 96 bs).map fun x => BitVec.ofNat 64 x

/-! ## Queues (R202) -/

/-- The context a queue of a slice is bound to. -/
def State.queueCtx (s : State) (slice q : Nat) : Option Nat :=
  (s.queues.find? fun x => x.1 == slice && x.2.1 == q).map fun x => x.2.2

/-- The launches that take a place in a queue. -/
def State.queueLen (s : State) (slice q : Nat) : Nat :=
  (s.grids.filter fun g => g.slice == slice && g.queue == some q && g.state == .queued).length

/-- A launch takes the next sequence number of its slice and its place in its queue; one of a halted context completes
without starting a team (R202, R228, R366). -/
def State.enqueue (s : State) (c : Context) (addr : Nat) (p : List Word) (image : List Host.Cell) (clk : Clock) : State :=
  let seq := assocGet 0 s.seqs c.slice
  let g : Grid :=
    { uid := s.nextId, seq := seq, ctx := c.id, slice := c.slice, queue := some (pktQueue p), packet := p, addr := addr,
      image := image, dims := pktDims p, state := if c.halted then .complete else .queued, placed := 0, done := 0,
      batch := none, clk := clk, fin := clk, capture := none, wait := none }
  { s with nextId := s.nextId + 1, seqs := assocSet s.seqs c.slice (seq + 1), grids := s.grids ++ [g] }

/-- LAUNCH_ENQUEUE: the control cores enqueue a packet on its queue, with the shared images of its file (R74, R202). -/
def execLaunchEnqueue (ctx packet : Nat) (image : List (Nat × BitVec 8)) (s : State) : Out :=
  match s.context? ctx with
  | none => .refused (.notDue "LAUNCH_ENQUEUE")
  | some c =>
    match s.packetAt c packet with
    | none => .refused (.notDue "LAUNCH_ENQUEUE")
    | some p =>
      if s.queueCtx c.slice (pktQueue p) = some ctx ∧ s.queueLen c.slice (pktQueue p) < 1024 then
        .next (s.enqueue c packet p image [])
      else .refused (.notDue "LAUNCH_ENQUEUE")

/-! ## Dispatch (R203, R204) -/

/-- The launches before one on its queue, in enqueue order. -/
def State.earlier (s : State) (g : Grid) : List Grid :=
  (s.grids.takeWhile fun x => x.uid != g.uid).filter fun x => x.queue == g.queue && x.slice == g.slice

/-- Whether a launch has started all its teams, or completed. -/
def Grid.started (g : Grid) : Bool := g.state == .complete || (g.state == .eligible && g.placed == g.teamCount)

/-- Whether a queued launch may dispatch (R203). -/
def State.dispatchDue (s : State) (g : Grid) : Bool :=
  g.state == .queued && g.wait.isNone && (s.earlier g).all fun x => if pktOverlap g.packet then x.started else x.state == .complete

/-- What the count record of an INDIRECT launch gives (R201). -/
inductive Counts where
  | dims (x y z : Nat)
  | wait (va : Nat) (malformed : Bool)
  | bad

/-- The distributor as it reads counts: an ordered access that races with plain writes it is not ordered after (R191, R198,
R201). -/
def Grid.reader (g : Grid) (s : State) : Agent :=
  { core := 0, ctx := g.ctx, clk := g.clk
    acc := { thread := itemThread g.uid, agent := 2 ^ 40 + s.tick, epoch := 1, rel := 0, bytes := 0, write := false, plain := false } }

/-- One word of the count record. -/
def State.countWord (s : State) (c : Context) (g : Grid) (va : Nat) : RunFate :=
  match s.walk c va with
  | .absent mal => .wait va mal
  | .outside => .fail 0x11
  | .ok e => s.partFate (g.reader s) reachAll ⟨false, BitVec.ofNat 64 va, 4, true, false⟩ e va 4

/-- The distributor of a slice as a party (R187): no team's scopes contain it. -/
def distributor (slice : Nat) : Party := ⟨slice, 2 ^ 60, 2 ^ 60, 0⟩

/-- Reads the count record: each word whole, and an acquire at SLICE scope of what it carries (R188, R201). -/
def State.counts (s : State) (c : Context) (g : Grid) : Counts × State :=
  let a := (pktWord g.packet 6).toNat
  if a % 4 ≠ 0 || 2 ^ 53 < a + 12 then (.bad, s)
  else
    match joinFates ((List.range 3).map fun i => s.countWord c g (a + 4 * i)) with
    | .fail _ => (.bad, s)
    | .wait va mal => (.wait va mal, s)
    | .ok ls =>
      let r := (g.reader s).reader
      let w := ls.map fun l => s.readNat r l.1 4
      let k := acquireFrom (distributor g.slice) .slice (ls.flatMap fun l => s.readHeads r l.1 4) g.clk
      let s := (s.noteRuns (g.reader s) false ls).modGrid g.uid fun x => { x with clk := k }
      if w.all fun x => decide (x ≤ 65535) then (.dims (w.getD 0 0) (w.getD 1 0) (w.getD 2 0), s) else (.bad, s)

/-- A launch fault (R204): the launch completes without a team, a fault record goes out, and the context is halted. -/
def State.launchFault (s : State) (g : Grid) : State :=
  ((s.modGrid g.uid fun x => { x with state := .complete, wait := none, fin := x.clk }).report (.launch g.ctx g.seq)).haltContext g.ctx

/-- The regions of CAPLIST (R215). -/
def State.capRegions (s : State) (c : Context) (va : Nat) : Nat → Option (List (Nat × Nat))
  | 0 => some []
  | n + 1 =>
    match s.ctlBytes c (fun _ => true) va 16 with
    | none => none
    | some bs =>
      let w := elemsOf 8 2 bs
      if w.getD 1 0 = 0 then some []
      else (State.capRegions s c (va + 16) n).map fun rs => (w.getD 0 0, w.getD 1 0) :: rs

/-- The contents of regions; none where one cannot be read. -/
def State.capRead (s : State) (c : Context) (rs : List (Nat × Nat)) : Option (List (Nat × List Byte)) :=
  rs.foldr (fun r acc =>
    match acc, s.ctlBytes c (fun _ => true) r.1 r.2 with
    | some ls, some bs => some ((r.1, bs) :: ls)
    | _, _ => none) (some [])

/-- A page of the region that a tenant assigns to its capture records (R370). -/
def capturePage (e : TlbEntry) : Bool := e.w && e.kind == .main

/-- The bytes of a capture record but for its notes (R370; the layout is DESIGN CHOICE, log 38): a dword with the number of
regions, or bit 63 where it is INCOMPLETE; the sequence number; the address of the notes; the packet; MEAS[0] to MEAS[3]; the
regions' addresses and lengths; their contents before and after. An INCOMPLETE record ends with the packet. -/
def Capture.image (x : Capture) : List Byte :=
  let dwords (l : List Nat) : List Byte := l.flatMap (leBytes 8)
  if x.incomplete then dwords [2 ^ 63, 0, 0] ++ x.packet.flatMap fun w => leBytes 8 w.toNat
  else
    dwords [x.inputs.length, x.seq.toNat, x.notes] ++ (x.packet.flatMap fun w => leBytes 8 w.toNat)
      ++ (x.meas.flatMap fun m => leBytes 32 m.toNat) ++ (x.inputs.flatMap fun r => dwords [r.1, r.2.length])
      ++ (x.inputs.flatMap Prod.snd) ++ x.outputs.flatMap Prod.snd

/-- One note of a capture record, 64 bytes: a fault record, or an entry of the reduction-fault log. -/
def Report.note : Report → List Byte
  | .fault ctx team gid cause hpc hinfo o =>
    [1, ctx, team, gid, cause, hpc.toNat, hinfo.toNat, o.core.getD 0].flatMap (leBytes 8)
  | .xlate ctx va malformed o => [2, ctx, va, if malformed then 1 else 0, 0, 0, 0, o.core.getD 0].flatMap (leBytes 8)
  | .logEntry ctx n bs => [3, ctx, n, 0].flatMap (leBytes 8) ++ bs
  | _ => []

/-- The notes of a capture record: how many they are, and each. -/
def Capture.noteImage (x : Capture) : List Byte := leBytes 8 x.reports.length ++ x.reports.flatMap Report.note

/-- Writes bytes into a context's capture region where they fit what is left of it. -/
def State.captureSpace (s : State) (c : Context) (size : Nat) (bs : List Byte) : Option State :=
  if c.capUsed + size ≤ c.capBytes then
    (s.ctlWrite c capturePage (c.capBase + c.capUsed) bs).map fun s =>
      s.modContext c.id fun x => { x with capUsed := x.capUsed + size }
  else none

/-- The capture record of a launch (R215, R370): packet, sequence number, MEAS and the regions, or the packet alone and
INCOMPLETE where the regions, taken twice, do not fit the assigned space. -/
def State.capture (s : State) (c : Context) (g : Grid) : State :=
  let list := (pktWord g.packet 11).toNat
  let ins := (if list = 0 then some [] else s.capRegions c list 16).bind (s.capRead c)
  let whole : Capture :=
    { id := s.nextId, ctx := c.id, slice := c.slice, packet := g.packet, seq := g.seq, meas := s.meas.toList.take 4
      inputs := ins.getD [], outputs := [], reports := [], incomplete := false, base := c.capBase + c.capUsed, notes := 0 }
  let part : Capture := { whole with meas := [], inputs := [], incomplete := true }
  let size := whole.image.length + (whole.inputs.map fun r => r.2.length).sum
  let r : Capture × State :=
    match ins.bind fun _ => s.captureSpace c size whole.image with
    | some s => (whole, s)
    | none => (part, (s.captureSpace c part.image.length part.image).getD s)
  { r.2 with nextId := s.nextId + 1, captures := s.captures ++ [r.1] }.modGrid g.uid fun x => { x with capture := some s.nextId }

/-- A capture record at the end of its grid: the regions again, with the notes in what is left of the space; or the packet
alone where they cannot be taken (R370). -/
def State.captureClose (s : State) (c : Context) (x : Capture) : Capture × State :=
  let part : Capture := { x with meas := [], inputs := [], reports := [], incomplete := true }
  let full : Option (Capture × State) :=
    match s.capRead c (x.inputs.map fun r => (r.1, r.2.length)) with
    | none => none
    | some out =>
      let y : Capture := { x with outputs := out, notes := if x.reports.isEmpty then 0 else c.capBase + c.capUsed }
      let t := if x.reports.isEmpty then some s else s.captureSpace c y.noteImage.length y.noteImage
      (t.bind fun t => t.ctlWrite c capturePage y.base y.image).map fun t => (y, t)
  full.getD (part, (s.ctlWrite c capturePage part.base part.image).getD s)

/-- The end of a captured launch. -/
def State.captureEnd (s : State) (g : Grid) : State :=
  match g.capture.bind fun id => s.captures.find? fun x => x.id == id, s.context? g.ctx with
  | some x, some c =>
    if x.incomplete then s
    else
      let r := s.captureClose c x
      { r.2 with captures := r.2.captures.map fun y => if y.id = x.id then r.1 else y }
  | _, _ => s

/-- A grid completes (R198). -/
def State.completeGrid (s : State) (uid : Nat) : State :=
  match s.grid? uid with
  | none => s
  | some g => (s.captureEnd g).modGrid uid fun x => { x with state := .complete }

/-- A launch becomes eligible; one without a team completes at once (R201, R203). -/
def State.makeEligible (s : State) (c : Context) (g : Grid) (dims : Nat × Nat × Nat) : State :=
  let s := s.modGrid g.uid fun x =>
    { x with state := .eligible, dims := dims, clk := x.clk.raise (itemThread x.uid) 1,
             fin := x.clk.raise (itemThread x.uid) 1 }
  let s := if pktCapture g.packet then s.capture c g else s
  if dims.1 * dims.2.1 * dims.2.2 = 0 then s.completeGrid g.uid else s

/-- Whether the shared images of a launch fit its allocation (R74). -/
def Grid.imageFits (g : Grid) : Bool := g.image.all fun x => decide (x.1 < pktShared g.packet)

/-- DISPATCH: in-order launches acquire the completion of the earlier ones, INDIRECT counts are read, and the packet is
checked (R198, R201, R203, R204). -/
def execDispatch (grid : Nat) (s : State) : Out :=
  match s.grid? grid with
  | none => .refused (.notDue "DISPATCH")
  | some g =>
    match s.context? g.ctx with
    | none => .refused (.notDue "DISPATCH")
    | some c =>
      if s.dispatchDue g then
        let clk := if pktOverlap g.packet then g.clk else (s.earlier g).foldl (fun k x => Clock.join k x.fin) g.clk
        let g := { g with clk := clk }
        let s := s.modGrid grid fun x => { x with clk := clk }
        let r := if pktIndirect g.packet then s.counts c g else (.dims g.dims.1 g.dims.2.1 g.dims.2.2, s)
        match r.1 with
        | .wait va mal => .next ((r.2.modGrid grid fun x => { x with wait := some va }).report (.xlate g.ctx va mal ⟨none, some g.seq⟩))
        | .bad => .next (r.2.launchFault g)
        | .dims x y z =>
          if packetOk g.packet (x, y, z) && g.imageFits then .next (r.2.makeEligible c ((r.2.grid? grid).getD g) (x, y, z))
          else .next (r.2.launchFault g)
      else .refused (.notDue "DISPATCH")

/-! ## Placement (R44, R205, R206, R214) -/

/-- The groups that hold a place on a core, as (slot, residence, budget). -/
def State.residents (s : State) (core : Nat) : List (Nat × Nat × Nat) :=
  (s.teams.filter fun t => t.core == some core).flatMap fun t =>
    (t.groups.filter fun g => !g.retired).map fun g => (g.slot, g.resid, g.budget)

/-- The shared memory that the teams on a core hold. -/
def State.sharedUsed (s : State) (core : Nat) : Nat := ((s.teams.filter fun t => t.core == some core).map Team.shBytes).sum

/-- Whether a team of these budgets and this allocation fits a core (R44). -/
def State.fits (s : State) (core : Nat) (budgets : List Nat) (shared : Nat) : Bool :=
  let rs := s.residents core
  decide ((rs.map fun r => r.2.2).sum + budgets.sum ≤ 2048) && decide (rs.length + budgets.length ≤ 32)
    && decide (s.sharedUsed core + shared ≤ 393216)

/-- The clusters of a slice (R30). -/
def State.clustersOf (s : State) (slice : Nat) : List Nat :=
  let per := 128 / s.cut
  (List.range per).map fun i => slice * per + i

/-- Whether a cluster holds no team (R214). -/
def State.clusterFree (s : State) (cluster : Nat) : Bool :=
  s.teams.all fun t => match t.core with | some c => clusterOf c != cluster | none => true

/-- The cores of the next gang in deterministic mode: the lowest cores of the lowest free cluster (R214). -/
def State.detCores (s : State) (slice n : Nat) : Option (List Nat) :=
  ((s.clustersOf slice).find? s.clusterFree).map fun cl => (List.range n).map fun i => 4 * cl + i

/-- Whether cores are distinct cores of one cluster of the slice. -/
def State.coresLegal (s : State) (slice n : Nat) (cores : List Nat) : Bool :=
  cores.length == n && cores.Nodup && (s.clustersOf slice).any fun cl => cores.all fun c => clusterOf c == cl

/-- Whether grid `g` is served before grid `h` (R205). -/
def Grid.beats (g h : Grid) : Bool :=
  decide (pktPrio h.packet < pktPrio g.packet) || (pktPrio g.packet == pktPrio h.packet && decide (g.seq.toNat < h.seq.toNat))

/-- Whether a grid has a saved team that awaits its restore (R212). -/
def State.awaitsRestore (s : State) (grid : Nat) : Bool :=
  s.teams.any fun t => t.grid == grid && t.core.isNone

/-- Whether a context may start teams (R366). -/
def State.startsTeams (s : State) (ctx : Nat) : Bool := match s.context? ctx with | some c => !c.halted | none => false

/-- Whether a grid has a team to place or restore. -/
def State.wantsPlace (s : State) (g : Grid) : Bool :=
  g.state == .eligible && ((decide (g.placed < g.teamCount) && s.startsTeams g.ctx) || s.awaitsRestore g.uid)

/-- Whether the next teams of a grid may be placed on these cores (R205, R212, R214). -/
def State.placeDue (s : State) (g : Grid) (cores : List Nat) : Bool :=
  g.state == .eligible && decide (g.placed < g.teamCount) && s.startsTeams g.ctx && !s.awaitsRestore g.uid
    && s.grids.all (fun h => !(h.slice == g.slice && h.uid != g.uid && s.wantsPlace h && h.beats g))
    && s.coresLegal g.slice (pktGang g.packet) cores
    && (if s.det.contains g.slice then s.detCores g.slice (pktGang g.packet) == some cores
        else cores.all fun c => s.fits c ((pktGroupRoles g.packet).map (pktBudget g.packet)) (pktShared g.packet))

/-- The slot and residence number of the next group of a core (R206). -/
def nextPlace (rs : List (Nat × Nat)) : Nat × Nat :=
  let n (k : Nat) : Nat := (rs.filter fun r => r.1 == k).length
  let slot := if n 1 < n 0 then 1 else 0
  (slot, ((List.range 16).find? fun i => !rs.contains (slot, i)).getD 0)

/-- The places of `n` groups on a core that has these. -/
def placesFor (rs : List (Nat × Nat)) : Nat → List (Nat × Nat)
  | 0 => []
  | n + 1 => nextPlace rs :: placesFor (nextPlace rs :: rs) n

/-- GMAP (R49): the gang size code, the rank, and each rank's cluster core. -/
def gmapOf (code rank : Nat) (cores : List Nat) : Word :=
  BitVec.ofNat 64 (code * 2 ^ 18 + rank * 2 ^ 16 + (cores.zipIdx.map fun c => (8 + c.1 % 4) * 2 ^ (4 * c.2)).sum)

/-- The lanes launched in a group (R33). -/
def launchedOf (lanes gid : Nat) : Mask := BitVec.ofNat 32 (2 ^ min 32 (lanes - 32 * gid) - 1)

/-- The preloaded scalars of a group (R207). -/
def Group.preload (g : Group) (p : List Word) : Group :=
  (List.range 63).foldl (fun g i => if bitOf (pktWord p 10) (i + 1) then g.writeS false (i + 1) (pktWord p (33 + i)) else g) g

/-- The record addresses of a consumer group, and their count in S1 (R243). -/
def Group.records (g : Group) (addrs : List Word) : Group :=
  (g.writeV 0 g.launched (Vector.ofFn fun (l : Fin 32) => addrs.getD (32 * g.gid + l.val) 0)).writeS false 1
    (BitVec.ofNat 64 addrs.length)

/-- The window of a group's spill stack: STACKBASE + STACKBYTES × (index × groups + GID) (R163, R207). -/
def stackOf (p : List Word) (tidx gid : Nat) : Word :=
  pktWord p 8 + pktWord p 9 * BitVec.ofNat 64 (tidx * (pktGroupRoles p).length + gid)

/-- A group at its team's start (R34, R46, R207). -/
def Grid.newGroup (g : Grid) (tidx gid role : Nat) (place : Nat × Nat) (addrs : Option (List Word)) : Group :=
  let p := g.packet
  let base := stackOf p tidx gid
  let x := (Group.atStart gid role (pktBudget p role) place.1 place.2 (launchedOf (pktLanes p) gid)
    ((pktWord p 7).extractLsb' 0 12) ((pktWord p 7).extractLsb' 12 10) base (base, pktWord p 9) (pktWord p 4)).preload p
  let x := match addrs with | some as => x.records as | none => x
  { x with clk := g.clk }

/-- The addresses of a consumer grid's records (R243). -/
def State.recordAddrs (s : State) (g : Grid) : Option (List Word) :=
  match g.batch with
  | none => none
  | some b =>
    (s.graphs.find? fun x => x.uid == b.1).map fun x => b.2.2.map fun i => BitVec.ofNat 64 (x.pool + i * x.slotSize)

/-- A team at its start on a core (R207). -/
def State.newTeam (s : State) (g : Grid) (gang rank core : Nat) (cores : List Nat) : Team :=
  let p := g.packet
  let tidx := g.placed + rank
  let places := placesFor ((s.residents core).map fun r => (r.1, r.2.1)) (pktGroupRoles p).length
  let addrs := s.recordAddrs g
  { uid := gang + rank, grid := g.uid, ctx := g.ctx, slice := g.slice, tidx := tidx, gang := gang
    gmap := gmapOf (bits (pktWord p 1) 43 42) rank cores
    core := some core, lastCore := core, shBytes := pktShared p
    shared := g.image.foldl (fun m x => Memory.write m x.1 x.2) []
    groups := (pktGroupRoles p).zipIdx.map fun r => g.newGroup tidx r.2 r.1 (places.getD r.2 (0, 0)) addrs
    teamArea := 0, ended := [] }

/-- TEAM_PLACEMENT: the next team of a grid, or the teams of its next gang together, start on their cores (R205). -/
def execTeamPlacement (grid : Nat) (cores : List Nat) (s : State) : Out :=
  match s.grid? grid with
  | none => .refused (.notDue "TEAM_PLACEMENT")
  | some g =>
    if s.placeDue g cores then
      let ts := cores.zipIdx.map fun c => s.newTeam g s.nextId c.2 c.1 cores
      let s := { s with nextId := s.nextId + cores.length, teams := s.teams ++ ts }
      .next (s.modGrid grid fun x => { x with placed := x.placed + cores.length })
    else .refused (.notDue "TEAM_PLACEMENT")

/-! ## Retirement and completion (R155, R198, R237) -/

/-- A team's slots return to the pool, carrying its release (R237). -/
def Graph.returnSlots (x : Graph) (slots : List Nat) (clk : Clock) : Graph :=
  { x with
    slots := x.slots.filter fun e => !slots.contains e.1
    freed := slots.foldl (fun f i => assocSet f i (Clock.join (assocGet [] f i) clk)) x.freed }

/-- A grid's held slots return. -/
def State.returnSlots (s : State) (g : Grid) : State :=
  match g.batch with
  | none => s
  | some b => { s with graphs := s.graphs.map fun x => if x.uid = b.1 then x.returnSlots b.2.2 g.fin else x }

/-- A team whose groups have all retired is gone: its core's registers and allocation are free, and a consumer's slots
return (R155, R182, R237). -/
def State.teamEnd (s : State) (u : Nat) : State :=
  match s.team? u with
  | none => s
  | some t =>
    if t.groups.all Group.retired then
      let s := { s with teams := s.teams.filter fun x => x.uid != u, eccShared := s.eccShared.filter fun e => e.1 != u }
      let s := s.modGrid t.grid fun g => { g with done := g.done + 1 }
      match s.grid? t.grid with
      | some g => s.returnSlots g
      | none => s
    else s.leave u

/-- Whether a group with no live lane may retire: its items and REDs have ended (R155, R173). -/
def State.retireDue (s : State) (u : Nat) (g : Group) : Bool :=
  !g.retired && !g.saved && g.live == 0#32 && g.handler.isNone && (s.itemsOf u g.gid).isEmpty
    && s.reds.all fun r => !(r.party.team == u && r.party.gid == g.gid)

/-- The completion of its grid releases what a group that has ended did (R188, R198); the group's releases stay counted
(R193). -/
def State.lastRelease (s : State) (t : Team) (gid : Nat) : State :=
  match s.group? t.uid gid with
  | none => s
  | some g =>
    let r := g.release t.uid 0 ⟨t.slice, t.gang, t.uid, gid⟩ .slice
    let s := s.modGroup t.uid gid fun _ => r.1
    { s.modGrid t.grid fun x => { x with fin := x.fin.join r.2.clk } with
      endRels := assocSet s.endRels (groupUid t.uid gid) r.1.rels }

/-- A group retires; its ray slots are free (R339). -/
def State.retire (s : State) (t : Team) (gid : Nat) : State :=
  ((s.lastRelease t gid).modGroup t.uid gid fun x =>
    { x with retired := true, pends := [], pending := none, preempt := false, rays := Vector.replicate 32 none }).teamEnd t.uid

/-- GROUP_RETIRE (R155). -/
def execGroupRetire (team gid : Nat) (s : State) : Out :=
  match s.team? team, s.group? team gid with
  | some t, some g => if s.retireDue team g then .next (s.retire t gid) else .refused (.notDue "GROUP_RETIRE")
  | _, _ => .refused (.notDue "GROUP_RETIRE")

/-- Whether a grid's teams have all ended; a halted context starts no further ones (R198, R366). -/
def State.gridDone (s : State) (g : Grid) : Bool :=
  g.state == .eligible && g.done == (if s.startsTeams g.ctx then g.teamCount else g.placed)

/-- GRID_COMPLETE (R198). -/
def execGridComplete (grid : Nat) (s : State) : Out :=
  match s.grid? grid with
  | none => .refused (.notDue "GRID_COMPLETE")
  | some g => if s.gridDone g then .next (s.completeGrid grid) else .refused (.notDue "GRID_COMPLETE")

end Sys2Proof.Machine
end

