-- ==== Sys2Proof/Machine/Vector.lean ====
section
/-!
DEFINITION. Vector arithmetic, moves, conversion, compare and classify (R117 to R133): the operation on sub-elements, the
shared frames, a body on a view for each instruction (REP runs the bodies), and one meaning for each.
-/
namespace Sys2Proof.Machine

/-! ## Operations on sub-elements -/

/-- The integer and ordinary float types (R119, first row). -/
def okArith (t : ETy) : Bool := !tyNarrow t

/-- The integer types only (R119). -/
def okInt (t : ETy) : Bool := tyInt t

/-- The ordinary float types only (R119). -/
def okFloat (t : ETy) : Bool := !tyInt t && !tyNarrow t

def okAny (_ : ETy) : Bool := true

/-- An operation on sub-elements under MODE: ET, RM and SAT, then A, B and D (R117). -/
abbrev SubOp := ETy → RMode → Bool → Nat → Nat → Nat → Nat × Flags

/-- An integer operation with one delivery, or a float operation (R118). -/
def numOp (fi : Int → Int → Int → Int) (ff : FFmt → RMode → FVal → FVal → FVal → Nat × Flags) : SubOp :=
  fun t rm sat a b d =>
    match tyFmt t with
    | some F => ff F rm (F.decode a) (F.decode b) (F.decode d)
    | none =>
      let w := tyWidth t
      let sg := tySigned t
      deliverInt sg w sat (fi (intVal sg w a) (intVal sg w b) (intVal sg w d))

/-- |A − B| of floats, one rounding; a zero result is +0 (R120). -/
def fAbsDiff (F : FFmt) (rm : RMode) (a b : FVal) : Nat × Flags :=
  match a, b with
  | .fin _ _ _, .fin _ _ _ =>
    let q := (a.q.sub b.q).abs
    if q.isZero then (0, flNone) else roundQ F rm q
  | _, _ =>
    let r := fAdd F rm a b.negate
    (if (F.decode r.1).isNan then F.nan else r.1 % 2 ^ (F.w - 1), r.2)

/-- A · t + D after t := ROUND(B − D): two roundings (R120). -/
def fLerp (F : FFmt) (rm : RMode) (a b d : FVal) : Nat × Flags :=
  let t := fAdd F rm b d.negate
  let r := fFma F rm a (F.decode t.1) d
  let fs := t.2 ||| r.2
  (r.1, if (fs &&& flInv) = 0#10 then fs else fs &&& ~~~flIx)

def opAdd : SubOp := numOp (fun a b _ => a + b) fun F rm a b _ => fAdd F rm a b
def opSub : SubOp := numOp (fun a b _ => a - b) fun F rm a b _ => fAdd F rm a b.negate
def opMul : SubOp := numOp (fun a b _ => a * b) fun F rm a b _ => fMul F rm a b
def opFma : SubOp := numOp (fun a b d => a * b + d) fun F rm a b d => fFma F rm a b d
def opFms : SubOp := numOp (fun a b d => d - a * b) fun F rm a b d => fFma F rm a.negate b d
def opAbsd : SubOp := numOp (fun a b _ => ((a - b).natAbs : Int)) fun F rm a b _ => fAbsDiff F rm a b
def opLerp : SubOp := numOp (fun a b d => d + a * (b - d)) fLerp

/-- The high half of the exact product (R120). -/
def opMulh : SubOp := fun t _ _ a b _ =>
  let w := tyWidth t
  (wrapInt w ((intVal (tySigned t) w a * intVal (tySigned t) w b).fdiv (2 ^ w : Nat)), flNone)

/-- Minimum and maximum (R111, R120). -/
def opMinMax (isMax : Bool) : SubOp := fun t _ _ a b _ =>
  match tyFmt t with
  | some F => (fMinMax F isMax a b, flNone)
  | none =>
    let lt := decide (intVal (tySigned t) (tyWidth t) a < intVal (tySigned t) (tyWidth t) b)
    (if lt then (if isMax then b else a) else (if isMax then a else b), flNone)

/-- Bitwise operations (R121). -/
def opBits (f : Nat → Nat → Nat) : SubOp := fun _ _ _ a b _ => (f a b, flNone)

/-- Shift left by the amount mod w (R121). -/
def opShl : SubOp := fun t _ _ a b _ => (a * 2 ^ (b % tyWidth t) % 2 ^ tyWidth t, flNone)

/-- Shift right, arithmetic under i types (R121). -/
def opShr : SubOp := fun t _ _ a b _ =>
  let w := tyWidth t
  (wrapInt w ((intVal (tySigned t) w a).fdiv (2 ^ (b % w) : Nat)), flNone)

/-- The truncated quotient of R98, or the float quotient (R124). -/
def opDiv : SubOp := fun t rm _ a b _ =>
  match tyFmt t with
  | some F => fDiv F rm (F.decode a) (F.decode b)
  | none =>
    let w := tyWidth t
    let y := intVal (tySigned t) w b
    (if y = 0 then 2 ^ w - 1 else wrapInt w ((intVal (tySigned t) w a).tdiv y), flNone)

/-- The remainder of R98 (R124). -/
def opRem : SubOp := fun t _ _ a b _ =>
  let w := tyWidth t
  let y := intVal (tySigned t) w b
  (if y = 0 then a else wrapInt w ((intVal (tySigned t) w a).tmod y), flNone)

/-- Negation (R125). -/
def opNeg : SubOp := fun t rm sat a b d =>
  match tyFmt t with
  | some F =>
    (if (F.decode a).isNan then F.nan else if a < 2 ^ (F.w - 1) then a + 2 ^ (F.w - 1) else a - 2 ^ (F.w - 1), flNone)
  | none => numOp (fun a _ _ => -a) (fun _ _ _ _ _ => (0, flNone)) t rm sat a b d

/-- Absolute value (R125). -/
def opAbs : SubOp := fun t rm sat a b d =>
  match tyFmt t with
  | some F => (if (F.decode a).isNan then F.nan else a % 2 ^ (F.w - 1), flNone)
  | none => numOp (fun a _ _ => (a.natAbs : Int)) (fun _ _ _ _ _ => (0, flNone)) t rm sat a b d

/-- The set bits among `n` bits. -/
def popCount : Nat → Nat → Nat
  | 0, _ => 0
  | n + 1, x => x % 2 + popCount n (x / 2)

def opPopc : SubOp := fun t _ _ a _ _ => (popCount (tyWidth t) a, flNone)

/-- The zero bits above the highest set bit (R125). -/
def opClz : SubOp := fun t _ _ a _ _ => (if a = 0 then tyWidth t else tyWidth t - 1 - a.log2, flNone)

/-- The field (OFF, WID) that a sub-element of B gives (R127). -/
def bitField (w b : Nat) : Nat × Nat :=
  let off := b % w
  (off, min (b / w % w + 1) (w - off))

/-- Extracts a field (R127). -/
def opBfx : SubOp := fun t _ _ a b _ =>
  let w := tyWidth t
  let f := bitField w b
  (wrapInt w (intVal (tySigned t) f.2 (a / 2 ^ f.1 % 2 ^ f.2)), flNone)

/-- Inserts a field (R127). -/
def opBfi : SubOp := fun t _ _ a b d =>
  let f := bitField (tyWidth t) b
  (d % 2 ^ f.1 + a % 2 ^ f.2 * 2 ^ f.1 + d / 2 ^ (f.1 + f.2) * 2 ^ (f.1 + f.2), flNone)

/-- The value of the nine-bit immediate as an operand: an integer's low bits, or an exact float (R122). -/
def imm9 (t : ETy) (k : BitVec 9) : Nat :=
  match tyFmt t with
  | some F => (roundQ F .rne (Q.ofInt k.toInt)).1
  | none => wrapInt (tyWidth t) k.toInt

/-- VADDI and VMULI take the exact signed immediate, under n types too (R122). -/
def opImm (isMul : Bool) (k : BitVec 9) : SubOp := fun t rm sat a _ _ =>
  match tyFmt t with
  | some F =>
    if isMul then fMul F rm (F.decode a) (F.decode (imm9 t k)) else fAdd F rm (F.decode a) (F.decode (imm9 t k))
  | none =>
    let x := intVal (tySigned t) (tyWidth t) a
    deliverInt (tySigned t) (tyWidth t) sat (if isMul then x * k.toInt else x + k.toInt)

/-- Rounding to an integral value (R130). -/
def opRint (r : RMode) : SubOp := fun t _ _ a _ _ =>
  match tyFmt t with
  | none => (a, flNone)
  | some F =>
    match F.decode a with
    | .nan => (F.nan, flNone)
    | .inf _ => (a, flNone)
    | .fin neg m e =>
      if m = 0 then (a, flNone)
      else
        let x := roundInt r (FVal.fin neg m e).q
        (if x.1 = 0 then F.signBit neg else (roundQ F .rne (Q.ofInt x.1)).1, if x.2 then flNone else flIx)

/-- The ten class bits (R133). -/
def opClass : SubOp := fun t _ _ a _ _ =>
  match tyFmt t with
  | none => (0, flNone)
  | some F =>
    let w := F.w
    let sub := decide (a % 2 ^ (w - 1) < 2 ^ F.fb)
    (match F.decode a with
     | .nan => 256 + (if a = poison.toNat % 2 ^ w then 512 else 0)
     | .inf neg => if neg then 1 else 128
     | .fin neg m _ => if m = 0 then (if neg then 8 else 16) else if sub then (if neg then 4 else 32) else (if neg then 2 else 64),
     flNone)

/-- The condition of VCMP on one pair of sub-elements (R92, R132). -/
def condHolds (c : Cond) (t : ETy) (a b : Nat) : Bool :=
  match tyFmt t with
  | some F =>
    let x := F.decode a
    let y := F.decode b
    let un := x.isNan || y.isNan
    (match c with
     | .eq => !un && x.eqv y
     | .ne => un || !x.eqv y
     | .lt => !un && x.lt y
     | .le => !un && (x.lt y || x.eqv y)
     | .gt => !un && y.lt x
     | .ge => !un && (y.lt x || x.eqv y)
     | .uno => un
     | .ord => !un
     | .ltu | .leu | .gtu | .geu => false)
  | none =>
    let x := intVal (tySigned t) (tyWidth t) a
    let y := intVal (tySigned t) (tyWidth t) b
    (match c with
     | .eq => decide (x = y)
     | .ne => decide (x ≠ y)
     | .lt => decide (x < y)
     | .le => decide (x ≤ y)
     | .gt => decide (y < x)
     | .ge => decide (y ≤ x)
     | _ => false)

/-! ## Frames -/

/-- The lane result of a sub-element operation on three source lanes (R117). -/
def View.subLane (v : View) (op : SubOp) (a b d : Word) : Word × Flags :=
  let w := tyWidth v.et
  mapSubs w fun i => op v.et v.rm v.sat (subElem w i a) (subElem w i b) (subElem w i d)

/-- A vector instruction of two sources, and D where `rd` (R117). -/
def View.vec3 (v : View) (d : Nat) (a b : Src) (rd : Bool) (ok : ETy → Bool) (op : SubOp) : Out :=
  let m := v.eff false
  v.issue none (!ok v.et) m [opRun d 1 rd, opRd a.reg, opRd b.reg] fun v st =>
    let x := v.rdV a.reg
    let y := v.rdV b.reg
    let z := v.rdV d
    v.laneWrite st d m (killsOf m [a, b]) fun l => v.subLane op (lane x l) (lane y l) (lane z l)

/-- A vector instruction of one source (R117, R125). -/
def View.vec1 (v : View) (d : Nat) (a : Src) (ok : ETy → Bool) (op : SubOp) : Out :=
  let m := v.eff false
  v.issue none (!ok v.et) m [opWr d, opRd a.reg] fun v st =>
    let x := v.rdV a.reg
    v.laneWrite st d m (killsOf m [a]) fun l => v.subLane op (lane x l) 0 0

/-- As `laneWrite`, the result written after a lookahead window (R64, R65). -/
def View.laneLater (v : View) (st : BitVec 10) (d : Nat) (m : Mask) (kills : List (Nat × Mask)) (ahead : BitVec 4)
    (f : Nat → Word × Flags) : Out :=
  let rs : Vector (Word × Flags) 32 := Vector.ofFn fun (i : Fin 32) => if m.getLsbD i.val then f i.val else (0, 0)
  v.finishFlags st (Vector.ofFn fun (i : Fin 32) => rs[i.val].2)
    { kills := kills, pend := some (v.laterV ahead [(d, m, Vector.ofFn fun (i : Fin 32) => rs[i.val].1)]) }

/-- A long-latency instruction of two sources (R124). -/
def View.vecLater (v : View) (d : Nat) (a b : Src) (ahead : BitVec 4) (ok : ETy → Bool) (op : SubOp) : Out :=
  let m := v.eff false
  v.issue none (!ok v.et) m [opWr d, opRd a.reg, opRd b.reg] fun v st =>
    let x := v.rdV a.reg
    let y := v.rdV b.reg
    v.laneLater st d m (killsOf m [a, b]) ahead fun l => v.subLane op (lane x l) (lane y l) 0

/-! ## Bodies -/

def bodyVadd (d : Nat) (a b : Src) (v : View) : Out := v.vec3 d a b false okArith opAdd
def bodyVsub (d : Nat) (a b : Src) (v : View) : Out := v.vec3 d a b false okArith opSub
def bodyVmul (d : Nat) (a b : Src) (v : View) : Out := v.vec3 d a b false okArith opMul
def bodyVmulh (d : Nat) (a b : Src) (v : View) : Out := v.vec3 d a b false okInt opMulh
def bodyVfma (d : Nat) (a b : Src) (v : View) : Out := v.vec3 d a b true okArith opFma
def bodyVfms (d : Nat) (a b : Src) (v : View) : Out := v.vec3 d a b true okArith opFms
def bodyVmin (d : Nat) (a b : Src) (v : View) : Out := v.vec3 d a b false okArith (opMinMax false)
def bodyVmax (d : Nat) (a b : Src) (v : View) : Out := v.vec3 d a b false okArith (opMinMax true)
def bodyVand (d : Nat) (a b : Src) (v : View) : Out := v.vec3 d a b false okArith (opBits fun x y => x &&& y)
def bodyVor (d : Nat) (a b : Src) (v : View) : Out := v.vec3 d a b false okArith (opBits fun x y => x ||| y)
def bodyVxor (d : Nat) (a b : Src) (v : View) : Out := v.vec3 d a b false okArith (opBits fun x y => x ^^^ y)
def bodyVshl (d : Nat) (a b : Src) (v : View) : Out := v.vec3 d a b false okArith opShl
def bodyVshr (d : Nat) (a b : Src) (v : View) : Out := v.vec3 d a b false okArith opShr
def bodyVabsd (d : Nat) (a b : Src) (v : View) : Out := v.vec3 d a b false okArith opAbsd
def bodyVbfx (d : Nat) (a b : Src) (v : View) : Out := v.vec3 d a b false okInt opBfx
def bodyVbfi (d : Nat) (a b : Src) (v : View) : Out := v.vec3 d a b true okInt opBfi
def bodyVlerp (d : Nat) (a b : Src) (v : View) : Out := v.vec3 d a b true okArith opLerp
def bodyVaddi (d : Nat) (a : Src) (k : BitVec 9) (v : View) : Out := v.vec1 d a okArith (opImm false k)
def bodyVmuli (d : Nat) (a : Src) (k : BitVec 9) (v : View) : Out := v.vec1 d a okArith (opImm true k)

/-- Shift by the immediate's low six bits mod w (R122). -/
def bodyVshli (d : Nat) (a : Src) (k : BitVec 9) (v : View) : Out :=
  v.vec1 d a okArith fun t rm sat x _ z => opShl t rm sat x (k.toNat % 64) z

def bodyVshri (d : Nat) (a : Src) (k : BitVec 9) (v : View) : Out :=
  v.vec1 d a okArith fun t rm sat x _ z => opShr t rm sat x (k.toNat % 64) z

/-- AND with the immediate sign-extended to w bits (R122). -/
def bodyVandi (d : Nat) (a : Src) (k : BitVec 9) (v : View) : Out :=
  v.vec1 d a okArith fun t _ _ x _ _ => (x &&& wrapInt (tyWidth t) k.toInt, flNone)

/-- Copies the 64 lane bits (R125). -/
def bodyVmov (d : Nat) (a : Src) (v : View) : Out := v.vec1 d a okAny fun _ _ _ x _ _ => (x, flNone)
def bodyVneg (d : Nat) (a : Src) (v : View) : Out := v.vec1 d a okArith opNeg
def bodyVabs (d : Nat) (a : Src) (v : View) : Out := v.vec1 d a okArith opAbs
def bodyVpopc (d : Nat) (a : Src) (v : View) : Out := v.vec1 d a okInt opPopc
def bodyVclz (d : Nat) (a : Src) (v : View) : Out := v.vec1 d a okInt opClz
def bodyVclass (d : Nat) (a : Src) (v : View) : Out := v.vec1 d a okFloat opClass
def bodyVrint (d : Nat) (a : Src) (r : RMode) (v : View) : Out := v.vec1 d a okFloat (opRint r)

/-- VSEL writes WSET: A in the EFFMASK lanes, B in the others (R123). -/
def bodyVsel (d : Nat) (a b : Src) (v : View) : Out :=
  let m := v.eff true
  let wset := if v.svc then v.split.exec else v.g.launched
  let rest := wset &&& ~~~m
  v.issue none false m [opWr d, opRd a.reg, { opRd b.reg with lanes := some rest }] fun v st =>
    let x := v.rdV a.reg
    let y := v.rdV b.reg
    v.finish st
      { vw := [(d, wset, mergeLanes m x y)], kills := killsOf (m &&& wset) [a] ++ killsOf rest [b] }

/-- The sub-element that VLDI writes (R126). -/
def vldiValue (t : ETy) (lit : W32) : Nat :=
  match t with
  | .i64 => (lit.signExtend 64).toNat
  | .f64 => if (fmtF32.decode lit.toNat).isNan then fmtF64.nan else (convFF fmtF64 .rne false (fmtF32.decode lit.toNat)).1
  | _ => lit.toNat % 2 ^ tyWidth t

/-- The source and destination registers of a VCVT (R128). -/
def cvtRuns (st t : ETy) : Nat × Nat :=
  if tyWidth t < tyWidth st then (tyWidth st / tyWidth t, 1) else (1, tyWidth t / tyWidth st)

/-- One converted destination lane: register `j` of the group, from the source lanes (R128). -/
def cvtLane (st t : ETy) (r : RMode) (sat : Bool) (src : List Word) (j : Nat) : Word × Flags :=
  let ws := tyWidth st
  let wd := tyWidth t
  let ns := 64 / ws
  let nd := 64 / wd
  mapSubs wd fun s =>
    if wd < ws then conv st t r sat (subElem ws (s % ns) (src.getD (s / ns) 0))
    else conv st t r sat (subElem ws (j * nd + s) (src.getD 0 0))

def bodyVcvt (d : Nat) (a : Src) (sty : ETy) (r : RMode) (sat : Bool) (v : View) : Out :=
  let m := v.eff false
  let qa := (cvtRuns sty v.et).1
  let qd := (cvtRuns sty v.et).2
  v.issue none false m [opRun d qd false, opRun a.reg qa true] fun v st =>
    let srcs := (List.range qa).map fun i => v.rdV (a.reg + i)
    let outs : List (Vector (Word × Flags) 32) := (List.range qd).map fun j =>
      Vector.ofFn fun (i : Fin 32) =>
        if m.getLsbD i.val then cvtLane sty v.et r sat (srcs.map fun x => lane x i.val) j else (0, 0)
    v.finishFlags st
      (Vector.ofFn fun (i : Fin 32) => outs.foldl (fun f o => f ||| o[i.val].2) 0)
      { vw := outs.zipIdx.map fun o => (d + o.2, m, Vector.ofFn fun (i : Fin 32) => o.1[i.val].1)
        kills := if a.last then (List.range qa).map fun i => (a.reg + i, m) else [] }

/-! ## Meanings -/

def execVadd (d : BitVec 7) (a b : VSrc) (s : State) : Out := withIssuer s 1 (bodyVadd d.toNat (vsrc a) (vsrc b))
def execVsub (d : BitVec 7) (a b : VSrc) (s : State) : Out := withIssuer s 1 (bodyVsub d.toNat (vsrc a) (vsrc b))
def execVmul (d : BitVec 7) (a b : VSrc) (s : State) : Out := withIssuer s 1 (bodyVmul d.toNat (vsrc a) (vsrc b))
def execVmulh (d : BitVec 7) (a b : VSrc) (s : State) : Out := withIssuer s 1 (bodyVmulh d.toNat (vsrc a) (vsrc b))
def execVfma (d : BitVec 7) (a b : VSrc) (s : State) : Out := withIssuer s 1 (bodyVfma d.toNat (vsrc a) (vsrc b))
def execVfms (d : BitVec 7) (a b : VSrc) (s : State) : Out := withIssuer s 1 (bodyVfms d.toNat (vsrc a) (vsrc b))
def execVmin (d : BitVec 7) (a b : VSrc) (s : State) : Out := withIssuer s 1 (bodyVmin d.toNat (vsrc a) (vsrc b))
def execVmax (d : BitVec 7) (a b : VSrc) (s : State) : Out := withIssuer s 1 (bodyVmax d.toNat (vsrc a) (vsrc b))
def execVand (d : BitVec 7) (a b : VSrc) (s : State) : Out := withIssuer s 1 (bodyVand d.toNat (vsrc a) (vsrc b))
def execVor (d : BitVec 7) (a b : VSrc) (s : State) : Out := withIssuer s 1 (bodyVor d.toNat (vsrc a) (vsrc b))
def execVxor (d : BitVec 7) (a b : VSrc) (s : State) : Out := withIssuer s 1 (bodyVxor d.toNat (vsrc a) (vsrc b))
def execVshl (d : BitVec 7) (a b : VSrc) (s : State) : Out := withIssuer s 1 (bodyVshl d.toNat (vsrc a) (vsrc b))
def execVshr (d : BitVec 7) (a b : VSrc) (s : State) : Out := withIssuer s 1 (bodyVshr d.toNat (vsrc a) (vsrc b))
def execVsel (d : BitVec 7) (a b : VSrc) (s : State) : Out := withIssuer s 1 (bodyVsel d.toNat (vsrc a) (vsrc b))
def execVabsd (d : BitVec 7) (a b : VSrc) (s : State) : Out := withIssuer s 1 (bodyVabsd d.toNat (vsrc a) (vsrc b))
def execVbfx (d : BitVec 7) (a b : VSrc) (s : State) : Out := withIssuer s 1 (bodyVbfx d.toNat (vsrc a) (vsrc b))
def execVbfi (d : BitVec 7) (a b : VSrc) (s : State) : Out := withIssuer s 1 (bodyVbfi d.toNat (vsrc a) (vsrc b))
def execVlerp (d : BitVec 7) (a b : VSrc) (s : State) : Out := withIssuer s 1 (bodyVlerp d.toNat (vsrc a) (vsrc b))

def execVdiv (d : BitVec 7) (a b : VSrc) (ahead : BitVec 4) (s : State) : Out :=
  withIssuer s 2 fun v => v.vecLater d.toNat (vsrc a) (vsrc b) ahead okArith opDiv

def execVrem (d : BitVec 7) (a b : VSrc) (ahead : BitVec 4) (s : State) : Out :=
  withIssuer s 2 fun v => v.vecLater d.toNat (vsrc a) (vsrc b) ahead okInt opRem

def execVaddi (d : BitVec 7) (a : VSrc) (k : BitVec 9) (s : State) : Out := withIssuer s 1 (bodyVaddi d.toNat (vsrc a) k)
def execVmuli (d : BitVec 7) (a : VSrc) (k : BitVec 9) (s : State) : Out := withIssuer s 1 (bodyVmuli d.toNat (vsrc a) k)
def execVshli (d : BitVec 7) (a : VSrc) (k : BitVec 9) (s : State) : Out := withIssuer s 1 (bodyVshli d.toNat (vsrc a) k)
def execVshri (d : BitVec 7) (a : VSrc) (k : BitVec 9) (s : State) : Out := withIssuer s 1 (bodyVshri d.toNat (vsrc a) k)
def execVandi (d : BitVec 7) (a : VSrc) (k : BitVec 9) (s : State) : Out := withIssuer s 1 (bodyVandi d.toNat (vsrc a) k)
def execVmov (d : BitVec 7) (a : VSrc) (s : State) : Out := withIssuer s 1 (bodyVmov d.toNat (vsrc a))
def execVneg (d : BitVec 7) (a : VSrc) (s : State) : Out := withIssuer s 1 (bodyVneg d.toNat (vsrc a))
def execVabs (d : BitVec 7) (a : VSrc) (s : State) : Out := withIssuer s 1 (bodyVabs d.toNat (vsrc a))
def execVpopc (d : BitVec 7) (a : VSrc) (s : State) : Out := withIssuer s 1 (bodyVpopc d.toNat (vsrc a))
def execVclz (d : BitVec 7) (a : VSrc) (s : State) : Out := withIssuer s 1 (bodyVclz d.toNat (vsrc a))
def execVclass (d : BitVec 7) (a : VSrc) (s : State) : Out := withIssuer s 1 (bodyVclass d.toNat (vsrc a))
def execVrint (d : BitVec 7) (a : VSrc) (r : RMode) (s : State) : Out := withIssuer s 1 (bodyVrint d.toNat (vsrc a) r)

def execVcvt (d : BitVec 7) (a : VSrc) (sty : ETy) (r : RMode) (sat : Bool) (s : State) : Out :=
  withIssuer s 1 (bodyVcvt d.toNat (vsrc a) sty r sat)

/-- Writes the literal to every sub-element (R126). -/
def execVldi (d : BitVec 7) (lit : W32) (s : State) : Out :=
  withIssuer s 2 fun v =>
    let m := v.eff false
    v.issue none false m [opWr d.toNat] fun v st =>
      let x := laneOfSubs (tyWidth v.et) (List.replicate (subCount (tyWidth v.et)) (vldiValue v.et lit))
      v.finish st { vw := [(d.toNat, m, LaneVec.splat x)] }

/-- Compares every sub-element and writes a mask (R132). -/
def execVcmp (md : BitVec 4) (c : Cond) (a : BitVec 7) (la : Bool) (b : BitVec 7) (lb : Bool) (s : State) : Out :=
  withIssuer s 1 fun v =>
    let m := v.eff false
    let ill := tyNarrow v.et || ((c == .uno || c == .ord) && tyInt v.et)
    v.issue none ill m [opMw md.toNat, opRd a.toNat, opRd b.toNat] fun v st =>
      let x := v.rdV a.toNat
      let y := v.rdV b.toNat
      let w := tyWidth v.et
      let nm := maskOf fun l => m.getLsbD l &&
        (List.range (subCount w)).all fun i => condHolds c v.et (subElem w i (lane x l)) (subElem w i (lane y l))
      v.finish st { mw := [(md.toNat, nm)], kills := killsOf m [⟨a.toNat, la⟩, ⟨b.toNat, lb⟩] }

end Sys2Proof.Machine
end

