-- ==== Sys2Proof/Machine/Sfu.lean ====
section
/-!
DEFINITION. The special functions of VSFU (R112 to R114, R131). The special and exact cases are those of the rules; the
bits of every other result are free values of Config within the bounds of R112: 1 ulp for VRCP and VRSQ, 2 ulp for the others
(DESIGN CHOICE, log 8); those of VEXP2 and VLOG2 never fall as the argument rises (R114).
-/
namespace Sys2Proof.Machine

/-- The value `m · 2^e` as an integer if it is one. -/
def dyadicInt (m : Nat) (e : Int) : Option Nat :=
  if 0 ≤ e then some (m * 2 ^ e.toNat) else if m % 2 ^ (-e).toNat = 0 then some (m / 2 ^ (-e).toNat) else none

/-- Twice the value `m · 2^e` as an integer if it is one. -/
def dyadicTwice (m : Nat) (e : Int) : Option Nat := dyadicInt m (e + 1)

/-- The flags of an inexact result (R105, R106): tiny when its magnitude is below the smallest normal. -/
def inexactFlags (F : FFmt) (r : Nat) : Flags :=
  if r % 2 ^ (F.w - 1) < 2 ^ F.fb then flUf ||| flIx else flIx

/-- The place of a value in the order of a format's values: its magnitude index, negative below zero. -/
def FFmt.ordinal (F : FFmt) (bits : Nat) : Int :=
  if 2 ^ (F.w - 1) ≤ bits then -((bits - 2 ^ (F.w - 1) : Nat) : Int) else bits

/-- The value at a place of that order. -/
def FFmt.atOrdinal (F : FFmt) (i : Int) : Nat := F.signBit (decide (i < 0)) + i.natAbs

/-- The least and the greatest finite magnitude within `ulps` ulp of a positive exact value, as indices. The ulp is the
spacing of the format at the exact value (R112 measures its bounds against the exact value and does not define the ulp:
DEDUCED, log 45); a result keeps the sign of the exact value. -/
def sfuSpan (F : FFmt) (ulps : Nat) (y : Q) : Nat × Nat :=
  let u := Q.dyadic ulps (max (y.log2 - F.fb) (1 - (F.bias : Int) - F.fb))
  let low := y.sub u
  (if low.le Q.zero then 0 else min (roundIdx F .rup false low).1 F.maxBits,
   min (roundIdx F .rdn false (y.add u)).1 F.maxBits)

/-- A chosen value, with the flags of an inexact one where it differs from the exact value (R106, R113). -/
def sfuGiven (F : FFmt) (exact : Q) (bits : Nat) : Nat × Flags :=
  (bits, if (F.decode bits).q.eq exact then flNone else inexactFlags F bits)

/-- The value that a function returns where R112 only bounds its error: a free one within the bound (DESIGN CHOICE,
log 8). -/
def sfuFree (fn : Nat) (F : FFmt) (ulps bits : Nat) (neg : Bool) (y : Q) : Nat × Flags :=
  let r := sfuSpan F ulps y
  sfuGiven F (if neg then y.neg else y) (F.signBit neg + (r.1 + Config.sfuPick fn (F.w == 32) bits % (r.2 - r.1 + 1)))

/-- The highest place, from `top` down over `n` places, whose free threshold the argument's place `x` has reached; the
lowest of them needs none. -/
def sfuReach (step : Int → Int) (x : Int) : Nat → Int → Int
  | 0, top => top
  | n + 1, top => if step top ≤ x then top else sfuReach step x n (top - 1)

/-- A free value between two places that never falls as the argument rises (R114; DESIGN CHOICE, log 8): each result has
a threshold, a free value of Config, and the function gives the highest result whose threshold the argument has reached. -/
def sfuRising (fn : Nat) (F : FFmt) (bits : Nat) (lo hi : Int) (y : Q) : Nat × Flags :=
  sfuGiven F y (F.atOrdinal (sfuReach (Config.sfuStep fn (F.w == 32)) (F.ordinal bits) (hi - lo).toNat (max lo hi)))

/-! ## Exact values to 400 binary places

The functions below are irrational wherever they are used, and no value of a format lies as near to them as the error of
these sums, so the values that `sfuSpan` admits are those within the bound of the exact value. -/

/-- One, to 400 binary places. -/
def fixOne : Nat := 2 ^ 400

/-- `Σ p·zz^i / (k + 2i)`. -/
def atanhSum (zz : Nat) : Nat → Nat → Nat → Nat
  | 0, _, _ => 0
  | n + 1, p, k => p / k + atanhSum zz n (p * zz / fixOne) (k + 2)

/-- The natural logarithm of `(1 + z) / (1 − z)`, for `z` up to 1/3. -/
def fixLn (z : Nat) : Nat := 2 * atanhSum (z * z / fixOne) 140 z 1

def fixLn2 : Nat := fixLn (fixOne / 3)

/-- `Σ (−1)^i · (1/d)^(2i+1) / (k + 2i)`. -/
def atanSum (d : Nat) : Nat → Int → Nat → Int
  | 0, _, _ => 0
  | n + 1, p, k => p / k - atanSum d n (p / (d * d)) (k + 2)

/-- π (Machin). -/
def fixPi : Nat := (16 * atanSum 5 100 (fixOne / 5) 1 - 4 * atanSum 239 100 (fixOne / 239) 1).toNat

/-- `Σ term · t^i / ((k+1)…(k+i))`. -/
def expSum (t : Nat) : Nat → Nat → Nat → Nat
  | 0, term, _ => term
  | n + 1, term, k => term + expSum t n (term * t / (k * fixOne)) (k + 1)

/-- `2^f` for a fraction `f`. -/
def fixExp2 (f : Nat) : Nat := expSum (f * fixLn2 / fixOne) 100 fixOne 1

/-- `Σ (−1)^i · term · tt^i / …`: the sine's series. -/
def sinSum (tt : Nat) : Nat → Int → Nat → Int
  | 0, _, _ => 0
  | n + 1, term, k => term - sinSum tt n (term * tt / (fixOne * ((k + 1) * (k + 2)) : Nat)) (k + 2)

/-- `m · 2^e` to 400 places; exact for every value of a format (R99). -/
def fixOf (m : Nat) (e : Int) : Nat := m * 2 ^ (e + 400).toNat

/-- `2^x` for `x = ±m · 2^e`. -/
def exactExp2 (neg : Bool) (m : Nat) (e : Int) : Q :=
  let x : Int := if neg then -(fixOf m e : Int) else fixOf m e
  Q.dyadic (fixExp2 (x.fmod fixOne).toNat) (x.fdiv fixOne - 400)

/-- The base-2 logarithm of `m · 2^e`. -/
def exactLog2 (m : Nat) (e : Int) : Q :=
  let l := m.log2
  let z := (m - 2 ^ l) * fixOne / (m + 2 ^ l)
  Q.dyadic (((l : Int) + e) * fixOne + (fixLn z * fixOne / fixLn2 : Nat)) (-400)

/-- `|sin(πx)|` and whether it is negative, for `x` to 400 places. -/
def exactSin (x : Nat) : Bool × Q :=
  let r := x % (2 * fixOne)
  let t := r % fixOne
  let t := if fixOne / 2 < t then fixOne - t else t
  let a := fixPi * t / fixOne
  (decide (fixOne ≤ r), Q.dyadic (sinSum (a * a / fixOne) 90 a 1) (-400))

/-- The hyperbolic tangent of `m · 2^e`; from 128 on it is 1 but for less than any format can show. -/
def exactTanh (m : Nat) (e : Int) : Q :=
  if (Q.ofInt 128).le (Q.dyadic m e) then ⟨2 ^ 300 - 1, 2 ^ 300⟩
  else
    let u := 2 * fixOf m e * fixOne / fixLn2
    let x := fixExp2 (u % fixOne) * 2 ^ (u / fixOne)
    ⟨(x : Int) - fixOne, x + fixOne⟩

/-! ## The functions -/

def expFn (F : FFmt) (x : Nat) : Nat × Flags :=
  match F.decode x with
  | .nan => (F.nan, flNone)
  | .inf neg => (if neg then 0 else F.infBits, flNone)
  | .fin neg m e =>
    let q := (FVal.fin neg m e).q
    if m = 0 then roundQ F .rne (Q.ofInt 1)
    else if (Q.ofInt (F.bias + 1)).le q then (F.infBits, flOf ||| flIx)
    else if q.lt (Q.ofInt (-((F.bias + F.fb + 2 : Nat) : Int))) then (0, flUf ||| flIx)
    else
      match dyadicInt m e with
      | some n => roundQ F .rne (Q.dyadic 1 (if neg then -(n : Int) else n))
      | none =>
        let y := exactExp2 neg m e
        let r := roundQ F .rne y
        -- an overflowing and a tiny result are the rounded one (R113)
        if (r.2 &&& (flOf ||| flUf)) != 0#10 then r
        else
          -- the powers of two are exact, so the results between two of them stay there, and none falls below a tiny one
          let span := sfuSpan F 2 y
          let low := (roundQ F .rtz y).1
          let least := if low < 2 ^ F.fb then low else (roundIdx F .rtz false (Q.dyadic 1 y.log2)).1
          let most := (roundIdx F .rtz false (Q.dyadic 1 (y.log2 + 1))).1
          sfuRising 0 F x (max span.1 least : Nat) (min span.2 most : Nat) y

def logFn (F : FFmt) (x : Nat) : Nat × Flags :=
  match F.decode x with
  | .nan => (F.nan, flNone)
  | .inf neg => if neg then (F.nan, flInv) else (F.infBits, flNone)
  | .fin neg m e =>
    if m = 0 then (F.signBit true + F.infBits, flDz)
    else if neg then (F.nan, flInv)
    else if m = 2 ^ m.log2 then roundQ F .rne (Q.ofInt ((m.log2 : Int) + e))
    else
      -- the powers of two are exact, so a result lies between the integers on both sides of the exact value
      let y := exactLog2 m e
      let span := sfuSpan F 2 y.abs
      let integer (n : Int) : Int := F.ordinal (roundQ F .rne (Q.ofInt n)).1
      let lo : Int := if y.isNeg then -(span.2 : Int) else span.1
      let hi : Int := if y.isNeg then -(span.1 : Int) else span.2
      sfuRising 1 F x (max lo (integer y.floor)) (min hi (integer (y.floor + 1))) y

def rcpFn (F : FFmt) (x : Nat) : Nat × Flags :=
  match F.decode x with
  | .nan => (F.nan, flNone)
  | .inf neg => (F.signBit neg, flNone)
  | .fin neg m e =>
    if m = 0 then (F.signBit neg + F.infBits, flDz)
    else
      let y := Q.inv (FVal.fin false m e).q
      if ((roundQ F .rne y).2 &&& flOf) != 0#10 then (F.signBit neg + F.infBits, flOf ||| flIx) else sfuFree 2 F 1 x neg y

/-- A rational on the same side of every rounding boundary as the reciprocal square root of `m · 2^e`, equal to it where
it is rational. -/
def rsqQ (m : Nat) (e : Int) : Q :=
  let m1 := if e % 2 = 0 then m else 2 * m
  let e1 := if e % 2 = 0 then e else e - 1
  let r := isqrt (2 ^ 400 / m1)
  Q.dyadic (if r * r * m1 = 2 ^ 400 then 2 * (r : Int) else 2 * (r : Int) + 1) (-(e1 / 2) - 201)

def rsqFn (F : FFmt) (x : Nat) : Nat × Flags :=
  match F.decode x with
  | .nan => (F.nan, flNone)
  | .inf neg => if neg then (F.nan, flInv) else (0, flNone)
  | .fin neg m e =>
    if m = 0 then (F.signBit neg + F.infBits, flDz)
    else if neg then (F.nan, flInv)
    else sfuFree 3 F 1 x false (rsqQ m e)

/-- Plus or minus one. -/
def fOne (F : FFmt) (neg : Bool) : Nat := F.signBit neg + F.bias * 2 ^ F.fb

/-- sin(πx) or cos(πx): exact at every multiple of one half (R113). -/
def sinCosFn (isCos : Bool) (F : FFmt) (x : Nat) : Nat × Flags :=
  match F.decode x with
  | .nan => (F.nan, flNone)
  | .inf _ => (F.nan, flInv)
  | .fin neg m e =>
    if m = 0 then (if isCos then fOne F false else F.signBit neg, flNone)
    else
      match dyadicTwice m e with
      | none =>
        let y := exactSin (fixOf m e + if isCos then fixOne / 2 else 0)
        sfuFree (if isCos then 6 else 5) F 2 x (y.1 != (neg && !isCos)) y.2
      | some k =>
        if k % 2 = 0 then (if isCos then fOne F (k / 2 % 2 == 1) else F.signBit neg, flNone)
        else if isCos then (0, flNone)
        else
          -- x = n + 1/2 with n = (k - 1)/2, or n = -(k + 1)/2 for negative x
          (fOne F ((if neg then (k + 1) / 2 else (k - 1) / 2) % 2 == 1), flNone)

def tanhFn (F : FFmt) (x : Nat) : Nat × Flags :=
  match F.decode x with
  | .nan => (F.nan, flNone)
  | .inf neg => (fOne F neg, flNone)
  | .fin neg m e =>
    if m = 0 then (x, flNone)
    else
      sfuFree 7 F 2 (x % 2 ^ (F.w - 1)) neg (exactTanh m e)

/-- A function under f32 or f16 (R112, R113). -/
def sfuFn (fn : Nat) (F : FFmt) (x : Nat) : Nat × Flags :=
  match fn with
  | 0 => expFn F x
  | 1 => logFn F x
  | 2 => rcpFn F x
  | 3 => rsqFn F x
  | 5 => sinCosFn false F x
  | 6 => sinCosFn true F x
  | _ => tanhFn F x

/-- Under bf16, the f32 function's result rounded RNE to bf16 (R112). -/
def sfuBf16 (fn x : Nat) : Nat × Flags :=
  let a := sfuFn fn fmtF32 (convFF fmtF32 .rne false (fmtBf16.decode x)).1
  let b := convFF fmtBf16 .rne false (fmtF32.decode a.1)
  let keep := (a.2 &&& (flInv ||| flDz ||| flOf)) ||| (b.2 &&& flOf)
  let ix := ((a.2 ||| b.2) &&& flIx) != 0#10
  (b.1, keep ||| if ix then inexactFlags fmtBf16 b.1 else 0)

/-- The VSFU operation (R131); VSQRT alone reads MODE.RM. -/
def opSfu (fn : Nat) : SubOp := fun t rm _ a _ _ =>
  match tyFmt t with
  | none => (a, flNone)
  | some F =>
    if fn = 4 then fSqrt F rm (F.decode a) else if t = .bf16 then sfuBf16 fn a else sfuFn fn F a

/-- The types a function takes (R112). -/
def okSfu (fn : Nat) (t : ETy) : Bool := okFloat t && (fn == 4 || t != .f64)

/-- The VSFU frame (R131). -/
def View.sfu (v : View) (fn d : Nat) (a : Src) (ahead : BitVec 4) : Out :=
  let m := v.eff false
  v.issue none (!okSfu fn v.et) m [opWr d, opRd a.reg] fun v st =>
    let x := v.rdV a.reg
    v.laneLater st d m (killsOf m [a]) ahead fun l => v.subLane (opSfu fn) (lane x l) 0 0

def execVexp2 (d : BitVec 7) (a : VSrc) (ah : BitVec 4) (s : State) : Out := withIssuer s 2 fun v => v.sfu 0 d.toNat (vsrc a) ah
def execVlog2 (d : BitVec 7) (a : VSrc) (ah : BitVec 4) (s : State) : Out := withIssuer s 2 fun v => v.sfu 1 d.toNat (vsrc a) ah
def execVrcp (d : BitVec 7) (a : VSrc) (ah : BitVec 4) (s : State) : Out := withIssuer s 2 fun v => v.sfu 2 d.toNat (vsrc a) ah
def execVrsq (d : BitVec 7) (a : VSrc) (ah : BitVec 4) (s : State) : Out := withIssuer s 2 fun v => v.sfu 3 d.toNat (vsrc a) ah
def execVsqrt (d : BitVec 7) (a : VSrc) (ah : BitVec 4) (s : State) : Out := withIssuer s 2 fun v => v.sfu 4 d.toNat (vsrc a) ah
def execVsinp (d : BitVec 7) (a : VSrc) (ah : BitVec 4) (s : State) : Out := withIssuer s 2 fun v => v.sfu 5 d.toNat (vsrc a) ah
def execVcosp (d : BitVec 7) (a : VSrc) (ah : BitVec 4) (s : State) : Out := withIssuer s 2 fun v => v.sfu 6 d.toNat (vsrc a) ah
def execVtanh (d : BitVec 7) (a : VSrc) (ah : BitVec 4) (s : State) : Out := withIssuer s 2 fun v => v.sfu 7 d.toNat (vsrc a) ah

end Sys2Proof.Machine
end

