-- ==== Sys2Proof/Machine/History.lean ====
section
/-!
DEFINITION. The history translation unit (R286 to R309): spaces, fields and windows, the walk and its samples, HLD, the
HCTL functions, and the scrubber.
-/
namespace Sys2Proof.Machine

/-! ## Spaces (R286 to R289, R295) -/

/-- A surface record (R288). -/
structure Surface where
  addr  : Word
  pitch : Nat
  fmt   : Nat

/-- A SPATIAL descriptor (R287): `ring` lists the header addresses newest first. -/
structure HSpace where
  addr     : Word
  fw       : Nat
  fh       : Nat
  count    : Nat
  newest   : Nat
  fallback : Nat
  cur      : Surface
  ring     : List Word
  short    : List Word

/-- A SEQUENCE descriptor (R295). -/
structure HSeq where
  ty       : ETy
  h        : Nat
  sink     : Nat
  window   : Nat
  fallback : Nat
  data     : Word
  row      : Nat
  scales   : Word
  tags     : Word
  pages    : Word
  invf     : Word
  deriving DecidableEq, Repr

inductive HDesc where
  | spatial (h : HSpace)
  | seq (q : HSeq)

/-- A field header (R289), and where it was read. -/
structure HField where
  addr  : Word
  w0    : Word
  state : Nat
  side  : Nat
  span  : Nat
  gh    : Nat
  gw    : Nat
  frame : Nat
  grid  : Word
  prev0 : Word
  prev1 : Word
  locs  : List (Loc × Nat)

/-- Element size of an SFMT (R288). -/
def sfmtBytes (f : Nat) : Nat := match f with | 0 => 4 | 1 => 2 | 2 => 2 | _ => 1

/-- A surface record, or malformed (R288). -/
def surfaceOf (a b : Word) : Option Surface :=
  let f := bits b 31 28
  if f ≤ 3 ∧ bits b 27 0 = 0 ∧ a.toNat % sfmtBytes f = 0 ∧ bits b 63 32 % sfmtBytes f = 0 then
    some ⟨a, bits b 63 32, f⟩
  else none

/-- A SPATIAL descriptor from its 32 dwords, or malformed (R287). -/
def spatialOf (a : Word) (w : List Word) : Option HSpace :=
  let d (k : Nat) : Word := w.getD k 0
  let fw := bits (d 0) 15 0
  let fh := bits (d 0) 31 16
  let count := bits (d 1) 7 4
  let newest := bits (d 1) 3 0
  match surfaceOf (d 3) (d 4) with
  | none => none
  | some cur =>
    if bits (d 0) 61 32 = 0 ∧ bits (d 1) 63 8 = 0 ∧ bits (d 2) 63 32 = 0 ∧ (w.drop 24).all (fun x => x == 0)
        ∧ 1 ≤ fw ∧ fw ≤ 16384 ∧ 1 ≤ fh ∧ fh ≤ 16384 ∧ newest ≤ 14 then
      some
        { addr := a, fw := fw, fh := fh, count := count, newest := newest, fallback := bits (d 2) 31 0, cur := cur,
          ring := (List.range count).map fun i => d (5 + (newest + 15 - i) % 15)
          short := (List.range 4).map fun m => d (20 + m) }
    else none

/-- Whether a number is a power of two from 16 to 8192. -/
def isRow (n : Nat) : Bool := n == 2 ^ n.log2 && decide (16 ≤ n) && decide (n ≤ 8192)

/-- A SEQUENCE descriptor from its 32 dwords, or malformed (R295). -/
def seqOf (w : List Word) : Option HSeq :=
  let d (k : Nat) : Word := w.getD k 0
  match etyOf (bits (d 0) 55 52) with
  | none => none
  | some t =>
    let h := bits (d 0) 47 32
    let row := bits (d 4) 31 0
    let logw := bits (d 1) 4 0
    if (t == .f16 || t == .bf16 || t == .e4m3) && bits (d 0) 61 56 == 0 && bits (d 0) 51 48 == 0 && h % 2 == 0
        && decide (2 ≤ h) && decide (h ≤ 512) && decide (bits (d 0) 31 0 ≤ 2 ^ 31) && bits (d 1) 63 5 == 0
        && decide (6 ≤ logw) && decide (logw ≤ 20) && bits (d 2) 63 32 == 0 && (d 3).toNat % 8192 == 0
        && bits (d 4) 63 32 == 0 && isRow row && decide (h * etyBytes t ≤ row) && (t == .e4m3 || d 5 == 0)
        && (w.drop 9).all (fun x => x == 0) then
      some
        { ty := t, h := h, sink := bits (d 0) 31 0, window := 2 ^ logw, fallback := bits (d 2) 31 0, data := d 3, row := row,
          scales := d 5, tags := d 6, pages := d 7, invf := d 8 }
    else none

/-- The descriptor, read whole (R286). -/
def readSpace (i : Item) (a : Word) : Eng HDesc := do
  engNeed (a.toNat % 64 == 0) 0x01
  let bs ← engBytes i false reachMeta a 256
  let w := dwordsOf 32 bs
  match bits (w.getD 0 0) 63 62 with
  | 0 => match spatialOf a w with | some h => pure (.spatial h) | none => engFail 0x01
  | 1 => match seqOf w with | some q => pure (.seq q) | none => engFail 0x01
  | _ => engFail 0x01

def readSpatial (i : Item) (a : Word) : Eng HSpace := do
  match ← readSpace i a with
  | .spatial h => pure h
  | .seq _ => engFail 0x01

/-- A field header's fields, or malformed (R289). `fresh` headers have no STATE and SPAN yet, nor a shortcut's PREVSURF. -/
def fieldOf (sp : HSpace) (a : Word) (w : List Word) (short fresh : Bool) : Option HField :=
  let d (k : Nat) : Word := w.getD k 0
  let f : HField :=
    { addr := a, w0 := d 0, state := bits (d 0) 63 62, side := 2 ^ bits (d 0) 61 60, span := bits (d 0) 59 56,
      gh := bits (d 0) 31 16, gw := bits (d 0) 15 0, frame := bits (d 1) 63 32, grid := d 2, prev0 := d 3, prev1 := d 4, locs := [] }
  if bits (d 0) 55 32 = 0 ∧ sp.fh ≤ f.gh * f.side ∧ sp.fw ≤ f.gw * f.side ∧ bits (d 1) 31 0 = 0 ∧ f.grid.toNat % 8 = 0
      ∧ (w.drop 5).all (fun x => x == 0) ∧ ((fresh && short) || (surfaceOf (d 3) (d 4)).isSome)
      ∧ (fresh || (f.state != 3 && (if short then decide (2 ≤ f.span) else f.span == 1))) then some f
  else none

/-- Reads a header. -/
def readField (i : Item) (sp : HSpace) (a : Word) (short fresh : Bool) : Eng HField := do
  engNeed (a.toNat % 64 == 0) 0x01
  let ls ← engRun i false reachMeta ⟨false, a, 64, true, false⟩
  let bs ← (ExceptT.mk fun st => (.ok (st.s.runBytes (i.port st false) ls), st) : Eng (List Byte))
  match fieldOf sp a (dwordsOf 8 bs) short fresh with
  | none => engFail 0x01
  | some f => pure { f with locs := ls }

/-- The fields of ring positions, newest first. -/
def readRing (i : Item) (sp : HSpace) : List Word → Eng (List HField)
  | [] => pure []
  | a :: as => do
    let f ← readField i sp a false false
    let fs ← readRing i sp as
    pure (f :: fs)

/-- The shortcut fields of the slots that name one. -/
def readShorts (i : Item) (sp : HSpace) : List Word → Eng (List HField)
  | [] => pure []
  | a :: as =>
    if a = 0 then readShorts i sp as
    else do
      let f ← readField i sp a true false
      let fs ← readShorts i sp as
      pure (f :: fs)

/-! ## The walk (R290 to R293) -/

/-- A signed 16-bit displacement. -/
def disp16 (n : Nat) : Int := intVal true 16 (n % 2 ^ 16)

def HSpace.onScreen (sp : HSpace) (x y : Int) : Bool :=
  decide (0 ≤ x) && decide (x < 16 * sp.fw) && decide (0 ≤ y) && decide (y < 16 * sp.fh)

/-- Where a walk ends: a miss cause, or a position with the last field and the least confidence. -/
inductive WalkEnd where
  | miss (cause : Nat)
  | hit (x y : Int) (last : Option HField) (conf : Nat)

/-- The ring field of a frame, newest first (R292). -/
def scanFrame (i : Item) (sp : HSpace) (g : Nat) : List Word → Eng (Option HField)
  | [] => pure none
  | a :: as => do
    let f ← readField i sp a false false
    if f.frame = g then pure (some f) else scanFrame i sp g as

/-- The ring field of a frame, where `newest` is the newest field's: HOPEN numbers the fields of a ring in turn (R302), so its
place is known and its header alone is read (R197); in a ring that software has changed all are looked at. -/
def findFrame (i : Item) (sp : HSpace) (newest g : Nat) : Eng (Option HField) := do
  match sp.ring[(newest + 2 ^ 32 - g) % 2 ^ 32]? with
  | none => scanFrame i sp g sp.ring
  | some a => do
    let f ← readField i sp a false false
    if f.frame = g then pure (some f) else scanFrame i sp g sp.ring

/-- The SEALED shortcut of a frame with the largest SPAN up to `r`; on equal SPAN the lowest slot (R292). -/
def pickShort (g r : Nat) (fs : List HField) : Option HField :=
  fs.foldl (fun (b : Option HField) f =>
    if f.state == 1 && f.frame == g && decide (f.span ≤ r)
        && (match b with | none => true | some x => decide (x.span < f.span)) then
      some f
    else b) none

/-- The miss cause of an entry's state (R292). -/
def entryMiss (st : Nat) : Nat := match st with | 0 => 2 | 2 => 1 | _ => 3

/-- The field of one step (R292). -/
def stepField (i : Item) (sp : HSpace) (path : Bool) (newest g r : Nat) : Eng (Option HField) := do
  let ss ← if path then readShorts i sp sp.short else pure []
  match pickShort g r ss with
  | some f => pure (some f)
  | none => findFrame i sp newest g

/-- A step that finds its field SEALED acquires that field's HSEAL, and no other (R197, R308). -/
def stepAcquire (i : Item) (f : HField) : Eng Unit := if f.state = 1 then engAcquire i .slice f.locs else pure ()

/-- The steps of a walk from a position at frame `g` with `r` frames to go (R292); the fuel is at least `r`. -/
def walkSteps (i : Item) (sp : HSpace) (path : Bool) (newest : Nat) :
    Nat → Nat → Nat → Int → Int → Option HField → Nat → Eng WalkEnd
  | 0, _, _, x, y, last, conf => pure (.hit x y last conf)
  | fuel + 1, g, r, x, y, last, conf =>
    if r = 0 then pure (.hit x y last conf)
    else do
      match ← stepField i sp path newest g r with
      | none => pure (.miss 3)
      | some f => do
        stepAcquire i f
        if f.state = 2 then pure (.miss 3)
        else
          let bx := (x / (16 * f.side : Nat)).toNat
          let bby := (y / (16 * f.side : Nat)).toNat
          if f.gw ≤ bx ∨ f.gh ≤ bby then pure (.miss 4)
          else do
            let e ← engNat i false reachAll (f.grid + BitVec.ofNat 64 (8 * (bx + f.gw * bby))) 8
            if e / 2 ^ 62 ≠ 1 then pure (.miss (entryMiss (e / 2 ^ 62)))
            else
              let x := x + disp16 e
              let y := y + disp16 (e / 2 ^ 16)
              let g := (g + 2 ^ 32 - f.span) % 2 ^ 32
              let conf := min conf (e / 2 ^ 48 % 256)
              if !sp.onScreen x y then pure (.miss 4)
              else walkSteps i sp path newest fuel g (r - f.span) x y (some f) conf

/-! ## Samples (R288, R294) -/

/-- A texel channel widened to f32 (R288). -/
def widen (fmt x : Nat) : Nat :=
  match fmt with
  | 0 => (convFF fmtF32 .rne false (fmtF32.decode x)).1
  | 1 => (convFF fmtF32 .rne false (fmtF16.decode x)).1
  | 2 => (convFF fmtF32 .rne false (fmtBf16.decode x)).1
  | _ => rne32 (Q.ofInt x)

/-- The channels of a texel. -/
def texel (i : Item) (sf : Surface) (c u v : Nat) : Eng (List Nat) := do
  let es := sfmtBytes sf.fmt
  let bs ← engBytes i true reachAll (sf.addr + BitVec.ofNat 64 (v * sf.pitch + u * c * es)) (c * es)
  pure ((elemsOf es c bs).map (widen sf.fmt))

/-- A tap index within the frame (R294). -/
def clampTap (x : Int) (n : Nat) : Nat := (max 0 (min x ((n : Int) - 1))).toNat

/-- One channel of BILINEAR (R294). -/
def bilinear (fx fy t00 t10 t01 t11 : Nat) : Nat :=
  let w (n : Nat) : FVal := .fin false n (-8)
  let d (t : Nat) : FVal := fmtF32.decode t
  let v := (fMul fmtF32 .rne (w ((16 - fx) * (16 - fy))) (d t00)).1
  let v := (fFma fmtF32 .rne (w (fx * (16 - fy))) (d t10) (d v)).1
  let v := (fFma fmtF32 .rne (w ((16 - fx) * fy)) (d t01) (d v)).1
  (fFma fmtF32 .rne (w (fx * fy)) (d t11) (d v)).1

/-- SAMPLE (R294). -/
def sample (i : Item) (sp : HSpace) (sf : Surface) (c : Nat) (filter : HFilter) (x y : Int) : Eng (List Nat) :=
  match filter with
  | .bilinear => do
    let i0 := (x - 8).fdiv 16
    let j0 := (y - 8).fdiv 16
    let fx := ((x - 8).fmod 16).toNat
    let fy := ((y - 8).fmod 16).toNat
    let u0 := clampTap i0 sp.fw
    let u1 := clampTap (i0 + 1) sp.fw
    let v0 := clampTap j0 sp.fh
    let v1 := clampTap (j0 + 1) sp.fh
    let t00 ← texel i sf c u0 v0
    let t10 ← texel i sf c u1 v0
    let t01 ← texel i sf c u0 v1
    let t11 ← texel i sf c u1 v1
    pure ((List.range c).map fun k => bilinear fx fy (t00.getD k 0) (t10.getD k 0) (t01.getD k 0) (t11.getD k 0))
  | _ => texel i sf c (x / 16).toNat (y / 16).toNat

/-- What a lane of an HLD gets: its channels, or a miss cause (R293). -/
inductive HLane where
  | hit (xs : List Nat)
  | miss (cause : Nat)

/-- A lane in a SPATIAL space (R292). -/
def spatialLane (i : Item) (sp : HSpace) (age c : Nat) (filter : HFilter) (path : Bool) (pos : Word) : Eng HLane := do
  let x := intVal true 32 (bits pos 31 0)
  let y := intVal true 32 (bits pos 63 32)
  if !sp.onScreen x y then pure (.miss 4)
  else if age = 0 then do
    let xs ← sample i sp sp.cur c filter x y
    pure (.hit xs)
  else
    match sp.ring with
    | [] => pure (.miss 3)
    | a :: _ => do
      let f ← readField i sp a false false
      match ← walkSteps i sp path f.frame age f.frame age x y none 255 with
      | .miss m => pure (.miss m)
      | .hit x y last _ =>
        match last.bind fun f => surfaceOf f.prev0 f.prev1 with
        | none => engFail 0x01
        | some sf => do
          let xs ← sample i sp sf c filter x y
          pure (.hit xs)

/-! ## Sequence windows (R296 to R298) -/

/-- The slot and the wanted tag of a position (R296). -/
def HSeq.slotOf (q : HSeq) (p : Nat) : Nat × Nat :=
  if p < q.sink then (p, 1) else (q.sink + (p - q.sink) % q.window, ((p - q.sink) / q.window + 1) % 2 ^ 32)

/-- The page of an element of a slot (R295). -/
def HSeq.pageOf (q : HSeq) (slot e : Nat) : Nat := (slot * q.row + e * etyBytes q.ty) / 8192

/-- ELEM (R296): a stored element and its page's scale. -/
def elemVal (t : ETy) (x sc : Nat) : Nat :=
  match t with
  | .e4m3 => (fMul fmtF32 .rne (fmtE4m3.decode x) (fmtF32.decode sc)).1
  | .bf16 => (convFF fmtF32 .rne false (fmtBf16.decode x)).1
  | _ => (convFF fmtF32 .rne false (fmtF16.decode x)).1

/-- 1/π as f32 (R297). -/
def invPi : Nat := 0x3EA2F983

/-- The rotation of one pair (R297). -/
def rotate (p f x y : Nat) : Nat × Nat :=
  let d (t : Nat) : FVal := fmtF32.decode t
  let th := (fMul fmtF32 .rne (.fin false p 0) (d f)).1
  let u := (fMul fmtF32 .rne (d th) (d invPi)).1
  let c := (sfuFn 6 fmtF32 u).1
  let s := (sfuFn 5 fmtF32 u).1
  let ys := (fMul fmtF32 .rne (d y) (d s)).1
  let yc := (fMul fmtF32 .rne (d y) (d c)).1
  ((fFma fmtF32 .rne (d x) (d c) (d ys).negate).1, (fFma fmtF32 .rne (d x) (d s) (d yc)).1)

/-- Rotates pairs of channels from pair index `k` on. -/
def rotatePairs (p : Nat) : List Nat → List Nat → List Nat
  | x :: y :: xs, f :: fs => let r := rotate p f x y; r.1 :: r.2 :: rotatePairs p xs fs
  | xs, _ => xs

/-- A lane in a SEQUENCE space (R296, R297). -/
def seqLane (i : Item) (q : HSeq) (c : Nat) (filter : HFilter) (pos : Word) : Eng HLane := do
  let p := bits pos 31 0
  let e0 := bits pos 63 32
  if q.h < e0 + c ∨ (filter = .rotary ∧ (e0 % 2 = 1 ∨ c % 2 = 1)) then pure (.miss 7)
  else do
    let s := q.slotOf p
    let tag ← engNat i false reachAll (q.tags + BitVec.ofNat 64 (4 * s.1)) 4
    if tag = 0 then pure (.miss 2)
    else if tag ≠ s.2 then pure (.miss 5)
    else do
      let n := q.pageOf s.1 e0
      let pw ← engNat i false reachAll (q.pages + BitVec.ofNat 64 (8 * n)) 8
      if pw / 2 ^ 33 % 2 = 1 then pure (.miss 6)
      else do
        let es := etyBytes q.ty
        let bs ← engBytes i true reachAll (q.data + BitVec.ofNat 64 (s.1 * q.row + e0 * es)) (c * es)
        let sc ← if q.ty = .e4m3 then engNat i true reachAll (q.scales + BitVec.ofNat 64 (4 * n)) 4 else pure 0
        let xs := (elemsOf es c bs).map fun x => elemVal q.ty x sc
        if filter = .rotary then do
          let fb ← engBytes i true reachAll (q.invf + BitVec.ofNat 64 (4 * (e0 / 2))) (4 * (c / 2))
          pure (.hit (rotatePairs p xs (elemsOf 4 (c / 2) fb)))
        else pure (.hit xs)

/-- One bit of the CRC-32C register (RFC 3720). -/
def crcBit (x : Nat) : Nat := (x / 2) ^^^ (x % 2 * 0x82F63B78)

def crcByte (x : Nat) (b : Byte) : Nat :=
  let y := x ^^^ b.toNat
  crcBit (crcBit (crcBit (crcBit (crcBit (crcBit (crcBit (crcBit y)))))))

/-- CRC-32C (R298). -/
def crc32c (bs : List Byte) : Nat := (bs.foldl crcByte 0xFFFFFFFF) ^^^ 0xFFFFFFFF

/-- The CRC of a page (R298). -/
def pageCrc (i : Item) (q : HSeq) (n : Nat) : Eng Nat := do
  let bs ← engBytes i true reachAll (q.data + BitVec.ofNat 64 (8192 * n)) 8192
  let sc ← if q.ty = .e4m3 then engBytes i true reachAll (q.scales + BitVec.ofNat 64 (4 * n)) 4 else pure []
  pure (crc32c (bs ++ sc))

/-! ## HLD (R299) -/

/-- The lanes of an HLD, ascending. -/
def hldLanes (i : Item) (f : Word → Eng HLane) : List Nat → Eng (List (Nat × HLane))
  | [] => pure []
  | l :: ls => do
    let x ← f (lane (i.vs.headD (LaneVec.splat 0)) l)
    let xs ← hldLanes i f ls
    pure ((l, x) :: xs)

/-- An HLD's results and FALLBACK. -/
def hldRun (i : Item) (age : Nat) (filter : HFilter) (short : Bool) (c : Nat) : Eng (List (Nat × HLane) × Nat) :=
  if i.eff = 0#32 then pure ([], 0)
  else do
    match ← readSpace i i.sa with
    | .spatial sp => do
      engNeed (filter != .rotary) 0x01
      let xs ← hldLanes i (spatialLane i sp age c filter short) (lanesOf i.eff)
      pure (xs, sp.fallback)
    | .seq q => do
      engNeed (filter != .bilinear) 0x01
      let xs ← hldLanes i (seqLane i q c filter) (lanesOf i.eff)
      pure (xs, q.fallback)

def HLane.code : HLane → Nat
  | .hit _ => 0
  | .miss m => m

/-- Channel `k` of a lane under MARK. -/
def HLane.channel (x : HLane) (fallback k : Nat) : Nat :=
  match x with
  | .hit xs => xs.getD k 0
  | .miss _ => fallback

/-- A lane vector from values by lane. -/
def laneVecOf (xs : List (Nat × Nat)) : LaneVec := Vector.ofFn fun (l : Fin 32) => BitVec.ofNat 64 (assocGet 0 xs l.val)

/-- The lanes that missed. -/
def missMask (xs : List (Nat × HLane)) : Mask := laneMask ((xs.filter fun x => x.2.code != 0).map Prod.fst)

/-- The vector results of an HLD (R299): channels two to a register, an odd last half +0, then the causes. -/
def hldWrites (i : Item) (c vc fallback : Nat) (xs : List (Nat × HLane)) : List (Nat × Mask × LaneVec) :=
  ((List.range ((c + 1) / 2)).map fun r =>
    (i.d + r, i.eff, laneVecOf (xs.map fun x =>
      (x.1, x.2.channel fallback (2 * r) + if 2 * r + 1 < c then 2 ^ 32 * x.2.channel fallback (2 * r + 1) else 0))))
    ++ (if vc = 0 then [] else [(vc, i.eff, laneVecOf (xs.map fun x => (x.1, x.2.code)))])

/-- Writes an HLD's registers under MARK. -/
def State.hldCommit (s : State) (i : Item) (mm c vc fallback : Nat) (xs : List (Nat × HLane)) : State :=
  let s := s.itemWriteV i (hldWrites i c vc fallback xs)
  if mm = 0 || i.dropM || i.eff == 0#32 then s
  else s.modGroup i.party.team i.party.gid fun g =>
    let h := i.flow == 4
    if h && decide (14 ≤ mm) && g.handler.isNone then g
    else
      let old := if h && decide (14 ≤ mm) then (match g.handler with | some x => if mm = 14 then x.m14 else x.m15 | none => 0)
        else vget g.m mm 0
      g.writeM h mm ((old &&& ~~~i.eff) ||| missMask xs)

/-- A flow that waited for its HLD under policy FAULT goes on past it (R299). -/
def State.hldPast (s : State) (i : Item) (kills : List (Nat × Mask)) : State :=
  if s.sleepAt i.party.team i.party.gid i.flow = .hld i.id then
    match s.viewOf i.party.team i.party.gid i.flow 2 with
    | none => s
    | some v => (match v.awaken.finish 0 { kills := kills } with | .next s => s | _ => s)
  else s

/-- The token register of an HLD that ends by DISOCC keeps its value and is no longer busy (R299). -/
def Group.unbusy (g : Group) (handler : Bool) (tok : Nat) : Group :=
  if tok = 0 then g
  else if handler && decide (56 ≤ tok) then
    { g with handler := g.handler.map fun h => { h with tokBusy := h.tokBusy &&& ~~~BitVec.ofNat 8 (2 ^ (tok - 56)) } }
  else { g with tokBusy := g.tokBusy &&& ~~~BitVec.ofNat 64 (2 ^ tok) }

/-- An HLD under policy FAULT with a lane that missed: FAILED with cause 0x30, reported through DISOCC (R23, R299). -/
def State.disocc (s : State) (i : Item) (miss : Mask) : State :=
  let s := ((s.modGroup i.party.team i.party.gid fun g => g.unbusy (i.flow == 4) i.tok.toNat).itemFinal i).dropItem i.id
  match s.group? i.party.team i.party.gid with
  | some g =>
    if g.sleepOf i.flow = .hld i.id then s.raise i.party.team i.party.gid i.flow 0x30 (hinfoLanes miss) (g.pcOf i.flow) else s
  | none => s

/-- An item waits for a page. -/
def State.engWait (s : State) (i : Item) (va : Nat) (mal : Bool) : Out := .next (s.itemWaits i.id 0 va mal)

/-- HTU_ITEM_COMPLETE: an HLD walks, maps and samples, and reaches its final status (R292, R296, R299). -/
def execHtuItemComplete (item : Nat) (s : State) : Out :=
  match s.item? item with
  | none => .refused (.notDue "HTU_ITEM_COMPLETE")
  | some i =>
    match i.work with
    | .hld age filter fault short mm c vc kills =>
      if i.waiting 0 then .refused (.notDue "HTU_ITEM_COMPLETE")
      else
        let x := (hldRun i age filter short c).attempt i s
        let s := x.2.s
        let j := { i with clk := x.2.clk }
        (match x.1 with
         | .error (.wait va mal) => s.engWait i va mal
         | .error (.fail e) => .next ((s.closeItem j (tokenWord (.failed e) 0)).hldPast j kills)
         | .ok (xs, fb) =>
           let miss := missMask xs
           if fault && miss != 0#32 then .next (s.disocc j miss)
           else .next (((s.hldCommit j mm c vc fb xs).closeItem j (tokenWord .done (lanesOf miss).length)).hldPast j kills))
    | _ => .refused (.notDue "HTU_ITEM_COMPLETE")

/-- HLD (R299). Under policy FAULT the split waits for the item's end. -/
def execHld (d : BitVec 7) (sa tok : BitVec 6) (age : BitVec 4) (filter : HFilter) (fault short : Bool) (mm cm1 : BitVec 4)
    (vc vp : BitVec 7) (lp : Bool) (s : State) : Out :=
  withIssuer s 2 fun v =>
    let eff := v.eff false
    let c := cm1.toNat + 1
    let ops := [opRun d.toNat ((c + 1) / 2) false, opS sa.toNat] ++ tokOps tok ++ (if mm = 0 then [] else [opMw mm.toNat])
      ++ (if vc = 0 then [] else [opWr vc.toNat]) ++ [opRd vp.toNat]
    v.engineIssue eff ops fun v st =>
      let kills := killsOf eff [⟨vp.toNat, lp⟩]
      let w : Work := .hld age.toNat filter fault short mm.toNat c vc.toNat (if fault then kills else [])
      let i := { v.newItem tok eff w with sa := v.rdS sa.toNat, vs := [v.rdV vp.toNat], d := d.toNat }
      if fault then (if v.redsOut then v.wait else (v.posted i).sleep st (.hld i.id))
      else v.post st i { kills := kills }

/-! ## HCTL (R300 to R307) -/

/-- How a function ends: its status, RESULT and writes. -/
structure HctlEnd where
  status : ItemEnd
  result : Nat
  writes : List EngWrite

def hctlStop (status : Nat) : Eng HctlEnd := pure ⟨.code status, 0, []⟩

/-- A write of one dword of a space's own records, carrying the function's release (R301). -/
def metaWrite (i : Item) (a : Word) (x : Word) : Eng EngWrite := engWrite i false true false reachMeta a (leBytes 8 x.toNat)

/-- The first dword of a header with a STATE and SPAN. -/
def HField.word0 (f : HField) (state span : Nat) : Word :=
  BitVec.ofNat 64 (state * 2 ^ 62 + bits f.w0 61 60 * 2 ^ 60 + span * 2 ^ 56 + bits f.w0 55 0)

/-- Sets fields of the ring, and every shortcut that spans one of them, to INVALIDATED (R302, R306). -/
def invalidate (i : Item) (sp : HSpace) (fs : List HField) : Eng (List EngWrite) := do
  let ss ← readShorts i sp sp.short
  let spans (x : HField) : Bool := fs.any fun f => decide ((x.frame + 2 ^ 32 - f.frame) % 2 ^ 32 < x.span)
  (fs ++ ss.filter spans).mapM fun f => metaWrite i f.addr (f.word0 2 f.span)

/-- The writes of grid entries, by index (R290), carrying the function's release (R301). -/
def gridWrites (i : Item) (f : HField) (part : Bool) (es : List (Nat × Nat)) : Eng (List EngWrite) :=
  es.mapM fun e => engWrite i false true part reachAll (f.grid + BitVec.ofNat 64 (8 * e.1)) (leBytes 8 e.2)

/-- HOPEN (R302). -/
def hopenRun (i : Item) : Eng HctlEnd := do
  let sp ← readSpatial i i.sa
  let h ← readField i sp i.sb false true
  let newest ← readRing i sp (sp.ring.take 1)
  if newest.any fun f => f.state == 0 then hctlStop 0x0100
  else do
    let clear ← gridWrites i h true ((List.range (h.gw * h.gh)).map fun k => (k, 0))
    let old ← if sp.count = 15 then readRing i sp (sp.ring.drop 14) else pure []
    let inv ← if sp.count = 15 then invalidate i sp old else pure []
    let frame := match newest with | f :: _ => (f.frame + 1) % 2 ^ 32 | [] => h.frame
    let slot := if sp.count = 0 then 0 else (sp.newest + 1) % 15
    let ws ← [(h.addr, h.word0 0 1), (h.addr + 8, BitVec.ofNat 64 (frame * 2 ^ 32)),
      (sp.addr + BitVec.ofNat 64 (40 + 8 * slot), h.addr),
      (sp.addr + 8, BitVec.ofNat 64 (min 15 (sp.count + 1) * 16 + slot))].mapM fun p => metaWrite i p.1 p.2
    pure ⟨.done, 0, clear ++ inv ++ ws⟩

/-- The lanes of a captured register. -/
def Item.laneArgs (i : Item) (k : Nat) : List (Nat × Word) :=
  (lanesOf i.eff).map fun l => (l, lane (i.vs.getD k (LaneVec.splat 0)) l)

/-- Of lanes with the places they write, in ascending order, those that no later lane overwrites (R303) and that have not been
written. -/
def lastWriters (part : Mask) : List (Nat × Nat × Nat) → List (Nat × Nat × Nat)
  | [] => []
  | p :: ps =>
    if part.getLsbD p.1 || ps.any (fun q => q.2.1 == p.2.1) then lastWriters part ps else p :: lastWriters part ps

/-- HMW (R303): each lane's entry or tag becomes visible on its own (R197); `part` are those that already have. The lanes that
the writes belong to are the second answer. -/
def hmwRun (i : Item) (part : Mask) : Eng (HctlEnd × List Nat) := do
  match ← readSpace i i.sa with
  | .spatial sp => do
    match ← readRing i sp (sp.ring.take 1) with
    | [] => pure (⟨.code 0x0103, 0, []⟩, [])
    | f :: _ =>
      if f.state ≠ 0 then pure (⟨.code 0x0103, 0, []⟩, [])
      else do
        let ok (p : Nat × Word × Word) : Bool :=
          decide (bits p.2.1 31 0 < f.gw) && decide (bits p.2.1 63 32 < f.gh) && bits p.2.2 61 56 == 0 && bits p.2.2 63 62 != 3
        let ps := (lanesOf i.eff).map fun l =>
          (l, lane (i.vs.getD 1 (LaneVec.splat 0)) l, lane (i.vs.getD 0 (LaneVec.splat 0)) l)
        let good := ps.filter ok
        let es := lastWriters part (good.map fun p => (p.1, bits p.2.1 31 0 + f.gw * bits p.2.1 63 32, p.2.2.toNat))
        let ws ← gridWrites i f true (es.map Prod.snd)
        pure (⟨if good.length = ps.length then .done else .code 0x0102, good.length, ws⟩, es.map Prod.fst)
  | .seq q => do
    let ps := i.laneArgs 1
    let es := lastWriters part (ps.map fun p => (p.1, q.slotOf (bits p.2 31 0)))
    let ws ← es.mapM fun e => engWrite i false true true reachAll (q.tags + BitVec.ofNat 64 (4 * e.2.1)) (leBytes 4 e.2.2)
    pure (⟨.done, ps.length, ws⟩, es.map Prod.fst)

/-- The pages that a page form names (R300). -/
def pagesOf (i : Item) (n : Nat) : List Nat := (List.range (n + 1)).map fun k => i.sb.toNat + k

/-- Writes page words as one change each (R298, R304). -/
def pageWrites (i : Item) (q : HSeq) (ps : List (Nat × Nat)) : Eng (List EngWrite) :=
  ps.mapM fun p => engWrite i false true false reachAll (q.pages + BitVec.ofNat 64 (8 * p.1)) (leBytes 8 p.2)

/-- HSEAL (R298, R304). -/
def hsealRun (i : Item) (n : Nat) (sbf : Bool) : Eng HctlEnd := do
  match ← readSpace i i.sa with
  | .spatial sp => do
    engNeed (!sbf && n == 0) 0x01
    match ← readRing i sp (sp.ring.take 1) with
    | [] => hctlStop 0x0103
    | f :: _ =>
      if f.state ≠ 0 then hctlStop 0x0103
      else do
        let w ← metaWrite i f.addr (f.word0 1 f.span)
        pure ⟨.done, 0, [w]⟩
  | .seq q => do
    engNeed (decide ((i.sb.toNat + n + 1) * 8192 ≤ (q.sink + q.window) * q.row)) 0x01
    let cs ← (pagesOf i n).mapM fun p => do
      let c ← pageCrc i q p
      pure (p, 2 ^ 32 + c)
    let ws ← pageWrites i q cs
    pure ⟨.done, 0, ws⟩

/-- The entry of a shortcut for an anchor and the end of its walk (R305). -/
def shortEntry (ax ay : Int) (w : WalkEnd) : Nat :=
  match w with
  | .hit x y _ conf =>
    let dx := x - ax
    let dy := y - ay
    if -32768 ≤ dx ∧ dx ≤ 32767 ∧ -32768 ≤ dy ∧ dy ≤ 32767 then
      2 ^ 62 + conf * 2 ^ 48 + wrapInt 16 dy * 2 ^ 16 + wrapInt 16 dx
    else 2 * 2 ^ 62
  | .miss 2 => 0
  | .miss 3 => 3 * 2 ^ 62
  | .miss _ => 2 * 2 ^ 62

/-- The entries of a shortcut's grid (R305). -/
def shortEntries (i : Item) (sp : HSpace) (h : HField) (newest frame span : Nat) : List Nat → Eng (List (Nat × Nat))
  | [] => pure []
  | b :: bs => do
    let ax : Int := 16 * h.side * (b % h.gw) + 8 * h.side
    let ay : Int := 16 * h.side * (b / h.gw) + 8 * h.side
    let w ← if sp.onScreen ax ay then walkSteps i sp false newest span frame span ax ay none 255 else pure (.miss 4)
    let es ← shortEntries i sp h newest frame span bs
    pure ((b, shortEntry ax ay w) :: es)

/-- HSHORT (R305). -/
def hshortRun (i : Item) (k j slot : Nat) : Eng HctlEnd := do
  let sp ← readSpatial i i.sa
  engNeed (decide (1 ≤ j) && decide (j ≤ 14)) 0x01
  if sp.count ≤ k + j then hctlStop 0x0101
  else do
    let fs ← readRing i sp ((sp.ring.drop k).take (j + 1))
    if fs.any fun f => f.state == 0 then hctlStop 0x0100
    else if fs.any fun f => f.state == 2 then hctlStop 0x0101
    else do
      let h ← readField i sp i.sb true true
      match fs.head?, fs.getLast? with
      | some f, some l => do
        let es ← shortEntries i sp h ((f.frame + k) % 2 ^ 32) f.frame (j + 1) (List.range (h.gw * h.gh))
        let ws ← gridWrites i h false es
        let ms ← [(h.addr, h.word0 1 (j + 1)), (h.addr + 8, BitVec.ofNat 64 (f.frame * 2 ^ 32)), (h.addr + 24, l.prev0),
          (h.addr + 32, l.prev1), (sp.addr + BitVec.ofNat 64 (160 + 8 * slot), h.addr)].mapM fun p => metaWrite i p.1 p.2
        pure ⟨.done, 0, ws ++ ms⟩
      | _, _ => hctlStop 0x0101

/-- HINV (R298, R306). -/
def hinvRun (i : Item) (n : Nat) (sbf : Bool) : Eng HctlEnd := do
  match ← readSpace i i.sa with
  | .spatial sp => do
    engNeed (!sbf) 0x01
    let fs ← readRing i sp (sp.ring.drop (sp.count - min sp.count (n + 1)))
    let ws ← invalidate i sp fs
    pure ⟨.done, 0, ws⟩
  | .seq q => do
    let ws ← pageWrites i q ((pagesOf i n).map fun p => (p, 0))
    pure ⟨.done, 0, ws⟩

/-- HQRY's 8 bytes of each lane (R307). -/
def hqryLanes (i : Item) (f : Word → Eng Nat) : List (Nat × Word) → Eng (List EngWrite)
  | [] => pure []
  | p :: ps => do
    let x ← f p.2
    let w ← engWrite i true true false reachMeta (i.sb + BitVec.ofNat 64 (8 * p.1)) (leBytes 8 x)
    let ws ← hqryLanes i f ps
    pure (w :: ws)

/-- HQRY (R307). -/
def hqryRun (i : Item) (sel slot : Nat) : Eng HctlEnd := do
  match ← readSpace i i.sa with
  | .spatial sp => do
    let fs ← if sel = 15 then readShorts i sp [sp.short.getD slot 0] else readRing i sp ((sp.ring.drop sel).take 1)
    match fs with
    | [] => hctlStop 0x0101
    | f :: _ =>
      if f.state = 2 then hctlStop 0x0101
      else do
        let ws ← hqryLanes i (fun p =>
          if bits p 31 0 < f.gw ∧ bits p 63 32 < f.gh then
            engNat i false reachAll (f.grid + BitVec.ofNat 64 (8 * (bits p 31 0 + f.gw * bits p 63 32))) 8
          else pure 0) (i.laneArgs 0)
        pure ⟨.done, f.frame + f.span * 2 ^ 32 + f.state * 2 ^ 36, ws⟩
  | .seq q => do
    let ws ← hqryLanes i (fun p => do
      let s := q.slotOf (bits p 31 0)
      let tag ← engNat i false reachAll (q.tags + BitVec.ofNat 64 (4 * s.1)) 4
      let pw ← engNat i false reachAll (q.pages + BitVec.ofNat 64 (8 * q.pageOf s.1 0)) 8
      pure (tag + pw / 2 ^ 32 % 4 * 2 ^ 32)) (i.laneArgs 0)
    pure ⟨.done, 0, ws⟩

/-- A function by its name. -/
def hctlRun (i : Item) : Eng HctlEnd :=
  match i.work with
  | .hctl .hopen .. => hopenRun i
  | .hctl .hmw _ _ _ _ _ part => do
    let x ← hmwRun i part
    pure x.1
  | .hctl .hseal n _ _ _ sbf _ => hsealRun i n sbf
  | .hctl .hshort _ k j slot _ _ => hshortRun i k j slot
  | .hctl .hinv n _ _ _ sbf _ => hinvRun i n sbf
  | .hctl .hqry n _ _ slot _ _ => hqryRun i n slot
  | _ => engFail 0x01

def Item.isHctl (i : Item) : Bool := match i.work with | .hctl .. => true | _ => false

/-- Whether a function of a space waits (R301): for an earlier one of its split on the space, or for an HMW that has written
part of its entries. -/
def State.hctlBlocked (s : State) (i : Item) : Bool :=
  s.items.any fun x => x.isHctl && x.sa == i.sa && x.id != i.id &&
    ((x.party == i.party && decide (x.id < i.id) && x.ofSplit (i.flow == 4) i.lanes) ||
      (x.ctx == i.ctx && (match x.work with | .hctl _ _ _ _ _ _ part => part != 0#32 | _ => false)))

/-- Some entries of an HMW become visible before its final status (R197). -/
def State.hmwPart (s : State) (item : Nat) : State :=
  match s.item? item with
  | none => s
  | some i =>
    match i.work with
    | .hctl .hmw n k j slot sbf part =>
      if i.waiting 0 || s.hctlBlocked i then s
      else
        let x := (hmwRun i part).attempt i s
        (match x.1 with
         | .error _ => s
         | .ok (e, ls) =>
           let ps := ((e.writes.zip ls).zipIdx.filter fun p => Config.partDone s.tick p.2).map Prod.fst
           (x.2.s.engPuts i x.2.clk (ps.map fun p => { p.1 with rel := false })).modItem item fun i =>
             { i with work := .hctl .hmw n k j slot sbf (part ||| laneMask (ps.map Prod.snd)) })
    | _ => s

/-- HCTL_COMPLETE: a function is performed as one change and reaches its final status (R301). -/
def execHctlComplete (item : Nat) (s : State) : Out :=
  match s.item? item with
  | none => .refused (.notDue "HCTL_COMPLETE")
  | some i =>
    if !i.isHctl || i.waiting 0 || s.hctlBlocked i then .refused (.notDue "HCTL_COMPLETE")
    else
      let x := (hctlRun i).attempt i s
      let s := x.2.s
      let j := { i with clk := x.2.clk }
      match x.1 with
      | .error (.wait va mal) => s.engWait i va mal
      | .error (.fail e) => .next (s.closeItem j (tokenWord (.failed e) 0))
      | .ok e => .next ((s.engPuts j x.2.clk e.writes).closeItem j (tokenWord e.status e.result))

/-- Ends an HLD or HCTL item CANCELLED (R309): an HMW leaves each entry old or new, an HOPEN may have cleared part of its
grid, and everything else is absent (DESIGN CHOICE, log 13). -/
def State.htuCancel (s : State) (i : Item) : State :=
  match i.work with
  | .hld _ _ _ _ _ _ _ kills => (s.closeItem i (tokenWord .cancelled 0)).hldPast i kills
  | _ =>
    let x := (hctlRun i).attempt i s
    match x.1 with
    | .ok e =>
      let ws := ((e.writes.filter EngWrite.part).zipIdx.filter fun p => Config.partDone s.tick p.2).map Prod.fst
      (x.2.s.engPuts i x.2.clk ws).closeItem i (tokenWord .cancelled 0)
    | .error _ => s.closeItem i (tokenWord .cancelled 0)

/-- The issue of an HCTL function (R300). -/
def View.hctl (v : View) (eff : Mask) (ops : List Opnd) (sa sb tok : BitVec 6) (vs : List Nat)
    (kills : List (Nat × Mask)) (w : Work) : Out :=
  v.engineIssue eff ops fun v st =>
    v.post st { v.newItem tok eff w with sa := v.rdS sa.toNat, sb := v.rdS sb.toNat, vs := vs.map v.rdV } { kills := kills }

def execHopen (sa sb tok : BitVec 6) (s : State) : Out :=
  withIssuer s 2 fun v =>
    v.hctl 0 ([opS sa.toNat, opS sb.toNat] ++ tokOps tok) sa sb tok [] [] (.hctl .hopen 0 0 0 0 true 0)

def execHmw (d : BitVec 7) (sa tok : BitVec 6) (vp : BitVec 7) (lp : Bool) (s : State) : Out :=
  withIssuer s 2 fun v =>
    let eff := v.eff false
    v.hctl eff ([opRd d.toNat, opS sa.toNat] ++ tokOps tok ++ [opRd vp.toNat]) sa 0 tok [d.toNat, vp.toNat]
      (killsOf eff [⟨vp.toNat, lp⟩]) (.hctl .hmw 0 0 0 0 false 0)

def execHseal (sa sb tok : BitVec 6) (pages : BitVec 20) (s : State) : Out :=
  withIssuer s 2 fun v =>
    v.hctl 0 ([opS sa.toNat] ++ optS sb ++ tokOps tok) sa sb tok [] [] (.hctl .hseal pages.toNat 0 0 0 (sb != 0) 0)

def execHshort (sa sb tok : BitVec 6) (slot : BitVec 2) (k j : BitVec 4) (s : State) : Out :=
  withIssuer s 2 fun v =>
    v.hctl 0 ([opS sa.toNat, opS sb.toNat] ++ tokOps tok) sa sb tok [] [] (.hctl .hshort 0 k.toNat j.toNat slot.toNat true 0)

def execHinv (sa sb tok : BitVec 6) (n : BitVec 20) (s : State) : Out :=
  withIssuer s 2 fun v =>
    v.hctl 0 ([opS sa.toNat] ++ optS sb ++ tokOps tok) sa sb tok [] [] (.hctl .hinv n.toNat 0 0 0 (sb != 0) 0)

def execHqry (sa sb tok : BitVec 6) (sel : BitVec 4) (sslot : BitVec 2) (vp : BitVec 7) (lp : Bool) (s : State) : Out :=
  withIssuer s 2 fun v =>
    let eff := v.eff false
    v.hctl eff ([opS sa.toNat, opS sb.toNat] ++ tokOps tok ++ [opRd vp.toNat]) sa sb tok [vp.toNat]
      (killsOf eff [⟨vp.toNat, lp⟩]) (.hctl .hqry sel.toNat 0 0 sslot.toNat true 0)

/-! ## The scrubber (R298) -/

/-- A page that the scrubber reads, and one that holds a descriptor (R286). -/
def scrubPage (e : TlbEntry) : Bool := e.rd
def scrubMeta (e : TlbEntry) : Bool := e.rd && reachMeta e.kind

/-- A number that the scrubber reads. -/
def State.scrubNat (s : State) (c : Context) (va : Word) (n : Nat) : Option Nat :=
  (s.ctlBytes c scrubPage va.toNat n).map leNat

/-- What the scrubber finds in a page: its page word, where it is sealed, and whether its CRC mismatches. Its reads and its
write race with nothing: no one reports MMX of them (R193). -/
def State.scrubFind (s : State) (c : Context) (space page : Nat) : Option (HSeq × Nat × Bool) :=
  match (s.ctlBytes c scrubMeta space 256).bind fun bs =>
      if bits ((dwordsOf 32 bs).getD 0 0) 63 62 = 1 ∧ space % 64 = 0 then seqOf (dwordsOf 32 bs) else none with
  | none => none
  | some q =>
    if (page + 1) * 8192 ≤ (q.sink + q.window) * q.row then
      let pw := s.scrubNat c (q.pages + BitVec.ofNat 64 (8 * page)) 8
      let data := s.ctlBytes c scrubPage (q.data + BitVec.ofNat 64 (8192 * page)).toNat 8192
      let sc := if q.ty = .e4m3 then s.ctlBytes c scrubPage (q.scales + BitVec.ofNat 64 (4 * page)).toNat 4 else some []
      match pw, data, sc with
      | some w, some bs, some ss =>
        if w / 2 ^ 32 % 2 = 0 then none else some (q, w, crc32c (bs ++ ss) != w % 2 ^ 32)
      | _, _, _ => none
    else none

/-- SCRUB: the scrubber recomputes the CRC of a sealed page; on a mismatch it poisons the page and reports it (R298). -/
def execScrub (ctx space page : Nat) (s : State) : Out :=
  match s.context? ctx with
  | none => .refused (.notDue "SCRUB")
  | some c =>
    match s.scrubFind c space page with
    | none => .refused (.notDue "SCRUB")
    | some (_, _, false) => .next s
    | some (q, w, true) =>
      let x := if w / 2 ^ 33 % 2 = 1 then w else w + 2 ^ 33
      match s.ctlWrite c (fun e => e.w) (q.pages + BitVec.ofNat 64 (8 * page)).toNat (leBytes 8 x) with
      | some s => .next (s.report (.poison ctx space page))
      | none => .refused (.notDue "SCRUB")

end Sys2Proof.Machine
end

