-- ==== Sys2Proof/Machine/Layer.lean ====
section
/-!
DEFINITION. The layered composite unit (R313 to R331): layered targets and their node pools, compositing accumulators and
their logs, one operation a lane.
-/
namespace Sys2Proof.Machine

/-- The LCU reaches SCRATCH pages alone; its own records are accessed as operations at a home, its outputs plainly (R323,
R330). -/
def lcuRead (i : Item) (a : Word) (n : Nat) : Eng (List Byte) := engBytes i false reachScratch a n
def lcuNat (i : Item) (a : Word) (n : Nat) : Eng Nat := engNat i false reachScratch a n
def lcuWrite (i : Item) (a : Word) (bs : List Byte) : Eng EngWrite := engWrite i false false false reachScratch a bs
def lcuOut (i : Item) (a : Word) (bs : List Byte) : Eng EngWrite := engWrite i true false false reachScratch a bs

/-- The page that the item has just read at an address also has W (R313). -/
def lcuPage (i : Item) (a : Word) : Eng Unit :=
  ExceptT.mk fun st =>
    match st.s.peek i.core i.ctx a.toNat with
    | .ok e => if e.w then (.ok (), st) else (.error (.fail 0x11), st)
    | _ => (.ok (), st)

/-- Reads of a target's head table, pool directory and pool pages, which lie in pages with RD and W (R313). -/
def lcuOwn (i : Item) (a : Word) (n : Nat) : Eng (List Byte) := do
  let bs ← lcuRead i a n
  lcuPage i a
  pure bs
def lcuOwnNat (i : Item) (a : Word) (n : Nat) : Eng Nat := do
  let x ← lcuNat i a n
  lcuPage i a
  pure x

/-! ## Layered targets (R313, R314) -/

/-- The node index that names none. -/
def noNode : Nat := 0xFFFFFF

/-- A target descriptor (R313). `rule` is 0 OVER, 1 FRONT, 2 MAXA; `merge` the pool policy. -/
structure Target where
  addr     : Word
  w        : Nat
  h        : Nat
  heads    : Word
  dir      : Word
  npages   : Nat
  maxl     : Nat
  rule     : Nat
  merge    : Bool
  freeCnt  : Nat
  freeHead : Nat
  deriving DecidableEq, Repr

/-- A node with its index (R314). -/
structure LNode where
  idx   : Nat
  depth : Nat
  rg    : Nat
  ba    : Nat
  next  : Nat
  cov   : Nat
  deriving DecidableEq, Repr

/-- A pixel's head word and list, nearest first. -/
structure Pixel where
  addr  : Word
  word  : Nat
  nodes : List LNode

/-- Whether a node index is not malformed: it names a node of the pool, or none (R314). -/
def Target.names (t : Target) (n : Nat) : Bool := decide (n < 512 * t.npages) || n == noNode

/-- A target from its descriptor, or malformed (R313). -/
def targetOf (a : Word) (w : List Word) : Option Target :=
  let d (k : Nat) : Word := w.getD k 0
  let t : Target :=
    { addr := a, w := bits (d 0) 15 0, h := bits (d 0) 31 16, heads := d 1, dir := d 2, npages := bits (d 3) 47 32,
      maxl := bits (d 3) 7 4, rule := bits (d 3) 3 2, merge := bitOf (d 3) 1, freeCnt := bits (d 4) 63 32,
      freeHead := bits (d 4) 31 8 }
  if bits (d 0) 63 32 = 0 ∧ 1 ≤ t.w ∧ t.w ≤ 16384 ∧ 1 ≤ t.h ∧ t.h ≤ 16384 ∧ t.heads.toNat % 4 = 0 ∧ t.dir.toNat % 8 = 0
      ∧ bits (d 3) 63 48 = 0 ∧ 1 ≤ t.npages ∧ t.npages ≤ 32767 ∧ bits (d 3) 31 8 = 0 ∧ 1 ≤ t.maxl ∧ t.rule ≠ 3
      ∧ bits (d 3) 0 0 = 0 ∧ bits (d 4) 7 0 = 0 ∧ t.names t.freeHead ∧ (w.drop 5).all (fun x => x == 0) then some t
  else none

def readTarget (i : Item) : Eng Target := do
  engNeed (i.sa.toNat % 64 == 0) 0x01
  let bs ← lcuRead i i.sa 64
  match targetOf i.sa (dwordsOf 8 bs) with
  | some t => pure t
  | none => engFail 0x01

/-- The address of a node (R314). -/
def nodeAddr (i : Item) (t : Target) (n : Nat) : Eng Word := do
  engNeed (decide (n < 512 * t.npages)) 0x01
  let p ← lcuOwnNat i (t.dir + BitVec.ofNat 64 (8 * (n / 512))) 8
  engNeed (p % 8192 == 0) 0x01
  pure (BitVec.ofNat 64 (p + 16 * (n % 512)))

/-- A node, whose NEXT is no malformed index (R314, R330). -/
def readNode (i : Item) (t : Target) (n : Nat) : Eng LNode := do
  let a ← nodeAddr i t n
  let bs ← lcuOwn i a 16
  let w := elemsOf 4 4 bs
  engNeed (t.names (w.getD 3 0 / 256)) 0x01
  pure { idx := n, depth := w.getD 0 0, rg := w.getD 1 0, ba := w.getD 2 0, next := w.getD 3 0 / 256, cov := w.getD 3 0 % 256 }

/-- The first `k` nodes of a list. -/
def readNodes (i : Item) (t : Target) : Nat → Nat → Eng (List LNode)
  | 0, _ => pure []
  | k + 1, n => do
    let x ← readNode i t n
    let xs ← readNodes i t k x.next
    pure (x :: xs)

/-- A pixel with up to `k` nodes of its list. Its HEAD is no malformed index (R314, R330). -/
def readPixel (i : Item) (t : Target) (p k : Nat) : Eng Pixel := do
  engNeed (decide (p < t.w * t.h)) 0x01
  let a := t.heads + BitVec.ofNat 64 (4 * p)
  let w ← lcuOwnNat i a 4
  engNeed (t.names (w / 256)) 0x01
  let xs ← readNodes i t (min k (w / 16 % 16)) (w / 256)
  pure ⟨a, w, xs⟩

def LNode.bytes (x : LNode) : List Byte :=
  leBytes 4 x.depth ++ leBytes 4 x.rg ++ leBytes 4 x.ba ++ leBytes 4 (x.next * 256 + x.cov)

/-- Links a list through NEXT, the last node naming none. -/
def linkNodes : List LNode → List LNode
  | [] => []
  | [x] => [{ x with next := noNode }]
  | x :: y :: xs => { x with next := y.idx } :: linkNodes (y :: xs)

/-- Returns nodes to the free list, in order (R315): the nodes as they then stand, and the target's free fields. -/
def freeNodes (t : Target) : List LNode → List LNode × Target
  | [] => ([], t)
  | x :: xs =>
    let r := freeNodes { t with freeHead := x.idx, freeCnt := t.freeCnt + 1 } xs
    ({ x with next := t.freeHead } :: r.1, r.2)

/-- The writes of changed nodes. -/
def nodeWrites (i : Item) (t : Target) (old : List LNode) : List LNode → Eng (List EngWrite)
  | [] => pure []
  | x :: xs => do
    let ws ← nodeWrites i t old xs
    if old.contains x then pure ws
    else do
      let a ← nodeAddr i t x.idx
      let w ← lcuWrite i a x.bytes
      pure (w :: ws)

/-- The head word of a list (R314). -/
def headWord (xs : List LNode) (overflowed : Bool) : Nat :=
  (match xs with | x :: _ => x.idx | [] => noNode) * 256 + xs.length * 16 + overflowed.toNat * 8

/-- The writes of a pixel operation: its nodes, its head word, and the free list. -/
def pixelWrites (i : Item) (t t' : Target) (p : Pixel) (old : List LNode) (nodes : List LNode) (head : Nat) :
    Eng (List EngWrite) := do
  let ws ← nodeWrites i t old nodes
  let h ← if head = p.word then pure [] else do
    let w ← lcuWrite i p.addr (leBytes 4 head)
    pure [w]
  let f ← if t' = t then pure [] else do
    let w ← lcuWrite i (t.addr + 32) (leBytes 8 (t'.freeCnt * 2 ^ 32 + t'.freeHead * 256))
    pure [w]
  pure (ws ++ h ++ f)

/-! ## Merging (R318, R319) -/

def depthVal (d : Nat) : FVal := fmtF32.decode d

/-- Whether one depth is at most another. -/
def depthLe (a b : Nat) : Bool := (depthVal a).lt (depthVal b) || (depthVal a).eqv (depthVal b)

/-- The gap between neighbours, none being infinite (R318). -/
def depthGap (a b : Nat) : Option Q :=
  if (depthVal a).eqv (depthVal b) then some Q.zero
  else
    match depthVal a, depthVal b with
    | .fin .., .fin .. => some ((depthVal b).q.sub (depthVal a).q)
    | _, _ => none

/-- Whether a gap is smaller than another. -/
def gapLt (a b : Option Q) : Bool :=
  match a, b with
  | some x, some y => x.lt y
  | some _, none => true
  | none, _ => false

/-- The position of the pair with the smallest gap, the first of equals. -/
def closestPair (xs : List LNode) : Nat :=
  let gaps := (xs.zip (xs.drop 1)).map fun p => depthGap p.1.depth p.2.depth
  (gaps.zipIdx.foldl (fun (b : Nat × Option Q) g => if g.2 = 0 || gapLt g.1 b.2 then (g.2, g.1) else b) (0, none)).1

/-- One minus an exact value. -/
def oneMinus : FVal → FVal
  | .nan => .nan
  | .inf n => .inf (!n)
  | .fin n m e =>
    let k := (-e).toNat
    let x : Int := 2 ^ k - (if n then -(m : Int) else m) * 2 ^ e.toNat
    .fin (decide (x < 0)) x.natAbs (-(k : Int))

def half16 (w : Nat) (hi : Bool) : FVal := fmtF16.decode (if hi then w / 2 ^ 16 % 2 ^ 16 else w % 2 ^ 16)

/-- One channel of OVER (R319). -/
def overChannel (fa f b : FVal) : Nat := (fFma fmtF16 .rne (oneMinus fa) b f).1

/-- The colour of a merged entry (R319): (RG, BA). -/
def mergeColour (rule : Nat) (f b : LNode) : Nat × Nat :=
  let fa := half16 f.ba true
  match rule with
  | 0 =>
    (overChannel fa (half16 f.rg false) (half16 b.rg false) + 2 ^ 16 * overChannel fa (half16 f.rg true) (half16 b.rg true),
     overChannel fa (half16 f.ba false) (half16 b.ba false) + 2 ^ 16 * overChannel fa fa (half16 b.ba true))
  | 1 => (f.rg, f.ba)
  | _ =>
    let ba := half16 b.ba true
    if !fa.isNan && !ba.isNan && fa.lt ba then (b.rg, b.ba) else (f.rg, f.ba)

/-- MERGESTEP (R318): the entries after it, and the entry that left. -/
def mergeStep (rule : Nat) (xs : List LNode) : List LNode × Option LNode :=
  let j := closestPair xs
  match xs[j]?, xs[j + 1]? with
  | some f, some b =>
    let c := mergeColour rule f b
    (xs.take j ++ { f with rg := c.1, ba := c.2, cov := f.cov ||| b.cov } :: xs.drop (j + 2), some b)
  | _, _ => (xs, none)

/-- Entries that take the nodes of a list, in order. -/
def onNodes (es ns : List LNode) : List LNode := (es.zip ns).map fun p => { p.1 with idx := p.2.idx }

/-! ## The LOP functions (R318, R320) -/

/-- What an operation of one lane gives. -/
structure LaneOut where
  writes : List EngWrite := []
  flag   : Bool := false
  count  : Nat := 0
  outs   : List Word := []

/-- LINS of one lane (R318). -/
def linsLane (i : Item) (l : Nat) : Eng LaneOut := do
  let t ← readTarget i
  let p ← readPixel i t (bits (i.v 1 l) 63 32) 15
  let z := if (depthVal (bits (i.v 1 l) 31 0)).isNan then 0x7F800000 else bits (i.v 1 l) 31 0
  let k := (p.nodes.filter fun x => depthLe x.depth z).length
  let frag (n : Nat) : LNode := ⟨n, z, bits (i.v 0 l) 31 0, bits (i.v 0 l) 63 32, 0, bits (i.v 2 l) 7 0⟩
  let merged := bitOf (BitVec.ofNat 64 p.word) 3
  if 0 < t.freeCnt then do
    let x ← readNode i t t.freeHead
    let t1 := { t with freeHead := x.next, freeCnt := t.freeCnt - 1 }
    let es := p.nodes.take k ++ frag x.idx :: p.nodes.drop k
    if es.length ≤ t.maxl then do
      let ws ← pixelWrites i t t1 p (x :: p.nodes) (linkNodes es) (headWord es merged)
      pure { writes := ws }
    else
      match mergeStep t.rule es with
      | (es, some b) => do
        let fr := freeNodes t1 [b]
        let ws ← pixelWrites i t fr.2 p (x :: p.nodes) (linkNodes es ++ fr.1) (headWord es true)
        pure { writes := ws }
      | (_, none) => engFail 0x01
  else if !t.merge || p.nodes.isEmpty then pure { flag := true }
  else do
    let es := onNodes (mergeStep t.rule (p.nodes.take k ++ frag noNode :: p.nodes.drop k)).1 p.nodes
    let ws ← pixelWrites i t t p p.nodes (linkNodes es) (headWord es true)
    pure { writes := ws }

/-- The resolve of one node over C and A (R320). -/
def resolveNode (cov : Bool) (s : List Nat × Nat) (x : LNode) : List Nat × Nat :=
  let n := ((List.range 8).filter fun b => x.cov / 2 ^ b % 2 = 1).length
  let w (f : FVal) : FVal := if cov then mulExact f (.fin false n (-3)) else f
  let f := fmtF32.decode (fAdd fmtF32 .rne (.fin false 1 0) (fmtF32.decode s.2).negate).1
  let fma (c : FVal) (a : Nat) : Nat := (fFma fmtF32 .rne f (w c) (fmtF32.decode a)).1
  let cs := [half16 x.rg false, half16 x.rg true, half16 x.ba false]
  ((cs.zip s.1).map fun p => fma p.1 p.2, fma (half16 x.ba true) s.2)

/-- Returns a pixel's list (R315, R320). -/
def clearPixel (i : Item) (t : Target) (p : Pixel) : Eng (List EngWrite) := do
  let fr := freeNodes t p.nodes
  pixelWrites i t fr.2 p p.nodes fr.1 0xFFFFFF00

/-- LRES of one lane (R320). -/
def lresLane (i : Item) (free cov : Bool) (l : Nat) : Eng LaneOut := do
  let t ← readTarget i
  let p ← readPixel i t (bits (i.v 0 l) 31 0) 15
  let r := p.nodes.foldl (resolveNode cov) ([0, 0, 0], 0)
  let a := i.sb + BitVec.ofNat 64 (16 * l)
  engNeed (a.toNat % 16 == 0) 0x01
  let w ← lcuOut i a ((r.1 ++ [r.2]).flatMap fun x => leBytes 4 x)
  let ws ← if free then clearPixel i t p else pure []
  pure { writes := w :: ws, count := if free then p.nodes.length else 0 }

/-- LCLR of one lane. -/
def lclrLane (i : Item) (l : Nat) : Eng LaneOut := do
  let t ← readTarget i
  let p ← readPixel i t (bits (i.v 0 l) 31 0) 15
  let ws ← clearPixel i t p
  pure { writes := ws, count := p.nodes.length }

/-- LQRY of one lane. -/
def lqryLane (i : Item) (layer l : Nat) : Eng LaneOut := do
  let t ← readTarget i
  let p ← readPixel i t (bits (i.v 0 l) 31 0) (layer + 1)
  match p.nodes[layer]? with
  | some x =>
    pure { outs := (BitVec.ofNat 64 p.word) :: dwordsOf 2 x.bytes }
  | none => pure { outs := [BitVec.ofNat 64 p.word, 0, 0] }

/-! ## Accumulators (R321, R322, R325 to R329) -/

/-- A buffered or retired term: depth, colour, alpha, id. -/
structure Term where
  z  : Nat
  c  : List Nat
  a  : Nat
  id : Nat
  deriving DecidableEq, Repr

/-- An accumulator record (R321). `words` are its 32 words as read. -/
structure Acc where
  words   : List Nat
  l       : List Nat
  t       : Nat
  lastd   : Nat
  retired : Nat
  dropped : Nat
  flags   : Nat
  buf     : List Term
  log     : List (Term × Nat)
  anyOut  : Bool
  deriving DecidableEq, Repr

def termOf (w : List Nat) : Term := ⟨w.getD 0 0, (w.drop 1).take 3, w.getD 4 0, w.getD 5 0⟩

def Term.words (x : Term) : List Nat := x.z :: x.c ++ [x.a, x.id]

/-- The record from its words. -/
def accOf (w : List Nat) : Acc :=
  let x := w.getD 5 0
  { words := w, l := w.take 3, t := w.getD 3 0, lastd := w.getD 4 0, retired := x / 2 ^ 20, dropped := x / 2 ^ 8 % 2 ^ 12,
    flags := x % 16, buf := (List.range (min 4 (x / 2 ^ 5 % 8))).map fun e => termOf (w.drop (8 + 6 * e)), log := [],
    anyOut := false }

/-- The parameters of a record (R321). -/
def Acc.param (a : Acc) : Nat := a.words.getD 6 0 % 2 ^ 16
def Acc.recording (a : Acc) : Bool := a.param % 2 == 1
def Acc.dropLate (a : Acc) : Bool := a.param / 2 % 2 == 1
def Acc.ovfMerge (a : Acc) : Bool := a.param / 4 % 2 == 1
def Acc.amax (a : Acc) : Nat := rne32 (Q.div (Q.ofInt (a.param / 8 % 256 + 1)) (Q.ofInt 256))
def Acc.tmin (a : Acc) : FVal := if a.param / 2 ^ 11 = 0 then .fin false 0 0 else .fin false 1 (-(a.param / 2 ^ 11 : Nat))
def Acc.opaqueBit (a : Acc) : Bool := a.flags % 2 == 1

/-- The log base of a record (R321). -/
def Acc.logBase (a : Acc) : Word := BitVec.ofNat 64 ((a.words.getD 6 0 / 2 ^ 16 + a.words.getD 7 0 * 2 ^ 16) * 32)

def sat12 (n : Nat) : Nat := min n 4095

/-- f32 arithmetic on bit patterns, each result rounded once. -/
def fma32 (a b c : Nat) : Nat := (fFma fmtF32 .rne (fmtF32.decode a) (fmtF32.decode b) (fmtF32.decode c)).1
def times32 (a b : Nat) : Nat := (fMul fmtF32 .rne (fmtF32.decode a) (fmtF32.decode b)).1
def om32 (a : Nat) : Nat := (fAdd fmtF32 .rne (.fin false 1 0) (fmtF32.decode a).negate).1

/-- RETIRE (R327). -/
def Acc.retire (a : Acc) (x : Term) (inOrder : Bool) : Acc :=
  let t' := times32 a.t (om32 x.a)
  let stop := (fmtF32.decode t').lt a.tmin || (fmtF32.decode t').eqv a.tmin
  { a with
    l := (x.c.zip a.l).map fun p => fma32 a.t p.1 p.2
    log := if a.recording then a.log ++ [(x, a.t)] else a.log
    t := t'
    retired := sat12 (a.retired + 1)
    lastd := if inOrder then x.z else a.lastd
    flags := if stop then a.flags ||| 1 else a.flags
    dropped := if stop then sat12 (a.dropped + a.buf.length) else a.dropped
    buf := if stop then [] else a.buf
    anyOut := true }

/-- The merge of the two nearest of five entries (R326). -/
def Acc.mergeTwo (a : Acc) : Acc :=
  match a.buf with
  | x :: y :: rest =>
    let f := om32 x.a
    { a with
      buf := { x with c := (y.c.zip x.c).map fun p => fma32 f p.1 p.2, a := fma32 f y.a x.a } :: rest
      flags := a.flags ||| 4 }
  | _ => a

/-- CACC of a term (R326). -/
def Acc.accumulate (a : Acc) (x : Term) : Acc :=
  if a.opaqueBit then { a with dropped := sat12 (a.dropped + 1) }
  else if (depthVal x.z).lt (depthVal a.lastd) then
    let a := { a with flags := a.flags ||| 2 }
    if a.dropLate then { a with dropped := sat12 (a.dropped + 1) } else a.retire x false
  else
    let k := (a.buf.filter fun y => depthLe y.z x.z).length
    let a := { a with buf := a.buf.take k ++ x :: a.buf.drop k }
    if a.buf.length ≤ 4 then a
    else if a.ovfMerge then a.mergeTwo
    else
      match a.buf with
      | y :: rest => { a with buf := rest }.retire y true
      | [] => a

/-- CFLUSH (R328). -/
def Acc.flush : Nat → Acc → Acc
  | 0, a => a
  | n + 1, a =>
    match a.buf with
    | y :: rest => if a.opaqueBit then a else Acc.flush n ({ a with buf := rest }.retire y true)
    | [] => a

/-- The words of a record. Entries that a retirement leaves at or beyond NBUF are open (R333; DESIGN CHOICE, log 14). -/
def Acc.toWords (a : Acc) (tick : Nat) : List Nat :=
  let entry (e : Nat) : List Nat :=
    match a.buf[e]? with
    | some x => x.words
    | none =>
      if a.anyOut then
        (List.range 3).flatMap fun k =>
          let w := (Config.bufferWord tick (3 * e + k)).toNat
          [w % 2 ^ 32, w / 2 ^ 32]
      else (a.words.drop (8 + 6 * e)).take 6
  a.l ++ [a.t, a.lastd, a.retired * 2 ^ 20 + a.dropped * 2 ^ 8 + a.buf.length * 2 ^ 5 + a.flags] ++ (a.words.drop 6).take 2
    ++ (List.range 4).flatMap entry

/-! ## Records and logs in memory -/

/-- The run of a lane's record (R324, R330). -/
def accRun (i : Item) (sp : Bool) (l : Nat) (n : Nat) (rd wr : Bool) : Eng (List (Loc × Nat)) := do
  let a := i.v 0 l
  engNeed (a.toNat % 128 == 0) 0x01
  let sel := bits a 23 21
  engNeed (sp || decide (sel < 4) || sel == 4 + i.core % 4) 0x14
  engRun i false reachScratch ⟨!sp, a, n, rd, wr⟩

def readAcc (i : Item) (sp wr : Bool) (l : Nat) : Eng (List (Loc × Nat) × Acc) := do
  let ls ← accRun i sp l 128 true wr
  let bs ← (ExceptT.mk fun st => (.ok (st.s.runBytes (i.port st false) ls), st) : Eng (List Byte))
  pure (ls, accOf (elemsOf 4 32 bs))

/-- The log entry of a term (R322). -/
def logEntry (x : Term) (t : Nat) : List Byte := (x.z :: x.c ++ [x.a, t, x.id, 0]).flatMap fun w => leBytes 4 w

/-- Appends retired terms to the log (R322): the writes, and whether one was lost. -/
def appendLog (i : Item) (base : Word) (xs : List (Term × Nat)) : Eng (List EngWrite × Bool) :=
  if xs.isEmpty then pure ([], false)
  else do
    let n ← lcuNat i base 4
    let cap ← lcuNat i (base + 4) 4
    let fit := xs.take (cap - n)
    let ws ← fit.zipIdx.mapM fun p => lcuWrite i (base + BitVec.ofNat 64 (32 + 32 * (n + p.2))) (logEntry p.1.1 p.1.2)
    if fit.isEmpty then pure ([], true)
    else do
      let w ← lcuWrite i base (leBytes 4 (n + fit.length))
      pure (ws ++ [w], decide (fit.length < xs.length))

/-- The tick of an attempt, for the free values. -/
def engTick : Eng Nat := ExceptT.mk fun st => (.ok st.s.tick, st)

/-- Writes a record back with its log (R322, R323). -/
def storeAcc (i : Item) (ls : List (Loc × Nat)) (a : Acc) : Eng LaneOut := do
  let lg ← appendLog i a.logBase a.log
  let a := { a with flags := if lg.2 then a.flags ||| 8 else a.flags }
  let n ← engTick
  pure { writes := lg.1 ++ [⟨ls, (a.toWords n).flatMap fun w => leBytes 4 w, false, false, false⟩], flag := a.opaqueBit }

/-- CINIT of one lane (R325): the log base is the first operand. -/
def cinitLane (i : Item) (sp : Bool) (p : Word) (l : Nat) : Eng LaneOut := do
  let ls ← accRun i sp l 128 false true
  let rec' := bitOf p 0
  let base := i.v 1 l
  engNeed (!rec' || base.toNat % 32 == 0) 0x01
  let ws ← if rec' then do
      let w ← lcuWrite i base (leBytes 4 0 ++ leBytes 4 (bits p 47 16) ++ List.replicate 24 0)
      pure [w]
    else pure []
  let bytes := leBytes 12 0 ++ leBytes 4 0x3F800000 ++ leBytes 4 0xFF800000 ++ leBytes 4 0
    ++ leBytes 8 (bits p 15 0 + if rec' then bits base 52 5 * 2 ^ 16 else 0) ++ List.replicate 96 0
  pure { writes := ws ++ [⟨ls, bytes, false, false, false⟩] }

/-- A value with every NaN canonical (R327). -/
def canon32 (x : Nat) : Nat := if (fmtF32.decode x).isNan then fmtF32.nan else x

/-- The clamped alpha of a term (R326). -/
def clampAlpha (a amax : Nat) : Nat :=
  if (fmtF32.decode a).isNan then 0 else fMinMax fmtF32 false (fMinMax fmtF32 true a 0) amax

/-- The term that a lane of CACC gives (R326). -/
def Item.term (i : Item) (amax l : Nat) : Term :=
  let z := bits (i.v 1 l) 31 0
  ⟨if (depthVal z).isNan then 0x7F800000 else z,
   [canon32 (bits (i.v 2 l) 31 0), canon32 (bits (i.v 2 l) 63 32), canon32 (bits (i.v 3 l) 31 0)],
   clampAlpha (bits (i.v 1 l) 63 32) amax, bits (i.v 3 l) 63 32⟩

def caccLane (i : Item) (sp : Bool) (l : Nat) : Eng LaneOut := do
  let r ← readAcc i sp true l
  storeAcc i r.1 (r.2.accumulate (i.term r.2.amax l))

def cflushLane (i : Item) (sp : Bool) (l : Nat) : Eng LaneOut := do
  let r ← readAcc i sp true l
  storeAcc i r.1 (Acc.flush 4 r.2)

def crdLane (i : Item) (sp : Bool) (l : Nat) : Eng LaneOut := do
  let r ← readAcc i sp false l
  let w (k : Nat) : Nat := r.2.words.getD k 0
  pure { outs := [BitVec.ofNat 64 (w 0 + w 1 * 2 ^ 32), BitVec.ofNat 64 (w 2 + w 3 * 2 ^ 32),
                  BitVec.ofNat 64 (w 4 + w 5 * 2 ^ 32)] }

/-- The negation of an f32 result, a NaN staying canonical. -/
def neg32 (x : Nat) : Nat := if (fmtF32.decode x).isNan then fmtF32.nan else if x / 2 ^ 31 = 0 then x + 2 ^ 31 else x - 2 ^ 31

/-- One step of CADJ (R329): the record written and the next S. -/
def adjStep (g s : List Nat) (x : Term) (t : Nat) : List Nat × List Nat :=
  let dc := g.map fun y => times32 t y
  let m := (s.zip g).map fun p => times32 p.1 p.2
  let sum := add32 (add32 (m.getD 0 0) (m.getD 1 0)) (m.getD 2 0)
  let da := neg32 (fDiv fmtF32 .rne (fmtF32.decode sum) (fmtF32.decode (om32 x.a))).1
  (x.id :: dc ++ [da, 0], (x.c.zip s).map fun p => fma32 t p.1 p.2)

/-- The replay of `n` log entries from the last, as record `k` on (R329). -/
def replayLog (i : Item) (base out : Word) (g : List Nat) : Nat → Nat → List Nat → Eng (List EngWrite)
  | 0, _, _ => pure []
  | n + 1, k, s => do
    let bs ← lcuRead i (base + BitVec.ofNat 64 (32 + 32 * n)) 32
    let w := elemsOf 4 8 bs
    let r := adjStep g s ⟨w.getD 0 0, (w.drop 1).take 3, w.getD 4 0, w.getD 6 0⟩ (w.getD 5 0)
    let x ← lcuOut i (out + BitVec.ofNat 64 (24 * k)) (r.1.flatMap fun y => leBytes 4 y)
    let xs ← replayLog i base out g n (k + 1) r.2
    pure (x :: xs)

/-- CADJ of one lane (R329). -/
def cadjLane (i : Item) (sp : Bool) (l : Nat) : Eng LaneOut := do
  let r ← readAcc i sp false l
  if !r.2.recording || r.2.flags / 8 % 2 = 1 then pure { flag := true }
  else do
    let out := i.v 3 l
    engNeed (out.toNat % 8 == 0) 0x01
    let n ← lcuNat i r.2.logBase 4
    let g := [bits (i.v 1 l) 31 0, bits (i.v 1 l) 63 32, bits (i.v 2 l) 31 0]
    let ws ← replayLog i r.2.logBase out g n 0 [0, 0, 0]
    pure { writes := ws }

/-! ## Operations and completion (R317, R323, R324, R330, R331) -/

/-- What an LCU item keeps. -/
structure LcuWork where
  fn    : LcuFn
  sp    : Bool
  free  : Bool
  cov   : Bool
  param : Word
  next  : Nat
  told  : Mask
  count : Nat
  fail  : Option Nat

def Item.lcu? (i : Item) : Option LcuWork :=
  match i.work with
  | .lcu fn sp free cov p next told count fail => some ⟨fn, sp, free, cov, p, next, told, count, fail⟩
  | _ => none

def LcuWork.toWork (w : LcuWork) : Work := .lcu w.fn w.sp w.free w.cov w.param w.next w.told w.count w.fail

/-- The operation of one lane. -/
def lcuLane (i : Item) (w : LcuWork) (l : Nat) : Eng LaneOut :=
  match w.fn with
  | .lins => linsLane i l
  | .lres => lresLane i w.free w.cov l
  | .lclr => lclrLane i l
  | .lqry => lqryLane i w.param.toNat l
  | .cinit => do
    engNeed (bits w.param 63 48 == 0) 0x01
    cinitLane i w.sp w.param l
  | .cacc => caccLane i w.sp l
  | .cflush => cflushLane i w.sp l
  | .crd => crdLane i w.sp l
  | .cadj => cadjLane i w.sp l

/-- The lane an item's next operation is for. -/
def Item.lcuNext (i : Item) (w : LcuWork) : Option Nat := if w.fail.isSome then none else (lanesOf i.eff)[w.next]?

/-- Whether a function acts on a layered target. -/
def LcuFn.onPixel : LcuFn → Bool
  | .lins | .lres | .lclr | .lqry => true
  | _ => false

/-- The physical place of an address of an item; one that is not mapped keeps a number of its own. -/
def State.placeOf (s : State) (i : Item) (va : Word) : Nat :=
  match s.peek i.core i.ctx va.toNat with | .ok e => e.pa va.toNat | _ => 2 ^ 61 + i.ctx * 2 ^ 64 + va.toNat

/-- The home that a lane's operation is performed at: that of a pixel's head word, or of a record, whatever its names (R323). -/
def State.lcuKey (s : State) (i : Item) (w : LcuWork) (l : Nat) : Nat :=
  if w.fn.onPixel then
    let p := if w.fn = .lins then bits (i.v 1 l) 63 32 else bits (i.v 0 l) 31 0
    s.placeOf i (Memory.word s.mem (s.placeOf i (i.sa + 8)) + BitVec.ofNat 64 (4 * p))
  else if w.sp then s.placeOf i (i.v 0 l)
  else
    match (s.team? i.party.team).map fun t => s.shAddr t (i.v 0 l) 128 with
    | some (.ok u off) => sharedKey u off
    | _ => 2 ^ 62 + (i.v 0 l).toNat

/-- Whether an earlier item of the same split that acts on a pixel or record of this one has an operation to perform: such items
arrive in issue order (R323). Those of other splits fall between them. -/
def State.lcuBlocked (s : State) (i : Item) (w : LcuWork) : Bool :=
  s.items.any fun x =>
    x.party == i.party && decide (x.id < i.id) && x.ofSplit (i.flow == 4) i.lanes &&
    match x.lcu? with
    | some y =>
      y.fail.isNone && !((lanesOf x.eff).drop y.next).isEmpty
        && (lanesOf x.eff).any fun m => (lanesOf i.eff).any fun l => s.lcuKey x y m == s.lcuKey i w l
    | none => false

/-- Adds a lane's results to an item's. -/
def Item.addOuts (i : Item) (l : Nat) (xs : List Word) : Item :=
  if xs.isEmpty then i
  else
    { i with outs := xs.zipIdx.map fun p => vset (i.outs.getD p.2 (LaneVec.splat 0)) l p.1 }

/-- LCU_OPERATION: the operation of an item's next lane, whole or absent (R323, R330). -/
def execLcuOperation (item : Nat) (s : State) : Out :=
  match s.item? item with
  | none => .refused (.notDue "LCU_OPERATION")
  | some i =>
    match i.lcu? with
    | none => .refused (.notDue "LCU_OPERATION")
    | some w =>
      match i.lcuNext w with
      | none => .refused (.notDue "LCU_OPERATION")
      | some l =>
        if i.waiting 0 || s.lcuBlocked i w then .refused (.notDue "LCU_OPERATION")
        else
          let x := (lcuLane i w l).attempt i s
          let s := x.2.s
          match x.1 with
          | .error (.wait va mal) => .next (s.itemWaits i.id 0 va mal)
          | .error (.fail c) => .next (s.modItem item fun i => { i with work := { w with fail := some c }.toWork })
          | .ok r =>
            let w := { w with
              next := w.next + 1
              told := if r.flag then w.told ||| BitVec.ofNat 32 (2 ^ l) else w.told
              count := w.count + r.count }
            .next ((s.engPuts i x.2.clk r.writes).modItem item fun i => { (i.addOuts l r.outs) with work := w.toWork })

/-- The status and RESULT of an item whose lanes are done (R317, R324). -/
def LcuWork.ending (w : LcuWork) : ItemEnd × Nat :=
  match w.fail with
  | some c => (.failed c, 0)
  | none =>
    match w.fn with
    | .lins => (if w.told = 0#32 then .done else .code 0x0110, w.told.toNat)
    | .lres | .lclr => (.done, w.count)
    | .cacc | .cflush => (.done, w.told.toNat)
    | .cadj => (if w.told = 0#32 then .done else .code 0x0111, w.told.toNat)
    | .cinit => (if bits w.param 63 48 = 0 then .done else .failed 0x01, 0)
    | _ => (.done, 0)

/-- LCU_ITEM_COMPLETE: the final status; LQRY and CRD write their registers if DONE (R320, R328, R331). -/
def execLcuItemComplete (item : Nat) (s : State) : Out :=
  match s.item? item with
  | none => .refused (.notDue "LCU_ITEM_COMPLETE")
  | some i =>
    match i.lcu? with
    | none => .refused (.notDue "LCU_ITEM_COMPLETE")
    | some w =>
      if (i.lcuNext w).isSome then .refused (.notDue "LCU_ITEM_COMPLETE")
      else
        let e := w.ending
        let s := if e.1 = .done then s.itemWriteV i (i.outs.zipIdx.map fun p => (i.d + p.2, i.eff, p.1)) else s
        .next (s.closeItem i (tokenWord e.1 e.2))

/-- Ends an LCU item CANCELLED with RESULT 0 (R331). -/
def State.lcuCancel (s : State) (i : Item) : State := s.closeItem i (tokenWord .cancelled 0)

/-! ## The instructions -/

/-- The issue of a LOP function (R316, R317): registers captured, and those that LP kills. -/
def View.lop (v : View) (ops : List Opnd) (sa sb tok : BitVec 6) (d : Nat) (vs : List Nat) (lp : Bool) (w : Work) : Out :=
  let eff := v.eff false
  v.engineIssue eff ops fun v st =>
    let i := { v.newItem tok eff w with sa := v.rdS sa.toNat, sb := v.rdS sb.toNat, vs := vs.map v.rdV, d := d }
    v.post st i { kills := killsOf eff (vs.map fun r => ⟨r, lp⟩) }

def lcuWork (fn : LcuFn) (sp free cov : Bool) (p : Word) : Work := .lcu fn sp free cov p 0 0 0 none

def execLins (d : BitVec 7) (sa tok : BitVec 6) (lp : Bool) (s : State) : Out :=
  withIssuer s 2 fun v =>
    v.lop ([opRun d.toNat 3 true, opS sa.toNat] ++ tokOps tok) sa 0 tok 0 [d.toNat, d.toNat + 1, d.toNat + 2] lp
      (lcuWork .lins false false false 0)

def execLres (sa sb tok : BitVec 6) (free cov : Bool) (vp : BitVec 7) (lp : Bool) (s : State) : Out :=
  withIssuer s 2 fun v =>
    v.lop ([opS sa.toNat, opS sb.toNat] ++ tokOps tok ++ [opRd vp.toNat]) sa sb tok 0 [vp.toNat] lp
      (lcuWork .lres false free cov 0)

def execLclr (sa tok : BitVec 6) (vp : BitVec 7) (lp : Bool) (s : State) : Out :=
  withIssuer s 2 fun v =>
    v.lop ([opS sa.toNat] ++ tokOps tok ++ [opRd vp.toNat]) sa 0 tok 0 [vp.toNat] lp (lcuWork .lclr false false false 0)

def execLqry (d : BitVec 7) (sa tok : BitVec 6) (layer : BitVec 4) (vp : BitVec 7) (lp : Bool) (s : State) : Out :=
  withIssuer s 2 fun v =>
    v.lop ([opRun d.toNat 3 false, opS sa.toNat] ++ tokOps tok ++ [opRd vp.toNat]) sa 0 tok d.toNat [vp.toNat] lp
      (lcuWork .lqry false false false (layer.zeroExtend 64))

/-- The issue of a COP function (R324): the records' addresses, then the operand registers. -/
def View.cop (v : View) (ops : List Opnd) (sa tok : BitVec 6) (va : BitVec 7) (d : Nat) (vs : List Nat) (lv : Bool)
    (w : Work) : Out :=
  let eff := v.eff false
  let at127 := va == 127#7
  v.engineIssue eff (ops ++ (if at127 then [] else [opRd va.toNat])) fun v st =>
    let base := v.rdS sa.toNat
    let off := v.rdV va.toNat
    let addr : LaneVec := Vector.ofFn fun (l : Fin 32) => if at127 then base else base + off[l.val]
    let i := { v.newItem tok eff w with sa := base, vs := addr :: vs.map v.rdV, d := d }
    let regs := (if at127 then [] else [va.toNat]) ++ vs
    v.post st i { kills := killsOf eff (regs.map fun r => ⟨r, lv⟩) }

/-- CINIT (R325): V[D] is read where REC = 1. -/
def execCinit (d : BitVec 7) (sa sb tok : BitVec 6) (sp : Bool) (va : BitVec 7) (lv : Bool) (s : State) : Out :=
  withIssuer s 2 fun v =>
    let p := v.rdS sb.toNat
    let r := bitOf p 0
    v.cop ([{ opRd d.toNat with rd := r }, opS sa.toNat, opS sb.toNat] ++ tokOps tok) sa tok va 0
      (if r then [d.toNat] else []) lv (lcuWork .cinit sp false false p)

def execCacc (d : BitVec 7) (sa tok : BitVec 6) (sp : Bool) (va : BitVec 7) (lv : Bool) (s : State) : Out :=
  withIssuer s 2 fun v =>
    v.cop ([opRun d.toNat 3 true, opS sa.toNat] ++ tokOps tok) sa tok va 0 [d.toNat, d.toNat + 1, d.toNat + 2] lv
      (lcuWork .cacc sp false false 0)

def execCflush (sa tok : BitVec 6) (sp : Bool) (va : BitVec 7) (lv : Bool) (s : State) : Out :=
  withIssuer s 2 fun v => v.cop ([opS sa.toNat] ++ tokOps tok) sa tok va 0 [] lv (lcuWork .cflush sp false false 0)

def execCrd (d : BitVec 7) (sa tok : BitVec 6) (sp : Bool) (va : BitVec 7) (lv : Bool) (s : State) : Out :=
  withIssuer s 2 fun v =>
    v.cop ([opRun d.toNat 3 false, opS sa.toNat] ++ tokOps tok) sa tok va d.toNat [] lv (lcuWork .crd sp false false 0)

def execCadj (d : BitVec 7) (sa tok : BitVec 6) (sp : Bool) (va : BitVec 7) (lv : Bool) (s : State) : Out :=
  withIssuer s 2 fun v =>
    v.cop ([opRun d.toNat 3 true, opS sa.toNat] ++ tokOps tok) sa tok va 0 [d.toNat, d.toNat + 1, d.toNat + 2] lv
      (lcuWork .cadj sp false false 0)

end Sys2Proof.Machine
end

