-- ==== Sys2Proof/Machine/Ray.lean ====
section
/-!
DEFINITION. The ray traversal unit (R334 to R356): the exact box and triangle tests, the steps of a traversal, ray slots and
records, and the ray commands.
-/
namespace Sys2Proof.Machine

/-! ## Exact geometry (R345, R346) -/

/-- A value with the infinities, in order. -/
inductive Ext where
  | neg
  | val (q : Q)
  | pos

def Ext.le : Ext → Ext → Bool
  | .neg, _ => true
  | _, .pos => true
  | .val a, .val b => a.le b
  | _, _ => false

def Ext.max (a b : Ext) : Ext := if a.le b then b else a
def Ext.min (a b : Ext) : Ext := if a.le b then a else b

/-- An f32 that is not NaN. -/
def extOf (x : Nat) : Ext :=
  match fmtF32.decode x with
  | .inf true => .neg
  | .inf false => .pos
  | f => .val f.q

def isNan32 (x : Nat) : Bool := (fmtF32.decode x).isNan
def isInf32 (x : Nat) : Bool := (fmtF32.decode x).isInf
def q32 (x : Nat) : Q := (fmtF32.decode x).q

/-- Rounded to f32 under a directed mode (R345). -/
def Ext.out (rm : RMode) : Ext → Ext
  | .val q => extOf (roundQ fmtF32 rm q).1
  | x => x

/-- A ray as the tests use it: origin and direction as f32 values, and the range. -/
structure TestRay where
  o    : List Nat
  d    : List Nat
  tmin : Nat
  tmax : Nat

def TestRay.oq (r : TestRay) (a : Nat) : Q := q32 (r.o.getD a 0)
def TestRay.dq (r : TestRay) (a : Nat) : Q := q32 (r.d.getD a 0)

/-- `(x − o)/d` for a box bound, which may be infinite. -/
def slab (x : Nat) (o d : Q) : Ext :=
  match extOf x with
  | .val q => .val ((q.sub o).div d)
  | .pos => if d.isNeg then .neg else .pos
  | .neg => if d.isNeg then .pos else .neg

/-- The interval of one axis; none is a miss (R345). -/
def boxAxis (lo hi : Nat) (o d : Q) : Option (Ext × Ext) :=
  if d.isZero then
    if (extOf lo).le (.val o) && (Ext.val o).le (extOf hi) then some (.neg, .pos) else none
  else
    let n := slab lo o d
    let f := slab hi o d
    some (if d.isNeg then (f, n) else (n, f))

/-- BOX: the near value of a hit (R345). -/
def boxTest (r : TestRay) (b : List Nat) : Option Ext :=
  let lo (a : Nat) : Nat := b.getD a 0
  let hi (a : Nat) : Nat := b.getD (3 + a) 0
  let bad (a : Nat) : Bool := isNan32 (lo a) || isNan32 (hi a) || !(extOf (lo a)).le (extOf (hi a))
  if bad 0 || bad 1 || bad 2 then none
  else
    match boxAxis (lo 0) (hi 0) (r.oq 0) (r.dq 0), boxAxis (lo 1) (hi 1) (r.oq 1) (r.dq 1),
        boxAxis (lo 2) (hi 2) (r.oq 2) (r.dq 2) with
    | some x, some y, some z =>
      let near := (((x.1.max y.1).max z.1).max (extOf r.tmin)).out .rdn
      let far := (((x.2.min y.2).min z.2).min (extOf r.tmax)).out .rup
      if near.le far then some near else none
    | _, _, _ => none

/-- The axis of the largest direction component, the lowest on a tie (R346). -/
def mainAxis (r : TestRay) : Nat :=
  let m (a : Nat) : Q := (r.dq a).abs
  if (m 1).le (m 0) && (m 2).le (m 0) then 0 else if (m 2).le (m 1) then 1 else 2

/-- TRI: t, u and v of a hit (R346), from the nine vertex coordinates. -/
def triTest (r : TestRay) (vs : List Nat) (cullb : Bool) : Option (Nat × Nat × Nat) :=
  if vs.any fun x => isNan32 x || isInf32 x then none
  else
    let p (k a : Nat) : Q := (q32 (vs.getD (3 * k + a) 0)).sub (r.oq a)
    let kz := mainAxis r
    let k1 := (kz + 1) % 3
    let k2 := (kz + 2) % 3
    let kx := if (r.dq kz).isNeg then k2 else k1
    let ky := if (r.dq kz).isNeg then k1 else k2
    let sx := (r.dq kx).div (r.dq kz)
    let sy := (r.dq ky).div (r.dq kz)
    let sz := (Q.ofInt 1).div (r.dq kz)
    let x (k : Nat) : Q := (p k kx).sub (sx.mul (p k kz))
    let y (k : Nat) : Q := (p k ky).sub (sy.mul (p k kz))
    let cross (a b : Nat) : Q := ((x a).mul (y b)).sub ((y a).mul (x b))
    let u := cross 2 1
    let v := cross 0 2
    let w := cross 1 0
    let pos (q : Q) : Bool := Q.zero.lt q
    let det := (u.add v).add w
    if (u.isNeg || v.isNeg || w.isNeg) && (pos u || pos v || pos w) then none
    else if det.isZero || (cullb && det.isNeg) then none
    else
      let t := rne32 ((sz.mul (((u.mul (p 0 kz)).add (v.mul (p 1 kz))).add (w.mul (p 2 kz)))).div det)
      if (extOf r.tmin).le (extOf t) && (extOf t).le (extOf r.tmax) then some (t, rne32 (v.div det), rne32 (w.div det))
      else none

/-! ## Rays (R341, R343, R347) -/

def Ray.worldRay (r : Ray) : TestRay :=
  let w (k : Nat) : Nat := (vget r.world k 0).toNat
  ⟨[w 0, w 1, w 2], [w 3, w 4, w 5], w 6, w 7⟩

/-- Whether a ray is INVALID (R343). -/
def TestRay.invalid (r : TestRay) : Bool :=
  (r.o ++ r.d ++ [r.tmin, r.tmax]).any isNan32 || (r.o ++ r.d).any isInf32
    || r.d.all fun x => (fmtF32.decode x).isZero

/-- The range is empty (R343). -/
def TestRay.empty (r : TestRay) : Bool := !(extOf r.tmin).le (extOf r.tmax)

/-- A hit: t, u, v, PRIM, INST, in the order of the record (R341). -/
structure Hit where
  t    : Nat
  u    : Nat
  v    : Nat
  prim : Nat
  inst : Nat

def hitVec (h : Hit) : Vector W32 5 :=
  #v[BitVec.ofNat 32 h.t, BitVec.ofNat 32 h.u, BitVec.ofNat 32 h.v, BitVec.ofNat 32 h.prim, BitVec.ofNat 32 h.inst]

/-- No hit, and no candidate (R341, R343). -/
def noHit : Vector W32 5 := #v[0x7F800000, 0, 0, 0, 0]
def noCand : Vector W32 5 := Vector.replicate 5 0

def Ray.ht (r : Ray) : Nat := (vget r.hit 0 0).toNat

/-- A commit (R347): it replaces the best hit when it is nearer, or as near and lower by (INST, PRIM). -/
def Ray.commit (r : Ray) (h : Vector W32 5) : Ray :=
  let t := (vget h 0 0).toNat
  let key (x : Vector W32 5) : Nat := (vget x 4 0).toNat * 2 ^ 32 + (vget x 3 0).toNat
  let a := fmtF32.decode t
  let b := fmtF32.decode r.ht
  if r.ht = 0x7F800000 || a.lt b || (a.eqv b && decide (key h < key r.hit)) then
    { r with hit := h, world := vset r.world 7 (vget h 0 0) }
  else r

/-- The reference that names nothing (R336). -/
def emptyRef : W32 := 0xC0000000

/-! ## Steps (R344) -/

/-- What a step gives: the traversal goes on, or ends with a status. -/
inductive StepEnd where
  | go (r : Ray)
  | stop (r : Ray) (status : Nat)

/-- Reads words as an engine (R354, R355). -/
def rayWords (i : Item) (a : Word) (n : Nat) : Eng (List Nat) := do
  let bs ← engBytes i true reachAll a (4 * n)
  pure (elemsOf 4 n bs)

/-- An instance record (R338). -/
structure Instance where
  m     : List Nat
  base  : Word
  id    : Nat
  opq   : Bool
  imask : Nat

def readInstance (i : Item) (root : Word) (k : Nat) : Eng Instance := do
  let w ← rayWords i (root + BitVec.ofNat 64 (64 * k)) 16
  engNeed (w.getD 15 0 / 2 ^ 9 == 0) 0x01
  pure { m := w.take 12, base := BitVec.ofNat 64 (w.getD 12 0 + w.getD 13 0 * 2 ^ 32), id := w.getD 14 0,
         opq := w.getD 15 0 / 2 ^ 8 % 2 == 1, imask := w.getD 15 0 % 2 ^ 8 }

/-- One component of the object ray (R344); none where it is NaN or infinite. -/
def objComponent (m : List Nat) (row : Nat) (x : List Nat) (one : Bool) : Option Nat :=
  let ms := (m.drop (4 * row)).take 4
  if ms.any (fun y => isNan32 y || isInf32 y) then none
  else
    let q (k : Nat) : Q := q32 (ms.getD k 0)
    let s := (((q 0).mul (q32 (x.getD 0 0))).add ((q 1).mul (q32 (x.getD 1 0)))).add ((q 2).mul (q32 (x.getD 2 0)))
    let r := rne32 (if one then s.add (q 3) else s)
    if isInf32 r then none else some r

/-- The object ray, or none where it is unusable (R344). -/
def Instance.objectRay (n : Instance) (r : TestRay) : Option TestRay :=
  match objComponent n.m 0 r.o true, objComponent n.m 1 r.o true, objComponent n.m 2 r.o true,
      objComponent n.m 0 r.d false, objComponent n.m 1 r.d false, objComponent n.m 2 r.d false with
  | some ox, some oy, some oz, some dx, some dy, some dz =>
    if [dx, dy, dz].all fun x => (fmtF32.decode x).isZero then none
    else some { r with o := [ox, oy, oz], d := [dx, dy, dz] }
  | _, _, _, _, _, _ => none

/-- Inserts a child by near, then by slot. -/
def insertNear (x : Ext × W32) : List (Ext × W32) → List (Ext × W32)
  | [] => [x]
  | y :: ys => if y.1.le x.1 then y :: insertNear x ys else x :: y :: ys

/-- The children of a node that a ray hits, nearest first (R344). Only boxes of references that are not empty are read. -/
def nodeHits (i : Item) (a : Word) (r : TestRay) (refs : List Nat) : Nat → List (Ext × W32) → Eng (List (Ext × W32))
  | 0, acc => pure acc
  | n + 1, acc => do
    let c := 4 - (n + 1)
    let ref := refs.getD c 0
    if ref / 2 ^ 30 = 3 then nodeHits i a r refs n acc
    else do
      let b ← rayWords i (a + BitVec.ofNat 64 (24 * c)) 6
      match boxTest r b with
      | some near => nodeHits i a r refs n (insertNear (near, BitVec.ofNat 32 ref) acc)
      | none => nodeHits i a r refs n acc

/-- An inner reference (R344). -/
def innerStep (i : Item) (base : Word) (t : TestRay) (r : Ray) : Eng StepEnd := do
  engNeed (bits (r.cur.zeroExtend 64) 29 28 == 0 && base.toNat % 128 == 0) 0x01
  let a := base + BitVec.ofNat 64 (128 * bits (r.cur.zeroExtend 64) 27 0)
  let refs ← rayWords i (a + 96) 4
  match ← nodeHits i a t refs 4 [] with
  | [] => pure (.go { r with cur := emptyRef })
  | h :: hs => do
    engNeed (decide (r.stack.length + hs.length ≤ 24)) 0x16
    pure (.go { r with cur := h.2, stack := r.stack ++ (hs.map Prod.snd).reverse })

/-- A leaf's first triangle; the rest of the leaf stays to be processed (R344, R346, R347). The index of the rest may pass the
28 bits of the reference: `high` is then its bit 28, which no record holds (DESIGN CHOICE, log 47). -/
def leafStep (i : Item) (base : Word) (t : TestRay) (opq : Bool) (inst : Nat) (r : Ray) : Eng StepEnd := do
  engNeed (base.toNat % 128 == 0) 0x01
  let cur := r.cur.toNat
  let more := cur / 2 ^ 28 % 4
  let idx := cur % 2 ^ 28 + r.high.toNat * 2 ^ 28
  let w ← rayWords i (base + BitVec.ofNat 64 (16 * idx)) 12
  engNeed (w.getD 11 0 / 2 == 0) 0x01
  let rest : W32 := if more = 0 then emptyRef else BitVec.ofNat 32 (2 ^ 30 + (more - 1) * 2 ^ 28 + (idx + 3) % 2 ^ 28)
  let r := { r with cur := rest, high := more != 0 && decide (2 ^ 28 ≤ idx + 3) }
  match triTest t (w.take 9) r.cullb with
  | none => pure (.go r)
  | some (ht, u, v) =>
    let h := hitVec ⟨ht, u, v, w.getD 9 0, inst⟩
    if w.getD 11 0 % 2 = 1 || opq || !r.yield then
      let r := r.commit h
      if r.first then pure (.stop r 0) else pure (.go r)
    else pure (.stop { r with cand := h } 2)

/-- An instance reference (R344). -/
def instanceStep (i : Item) (r : Ray) : Eng StepEnd := do
  engNeed (!r.level && bits (r.cur.zeroExtend 64) 29 28 == 0 && r.root.toNat % 128 == 0) 0x01
  let k := bits (r.cur.zeroExtend 64) 27 0
  let n ← readInstance i r.root k
  if n.imask &&& r.mask.toNat = 0 || (n.objectRay r.worldRay).isNone then pure (.go { r with cur := emptyRef })
  else pure (.go { r with inst := BitVec.ofNat 28 k, sbase := r.stack.length, level := true, cur := 0 })

/-- An empty reference: leave the instance, pop, or finish (R344). -/
def emptyStep (r : Ray) : StepEnd :=
  let r := if r.level && r.stack.length == r.sbase then { r with level := false } else r
  match r.stack.getLast? with
  | none => .stop r (if r.ht = 0x7F800000 then 1 else 0)
  | some x => .go { r with stack := r.stack.dropLast, cur := x }

/-- One step of a traversal (R343, R344). -/
def rayStep (i : Item) (r : Ray) : Eng StepEnd :=
  if r.worldRay.invalid then pure (.stop r 3)
  else if r.worldRay.empty then pure (.stop r 1)
  else
    let kind := r.cur.toNat / 2 ^ 30
    if kind = 3 then pure (emptyStep r)
    else if kind = 2 then instanceStep i r
    else if r.level then do
      engNeed (r.root.toNat % 128 == 0) 0x01
      let n ← readInstance i r.root r.inst.toNat
      match n.objectRay r.worldRay with
      | none => pure (.go { r with cur := emptyRef })
      | some t => if kind = 0 then innerStep i n.base t r else leafStep i n.base t n.opq n.id r
    else if kind = 0 then innerStep i r.root r.worldRay r
    else leafStep i r.root r.worldRay false 0xFFFFFFFF r

/-! ## Reports and slots (R339, R340, R348) -/

/-- A lane's report of a ray under a status (R348). -/
def Ray.out (r : Ray) (status : Nat) : RayOut :=
  let h := if status = 2 then r.cand else r.hit
  if status = 0 ∨ status = 2 ∨ status = 4 then
    if vget h 0 0 = 0x7F800000 then RayOut.plain status 0
    else ⟨status, 0, vget h 0 0, vget h 3 0, vget h 4 0, vget h 1 0, vget h 2 0⟩
  else RayOut.plain status 0

def Group.ray (g : Group) (l : Nat) : Option Ray := vget g.rays l none

def Group.setRay (g : Group) (l : Nat) (r : Option Ray) : Group := { g with rays := vset g.rays l r }

/-- The lanes that hold a slot. -/
def Group.rayLanes (g : Group) : Mask := maskOf fun l => (g.ray l).isSome

/-- The free slots of a core. -/
def State.freeSlots (s : State) (core : Nat) : Nat :=
  256 - ((s.teams.filter fun t => t.core == some core).map fun t =>
    (t.groups.map fun g => (lanesOf g.rayLanes).length).sum).sum

/-- What a ray item keeps. -/
structure RayWork where
  fn      : RayFn
  accept  : Mask
  outs    : Vector (Option RayOut) 32
  count   : Nat
  suspend : Bool

def Item.ray? (i : Item) : Option RayWork :=
  match i.work with
  | .ray fn acc outs n sus => some ⟨fn, acc, outs, n, sus⟩
  | _ => none

def RayWork.toWork (w : RayWork) : Work := .ray w.fn w.accept w.outs w.count w.suspend

def RayWork.traverses (w : RayWork) : Bool := w.fn == .trace || w.fn == .resume

def RayWork.out (w : RayWork) (l : Nat) : Option RayOut := vget w.outs l none

/-- Sets a lane's report; it waits for no page any more. -/
def Item.endLane (i : Item) (l : Nat) (o : RayOut) : Item :=
  match i.ray? with
  | some w =>
    { i with
      waits := i.waits.filter fun x => x.1 != l
      work := { w with outs := vset w.outs l (some o) }.toWork }
  | none => i

/-- The ray of a lane that an item may act on: one whose slot was bound no later than the item issued. -/
def State.rayOf (s : State) (i : Item) (l : Nat) : Option Ray :=
  match s.group? i.party.team i.party.gid with
  | some g => (g.ray l).filter fun r => decide (r.owner ≤ i.id)
  | none => none

/-- Ends a lane of an item, keeping its ray in the slot or freeing the slot. -/
def State.endRay (s : State) (i : Item) (l : Nat) (keep : Option Ray) (o : RayOut) : State :=
  let s := if (s.rayOf i l).isSome then s.modGroup i.party.team i.party.gid fun g => g.setRay l keep else s
  s.modItem i.id fun i => i.endLane l o

/-- The ray items of a group that include a lane, oldest first. -/
def State.rayItems (s : State) (u gid l : Nat) : List Item :=
  s.items.filter fun i => i.party.team == u && i.party.gid == gid && i.ray?.isSome && i.eff.getLsbD l

/-- The verdict on a candidate as an RTRESUME takes the lane up (R350): the ray that goes on, or that ends with HIT. -/
def Ray.verdict (r : Ray) (accept : Bool) : StepEnd :=
  if r.held = 2 then
    let q := { r with cand := noCand, held := 0 }
    if accept then (let q := q.commit r.cand; if q.first then .stop q 0 else .go q) else .go q
  else .go { r with held := 0 }

/-- Commits the end of a step to the state. -/
def State.afterStep (s : State) (i : Item) (l : Nat) (e : StepEnd) : State :=
  match e with
  | .go r => s.modGroup i.party.team i.party.gid fun g => g.setRay l (some r)
  | .stop r st => s.endRay i l (if st = 2 then some { r with held := 2 } else none) (r.out st)

/-- The next step of a lane: the verdict, the suspension of a ray that traverses (R343, R356), or a step of R344; a step that
fails ends the lane FAULT (R355). -/
def State.rayAct (s : State) (i : Item) (w : RayWork) (l : Nat) (r : Ray) : State :=
  let r := { r with owner := i.id }
  if r.held ≠ 0 then s.afterStep i l (r.verdict (w.accept.getLsbD l))
  else if w.suspend && !r.worldRay.invalid && !r.worldRay.empty then s.endRay i l (some { r with held := 4 }) (r.out 4)
  else
    let x := (rayStep i r).attempt i s
    match x.1 with
    | .ok e => x.2.s.afterStep i l e
    | .error (.wait va mal) => x.2.s.itemWaits i.id l va mal
    | .error (.fail c) => x.2.s.endRay i l none (RayOut.plain 5 c)

/-- TRAVERSAL_STEP: a step of the traversal of a lane (R344), for the oldest item that works on the lane (R349). -/
def execTraversalStep (team gid lane : Nat) (s : State) : Out :=
  match s.rayItems team gid lane with
  | [] => .refused (.notDue "TRAVERSAL_STEP")
  | i :: _ =>
    match i.ray? with
    | none => .refused (.notDue "TRAVERSAL_STEP")
    | some w =>
      if !w.traverses || (w.out lane).isSome || (i.waiting lane && !w.suspend) then .refused (.notDue "TRAVERSAL_STEP")
      else
        match s.rayOf i lane with
        | none => .next (s.endRay i lane none (RayOut.plain (if w.fn = .trace then 6 else 7) 0))
        | some r => .next (s.rayAct i w lane r)

/-! ## Records (R341) -/

def Ray.statusWord (r : Ray) : Nat :=
  r.held * 2 ^ 28 + r.stack.length * 2 ^ 23 + r.sbase * 2 ^ 18 + r.level.toNat * 2 ^ 17 + r.mask.toNat * 2 ^ 8
    + r.yield.toNat * 4 + r.cullb.toNat * 2 + r.first.toNat

def Ray.bytes (r : Ray) : List Byte :=
  ((r.world.toList ++ r.hit.toList ++ r.cand.toList ++ r.stack ++ List.replicate (24 - r.stack.length) 0 ++ [r.cur]).flatMap
    fun (w : W32) => leBytes 4 w.toNat) ++ leBytes 4 r.statusWord ++ leBytes 4 r.inst.toNat ++ leBytes 4 0 ++ leBytes 8 r.root.toNat

/-- A NORAY record. -/
def noRayBytes : List Byte := List.replicate 172 0 ++ leBytes 4 (7 * 2 ^ 28) ++ List.replicate 16 0

/-- What a record holds (R341, R352). -/
inductive RayRecord where
  | ray (r : Ray)
  | noRay
  | fault (cause : Nat)

/-- A record from its bytes. SBASE is a DEPTH at which an instance was entered, below the entries the instance has pushed. -/
def recordOf (bs : List Byte) (owner : Nat) : RayRecord :=
  let w := elemsOf 4 48 bs
  let x := w.getD 43 0
  let st := x / 2 ^ 28
  let depth := x / 2 ^ 23 % 32
  let v (k n : Nat) : List W32 := ((w.drop k).take n).map fun y => BitVec.ofNat 32 y
  let sbase := x / 2 ^ 18 % 32
  let level := x / 2 ^ 17 % 2 == 1
  if st = 7 then (if bs = noRayBytes then .noRay else .fault 0x01)
  else if (st = 2 ∨ st = 4) ∧ depth ≤ 24 ∧ sbase ≤ 24 ∧ (!level || decide (sbase ≤ depth)) ∧ x / 2 ^ 16 % 2 = 0 ∧ x / 2 ^ 3 % 32 = 0 ∧ w.getD 44 0 / 2 ^ 28 = 0 ∧ w.getD 45 0 = 0
      ∧ ((w.drop (18 + depth)).take (24 - depth)).all (fun y => y == 0)
      ∧ (st = 2 || ((w.drop 13).take 5).all (fun y => y == 0)) then
    .ray
      { owner := owner, world := Vector.ofFn fun (k : Fin 8) => BitVec.ofNat 32 (w.getD k.val 0)
        hit := Vector.ofFn fun (k : Fin 5) => BitVec.ofNat 32 (w.getD (8 + k.val) 0)
        cand := Vector.ofFn fun (k : Fin 5) => BitVec.ofNat 32 (w.getD (13 + k.val) 0)
        stack := v 18 depth, cur := BitVec.ofNat 32 (w.getD 42 0), held := st, sbase := sbase,
        level := level, mask := BitVec.ofNat 8 (x / 2 ^ 8), yield := x / 4 % 2 == 1, cullb := x / 2 % 2 == 1,
        first := x % 2 == 1, inst := BitVec.ofNat 28 (w.getD 44 0),
        root := BitVec.ofNat 64 (w.getD 46 0 + w.getD 47 0 * 2 ^ 32), high := false }
  else .fault 0x01

/-- The record of a lane of an RTLOAD (R352): a plain engine read of shared memory (R354). -/
def State.loadRecord (s : State) (i : Item) (l : Nat) : RayRecord :=
  match (s.runFate (i.agent s) (s.team? i.party.team) reachAll ⟨true, i.v 0 l, 192, true, false⟩).1 with
  | .ok ls => recordOf (s.runBytes (i.agent s) ls) i.id
  | .fail c => .fault c
  | .wait _ _ => .noRay

/-- Whether a record holds a ray. -/
def RayRecord.isRay : RayRecord → Bool
  | .ray _ => true
  | _ => false

/-! ## Issue (R339, R342, R349) -/

def noOuts : Vector (Option RayOut) 32 := Vector.replicate 32 none

/-- The slots that an item needs (R339). -/
def State.slotNeed (s : State) (i : Item) : Nat :=
  match i.ray? with
  | some w =>
    (match w.fn with
     | .trace => (lanesOf i.eff).length
     | .load => ((lanesOf i.eff).filter fun l => (s.loadRecord i l).isRay).length
     | _ => 0)
  | none => 0

/-- A new ray of a lane of RTRACE (R342, R343). `sb` holds the flags and MASK of word two. -/
def Item.newRay (i : Item) (l : Nat) : Ray :=
  let w (k : Nat) : W32 :=
    let x := lane (i.vs.getD (k / 2) (LaneVec.splat 0)) l
    if k % 2 = 0 then x.extractLsb' 0 32 else x.extractLsb' 32 32
  { owner := i.id, world := Vector.ofFn fun (k : Fin 8) => w k.val, hit := noHit, cand := noCand, stack := [], cur := 0,
    held := 0, sbase := 0, level := false, mask := i.sb.extractLsb' 8 8, yield := i.sb.getLsbD 2, cullb := i.sb.getLsbD 1,
    first := i.sb.getLsbD 0, inst := 0, root := i.sa, high := false }

/-- Binds the slots of an item that is posted (R339, R342): RTLOAD's to the lanes whose records then hold rays. The records
themselves are read after issue (R352). -/
def State.bindRays (s : State) (i : Item) : State :=
  match i.ray? with
  | none => s
  | some w =>
    (lanesOf i.eff).foldl (fun s l =>
      let put (r : Ray) : State := s.modGroup i.party.team i.party.gid fun g => g.setRay l (some r)
      match w.fn with
      | .trace => put (i.newRay l)
      | .load => (match s.loadRecord i l with | .ray r => put r | _ => s)
      | _ => s) s

/-- The places in line of the flows that wait for slots on a core (R339). -/
def State.slotWaiters (s : State) (core : Nat) : List Nat :=
  (s.teams.filter fun t => t.core == some core).flatMap fun t => t.groups.flatMap fun g =>
    (List.range 5).filterMap fun k => match g.sleepOf k with | .slots o _ _ => some o | _ => none

/-- Posts an item and binds its slots. -/
def View.postRay (v : View) (i : Item) : View :=
  let v := v.posted i
  v.onState (v.s.bindRays i)

/-- Issues a ray command that may bind slots: it waits in line while too few are free (R339). -/
def View.rayIssue (v : View) (st : BitVec 10) (i : Item) (kills : List (Nat × Mask)) : Out :=
  if v.redsOut then v.wait
  else
    let need := v.s.slotNeed i
    if need = 0 || ((v.s.slotWaiters v.core).isEmpty && decide (need ≤ v.s.freeSlots v.core)) then
      (v.postRay i).finish st { kills := kills }
    else { v with s := { v.s with nextId := v.s.nextId + 1 } }.sleep st (.slots v.s.nextId i kills)

/-- RAY_SLOT_BIND: the first waiter of a core binds its slots (R339). Where another split has taken its token meanwhile, it waits
for that token too (R24). -/
def execRaySlotBind (team gid fl : Nat) (s : State) : Out :=
  match s.viewOf team gid fl 2, s.sleepAt team gid fl with
  | some v, .slots order item kills =>
    let i := { item with id := s.nextId }
    let ops := tokOps item.tok
    if (s.slotWaiters v.core).all (fun o => decide (order ≤ o)) && decide (s.slotNeed i ≤ s.freeSlots v.core)
        && !v.redsOut && !(v.fl == 4 && v.g.handler.any Handler.dflt) then
      if v.namesBusy ops then v.waitTokens ops
      else ((v.withGroup (v.g.acquireTokens v.fl ops)).awaken.postRay i).finish 0 { kills := kills }
    else .refused (.notDue "RAY_SLOT_BIND")
  | _, _ => .refused (.notDue "RAY_SLOT_BIND")

/-- RTRACE (R342). -/
def execRtrace (d : BitVec 7) (sa tok : BitVec 6) (first cullb yield : Bool) (mask : BitVec 8) (vr : BitVec 7) (lr : Bool)
    (s : State) : Out :=
  withIssuer s 2 fun v =>
    let eff := v.eff false
    let rs := (List.range 4).map fun k => vr.toNat + k
    v.engineIssue eff ([opRun d.toNat 3 false, opS sa.toNat] ++ tokOps tok ++ [opRun vr.toNat 4 true]) fun v st =>
      let held := v.g.rayLanes &&& eff
      if held != 0#32 then v.trap st 0x15 (hinfoLanes held)
      else
        let flags := BitVec.ofNat 64 (mask.toNat * 2 ^ 8 + yield.toNat * 4 + cullb.toNat * 2 + first.toNat)
        let i := { v.newItem tok eff (.ray .trace 0 noOuts 0 false) with
          sa := v.rdS sa.toNat, sb := flags, vs := rs.map v.rdV, d := d.toNat }
        v.rayIssue st i (killsOf eff (rs.map fun r => ⟨r, lr⟩))

/-- RTRESUME (R350): M0 as the accept mask field rejects every candidate. -/
def execRtresume (d : BitVec 7) (tok : BitVec 6) (ma : BitVec 4) (s : State) : Out :=
  withIssuer s 2 fun v =>
    let eff := v.eff false
    let ops := [opRun d.toNat 3 false] ++ tokOps tok ++ (if ma = 0 then [] else [opMr ma.toNat])
    v.engineIssue eff ops fun v st =>
      let acc : Mask := if ma = 0 then 0 else v.rdM ma.toNat
      v.post st { v.newItem tok eff (.ray .resume acc noOuts 0 false) with d := d.toNat } {}

/-- The record checks at issue (R165, R349): SHBOUND lanes, then ALIGN lanes. -/
def View.recordChecks (v : View) (as : List (Nat × Word)) : Option (Nat × Word) :=
  let out := (as.filter fun a => match v.s.shAddr v.t a.2 192 with | .ok u _ => u != v.u | _ => true).map Prod.fst
  let mis := (as.filter fun a => a.2.toNat % 64 ≠ 0).map Prod.fst
  if !out.isEmpty then some (0x15, hinfoLanes (laneMask out))
  else if !mis.isEmpty then some (0x13, hinfoLanes (laneMask mis))
  else none

/-- RTSAVE and RTLOAD: the records' addresses and their checks. -/
def View.rayRecords (v : View) (eff : Mask) (ops : List Opnd) (sa tok : BitVec 6) (va : BitVec 7)
    (body : View → BitVec 10 → LaneVec → Out) : Out :=
  v.engineIssue eff (ops ++ [opS sa.toNat] ++ tokOps tok ++ [opRd va.toNat]) fun v st =>
    let base := v.rdS sa.toNat
    let off := v.rdV va.toNat
    let addr : LaneVec := Vector.ofFn fun (l : Fin 32) => base + off[l.val]
    match v.recordChecks ((lanesOf eff).map fun l => (l, lane addr l)) with
    | some c => v.trap st c.1 c.2
    | none => body v st addr

/-- RTSAVE (R351). -/
def execRtsave (sa tok : BitVec 6) (va : BitVec 7) (lv : Bool) (s : State) : Out :=
  withIssuer s 2 fun v =>
    let eff := v.eff false
    v.rayRecords eff [] sa tok va fun v st addr =>
      v.post st { v.newItem tok eff (.ray .save 0 noOuts 0 false) with vs := [addr] } { kills := killsOf eff [⟨va.toNat, lv⟩] }

/-- RTLOAD (R352). -/
def execRtload (d : BitVec 7) (sa tok : BitVec 6) (va : BitVec 7) (lv : Bool) (s : State) : Out :=
  withIssuer s 2 fun v =>
    let eff := v.eff false
    v.rayRecords eff [opRun d.toNat 3 false] sa tok va fun v st addr =>
      let held := v.g.rayLanes &&& eff
      if held != 0#32 then v.trap st 0x15 (hinfoLanes held)
      else
        v.rayIssue st { v.newItem tok eff (.ray .load 0 noOuts 0 false) with vs := [addr], d := d.toNat }
          (killsOf eff [⟨va.toNat, lv⟩])

/-- RTABORT (R353). -/
def execRtabort (tok : BitVec 6) (s : State) : Out :=
  withIssuer s 2 fun v =>
    let eff := v.eff false
    v.engineIssue eff (tokOps tok) fun v st => v.post st (v.newItem tok eff (.ray .abort 0 noOuts 0 false)) {}

/-! ## Completion (R348, R351 to R353, R356) -/

/-- The reports of an item's lanes. -/
def RayWork.reports (w : RayWork) (eff : Mask) : List (Nat × RayOut) :=
  (lanesOf eff).filterMap fun l => (w.out l).map fun o => (l, o)

/-- The result registers (R348). -/
def rayWrites (d : Nat) (eff : Mask) (rs : List (Nat × RayOut)) : List (Nat × Mask × LaneVec) :=
  let reg (f : RayOut → Word) : LaneVec :=
    Vector.ofFn fun (l : Fin 32) => match rs.find? fun r => r.1 == l.val with | some r => f r.2 | none => 0
  [(d, eff, reg fun o => BitVec.ofNat 64 (o.t.toNat + o.status * 2 ^ 32 + o.cause * 2 ^ 36)),
   (d + 1, eff, reg fun o => BitVec.ofNat 64 (o.prim.toNat + o.inst.toNat * 2 ^ 32)),
   (d + 2, eff, reg fun o => BitVec.ofNat 64 (o.u.toNat + o.v.toNat * 2 ^ 32))]

/-- The lanes of an item that still hold a slot (R348). -/
def State.raysKept (s : State) (i : Item) : Mask :=
  match s.group? i.party.team i.party.gid with
  | some g => maskOf fun l => i.eff.getLsbD l && (g.ray l).any fun r => r.owner == i.id
  | none => 0

/-- The final status of an RTRACE, RTRESUME or RTLOAD (R348). -/
def State.rayResults (s : State) (i : Item) (rs : List (Nat × RayOut)) : State :=
  let fault := rs.any fun r => r.2.status == 5
  (s.itemWriteV i (rayWrites i.d i.eff rs)).closeItem i
    (tokenWord (if fault then .code 0x0120 else .done) (s.raysKept i).toNat)

/-- Whether an earlier ray item of the group on one of its lanes is unfinished (R349). RTABORT waits for no traversal. -/
def State.rayBlocked (s : State) (i : Item) (w : RayWork) : Bool :=
  s.items.any fun x =>
    x.party == i.party && decide (x.id < i.id) && (x.eff &&& i.eff) != 0#32 &&
    match x.ray? with
    | some y => !(w.fn == .abort && y.traverses)
    | none => false

/-- RTSAVE of one lane (R351). Its report says whether the record holds a ray. -/
def State.saveLane (s : State) (i : Item) (l : Nat) : State :=
  let r := s.rayOf i l
  let bs := match r with | some r => r.bytes | none => noRayBytes
  let f := s.runFate (i.agent s) (s.team? i.party.team) reachAll ⟨true, lane (i.vs.headD (LaneVec.splat 0)) l, 192, false, true⟩
  let s := f.2.runWrite (i.agent s) f.1.locs bs
  let s := s.modItem i.id fun i => i.endLane l (RayOut.plain (if r.isSome then 0 else 7) 0)
  if r.isSome then s.modGroup i.party.team i.party.gid fun g => g.setRay l none else s

/-- RTLOAD of one lane (R352); none while a record that came to hold a ray after the issue finds no free slot (DESIGN CHOICE,
log 47). A lane that another item has given a slot meanwhile binds nothing (DESIGN CHOICE, log 47). -/
def State.loadLane (s : State) (i : Item) (l : Nat) : Option State :=
  let slot : Option Ray := (s.group? i.party.team i.party.gid).bind fun g => g.ray l
  let mine : Bool := slot.any fun r => r.owner == i.id
  let set (r : Option Ray) (o : RayOut) : State :=
    let s := if mine || slot.isNone then s.modGroup i.party.team i.party.gid fun g => g.setRay l r else s
    s.modItem i.id fun i => i.endLane l o
  match s.loadRecord i l with
  | .noRay => some (set none (RayOut.plain 7 0))
  | .fault c => some (set none (RayOut.plain 5 c))
  | .ray r =>
    if mine || (slot.isNone && decide (0 < s.freeSlots i.core)) then some (set (some r) (r.out r.held))
    else if slot.isNone then none
    else some (set none (RayOut.plain 7 0))

/-- The lanes of an RTSAVE or RTLOAD that are still to be done, ascending. -/
def RayWork.left (w : RayWork) (i : Item) : List Nat := (lanesOf i.eff).filter fun l => (w.out l).isNone

/-- One lane of an RTSAVE or RTLOAD; none where it must wait. -/
def State.recordLane (s : State) (i : Item) (w : RayWork) (l : Nat) : Option State :=
  match w.fn with
  | .save => some (s.saveLane i l)
  | .load => s.loadLane i l
  | _ => none

/-- Several lanes in turn. -/
def State.recordLanes (s : State) (i : Item) (w : RayWork) (ls : List Nat) : Option State :=
  ls.foldl (fun s l => s.bind fun s => s.recordLane i w l) (some s)

/-- The next lane of an RTSAVE or RTLOAD is done by itself, before the item ends (R349, R351, R352). -/
def State.rayPart (s : State) (item : Nat) : State :=
  match s.item? item with
  | none => s
  | some i =>
    match i.ray? with
    | none => s
    | some w => if s.rayBlocked i w then s else (s.recordLanes i w ((w.left i).take 1)).getD s

/-- RTABORT of one lane (R353): the unfinished traversals of the lane report it ABORTED, and its slot is freed. -/
def State.abortLane (s : State) (i : Item) (l : Nat) : State :=
  let hit (x : Item) : Bool :=
    x.party == i.party && decide (x.id < i.id) && x.eff.getLsbD l &&
    match x.ray? with | some y => y.traverses && (y.out l).elim true RayOut.holds | none => false
  let s := { s with items := s.items.map fun x => if hit x then x.endLane l (RayOut.plain 6 0) else x }
  s.modGroup i.party.team i.party.gid fun g => g.setRay l none

/-- The end of an RTSAVE or RTLOAD whose lanes are done: RTLOAD frees the slots of lanes that exited meanwhile (R339). -/
def State.recordsEnd (s : State) (id : Nat) : State :=
  match s.item? id with
  | none => s
  | some i =>
    match i.ray? with
    | none => s
    | some w =>
      let rs := w.reports i.eff
      match w.fn with
      | .load =>
        let gone := (rs.filter fun r => r.2.status == 6).map Prod.fst
        let s := gone.foldl (fun s l => s.modGroup i.party.team i.party.gid fun g =>
          if (g.ray l).any (fun r => r.owner == i.id) then g.setRay l none else g) s
        s.rayResults i rs
      | _ => s.closeItem i (tokenWord .done (rs.filter fun r => r.2.status == 0).length)

/-- RAY_ITEM_COMPLETE: a ray item reaches its final status; the lanes of a record function that are left are done first. -/
def execRayItemComplete (item : Nat) (s : State) : Out :=
  match s.item? item with
  | none => .refused (.notDue "RAY_ITEM_COMPLETE")
  | some i =>
    match i.ray? with
    | none => .refused (.notDue "RAY_ITEM_COMPLETE")
    | some w =>
      let ls := lanesOf i.eff
      match w.fn with
      | .trace | .resume =>
        if ls.all fun l => (w.out l).isSome then .next (s.rayResults i (w.reports i.eff))
        else .refused (.notDue "RAY_ITEM_COMPLETE")
      | .load | .save =>
        if s.rayBlocked i w then .refused (.notDue "RAY_ITEM_COMPLETE")
        else
          (match s.recordLanes i w (w.left i) with
           | some s => .next (s.recordsEnd item)
           | none => .refused (.notDue "RAY_ITEM_COMPLETE"))
      | .abort =>
        if s.rayBlocked i w then .refused (.notDue "RAY_ITEM_COMPLETE")
        else
          let hit := ls.filter fun l => (s.rayOf i l).isSome
          .next ((hit.foldl (fun s l => s.abortLane i l) s).closeItem i (tokenWord .done hit.length))

/-- Ends a ray item CANCELLED: it writes no register, and the slots it bound are freed (R348, R356). -/
def State.rayCancel (s : State) (i : Item) : State :=
  let s := s.modGroup i.party.team i.party.gid fun g =>
    { g with rays := Vector.ofFn fun (l : Fin 32) =>
        match g.rays[l.val] with | some r => if r.owner = i.id then none else some r | none => none }
  s.closeItem i (tokenWord .cancelled 0)

end Sys2Proof.Machine
end

