-- ==== Sys2Proof/Machine/WorkGraph.lean ====
section
/-!
DEFINITION. Work graphs (R233 to R244): descriptors and their checks, the pool, WGALLOC and WGCOMMIT, batches and consumer
grids; and DLAUNCH (R245).
-/
namespace Sys2Proof.Machine

/-! ## The pool (R236) -/

def SlotState.node : SlotState → Nat
  | .allocated n => n
  | .committed n _ => n
  | .held n _ => n

def SlotState.isAllocated : SlotState → Nat → Bool
  | .allocated m, n => m == n
  | _, _ => false

def Graph.node? (x : Graph) (n : Nat) : Option Node := x.nodes[n]?

def Graph.floor (x : Graph) (n : Nat) : Nat := match x.node? n with | some d => d.floor | none => 0

/-- USED(n). -/
def Graph.used (x : Graph) (n : Nat) : Nat := (x.slots.filter fun e => e.2.node == n).length

/-- The sum of the floors. -/
def Graph.floors (x : Graph) : Nat := (x.nodes.map Node.floor).sum

/-- The slots of node `n` beyond its floor when it has `k` more. -/
def Graph.beyond (x : Graph) (n k : Nat) : Nat := x.used n + k - x.floor n

/-- FREE, the shared slots. -/
def Graph.free (x : Graph) : Nat :=
  x.nslots - x.floors - ((List.range x.nodes.length).map fun n => x.beyond n 0).sum

/-- Whether a request for `k` slots in node `n` can be met. -/
def Graph.canMeet (x : Graph) (n k : Nat) : Bool := decide (x.beyond n k - x.beyond n 0 ≤ x.free)

/-- The slots in the free state. -/
def Graph.freeSlots (x : Graph) : List Nat := (List.range x.nslots).filter fun i => !x.slots.any fun e => e.1 == i

def Graph.slotAddr (x : Graph) (i : Nat) : Word := BitVec.ofNat 64 (x.pool + i * x.slotSize)

/-- One lane takes a free slot; which is not defined (R236, DESIGN CHOICE, log 11). Answers the slot and what it releases (R237). -/
def Graph.take (x : Graph) (tick n lane : Nat) : Option (Nat × Graph) :=
  match x.freeSlots with
  | [] => none
  | a :: as =>
    let i := (a :: as).getD (Config.poolSlot tick lane % (a :: as).length) a
    some (i, { x with slots := x.slots ++ [(i, .allocated n)] })

/-- What a grant gives: each lane's slot address, and what the slots release. -/
structure Grant where
  graph : Graph
  addrs : List (Nat × Word)
  clk   : Clock

/-- Lanes of a request take slots in ascending order (R238). -/
def Graph.grant (x : Graph) (tick n : Nat) (lanes : List Nat) : Grant :=
  lanes.foldl (fun r l =>
    match r.graph.take tick n l with
    | some (i, x) => ⟨x, r.addrs ++ [(l, x.slotAddr i)], r.clk.join (assocGet [] x.freed i)⟩
    | none => r) ⟨x, [], []⟩

/-- The largest count up to `k` that can be met now (R238). -/
def Graph.mostMet (x : Graph) (n : Nat) : Nat → Nat
  | 0 => 0
  | k + 1 => if x.canMeet n (k + 1) then k + 1 else x.mostMet n k

def State.graph? (s : State) (uid : Nat) : Option Graph := s.graphs.find? fun x => x.uid == uid

def State.setGraph (s : State) (x : Graph) : State :=
  { s with graphs := s.graphs.map fun y => if y.uid = x.uid then x else y }

/-- The graph that a handle names in a context (R233). -/
def State.graphOf (s : State) (ctx handle : Nat) : Option Graph :=
  s.graphs.find? fun x => x.ctx == ctx && x.handle == handle

/-! ## WGALLOC (R238) -/

/-- The graph and node checks of R238, shared with WGCOMMIT. -/
def View.graphChecks (v : View) (st : BitVec 10) (eff : Mask) (handle : Word) (node : Nat) (k : Graph → Node → Out) : Out :=
  match v.s.graphOf v.t.ctx handle.toNat with
  | none => v.trap st 0x11 (hinfoLanes eff)
  | some x =>
    match x.node? node with
    | none => v.trap st 0x15 (hinfoLanes eff)
    | some d => if d.entry then v.trap st 0x15 (hinfoLanes eff) else k x d

/-- The vector write of a grant. -/
def Grant.write (r : Grant) (d : Nat) : Nat × Mask × LaneVec :=
  (d, laneMask (r.addrs.map Prod.fst), Vector.ofFn fun (l : Fin 32) =>
    match r.addrs.find? fun a => a.1 == l.val with | some a => a.2 | none => 0)

/-- Grants slots to the lanes and completes: V[D], the acquire of what the slots release, and the rest of the effect. -/
def View.granted (v : View) (st : BitVec 10) (x : Graph) (n d : Nat) (lanes : List Nat) (mw : List (Nat × Mask)) : Out :=
  let r := x.grant v.s.tick n lanes
  let s := (v.s.setGraph r.graph).acquireClk v.u v.g.gid r.clk
  (v.onState s).finish st { vw := if lanes.isEmpty then [] else [r.write d], mw := mw }

/-- WGALLOC, blocking: all its slots at once, or a sleep in the graph's order. -/
def execWgalloc (d : BitVec 7) (sa : BitVec 6) (node : BitVec 6) (s : State) : Out :=
  withIssuer s 2 fun v =>
    let eff := v.eff false
    v.engineIssue eff [opWr d.toNat, { opS sa.toNat with rd := eff != 0#32 }] fun v st =>
      if eff == 0#32 then v.finish st {}
      else
        v.graphChecks st eff (v.rdS sa.toNat) node.toNat fun x nd =>
          let k := (lanesOf eff).length
          if nd.floor + x.nslots - x.floors < k then v.trap st 0x15 (hinfoLanes eff)
          else
            let v := v.withGroup (v.g.drainFlow v.fl)
            if x.canMeet node.toNat k then v.granted st x node.toNat d.toNat (lanesOf eff) []
            else
              (v.onState { v.s with nextId := v.s.nextId + 1 }).sleep st (.wgalloc x.uid node.toNat d.toNat eff v.s.nextId)

/-- WGALLOC.try: as many slots as can be met now, for the lowest lanes; MF takes the others. -/
def execWgallocTry (d : BitVec 7) (sa : BitVec 6) (mf : BitVec 4) (node : BitVec 6) (s : State) : Out :=
  withIssuer s 2 fun v =>
    let eff := v.eff false
    let ops := [opWr d.toNat, { opS sa.toNat with rd := eff != 0#32 }] ++ (if mf = 0 then [] else [opMw mf.toNat])
    v.engineIssue eff ops fun v st =>
      if eff == 0#32 then v.finish st {}
      else
        v.graphChecks st eff (v.rdS sa.toNat) node.toNat fun x _ =>
          let v := v.withGroup (v.g.drainFlow v.fl)
          let lanes := lanesOf eff
          let got := lanes.take (x.mostMet node.toNat lanes.length)
          v.granted st x node.toNat d.toNat got (if mf = 0 then [] else [(mf.toNat, eff &&& ~~~laneMask got)])

/-- The sleepers of WGALLOC: team, group, flow, graph, node, lanes, order. -/
def State.allocSleepers (s : State) : List (Issuer × Nat × Nat × Mask × Nat) :=
  s.teams.flatMap fun t => t.groups.flatMap fun g => (List.range 5).filterMap fun k =>
    match g.sleepOf k with
    | .wgalloc x n _ lanes order => some (⟨t.uid, g.gid, k⟩, x, n, lanes, order)
    | _ => none

/-- Whether the request of a sleeper can be met. -/
def State.sleeperMet (s : State) (e : Issuer × Nat × Nat × Mask × Nat) : Bool :=
  match s.graph? e.2.1 with
  | some x => x.canMeet e.2.2.1 (lanesOf e.2.2.2.1).length
  | none => false

/-- The sleeper to be granted next: of those that can be met, the one that began to sleep first (R238). -/
def State.nextGrant (s : State) : Option Issuer :=
  ((s.allocSleepers.filter s.sleeperMet).foldl (fun (b : Option (Issuer × Nat)) e =>
    match b with
    | some y => if e.2.2.2.2 < y.2 then some (e.1, e.2.2.2.2) else b
    | none => some (e.1, e.2.2.2.2)) none).map Prod.fst

/-- WGALLOC_GRANT (R238). -/
def execWgallocGrant (team gid fl : Nat) (s : State) : Out :=
  match s.viewOf team gid fl 2, s.sleepAt team gid fl with
  | some v, .wgalloc uid n d lanes _ =>
    if s.nextGrant = some ⟨team, gid, fl⟩ then
      match s.graph? uid with
      | some x => v.awaken.granted 0 x n d (lanesOf lanes) []
      | none => .refused (.notDue "WGALLOC_GRANT")
    else .refused (.notDue "WGALLOC_GRANT")
  | _, _ => .refused (.notDue "WGALLOC_GRANT")

/-! ## Batches (R242, R243) -/

/-- What a committed slot's record releases. -/
def Graph.recordClk (x : Graph) (i : Nat) : Clock :=
  match x.slots.find? fun e => e.1 == i with
  | some (_, .committed _ c) => c
  | _ => []

/-- The node's template with LANES the record count, and one team. -/
def consumerPacket (p : List Word) (n : Nat) : List Word :=
  p.set 0 (BitVec.ofNat 64 (n * 2 ^ 48 + 2 ^ 32 + 2 ^ 16 + 1))

/-- Node `n` launches a consumer grid from the first `k` records of its queue (R243); CAPTURE of its template records it
(R215). In a halted context it completes without a team and its slots return (R366). -/
def State.launchBatch (s : State) (x : Graph) (n k : Nat) : State :=
  match x.node? n, s.context? x.ctx with
  | some d, some c =>
    let recs := d.queue.take k
    let clk := recs.foldl (fun a i => Clock.join a (x.recordClk i)) []
    let uid := s.nextId
    let seq := assocGet 0 s.seqs c.slice
    let g : Grid :=
      { uid := uid, seq := seq, ctx := c.id, slice := c.slice, queue := none, packet := consumerPacket d.packet recs.length,
        addr := 2 ^ 53, image := [], dims := (1, 1, 1), state := if c.halted then .complete else .eligible, placed := 0, done := 0,
        batch := some (x.uid, n, recs), clk := clk, fin := clk, capture := none, wait := none }
    let held (e : Nat × SlotState) : Nat × SlotState := if recs.contains e.1 then (e.1, .held n uid) else e
    let x' : Graph := { x with slots := x.slots.map held, nodes := x.nodes.set n { d with queue := d.queue.drop k } }
    let s := { (s.setGraph x') with nextId := uid + 1, seqs := assocSet s.seqs c.slice (seq + 1), grids := s.grids ++ [g] }
    if c.halted then s.returnSlots g else if pktCapture g.packet then s.capture c g else s
  | _, _ => s

/-- Full batches launch while the queue holds one (R242). -/
def State.launchFull (s : State) (uid n : Nat) : Nat → State
  | 0 => s
  | fuel + 1 =>
    match s.graph? uid with
    | none => s
    | some x =>
      match x.node? n with
      | none => s
      | some d => if d.batch ≤ d.queue.length then (s.launchBatch x n d.batch).launchFull uid n fuel else s

/-- Whether a predecessor is live (R242): an entry node while a launch of its template is not complete, a record node
while it holds queued records or a consumer grid of it is not complete. -/
def State.nodeLive (s : State) (x : Graph) (m : Nat) : Bool :=
  match x.node? m with
  | none => false
  | some d =>
    if d.entry then s.grids.any fun g => g.ctx == x.ctx && g.addr == d.template && g.batch.isNone && g.state != .complete
    else
      !d.queue.isEmpty || s.grids.any fun g =>
        g.state != .complete && (match g.batch with | some b => b.1 == x.uid && b.2.1 == m | none => false)

/-- The predecessors of a node. -/
def Graph.preds (x : Graph) (n : Nat) : List Nat :=
  (List.range x.nodes.length).filter fun m => match x.node? m with | some d => bitOf d.succ n | none => false

/-- Whether a node drains (R242). -/
def State.drainDue (s : State) (x : Graph) (n : Nat) : Bool :=
  match x.node? n with
  | none => false
  | some d =>
    !d.queue.isEmpty && !x.slots.any (fun e => e.2.isAllocated n) && (x.preds n).all fun m => !s.nodeLive x m

/-- BATCH_TIMEOUT: the oldest record has waited for TIMEOUT; when that is, is not modelled (R8, R242). -/
def execBatchTimeout (graph node : Nat) (s : State) : Out :=
  match s.graph? graph with
  | none => .refused (.notDue "BATCH_TIMEOUT")
  | some x =>
    match x.node? node with
    | none => .refused (.notDue "BATCH_TIMEOUT")
    | some d =>
      if d.timeout ≠ 0 ∧ !d.queue.isEmpty then .next (s.launchBatch x node (min d.queue.length d.batch))
      else .refused (.notDue "BATCH_TIMEOUT")

/-- BATCH_DRAIN. -/
def execBatchDrain (graph node : Nat) (s : State) : Out :=
  match s.graph? graph with
  | none => .refused (.notDue "BATCH_DRAIN")
  | some x =>
    match x.node? node with
    | none => .refused (.notDue "BATCH_DRAIN")
    | some d =>
      if s.drainDue x node then .next (s.launchBatch x node (min d.queue.length d.batch))
      else .refused (.notDue "BATCH_DRAIN")

/-! ## WGCOMMIT (R241) -/

/-- The slot whose first byte an address is. -/
def Graph.slotAt (x : Graph) (a : Word) : Option Nat :=
  let o := a.toNat - x.pool
  if x.pool ≤ a.toNat ∧ o % x.slotSize = 0 ∧ o / x.slotSize < x.nslots then some (o / x.slotSize) else none

/-- Whether a lane's address may be committed to a node. -/
def Graph.commits (x : Graph) (n : Nat) (a : Word) : Bool :=
  match x.slotAt a with
  | some i => x.slots.any fun e => e.1 == i && e.2.isAllocated n
  | none => false

/-- The records of lanes join the node's queue, carrying the release. -/
def Graph.commit (x : Graph) (n : Nat) (slots : List Nat) (clk : Clock) : Graph :=
  let put (e : Nat × SlotState) : Nat × SlotState := if slots.contains e.1 then (e.1, .committed n clk) else e
  match x.node? n with
  | some d => { x with slots := x.slots.map put, nodes := x.nodes.set n { d with queue := d.queue ++ slots } }
  | none => x

def execWgcommit (d : BitVec 7) (sa : BitVec 6) (node : BitVec 6) (s : State) : Out :=
  withIssuer s 2 fun v =>
    let eff := v.eff false
    v.engineIssue eff [opRd d.toNat, { opS sa.toNat with rd := eff != 0#32 }] fun v st =>
      if eff == 0#32 then v.finish st {}
      else
        v.graphChecks st eff (v.rdS sa.toNat) node.toNat fun x _ =>
          let a := v.rdV d.toNat
          let lanes := lanesOf eff
          let twice (l : Nat) : Bool := lanes.any fun k => k != l && lane a k == lane a l
          let bad := lanes.filter fun l => !x.commits node.toNat (lane a l) || twice l
          if !bad.isEmpty then v.trap st 0x15 (hinfoLanes (laneMask bad))
          else if v.redsOut then v.wait
          else
            let r := v.release .slice
            let slots := lanes.filterMap fun l => x.slotAt (lane a l)
            let s := (r.1.s.setGraph (x.commit node.toNat slots r.2.clk)).launchFull x.uid node.toNat 32
            (r.1.onState s).finish st {}

/-! ## Loading and unloading (R233 to R235, R244) -/

/-- A node's fields (R233); none where a zero field is set. -/
def readGraphNode (w : List Word) : Option Node :=
  let x := pktWord w 2
  if bits x 63 48 = 0 ∧ bits x 8 6 = 0 ∧ (List.range 5).all (fun i => pktWord w (3 + i) == 0) then
    some
      { template := (pktWord w 0).toNat, succ := pktWord w 1, floor := bits x 47 32, timeout := bits x 31 16,
        entry := bitOf x 15, recBytes := 16 * bits x 14 9, batch := bits x 5 0 + 1, packet := [], queue := [] }
  else none

/-- The nodes that edges reach from a set, in `n` steps. -/
def reachFrom (ns : List Node) : Nat → List Nat → List Nat
  | 0, fs => fs
  | n + 1, fs =>
    reachFrom ns n ((List.range ns.length).filter fun m => fs.any fun f =>
      match ns[f]? with | some d => bitOf d.succ m | none => false)

/-- Whether the edges form no cycle: no path is as long as the count of nodes. -/
def acyclic (ns : List Node) : Bool := (reachFrom ns ns.length (List.range ns.length)).isEmpty

/-- The checks of R234 and R235 on one node, whose template has been read. -/
def nodeOk (nslots slotSize : Nat) (ns : List Node) (n : Nat) (d : Node) : Bool :=
  let floors := (ns.map Node.floor).sum
  let preds := (List.range ns.length).filter fun m => match ns[m]? with | some e => bitOf e.succ n | none => false
  let edges := decide (d.succ.toNat < 2 ^ ns.length)
  if d.entry then
    edges && d.floor == 0 && d.timeout == 0 && d.recBytes == 0 && d.batch == 1 && preds.isEmpty
      && (if pktIndirect d.packet then packetOk d.packet (0, 0, 0) else packetOk d.packet (pktDims d.packet))
  else
    edges && decide (16 ≤ d.recBytes) && decide (d.recBytes ≤ 512) && decide (d.recBytes ≤ slotSize)
      && ((preds.all fun m => match ns[m]? with | some e => e.entry | none => true) || decide (d.batch ≤ d.floor))
      && decide (d.batch + floors ≤ nslots + d.floor)
      && packetOk d.packet (1, 1, 1) && decide (d.batch ≤ 32 * (pktGroupRoles d.packet).length)
      && !pktIndirect d.packet && !bitOf (pktWord d.packet 10) 1

/-- A page of the descriptor and of the pool. -/
def scratchRd (e : TlbEntry) : Bool := e.kind == .scratch && e.rd
def scratchRw (e : TlbEntry) : Bool := e.kind == .scratch && e.rd && e.w

/-- The nodes of a descriptor with their templates' packets. -/
def State.readNodes (s : State) (c : Context) (ws : List Word) : Nat → Option (List Node)
  | 0 => some []
  | n + 1 =>
    match readGraphNode (ws.take 8) with
    | none => none
    | some d =>
      match s.packetAt c d.template, State.readNodes s c (ws.drop 8) n with
      | some p, some ds => some ({ d with packet := p } :: ds)
      | _, _ => none

/-- The graph that a descriptor describes, where it passes every check of R233 to R235. -/
def State.readGraph (s : State) (c : Context) (addr : Nat) : Option Graph :=
  if addr % 64 ≠ 0 then none
  else
    match s.ctlBytes c scratchRd addr 64 with
    | none => none
    | some bs =>
      let h : List Word := (elemsOf 8 8 bs).map fun x => BitVec.ofNat 64 x
      let pool := (pktWord h 0).toNat
      let nslots := bits (pktWord h 1) 31 16
      let size := bits (pktWord h 1) 15 0
      let nn := bits (pktWord h 2) 6 0
      let zero := bits (pktWord h 1) 63 32 == 0 && bits (pktWord h 2) 63 7 == 0
        && (List.range 5).all fun i => pktWord h (3 + i) == 0
      if !zero || nslots = 0 || size % 16 ≠ 0 || size < 16 || 512 < size || nn = 0 || 64 < nn || pool % 64 ≠ 0 then none
      else
        match s.ctlBytes c scratchRd (addr + 64) (64 * nn), s.ctlLocs c scratchRw pool (nslots * size) with
        | some nb, some _ =>
          match s.readNodes c ((elemsOf 8 (8 * nn) nb).map fun x => BitVec.ofNat 64 x) nn with
          | none => none
          | some ns =>
            if acyclic ns && decide ((ns.map Node.floor).sum ≤ nslots) && ns.zipIdx.all fun d => nodeOk nslots size ns d.2 d.1 then
              some { uid := s.nextId, ctx := c.id, handle := addr, pool := pool, nslots := nslots, slotSize := size,
                     nodes := ns, slots := [], freed := [] }
            else none
        | _, _ => none

/-- GRAPH_LOAD: a graph that passes the checks gets its handle; a refused one has none (R235). A handle that is loaded is
unloaded before it is loaded again. -/
def execGraphLoad (ctx addr : Nat) (s : State) : Out :=
  match s.context? ctx with
  | none => .refused (.notDue "GRAPH_LOAD")
  | some c =>
    if (s.graphOf ctx addr).isSome then .refused (.notDue "GRAPH_LOAD")
    else
      match s.readGraph c addr with
      | some x => .next { s with nextId := s.nextId + 1, graphs := s.graphs ++ [x] }
      | none => .next s

/-- Queued records and consumer grids not yet started are discarded and every slot returns (R244). -/
def State.clearGraph (s : State) (uid : Nat) : State :=
  let drop (g : Grid) : Grid :=
    match g.batch with
    | some b => if b.1 = uid then { g with state := if g.placed = 0 then .complete else g.state, batch := some (b.1, b.2.1, []) } else g
    | none => g
  { s with
    grids := s.grids.map drop
    graphs := s.graphs.map fun x =>
      if x.uid = uid then { x with slots := [], nodes := x.nodes.map fun d => { d with queue := [] } } else x }

/-! ## DLAUNCH (R245) -/

/-- What DLAUNCH finds for one packet address. -/
inductive PacketFate where
  | ok (locs : List (Nat × Nat))
  | prot
  | kind
  | absent (va : Nat) (malformed : Bool)
  deriving DecidableEq, Repr

/-- Two pages of one packet, the worse standing: absence, PROT, KIND. -/
def PacketFate.and : PacketFate → PacketFate → PacketFate
  | .absent a m, _ => .absent a m
  | _, .absent a m => .absent a m
  | .prot, _ => .prot
  | _, .prot => .prot
  | .kind, _ => .kind
  | _, .kind => .kind
  | .ok a, .ok b => .ok (a ++ b)

/-- The pages of one packet, in order, through the core's translation buffers. -/
def State.packetParts (s : State) (core ctx : Nat) : List (Nat × Nat) → PacketFate × State
  | [] => (.ok [], s)
  | p :: ps =>
    let x := s.translate core ctx p.1
    let f : PacketFate := match x.1 with
      | .absent mal => .absent p.1 mal
      | .outside => .prot
      | .ok e =>
        if !e.rd then .prot
        else if e.kind != .scratch && e.kind != .main then .kind
        else .ok [(e.pa p.1, p.2)]
    let q := State.packetParts x.2 core ctx ps
    (f.and q.1, q.2)

/-- The packets' fates, with their lanes. -/
def State.packetFates (s : State) (core ctx : Nat) : List (Nat × Word) → List (Nat × Word × PacketFate) × State
  | [] => ([], s)
  | a :: as =>
    let x := if bits a.2 63 53 ≠ 0 then (PacketFate.prot, s) else s.packetParts core ctx (pageParts a.2.toNat 768)
    let q := State.packetFates x.2 core ctx as
    ((a.1, a.2, x.1) :: q.1, q.2)

/-- The packets that have been read: address and dwords. -/
def State.packetsOf (s : State) (fs : List (Nat × Word × PacketFate)) : List (Nat × Word × List Word) :=
  fs.filterMap fun f =>
    match f.2.2 with
    | .ok ls => some (f.1, f.2.1, (elemsOf 8 96 (ls.flatMap fun l => Memory.bytes s.mem l.1 l.2)).map fun x => BitVec.ofNat 64 x)
    | _ => none

/-- Whether each queue named has room for all of its packets (R202, R245). -/
def State.roomFor (s : State) (slice : Nat) (ps : List (Nat × Word × List Word)) : Bool :=
  ps.all fun p =>
    let q := pktQueue p.2.2
    decide (s.queueLen slice q + (ps.filter fun x => pktQueue x.2.2 == q).length ≤ 1024)

/-- Enqueues packets in ascending lane order. -/
def State.enqueueAll (s : State) (c : Context) (ps : List (Nat × Word × List Word)) (clk : Clock) : State :=
  ps.foldl (fun s p => s.enqueue c p.2.1.toNat p.2.2 [] clk) s

/-- The lanes of packets that satisfy a test. -/
def lanesOfFates (fs : List (Nat × Word × PacketFate)) (f : Word → PacketFate → Bool) : List Nat :=
  (fs.filter fun x => f x.2.1 x.2.2).map Prod.fst

def PacketFate.isAbsent : PacketFate → Bool
  | .absent _ _ => true
  | _ => false

def PacketFate.isBad (s : State) : PacketFate → Bool
  | .ok ls => ls.any fun l => s.badMem l.1 l.2
  | _ => false

/-- HINFO of failing lanes; lane 32 stands for the scalar form, which names none. -/
def packetLanes (ls : List Nat) : Word := hinfoLanes (laneMask ls)

/-- The copies and the enqueue, once there is room: a release at SLICE scope that the children's starts acquire. -/
def View.enqueuePackets (v : View) (st : BitVec 10) (ps : List (Nat × Word × List Word)) : Out :=
  let r := v.release .slice
  match r.1.s.context? v.t.ctx with
  | some c => (r.1.onState (r.1.s.enqueueAll c ps r.2.clk)).finish st {}
  | none => r.1.finish st {}

/-- The checks of R245 in their order, then the wait for room. -/
def View.dlaunch (v : View) (st : BitVec 10) (as : List (Nat × Word)) : Out :=
  let mis := (as.filter fun a => bits a.2 5 0 != 0).map Prod.fst
  let high := as.any fun a => bits a.2 63 53 != 0
  if !mis.isEmpty then v.trap st 0x13 (packetLanes mis)
  else
    let r := v.s.packetFates v.core v.t.ctx as
    let v := v.onState r.2
    let prot := lanesOfFates r.1 fun _ f => f == .prot
    match if high then none else r.1.find? fun f => f.2.2.isAbsent with
    | some (_, _, .absent va mal) => v.xlate st va mal (laneMask (lanesOfFates r.1 fun _ f => f.isAbsent))
    | _ =>
      let kind := lanesOfFates r.1 fun _ f => f == .kind
      let ecc := lanesOfFates r.1 fun _ f => f.isBad v.s
      let ps := v.s.packetsOf r.1
      let unbound := (ps.filter fun p => v.s.queueCtx v.t.slice (pktQueue p.2.2) != some v.t.ctx).map Prod.fst
      if !prot.isEmpty then v.trap st 0x11 (packetLanes prot)
      else if !kind.isEmpty then v.trap st 0x12 (packetLanes kind)
      else if !ecc.isEmpty then v.trap st 0x60 (packetLanes ecc ||| hinfoMem 0)
      else if !unbound.isEmpty then v.trap st 0x11 (packetLanes unbound)
      else if v.redsOut then v.wait
      else if v.s.roomFor v.t.slice ps then v.enqueuePackets st ps
      else v.sleep st (.room as)

def execDlaunch (d : BitVec 7) (s : State) : Out :=
  withIssuer s 2 fun v =>
    let eff := v.eff false
    v.engineIssue eff [opRd d.toNat] fun v st =>
      if eff == 0#32 then v.finish st {}
      else v.dlaunch st ((lanesOf eff).map fun l => (l, lane (v.rdV d.toNat) l))

def execDlaunchS (sa : BitVec 6) (s : State) : Out :=
  withIssuer s 2 fun v =>
    v.engineIssue 0 [opS sa.toNat] fun v st => v.dlaunch st [(32, v.rdS sa.toNat)]

/-- DLAUNCH_ENQUEUE: there is room, and the packets are copied and enqueued (R245). A packet whose queue is no longer the
context's by then is PROT. -/
def execDlaunchEnqueue (team gid fl : Nat) (s : State) : Out :=
  match s.viewOf team gid fl 2, s.sleepAt team gid fl with
  | some v, .room as =>
    let r := s.packetFates v.core v.t.ctx as
    let ps := r.2.packetsOf r.1
    let unbound := (ps.filter fun p => s.queueCtx v.t.slice (pktQueue p.2.2) != some v.t.ctx).map Prod.fst
    if ps.length ≠ as.length || v.redsOut || !r.2.roomFor v.t.slice ps then .refused (.notDue "DLAUNCH_ENQUEUE")
    else
      let v := (v.onState r.2).awaken
      if !unbound.isEmpty then v.trap 0 0x11 (packetLanes unbound) else v.enqueuePackets 0 ps
  | _, _ => .refused (.notDue "DLAUNCH_ENQUEUE")

end Sys2Proof.Machine
end

