-- ==== Sys2Proof/Machine/Preempt.lean ====
section
/-!
DEFINITION. Pre-emption and restore (R223 to R227), the context's default handler (R377), context kill, engine reset and the
removal of a killed group (R199, R228), and the halt of a context (R366).
-/
namespace Sys2Proof.Machine

/-! ## PREEMPT (R223) -/

/-- The handler a group runs is that of a pre-emption. -/
def Group.inPreempt (g : Group) : Bool := match g.handler with | some h => h.cause == 0x50 | none => false

/-- The address that a pre-emption gives a group of a rank, or under `32` its team (R225). -/
def areaOf (areas : List (Nat × Nat)) (rank n : Nat) : Word := BitVec.ofNat 64 (assocGet 0 areas (64 * rank + n))

/-- A pre-emption strikes a group: it is held until the group can take it (R217). A group that is still being restored
keeps the areas it was given. -/
def Group.strike (g : Group) (areas : List (Nat × Nat)) (rank : Nat) : Group :=
  if g.retired || g.saved || (g.live == 0#32 && g.handler.isNone) then g
  else { g with preempt := true, pendRest := 0, saveArea := if g.inPreempt then g.saveArea else areaOf areas rank g.gid }

/-- A pre-emption strikes a team of a gang. -/
def Team.strike (t : Team) (areas : List (Nat × Nat)) : Team :=
  let rank := t.uid - t.gang
  { t with
    groups := t.groups.map fun g => g.strike areas rank
    teamArea := if t.groups.any Group.inPreempt then t.teamArea else areaOf areas rank 32 }

/-- The bytes of a group's save area and of a team's (R225). -/
def groupAreaBytes : Nat := 49152
def Team.areaBytes (t : Team) : Nat := (t.shBytes + 8191) / 8192 * 8192

/-- The save areas that a team is given, each with its size (R225). -/
def Team.areasGiven (t : Team) (areas : List (Nat × Nat)) : List (Nat × Nat) :=
  let rank := t.uid - t.gang
  ((areaOf areas rank 32).toNat, t.areaBytes) ::
    (t.groups.filter fun g => !g.retired && !g.inPreempt).map fun g => ((areaOf areas rank g.gid).toNat, groupAreaBytes)

/-- Whether bytes lie in SCRATCH pages of a context with RD and W, 64-byte aligned (R225). -/
def State.areaFits (s : State) (core ctx va n : Nat) : Bool :=
  va % 64 == 0 && decide (va + n ≤ 2 ^ 53) && (pageParts va n).all fun p =>
    match s.peek core ctx p.1 with | .ok e => e.kind == .scratch && e.rd && e.w | _ => false

/-- Whether no two runs of bytes meet. -/
def runsApart : List (Nat × Nat) → Bool
  | [] => true
  | r :: rs => rs.all (fun q => r.2 == 0 || q.2 == 0 || !rangesMeet r.1 r.2 q.1 q.2) && runsApart rs

/-- Whether the save areas that a pre-emption gives are those of R225: in pages as it says, each apart from the others. -/
def State.areasOk (s : State) (t : Team) (areas : List (Nat × Nat)) : Bool :=
  (s.gangOf t).all (fun x => (x.areasGiven areas).all fun r => s.areaFits (x.core.getD x.lastCore) x.ctx r.1 r.2)
    && runsApart ((s.gangOf t).flatMap fun x => x.areasGiven areas)

/-- A pre-emption strikes a whole team, or every team of its gang (R223). -/
def State.strikeGang (s : State) (t : Team) (areas : List (Nat × Nat)) : State :=
  { s with teams := s.teams.map fun x => if x.gang = t.gang then x.strike areas else x }

/-- PREEMPT: the control cores pre-empt a resident team under their own policy, which spares no team (R208, R223). -/
def execPreempt (team : Nat) (areas : List (Nat × Nat)) (s : State) : Out :=
  match s.team? team with
  | none => .refused (.notDue "PREEMPT")
  | some t =>
    if (s.gangOf t).all (fun x => x.core.isSome) && s.areasOk t areas then .next (s.strikeGang t areas)
    else .refused (.notDue "PREEMPT")

/-- Whether the next teams of a grid could be placed somewhere now. -/
def State.placesNow (s : State) (g : Grid) : Bool :=
  if s.det.contains g.slice then (s.detCores g.slice (pktGang g.packet)).isSome
  else
    let free (cl : Nat) : Nat := ((List.range 4).filter fun i =>
      s.fits (4 * cl + i) ((pktGroupRoles g.packet).map (pktBudget g.packet)) (pktShared g.packet)).length
    (s.clustersOf g.slice).any fun cl => decide (pktGang g.packet ≤ free cl)

/-- Whether the distributor may pre-empt a team for a grid (R208): the grid is the next of its slice to be placed, it fits
nowhere, and its PRIO is above that of the team's grid. So the lowest-numbered unfinished team of a grid is spared for work
of the same or lower priority (R212). -/
def State.ownPreemptDue (s : State) (g : Grid) (t : Team) : Bool :=
  g.state == .eligible && decide (g.placed < g.teamCount) && s.startsTeams g.ctx && !s.awaitsRestore g.uid
    && s.grids.all (fun h => !(h.slice == g.slice && h.uid != g.uid && s.wantsPlace h && h.beats g))
    && t.slice == g.slice && (s.gangOf t).all (fun x => x.core.isSome && x.groups.all fun y => !y.preempt && !y.inPreempt)
    && (match s.grid? t.grid with | some h => decide (pktPrio h.packet < pktPrio g.packet) | none => false)
    && !s.placesNow g && s.areasOk t (Config.saveAreas s.tick)

/-- The distributor pre-empts a team to place a launch of higher PRIO (R208), into save areas that the control cores choose
(DESIGN CHOICE, log 46). -/
def State.ownPreempt (s : State) (team : Nat) : State :=
  match s.team? team with
  | some t => s.strikeGang t (Config.saveAreas s.tick)
  | none => s

/-! ## TEAM_RESTORE (R226) -/

/-- A restored group as it starts in its handler: every register dead, record 0 holding every launched lane. STAT, TRAPEN,
KSP, the issue priority and what happens-before knows of it and of its records stay. -/
def Group.restored (g : Group) (place : Nat × Nat) (entry : Word) (mode : BitVec 12) (addr : Word) (dflt : Bool) : Group :=
  let x := Group.atStart g.gid g.role g.budget place.1 place.2 g.launched mode g.trapen g.ksp g.kwin entry
  { x with
    stat := g.stat, mprio := g.mprio, saveArea := g.saveArea, preempt := g.preempt, pendRest := 0, tokClk := g.tokClk,
    clk := g.clk, rels := g.rels, oprClk := g.oprClk
    recs := Vector.ofFn fun (k : Fin 4) => { x.record k.val with ord := (g.record k.val).ord } }.enter addr dflt 0 0x50 1 0

/-- A team restored on a core. -/
def State.restoredTeam (s : State) (t : Team) (core : Nat) : Team :=
  let h := s.handlerOf t
  let p := match s.grid? t.grid with | some g => g.packet | none => []
  let places := placesFor ((s.residents core).map fun r => (r.1, r.2.1)) t.groups.length
  let put (x : List Group × List (Nat × Nat)) (g : Group) : List Group × List (Nat × Nat) :=
    if g.retired then (x.1 ++ [g], x.2)
    else (x.1 ++ [g.restored (x.2.headD (0, 0)) (pktWord p 4) ((pktWord p 7).extractLsb' 0 12) h.1 h.2], x.2.drop 1)
  { t with core := some core, lastCore := core, shared := [], groups := (t.groups.foldl put ([], places)).1 }

/-- Whether a team has left its core with every group that has not retired saved. -/
def Team.isSaved (t : Team) : Bool := t.core.isNone && t.groups.all fun g => g.retired || g.saved

/-- The core of a cluster with the number a team's core had (R226). -/
def Team.coreIn (t : Team) (cluster : Nat) : Nat := 4 * cluster + t.lastCore % 4

/-- Whether a saved gang's turn has come: it awaits its restore at its grid's PRIO (R205, R212). -/
def State.restoreTurn (s : State) (t : Team) : Bool :=
  match s.grid? t.grid with
  | some g => s.grids.all fun h => !(h.slice == g.slice && h.uid != g.uid && s.wantsPlace h && h.beats g)
  | none => true

/-- Whether a saved gang may be placed again on a cluster (R44, R212, R214, R226). -/
def State.restoreDue (s : State) (t : Team) (cluster : Nat) : Bool :=
  (s.gangOf t).all (fun x => x.isSaved) && s.restoreTurn t && (s.clustersOf t.slice).contains cluster
    && (if s.det.contains t.slice then s.clusterFree cluster
        else (s.gangOf t).all fun x =>
          s.fits (x.coreIn cluster) ((x.groups.filter fun g => !g.retired).map Group.budget) x.shBytes)

/-- TEAM_RESTORE: a saved gang is placed as a whole and enters its handler to be restored. -/
def execTeamRestore (team cluster : Nat) (s : State) : Out :=
  match s.team? team with
  | none => .refused (.notDue "TEAM_RESTORE")
  | some t =>
    if s.restoreDue t cluster then
      .next { s with teams := s.teams.map fun x => if x.gang = t.gang then s.restoredTeam x (x.coreIn cluster) else x }
    else .refused (.notDue "TEAM_RESTORE")

/-! ## The default handler (R377)

It saves and restores as R224 and R227 say. Its PC counts the steps it has done, four bytes each; the layout of its save area
is DESIGN CHOICE, log 46. -/

/-- The group's default handler that runs, if it does. -/
def Group.dflt? (g : Group) : Option Handler := g.handler.filter fun h => h.dflt && h.stop == .running

/-- How many steps a default handler has done. -/
def State.dfltStep (s : State) (t : Team) (h : Handler) : Nat := (h.pc - (s.handlerOf t).1).toNat / 4

/-- The group of a team that copies its shared memory: group 0, or the first that has not retired. -/
def Team.leads (t : Team) (g : Group) : Bool := (t.groups.find? fun x => !x.retired).any fun x => x.gid == g.gid

/-- A group's handler as an agent of memory. -/
def View.agent (v : View) : Agent :=
  let u := groupUid v.u v.g.gid
  { core := v.core, ctx := v.t.ctx, clk := v.clk
    acc := { thread := groupThread u, agent := u, epoch := v.g.clk.get (groupThread u) + 1, rel := v.g.rels, bytes := 0,
             write := false, plain := true } }

/-- What a failed access of the default handler does: a replayable fault waits, any other is a double fault (R220). -/
def View.areaStop (v : View) (f : RunFate) : State :=
  match (match f with
    | .wait va mal => v.xlate 0 va mal v.g.launched
    | .fail c => v.trap 0 c 0
    | .ok _ => v.wait) with
  | .next s => s
  | _ => v.s

/-- Runs of a save area: offset and length. -/
def areaRuns (area : Word) (wr : Bool) (rs : List (Nat × Nat)) : List Run :=
  rs.map fun r => ⟨false, area + BitVec.ofNat 64 r.1, r.2, !wr, wr⟩

/-- Stores of the default handler at an area, offset by bytes, then `k`. -/
def View.areaStore (v : View) (area : Word) (ws : List (Nat × List Byte)) (k : View → State) : State :=
  let x := v.s.runFates v.agent (some v.t) reachScratch (areaRuns area true (ws.map fun w => (w.1, w.2.length)))
  let v := v.onState x.2
  match joinFates x.1 with
  | .ok _ => k (v.onState ((x.1.zip ws).foldl (fun s p => s.runWrite v.agent p.1.locs p.2.2) v.s))
  | f => v.areaStop f

/-- Loads of the default handler from an area, then `k` with the bytes of each. -/
def View.areaLoad (v : View) (area : Word) (rs : List (Nat × Nat)) (k : View → List (List Byte) → State) : State :=
  let x := v.s.runFates v.agent (some v.t) reachScratch (areaRuns area false rs)
  let v := v.onState x.2
  match joinFates x.1 with
  | .ok _ =>
    let v := v.onState (x.1.foldl (fun s f => s.noteRuns v.agent false f.locs) v.s)
    k v (x.1.map fun f => v.s.runBytes v.agent f.locs)
  | f => v.areaStop f

/-- The default handler arrives at HBAR (R222); its return begins the next step. -/
def View.dfltBar (v : View) : State :=
  let r := v.release .gang
  (r.1.withGroup ({ r.1.g with hbarIn := true }.setSleep 4 (.hbar 0))).s

/-- The selectors that the default handler saves and restores, in the order of its restore (R221, R227): service registers,
liveness, and the others. -/
def dfltSelectors (budget : Nat) : List Nat :=
  ((List.range 8).map fun i => 0x0638 + i) ++ [0x0640, 0x0641] ++ ((List.range budget).map fun i => 0x0400 + i)
    ++ [0x0300, 0x0500] ++ ((List.range 4).flatMap fun k => (List.range 5).map fun f => 0x0100 + 16 * k + f) ++ [0x0201]

/-- Where the parts of a save area stand (DESIGN CHOICE, log 46). -/
def areaRays : Nat := 32768
def areaScalars : Nat := areaRays + 6144
def areaMasks : Nat := areaScalars + 512
def areaSels : Nat := areaMasks + 64

/-- The registers and selectors of a group as the default handler stores them (R224 step 6). -/
def View.dfltImage (v : View) : List (Nat × List Byte) :=
  [(0, (List.range v.g.budget).flatMap fun r => (v.rdV r).toList.flatMap fun x => leBytes 8 x.toNat),
   (areaScalars, (List.range 56).flatMap fun r => leBytes 8 (v.rdS r).toNat),
   (areaMasks, (List.range 14).flatMap fun r => leBytes 4 (v.rdM r).toNat),
   (areaSels, (dfltSelectors v.g.budget).flatMap fun n => leBytes 8 (v.hidden n).toNat)]

/-- The ray records of a group as RTSAVE writes them; a team too small to hold them loses its rays (R225). -/
def View.dfltRays (v : View) : List (Nat × List Byte) :=
  if v.t.shBytes < 6144 then []
  else [(areaRays, (List.range 32).flatMap fun l => match v.g.ray l with | some r => r.bytes | none => noRayBytes)]

/-- Whether a register or shared word that a default handler stores has met an uncorrectable error (R375). -/
def View.dfltEcc (v : View) : Bool := !(v.g.eccV.isEmpty && v.g.eccS.isEmpty && v.g.eccM.isEmpty)

/-- One step of the save (R224): XDRAIN and HBAR; the team's allocation by one group, and HBAR; rays, registers and TEXIT.saved. -/
def View.dfltSave (v : View) (k : Nat) : State :=
  match k with
  | 0 =>
    if v.s.undrained v.u v.s.nextId then v.s.suspendRays v.u else (v.drained v.s.nextId).dfltBar
  | 1 =>
    if !v.t.leads v.g then v.dfltBar
    else if v.s.badShared v.u 0 v.t.shBytes then v.areaStop (.fail 0x60)
    else v.areaStore v.t.teamArea [(0, Memory.bytes v.t.shared 0 v.t.shBytes)] View.dfltBar
  | _ =>
    if v.dfltEcc then v.areaStop (.fail 0x60)
    else v.areaStore v.g.saveArea (v.dfltImage ++ v.dfltRays) fun v => v.s.texitSaved v.u v.g.gid

/-- The rays of a group's records. -/
def raysOf (bs : List Byte) (owner : Nat) : Vector (Option Ray) 32 :=
  Vector.ofFn fun (l : Fin 32) => match recordOf ((bs.drop (192 * l.val)).take 192) owner with | .ray r => some r | _ => none

/-- The restore of a group's rays, which wait in line for their slots as an RTLOAD does (R227 step 4, R339). -/
def View.dfltLoadRays (v : View) (bs : List Byte) : State :=
  let rays := raysOf bs v.s.nextId
  let lanes := maskOf fun l => (vget rays l none).isSome
  let need := (lanesOf lanes).length
  let first : Bool := match v.g.sleepOf 4 with
    | .slots o _ _ => (v.s.slotWaiters v.core).all fun x => decide (o ≤ x)
    | _ => (v.s.slotWaiters v.core).isEmpty
  if need = 0 || (first && decide (need ≤ v.s.freeSlots v.core)) then
    let v := v.withGroup ({ v.g with rays := rays }.setSleep 4 .awake)
    (v.onState { v.s with nextId := v.s.nextId + 1 }).dfltBar
  else
    match v.g.sleepOf 4 with
    | .slots .. => v.s
    | _ =>
      let i := v.newItem 0 lanes (.ray .load 0 noOuts 0 false)
      ({ v.s with nextId := v.s.nextId + 1 } : State).modGroup v.u v.g.gid fun g => g.setSleep 4 (.slots i.id i [])

/-- A group's registers, liveness and selectors from the bytes of its save area (R227 step 8). -/
def Group.fromArea (g : Group) (vb sb mb : List Byte) (sels : List (Nat × Word)) : Group :=
  let word (bs : List Byte) (n i : Nat) : Nat := leNat ((bs.drop (n * i)).take n)
  let vecs := elemsOf 8 (32 * g.budget) vb
  let g := (List.range g.budget).foldl (fun g r =>
    let xs := (vecs.drop (32 * r)).take 32
    g.writeV r g.launched (Vector.ofFn fun (l : Fin 32) => BitVec.ofNat 64 (xs.getD l.val 0))) g
  let g := (List.range 55).foldl (fun g r => g.writeS true (r + 1) (BitVec.ofNat 64 (word sb 8 (r + 1)))) g
  let g := (List.range 13).foldl (fun g r => g.writeM true (r + 1) (BitVec.ofNat 32 (word mb 4 (r + 1)))) g
  sels.foldl (fun g x => g.setHidden x.1 x.2) g

/-- The end of a restore: registers, liveness, selectors, then TRET. A pre-emption that struck meanwhile is held (R217). -/
def View.dfltReturn (v : View) (bss : List (List Byte)) : State :=
  let sels := (dfltSelectors v.g.budget).zip ((elemsOf 8 (dfltSelectors v.g.budget).length (bss.getD 3 [])).map fun x => BitVec.ofNat 64 x)
  if sels.all fun x => hswLegal x.1 x.2 then
    v.s.modGroup v.u v.g.gid fun g =>
      let x := g.fromArea (bss.getD 0 []) (bss.getD 1 []) (bss.getD 2 []) sels
      { x with preempt := x.preempt || g.preempt }.tret
  else v.areaStop (.fail 0x01)

/-- One step of the restore (R227): HBAR; the team's allocation by one group, and HBAR; rays, and HBAR; the allocation stands as
it was, and HBAR; the registers, and TRET. -/
def View.dfltRestore (v : View) (k : Nat) : State :=
  match k with
  | 0 => v.dfltBar
  | 1 =>
    if !v.t.leads v.g then v.dfltBar
    else
      v.areaLoad v.t.teamArea [(0, v.t.shBytes)] fun v bss =>
        let p := v.agent
        (v.onState ((List.range ((v.t.shBytes + 63) / 64)).foldl (fun s i =>
          let bs := ((bss.getD 0 []).drop (64 * i)).take 64
          s.runWrite p [(.sh v.u (64 * i), bs.length)] bs) v.s)).dfltBar
  | 2 =>
    if v.t.shBytes < 6144 then v.dfltBar
    else v.areaLoad v.g.saveArea [(areaRays, 6144)] fun v bss => v.dfltLoadRays (bss.getD 0 [])
  | 3 => v.dfltBar
  | _ =>
    v.areaLoad v.g.saveArea
      [(0, 256 * v.g.budget), (areaScalars, 448), (areaMasks, 56), (areaSels, 8 * (dfltSelectors v.g.budget).length)]
      View.dfltReturn

/-- Whether the default handler of a group can go on: it has not gone to sleep, or it waits for ray slots, and a TEXIT waits for
what is still on its way. -/
def State.dfltDue (s : State) (t : Team) (g : Group) : Bool :=
  match g.dflt? with
  | none => false
  | some h =>
    (match h.sleep with | .awake | .slots .. => true | _ => false) &&
      (h.cause == 0x50 || s.reds.all fun r => !(r.party.team == t.uid && r.party.gid == g.gid && r.back.isSome))

/-- BRK and TRAP: the handler's TRAP stops the group; resumed, it executes TRET. -/
def State.dfltDebug (s : State) (t : Team) (g : Group) (h : Handler) : State :=
  if h.pc = (s.handlerOf t).1 then
    (s.modGroup t.uid g.gid fun x => { x with handler := some { h with pc := h.pc + 4, stop := .debug } }).report
      (.debug t.ctx t.uid g.gid h.hpc (s.origin t))
  else s.modGroup t.uid g.gid Group.tret

/-- One act of the default handler of a group (R377). -/
def State.dfltAct (s : State) (team gid : Nat) : State :=
  match s.viewOf team gid 4 0 with
  | some v =>
    match v.g.dflt? with
    | none => s
    | some h =>
      let t := v.t
      if h.cause = 0x50 then
        if h.hinfo.getLsbD 0 then v.dfltRestore (s.dfltStep t h) else v.dfltSave (s.dfltStep t h)
      else if h.cause = 0x51 then s.texitDone team gid
      else if h.cause = 0x40 ∨ h.cause = 0x41 then s.dfltDebug t v.g h
      else ((s.faultReport t gid h.cause h.hpc h.hinfo).haltContext t.ctx).texitDone team gid
  | none => s

/-! ## Cancelling (R199) -/

/-- Ends items of an engine CANCELLED. -/
def State.cancelItem (s : State) (i : Item) : State :=
  match i.work with
  | .copy _ _ _ _ _ items => s.copyCancel i items.length
  | .mma .. => s
  | .arrival .. => s.closeItem i (tokenWord .cancelled 0)
  | .hld .. | .hctl .. => s.htuCancel i
  | .lcu .. => s.lcuCancel i
  | .ray .. => s.rayCancel i

/-- Ends the items that satisfy a test CANCELLED, oldest first; matrix requests go by their cluster's table. -/
def State.cancelIf (s : State) (hit : Item → Bool) : State :=
  let s := (List.range 128).foldl (fun s c => if (s.mmaTable c).any hit then s.mmaCancel c hit else s) s
  (s.items.filter hit).foldl (fun s i => match s.item? i.id with | some j => s.cancelItem j | none => s) s

def Item.isCopy (i : Item) : Bool := match i.work with | .copy .. => true | _ => false
def Item.isMma (i : Item) : Bool := match i.work with | .mma .. => true | _ => false
def Item.isHtu (i : Item) : Bool := match i.work with | .hld .. | .hctl .. => true | _ => false
def Item.isLcu (i : Item) : Bool := match i.work with | .lcu .. => true | _ => false
def Item.isRay (i : Item) : Bool := match i.work with | .ray .. => true | _ => false

/-- The items of an engine (R13). -/
def Item.of (i : Item) : Engine → Bool
  | .copy c => i.isCopy && clusterOf i.core == c
  | .matrix c => i.isMma && clusterOf i.core == c
  | .htu c => i.isHtu && clusterOf i.core == c
  | .lcu c => i.isLcu && i.core == c
  | .rtu c => i.isRay && i.core == c

/-- Frees every ray slot of the groups that satisfy a test (R356). -/
def State.freeRays (s : State) (hit : Team → Bool) : State :=
  { s with teams := s.teams.map fun t =>
      if hit t then { t with groups := t.groups.map fun g => { g with rays := Vector.replicate 32 none } } else t }

/-- ENGINE_RESET: every unfinished item of the engine ends CANCELLED; no trap is raised (R228). An RTU loses its slots
(R356), a matrix engine's arbiter starts at core 3 (R266). -/
def execEngineReset (unit : Engine) (s : State) : Out :=
  let s := s.cancelIf fun i => i.of unit
  match unit with
  | .matrix c => .next (s.setMatrix { s.matrix c with last := 3 })
  | .rtu c => .next (s.freeRays fun t => t.core == some c)
  | _ => .next s

/-! ## CONTEXT_KILL, CONTEXT_HALT, GROUP_REMOVE (R228, R366) -/

/-- A resident group that has lanes, or runs a handler, enters its handler under KILL. -/
def State.killGroup (s : State) (u : Nat) (g : Group) : State :=
  if g.retired || g.saved || (g.live == 0#32 && g.handler.isNone) then s
  else
    (s.modGroup u g.gid fun x => { x with pending := none, preempt := false, pendRest := 0 }).takeTrap u g.gid 0 0x51 0 0

/-- The resident groups of the teams that satisfy a test enter their handlers under KILL. -/
def State.killTeams (s : State) (hit : Team → Bool) : State :=
  (s.teams.filter fun t => hit t && t.core.isSome).foldl (fun s t => t.groups.foldl (fun s g => s.killGroup t.uid g) s) s

/-- A context kill begins: every item of the context ends CANCELLED and its ray slots are free, while its groups still run in
service (R228, R333, R356). -/
def State.killBegin (s : State) (ctx : Nat) : State :=
  (s.cancelIf fun i => i.ctx == ctx).freeRays fun t => t.ctx == ctx

/-- A context kill (R228, R244, R356). -/
def State.killContext (s : State) (ctx : Nat) : State :=
  let s := s.killBegin ctx
  let s := (s.graphs.filter fun x => x.ctx == ctx).foldl (fun s x => s.clearGraph x.uid) s
  let s := (s.haltContext ctx).modContext ctx fun c => { c with killed := true }
  s.killTeams fun t => t.ctx == ctx

def execContextKill (ctx : Nat) (s : State) : Out :=
  match s.context? ctx with
  | none => .refused (.notDue "CONTEXT_KILL")
  | some _ => .next (s.killContext ctx)

def execContextHalt (ctx : Nat) (s : State) : Out :=
  match s.context? ctx with
  | none => .refused (.notDue "CONTEXT_HALT")
  | some _ => .next (s.haltContext ctx)

/-- Whether a team is a consumer of a graph (R243). -/
def State.consumes (s : State) (t : Team) (graph : Nat) : Bool :=
  match (s.grid? t.grid).bind Grid.batch with | some b => b.1 == graph | none => false

/-- GRAPH_UNLOAD (R244): consumer teams already started end as a kill ends them (R228). A sleeper of the graph finds no graph
when it issues again. -/
def execGraphUnload (graph : Nat) (s : State) : Out :=
  match s.graph? graph with
  | none => .refused (.notDue "GRAPH_UNLOAD")
  | some _ =>
    let hit (t : Team) : Bool := s.consumes t graph
    let s := (s.cancelIf fun i => match s.team? i.party.team with | some t => hit t | none => false).freeRays hit
    let s := s.clearGraph graph
    let wake (g : Group) : Group :=
      (List.range 5).foldl (fun g k =>
        match g.sleepOf k with
        | .wgalloc x _ _ _ _ => if x = graph then g.setSleep k .awake else g
        | _ => g) g
    .next (({ s with
      graphs := s.graphs.filter fun x => x.uid != graph
      teams := s.teams.map fun t => { t with groups := t.groups.map wake } } : State).killTeams hit)

/-- Whether a team has been killed: its context has, or the graph it consumes is unloaded (R228, R244). -/
def State.teamKilled (s : State) (t : Team) : Bool :=
  (match s.context? t.ctx with | some c => c.killed | none => false)
    || (match (s.grid? t.grid).bind Grid.batch with | some b => (s.graph? b.1).isNone | none => false)

/-- GROUP_REMOVE: the control cores remove a killed group that has not ended. -/
def execGroupRemove (team gid : Nat) (s : State) : Out :=
  match s.team? team, s.group? team gid with
  | some t, some g =>
    if !g.retired && s.teamKilled t then
      let s := s.cancelIf fun i => i.party.team == team && i.party.gid == gid
      let s := s.modGroup team gid fun x => { x.allExit with saved := false }
      .next (s.retire t gid)
    else .refused (.notDue "GROUP_REMOVE")
  | _, _ => .refused (.notDue "GROUP_REMOVE")

/-! ## Contexts and queues (R30, R172, R202) -/

/-- CONTEXT_CREATE: Gularo OS creates a context of a slice with its level-1 table, the base of its reduction-fault log, its
default handler and its capture region; a slice has at most 64. -/
def execContextCreate (ctx slice root logBase handler capBase capBytes : Nat) (s : State) : Out :=
  if s.boot = .running ∧ slice < s.cut ∧ s.context? ctx = none ∧ (s.contexts.filter fun c => c.slice == slice).length < 64 then
    .next { s with contexts := s.contexts ++
      [{ id := ctx, slice := slice, root := root, handler := BitVec.ofNat 64 handler, logBase := logBase, logN := 0, logMarks := [],
         logOvf := false, halted := false, killed := false, capBase := capBase, capBytes := capBytes, capUsed := 0 }] }
  else .refused (.notDue "CONTEXT_CREATE")

/-- QUEUE_BIND: a launch queue of a slice is bound to one context of it. -/
def execQueueBind (slice queue ctx : Nat) (s : State) : Out :=
  match s.context? ctx with
  | none => .refused (.notDue "QUEUE_BIND")
  | some c =>
    if c.slice = slice ∧ queue < 64 then
      .next { s with queues := (s.queues.filter fun q => !(q.1 == slice && q.2.1 == queue)) ++ [(slice, queue, ctx)] }
    else .refused (.notDue "QUEUE_BIND")

end Sys2Proof.Machine
end

