-- ==== Sys2Proof/Machine/Pages.lean ====
section
/-!
DEFINITION. The control cores' work on pages (R20, R22, R366): a page made present or refused, migration, invalidation of
translation buffers; and soft errors (R278, R375).
-/
namespace Sys2Proof.Machine

/-! ## PAGE_PRESENT -/

/-- Whether a context's tables now translate an address, or fault it otherwise than by absence. -/
def State.nowMapped (s : State) (c : Context) (va : Nat) : Bool :=
  match s.walk c va with
  | .absent _ => false
  | _ => true

/-- Flows of a group that wait for a page which is now present issue again (R22, R216). -/
def Group.replay (g : Group) (here : Nat → Bool) : Group :=
  (List.range 5).foldl (fun g k =>
    match g.sleepOf k with
    | .xlate va _ => if here va then g.setSleep k .awake else g
    | _ => g) g

/-- Everything of a context that waits for a page which is now present goes on. -/
def State.replayAll (s : State) (c : Context) : State :=
  let here (va : Nat) : Bool := s.nowMapped c va
  { s with
    teams := s.teams.map fun t => if t.ctx = c.id then { t with groups := t.groups.map fun g => g.replay here } else t
    items := s.items.map fun i => if i.ctx = c.id then { i with waits := i.waits.filter fun w => !here w.2 } else i
    reds := s.reds.map fun r => if r.ctx = c.id && r.wait.any here then { r with wait := none } else r
    grids := s.grids.map fun g => if g.ctx = c.id && g.wait.any here then { g with wait := none } else g }

/-- The flows of a context that wait for a page, with their lanes. -/
def State.pageWaiters (s : State) (ctx page : Nat) : List (Issuer × Mask) :=
  (s.teams.filter fun t => t.ctx == ctx).flatMap fun t => t.groups.flatMap fun g =>
    (List.range 5).filterMap fun k =>
      match g.sleepOf k with
      | .xlate va lanes => if va / 8192 = page then some (⟨t.uid, g.gid, k⟩, lanes) else none
      | _ => none

/-- HINFO of a refused page (R216). -/
def hinfoRefused (lanes : Mask) : Word := hinfoLanes lanes ||| BitVec.ofNat 64 (2 ^ 63)

/-- The control cores refuse a page: an instruction raises PROT, an item or RED lane fails with cause 0x11, and a launch
faults (R22, R171, R201, R216). -/
def State.refusePage (s : State) (c : Context) (page : Nat) : State :=
  let s := (s.pageWaiters c.id page).foldl (fun s w =>
    s.raise w.1.team w.1.gid w.1.flow 0x11 (hinfoRefused w.2)
      (match s.group? w.1.team w.1.gid with | some g => g.pcOf w.1.flow | none => 0)) s
  let stuck (i : Item) : Bool := i.ctx == c.id && i.waits.any fun w => w.2 / 8192 == page
  let s : State :=
    { s with
      refused := ((s.items.filter stuck).map fun i => (itemThread i.id, page)) ++ s.refused
      items := s.items.map fun i => if stuck i then { i with waits := i.waits.filter fun w => w.2 / 8192 != page } else i }
  let reds := s.reds.filter fun r => r.ctx == c.id && r.wait.any fun va => va / 8192 == page
  let s := reds.foldl (fun s r => match r.lanes with | x :: _ => s.redFails r x 0x11 | [] => s) s
  (s.grids.filter fun g => g.ctx == c.id && g.state == .queued && g.wait.any fun va => va / 8192 == page).foldl
    State.launchFault s

/-- Writes page-table entries. -/
def State.writeEntries (s : State) (es : List (Nat × BitVec 64)) : State :=
  es.foldl (fun s e => s.ctlPoke e.1 (leBytes 8 e.2.toNat)) s

/-- PAGE_PRESENT: the control cores write entries, and what waits for a page now present goes on; or they refuse it. -/
def execPagePresent (ctx va : Nat) (entries : Option (List (Nat × BitVec 64))) (s : State) : Out :=
  match s.context? ctx with
  | none => .refused (.notDue "PAGE_PRESENT")
  | some c =>
    match entries with
    | none => if s.nowMapped c va then .refused (.notDue "PAGE_PRESENT") else .next (s.refusePage c (va / 8192))
    | some es =>
      if es.all fun e => e.1 % 8 == 0 && decide (e.1 + 8 ≤ 2 ^ 56) then .next ((s.writeEntries es).replayAll c)
      else .refused (.notDue "PAGE_PRESENT")

/-! ## TRANSLATION_BUFFER_INVALIDATION (R20) -/

/-- Drops the translations of a context, or those that cover an address. -/
def State.invalidate (s : State) (ctx : Nat) (va : Option Nat) : State :=
  let gone (e : TlbEntry) : Bool := match va with | none => e.ctx == ctx | some a => e.covers ctx a
  { s with tlb1 := s.tlb1.filter fun e => !gone e.2, tlb2 := s.tlb2.filter fun e => !gone e.2 }

def execTranslationBufferInvalidation (ctx : Nat) (va : Option Nat) (s : State) : Out := .next (s.invalidate ctx va)

/-! ## PAGE_MIGRATE (R22) -/

/-- The physical address of the entry that maps an address. -/
def leafSlot (m : List Host.Cell) (va : Nat) : Nat → Nat → Nat
  | 0, table => table
  | fuel + 1, table =>
    let a := table + 8 * levelIndex (4 - fuel) va
    let e := Memory.word m a
    if bitOf e 1 then a else leafSlot m va fuel (pteFrame e)

/-- The identical entries of a page (R19). -/
def pageCopies (size : Nat) : Nat := if size = 13 then 1 else if size = 19 then 64 else 4

/-- Whether a page of `2^size` bytes at a frame lies in the slice's scratchpad or stacks, aligned. -/
def State.frameFits (s : State) (slice kind frame size : Nat) : Bool :=
  let per := 8 / s.cut
  frame % 2 ^ size == 0 && (List.range per).any fun i =>
    if kind = 0 then inRegion frame (2 ^ size) (dieBase (slice * per + i)) (2 ^ 30)
    else inRegion frame (2 ^ size) (stackBase (slice * per + i)) (2 ^ 36)

/-- An entry with another frame and kind, VALID. -/
def pteMoved (e : Word) (kind frame : Nat) : Word :=
  BitVec.ofNat 64 (kind * 2 ^ 62 + bits e 61 56 * 2 ^ 56 + frame + bits e 12 1 * 2 + 1)

/-- Writes the identical entries of a page. -/
def State.writePage (s : State) (entry copies : Nat) (x : Word) : State :=
  s.writeEntries ((List.range copies).map fun i => (entry + 8 * i, x))

/-- A physical address after a page has moved; what stood in the new frame's place is no longer named. -/
def movedAddr (old new n a : Nat) : Nat :=
  if old ≤ a ∧ a < old + n then a - old + new else if new ≤ a ∧ a < new + n then 2 ^ 58 + a else a

/-- Rekeys a sparse list, in key order. -/
def rekey {α : Type} (f : Nat → Option Nat) (l : List (Nat × α)) : List (Nat × α) :=
  l.foldl (fun acc e => match f e.1 with | some k => assocSet acc k e.2 | none => acc) []

/-- What a split has seen of words that have moved (R186). -/
def FlowOrd.moved (o : FlowOrd) (f : Nat → Nat) : FlowOrd := { o with seen := o.seen.map fun e => (f e.1, e.2) }

/-- What the splits of a group have seen of words that have moved. -/
def Group.moved (g : Group) (f : Nat → Nat) : Group :=
  { g with
    recs := g.recs.map fun r => { r with ord := r.ord.moved f }
    handler := g.handler.map fun h => { h with ord := h.ord.moved f } }

/-- Moves a page's bytes to another frame with the releases, race metadata, earlier writes, errors and rewritten words of its
bytes. -/
def State.movePage (s : State) (old new n : Nat) : State :=
  let t := s.poke new (Memory.bytes s.mem old n)
  let moved (unit : Nat) (a : Nat) : Option Nat :=
    if 2 ^ 58 ≤ a then some a
    else
      let b := movedAddr (old / unit) (new / unit) (n / unit) a
      if 2 ^ 58 ≤ b then none else some b
  { t with
    eccMem := (s.eccMem.filterMap (moved 8))
    wlog := s.wlog.map fun e => (e.1, movedAddr old new n e.2.1, e.2.2)
    hist := s.hist.map fun w =>
      { w with key := movedAddr old new n w.key, heads := w.heads.map fun h => (movedAddr old new n h.1, h.2) }
    teams := s.teams.map fun t =>
      { t with groups := t.groups.map fun g => g.moved (movedAddr (old / 8) (new / 8) (n / 8)) }
    locs := rekey (moved 1) s.locs
    lines := rekey (moved 64) s.lines }

/-- Whether a lane of an ATOM, which passed its checks at issue, is still to be performed in a page. -/
def State.atomIn (s : State) (ctx va n : Nat) : Bool :=
  s.reds.any fun r => r.ctx == ctx && r.word.sp && r.back.isSome && r.lanes.any fun x => rangesMeet va n x.addr.toNat 8

/-- The start of a migration: the entries lose VALID, and the page's translations go. The control cores start none while an
ATOM is under way in the page (DESIGN CHOICE, log 47). -/
def State.migrateStart (s : State) (c : Context) (va frame kind : Nat) : Option State :=
  match s.walk c va with
  | .ok e =>
    let slot := leafSlot s.mem va 4 c.root
    let copies := pageCopies e.size
    let entry := slot / (8 * copies) * (8 * copies)
    let pte := Memory.word s.mem slot
    let from_ := match e.kind with | .scratch => some 0 | .main => some 1 | _ => none
    if from_ == some (1 - kind) && decide (kind < 2) && !s.atomIn c.id e.base (2 ^ e.size) && s.frameFits c.slice kind frame e.size then
      some
        { ((s.writePage entry copies (pte &&& ~~~1#64)).invalidate c.id (some va)) with
          migrating := s.migrating ++
            [{ ctx := c.id, va := e.base, entry := entry, copies := copies, size := e.size, old := e.frame, pte := pte }] }
    else none
  | _ => none

/-- The end of a migration: the whole page has moved, and what waits for it goes on. -/
def State.migrateEnd (s : State) (c : Context) (va frame kind : Nat) : Option State :=
  match s.migrating.find? fun m => m.ctx == c.id && decide (m.va ≤ va) && decide (va < m.va + 2 ^ m.size) with
  | none => none
  | some m =>
    if decide (kind < 2) && s.frameFits c.slice kind frame m.size then
      let s := s.movePage m.old frame (2 ^ m.size)
      let s := { s with migrating := s.migrating.filter fun x => !(x.ctx == m.ctx && x.va == m.va) }
      some ((s.writePage m.entry m.copies (pteMoved m.pte kind frame)).replayAll c)
    else none

/-- PAGE_MIGRATE: the start or the end of a migration between HBM and scratchpad. -/
def execPageMigrate (ctx va frame kind : Nat) (finish : Bool) (s : State) : Out :=
  match s.context? ctx with
  | none => .refused (.notDue "PAGE_MIGRATE")
  | some c =>
    match if finish then s.migrateEnd c va frame kind else s.migrateStart c va frame kind with
    | some s => .next s
    | none => .refused (.notDue "PAGE_MIGRATE")

/-! ## SOFT_ERROR (R278, R375) -/

/-- Adds an element once. -/
def addOnce {α : Type} [BEq α] (x : α) (l : List α) : List α := if l.contains x then l else l ++ [x]

/-- The blocks in which errors are counted: a word of memory belongs to its stack or store die, a register file or shared memory
to its core (DESIGN CHOICE, log 47). -/
def State.errBlock (s : State) (site : ErrSite) : Option ErrBlock :=
  let core (u : Nat) : Option Nat := (s.team? u).map fun t => t.core.getD t.lastCore
  match site with
  | .memory pa =>
    if pa < stackBase 8 then some (.stack (pa / 2 ^ 36))
    else if dieBase 0 ≤ pa ∧ pa < dieBase 8 then some (.die ((pa - dieBase 0) / 2 ^ 30))
    else none
  | .shared u _ => (core u).map .shared
  | .vreg u .. | .sreg u .. | .mreg u .. => (core u).map .registers
  | .operandA c _ => some (.operandA c)
  | .operandB c => some (.operandB c)
  | .array c => some (.array c)
  | .icache c => some (.icache c)
  | .millers _ => some .millers

/-- A corrected error is counted in its block and logged to Gularo OS (R375). -/
def State.countCorrected (s : State) (site : ErrSite) : State :=
  let s := s.report (.corrected site)
  match s.errBlock site with
  | none => s
  | some b =>
    let n := match s.corrected.find? fun x => x.1 == b with | some x => x.2 | none => 0
    { s with corrected := (s.corrected.filter fun x => x.1 != b) ++ [(b, n + 1)] }

/-- An uncorrectable error in the Millers' own state: every slice is halted, and each context is reported as killed (R375). -/
def State.millersFail (s : State) : State :=
  { s.contexts.foldl (fun s c => (s.killContext c.id).report (.killed c.id)) s with boot := .halted }

/-- An uncorrectable error strikes a word; one in an instruction cache is refetched. An error in a matrix engine strikes
only what a running pass holds. -/
def State.strike (s : State) (site : ErrSite) : State :=
  let pass (c : Nat) : Bool := (s.mmaTable c).any Item.inPass
  match site with
  | .memory pa => if pa < 2 ^ 56 then { s with eccMem := addOnce (pa / 8) s.eccMem } else s
  | .shared u off =>
    (match s.team? u with
     | some t => if off < t.shBytes then { s with eccShared := addOnce (u, off / 8) s.eccShared } else s
     | none => s)
  | .vreg u g r l =>
    if r < 128 ∧ l < 32 then s.modGroup u g fun x => { x with eccV := addOnce (r, l) x.eccV } else s
  | .sreg u g r => if 0 < r ∧ r < 64 then s.modGroup u g fun x => { x with eccS := addOnce r x.eccS } else s
  | .mreg u g r => if 0 < r ∧ r < 16 then s.modGroup u g fun x => { x with eccM := addOnce r x.eccM } else s
  | .operandA c k => if pass c then s.setMatrix { s.matrix c with errA := addOnce k (s.matrix c).errA } else s
  | .operandB c => if pass c then s.setMatrix { s.matrix c with errB := true } else s
  | .array c => if pass c then s.setMatrix { s.matrix c with errArray := true } else s
  | .icache _ => s
  | .millers _ => s.millersFail

/-- SOFT_ERROR: a correctable error changes no result and is logged; an uncorrectable one stands in its word. -/
def execSoftError (site : ErrSite) (correctable : Bool) (s : State) : Out :=
  .next (if correctable then s.countCorrected site else s.strike site)

end Sys2Proof.Machine
end

