-- ==== Sys2Proof/Machine/Sha.lean ====
section
/-!
DEFINITION. SHA-256 and the verification of RSASSA-PKCS1-v1_5 signatures, as R367 and R368 use them.
-/
namespace Sys2Proof.Machine

/-! ## The constants of SHA-256

FIPS 180-4 takes them from the roots of the first primes: the first 32 bits of the fractional parts of the cube roots of 64
of them for the rounds, and of the square roots of 8 of them for the initial hash value. -/

/-- The first `n` primes from `p` on, of which `seen` are the primes below. -/
def primesFrom : Nat → Nat → Nat → List Nat → List Nat
  | 0, _, _, seen => seen
  | fuel + 1, n, p, seen =>
    if seen.length = n then seen
    else primesFrom fuel n (p + 1) (if seen.all fun q => p % q != 0 then seen ++ [p] else seen)

/-- The greatest `r` below `base + 2 ^ bits` whose `k`-th power is at most `x`, found bit by bit. -/
def rootBits (k x : Nat) : Nat → Nat → Nat
  | 0, base => base
  | bits + 1, base => rootBits k x bits (if (base + 2 ^ bits) ^ k ≤ x then base + 2 ^ bits else base)

/-- The first 32 bits of the fractional part of the `k`-th root of `p`, below 32. -/
def rootFraction (k p : Nat) : W32 := BitVec.ofNat 32 (rootBits k (p * 2 ^ (32 * k)) 37 0)

/-- The constant of each round. -/
def shaConstants : List W32 := (primesFrom 311 64 2 []).map (rootFraction 3)

/-- The initial hash value. -/
def shaStart : List W32 := (primesFrom 20 8 2 []).map (rootFraction 2)

/-- Big-endian bytes of a number. -/
def beBytes (n x : Nat) : List Byte := (leBytes n x).reverse

/-- A big-endian number from bytes. -/
def beNat (bs : List Byte) : Nat := leNat bs.reverse

/-- The padded message. -/
def shaPad (bs : List Byte) : List Byte :=
  bs ++ [0x80] ++ List.replicate ((119 - bs.length % 64) % 64) 0 ++ beBytes 8 (8 * bs.length)

/-! ## The compression

The eight working variables and the sixteen words of the schedule that are still needed are two wide numbers, and a round
shifts each by one word: `a` is the lowest word of the first, the round's own word the lowest of the second. -/

/-- Word `i` of a wide number, from the lowest. -/
def wordOf (x : BitVec 512) (i : Nat) : W32 := x.extractLsb' (32 * i) 32

/-- The exclusive or of three rotations. -/
def mixed (x : W32) (i j k : Nat) : W32 := x.rotateRight i ^^^ x.rotateRight j ^^^ x.rotateRight k

/-- Words joined, the first lowest. -/
def joinWords (ws : List W32) : BitVec 512 := ws.foldr (fun w x => (x <<< 32) ||| w.setWidth 512) 0

/-- The window on the schedule after a round: its lowest word leaves, and the sixteenth after it enters on top. -/
def shaSlide (window : BitVec 512) : BitVec 512 :=
  let near := wordOf window 1
  let far := wordOf window 14
  let entering := wordOf window 0 + wordOf window 9 +
    (near.rotateRight 7 ^^^ near.rotateRight 18 ^^^ (near >>> 3)) + (far.rotateRight 17 ^^^ far.rotateRight 19 ^^^ (far >>> 10))
  (window >>> 32) ||| (entering.setWidth 512 <<< 480)

/-- The working variables after a round whose constant and word sum to `x`. -/
def shaTurn (work : BitVec 512) (x : W32) : BitVec 512 :=
  let a := wordOf work 0
  let e := wordOf work 4
  let chosen := (e &&& (wordOf work 5 ^^^ wordOf work 6)) ^^^ wordOf work 6
  let majority := (a &&& (wordOf work 1 ||| wordOf work 2)) ||| (wordOf work 1 &&& wordOf work 2)
  let common := wordOf work 7 + mixed e 6 11 25 + chosen + x
  joinWords ((common + mixed a 2 13 22 + majority) ::
    (List.range 7).map fun i => wordOf work i + if i = 3 then common else 0)

/-- All the rounds on the working variables and the window. -/
def shaRounds : List W32 → BitVec 512 → BitVec 512 → BitVec 512
  | [], work, _ => work
  | k :: ks, work, window => shaRounds ks (shaTurn work (k + wordOf window 0)) (shaSlide window)

/-- The hash value after one block of sixteen big-endian words. -/
def shaBlock (hash : List W32) (block : List Byte) : List W32 :=
  let words := (List.range 16).map fun i => BitVec.ofNat 32 (beNat ((block.drop (4 * i)).take 4))
  let work := shaRounds shaConstants (joinWords hash) (joinWords words)
  (List.range 8).map fun i => hash.getD i 0 + wordOf work i

/-- The hash value after `n` blocks. -/
def shaBlocks (hash : List W32) (message : List Byte) (n : Nat) : List W32 :=
  (List.range n).foldl (fun h i => shaBlock h ((message.drop (64 * i)).take 64)) hash

/-- SHA-256 of bytes, as a big-endian number. -/
def sha256 (bs : List Byte) : BitVec 256 :=
  let p := shaPad bs
  (joinWords (shaBlocks shaStart p (p.length / 64)).reverse).setWidth 256

/-- Extending a measurement register by the digest of an image (R368). -/
def extendMeas (m digest : BitVec 256) : BitVec 256 := sha256 (beBytes 32 m.toNat ++ beBytes 32 digest.toNat)

/-- `b ^ e mod n`, by the bits of `e`. -/
def powMod (n : Nat) : Nat → Nat → Nat → Nat
  | 0, _, _ => 1 % n
  | fuel + 1, b, e => (if e % 2 = 1 then b else 1) * powMod n fuel (b * b % n) (e / 2) % n

/-- The encoded message of a SHA-256 digest in 384 bytes (RFC 8017, EMSA-PKCS1-v1_5). -/
def pkcs1Message (digest : BitVec 256) : Nat :=
  beNat ([0x00, 0x01] ++ List.replicate 330 0xFF ++ [0x00] ++
    [0x30, 0x31, 0x30, 0x0D, 0x06, 0x09, 0x60, 0x86, 0x48, 0x01, 0x65, 0x03, 0x04, 0x02, 0x01, 0x05, 0x00, 0x04, 0x20] ++
    beBytes 32 digest.toNat)

/-- RSASSA-PKCS1-v1_5 verification with a 3,072-bit modulus (R367). -/
def rsaVerify (modulus exponent : Nat) (digest : BitVec 256) (signature : Nat) : Bool :=
  decide (signature < modulus) && powMod modulus 3072 signature exponent == pkcs1Message digest

end Sys2Proof.Machine
end

