-- ==== Sys2Proof/Machine/Display.lean ====
section
/-!
DEFINITION. The slice cut and deterministic mode (R213, R359), virtual heads (R361 to R363), video encode and its rings
(R364, R365, R371), and replay (R370).
-/
namespace Sys2Proof.Machine

/-! ## Slices -/

/-- The slice that owns an engine (R30). -/
def State.engineSlice (s : State) (engine : Nat) : Nat := engine / (8 / s.cut)

/-- Whether a slice holds a resident team. -/
def State.sliceBusy (s : State) (slice : Nat) : Bool := s.teams.any fun t => t.slice == slice && t.core.isSome

/-- Gularo OS extends MEAS[4] with the cut and MEAS[5 + s] with the configuration of each slice s (R368). -/
def State.measureSlices (s : State) : State :=
  let m := vset s.meas 4 (extendMeas (vget s.meas 4 0) (Config.cutDigest s.cut))
  { s with meas := (List.range s.cut).foldl (fun (m : Vector (BitVec 256) 13) k =>
      vset m (5 + k) (extendMeas (vget m (5 + k) 0) (Config.sliceDigest s.tick k))) m }

/-- DETERMINISTIC_MODE_SET: only while the slice holds no resident team (R213). -/
def execDeterministicModeSet (slice : Nat) (on : Bool) (s : State) : Out :=
  if slice < s.cut ∧ !s.sliceBusy slice then
    .next { s with det := if on then addOnce slice s.det else s.det.filter fun x => x != slice }
  else .refused (.notDue "DETERMINISTIC_MODE_SET")

/-! ## Heads (R361 to R363) -/

/-- Pixels per second. -/
def headPixels (c : HeadCfg) : Nat := c.width * c.height * c.rate

/-- Whether `n` bytes at an address lie in pages of a context that pass a test. -/
def State.inPages (s : State) (c : Context) (ok : TlbEntry → Bool) (va n : Nat) : Bool := (s.ctlLocs c ok va n).isSome

/-- A page for descriptors and status records, and one for surfaces and rings. -/
def scratchPage (e : TlbEntry) : Bool := e.kind == .scratch
def surfacePage (e : TlbEntry) : Bool := e.kind == .scratch || e.kind == .main

/-- The bytes of a pixel of a format (R362). -/
def pixelBytes (fmt : Nat) : Nat := if fmt = 2 then 8 else 4

/-- Whether a head configuration is within the limits (R361). Its destination surface has one of the formats of R362 (DESIGN
CHOICE, log 17). -/
def State.headOk (s : State) (engine head : Nat) (cfg : HeadCfg) : Bool :=
  match s.context? cfg.ctx with
  | none => false
  | some c =>
    let others := (s.heads.filter fun h => h.engine == engine && h.head != head).map fun h => headPixels h.cfg
    decide (engine < 8) && decide (head < 4) && s.engineSlice engine == c.slice
      && decide (1 ≤ cfg.width) && decide (cfg.width ≤ 7680) && decide (1 ≤ cfg.height) && decide (cfg.height ≤ 4320)
      && decide (1 ≤ cfg.rate) && decide (headPixels cfg ≤ 1990656000) && decide (headPixels cfg + others.sum ≤ 3981312000)
      && cfg.planes.length == 4 && cfg.planes.all (fun a => a % 32 == 0 && s.inPages c scratchPage a 32)
      && s.inPages c scratchPage cfg.status 64
      && (cfg.toEncoder || (decide (cfg.fmt ≤ 2) && s.inPages c surfacePage cfg.surface (cfg.pitch * cfg.height)))

def State.head? (s : State) (engine head : Nat) : Option DispHead :=
  s.heads.find? fun h => h.engine == engine && h.head == head

def State.modHead (s : State) (engine head : Nat) (f : DispHead → DispHead) : State :=
  { s with heads := s.heads.map fun h => if h.engine = engine ∧ h.head = head then f h else h }

/-- The head that a stream names: heads are numbered through the engines. -/
def State.sourceOf (s : State) (cfg : StreamCfg) : Option DispHead := s.head? (cfg.head / 4) (cfg.head % 4)

/-- The pixel rate of a stream's source. -/
def State.streamPixels (s : State) (cfg : StreamCfg) : Nat := match s.sourceOf cfg with | some h => headPixels h.cfg | none => 0

/-- Whether every configured stream still has its source and its engine's rate holds (R364). -/
def State.streamsHold (s : State) : Bool :=
  s.streams.all fun x =>
    (match s.sourceOf x.cfg with | some h => h.cfg.toEncoder | none => false)
      && decide (((s.streams.filter fun y => y.engine == x.engine).map fun y => s.streamPixels y.cfg).sum ≤ 1990656000)

/-- An answer to the tenant through its virtual function. -/
def State.respond (s : State) (who : Requester) (r : Response) : State := { s with responses := s.responses ++ [(who, r)] }

/-- The state with a head configured anew; its frames, and those that its streams await, count from 0. -/
def State.withHead (s : State) (engine head : Nat) (cfg : HeadCfg) : State :=
  { s with
    heads := (s.heads.filter fun h => !(h.engine == engine && h.head == head)) ++
      [{ engine := engine, head := head, cfg := cfg, frame := 0, clk := [], latched := none }]
    streams := s.streams.map fun x => if x.cfg.head = 4 * engine + head then { x with nextFrame := 0 } else x }

/-- HEAD_CONFIGURE: accepted, or refused (R361); one that takes an encoder beyond its rate, or its source away, is refused
(R364). -/
def execHeadConfigure (engine head : Nat) (cfg : HeadCfg) (s : State) : Out :=
  if s.boot ≠ .running then .refused (.notDue "HEAD_CONFIGURE")
  else if s.headOk engine head cfg && (s.withHead engine head cfg).streamsHold then .next (s.withHead engine head cfg)
  else .next (s.respond (.vf (s.engineSlice engine)) .refusedConfig)

/-- A plane descriptor from its four dwords (R362): not taking part, malformed, or a plane. -/
def planeOf (w : List Word) : Option (Option Plane) :=
  let d (k : Nat) : Word := w.getD k 0
  if !bitOf (d 1) 0 then some none
  else
    let fmt := bits (d 1) 31 28
    let p : Plane :=
      { addr := d 0, pitch := bits (d 1) 63 32, fmt := fmt, width := bits (d 2) 15 0, height := bits (d 2) 31 16
        dx := intVal true 32 (bits (d 3) 31 0), dy := intVal true 32 (bits (d 3) 63 32) }
    if fmt ≤ 2 ∧ bits (d 1) 27 1 = 0 ∧ bits (d 2) 63 32 = 0 ∧ 1 ≤ p.height ∧ p.height ≤ 4320 ∧ 1 ≤ p.width ∧ p.width ≤ 7680
        ∧ p.addr.toNat % pixelBytes fmt = 0 ∧ p.pitch % pixelBytes fmt = 0 then some (some p)
    else none

/-! ### A head or encoder as an agent of memory (R187, R193) -/

/-- The numbers that stand for heads and encoders among teams; no team has one of them. -/
def DispHead.unit (h : DispHead) : Nat := 2 ^ 40 + 8 * h.engine + h.head
def Stream.unit (x : Stream) : Nat := 2 ^ 41 + 8 * x.engine + x.stream

/-- The party that a unit is (R187): it acquires and releases at SLICE scope. -/
def unitParty (unit slice : Nat) : Party := ⟨slice, unit, unit, 0⟩
def DispHead.party (h : DispHead) (slice : Nat) : Party := unitParty h.unit slice
def Stream.party (x : Stream) (slice : Nat) : Party := unitParty x.unit slice

/-- An access of a unit that has made `n` releases. -/
def unitAccess (unit n : Nat) (write plain : Bool) : Access :=
  { thread := groupThread (groupUid unit 0), agent := groupUid unit 0, epoch := n + 1, rel := n, bytes := 0, write := write,
    plain := plain }

/-- How a unit reads. -/
def unitReader (unit : Nat) (clk : Clock) (plain : Bool) : Reader :=
  { thread := groupThread (groupUid unit 0), clk := clk, plain := plain, seen := [], mark := none }

/-- What a unit's release publishes. -/
def unitRelease (unit n : Nat) (clk : Clock) : Clock := clk.raise (groupThread (groupUid unit 0)) (n + 1)

/-- The releases a unit has made (R193). -/
def State.unitCount (s : State) (unit : Nat) : Nat := assocGet 0 s.endRels (groupUid unit 0)

/-- A unit has made a release. -/
def State.unitReleased (s : State) (unit : Nat) : State :=
  { s with endRels := assocSet s.endRels (groupUid unit 0) (s.unitCount unit + 1) }

/-- Where a unit's access to a run lies, with the pages that keep race metadata; none where it fails: a page absent or without
the right or kind, an uncorrectable error, a race on a RACECHK page. -/
def State.unitLocs (s : State) (c : Context) (ok : TlbEntry → Bool) (y : Access) (clk : Clock) (va n : Nat) :
    Option (List (Loc × Nat)) :=
  if 2 ^ 53 < va + n then none
  else
    (pageParts va n).foldr (fun p acc =>
      match acc, s.walk c p.1 with
      | some ls, .ok e =>
        let pa := e.pa p.1
        if ok e && !(!y.write && s.badMem pa p.2) && !(e.race && s.raceAt y clk pa p.2) then some ((.at pa p.1 e.race, p.2) :: ls)
        else none
      | _, _ => none) (some [])

/-- Notes a unit's accesses (R193). -/
def State.unitNote (s : State) (y : Access) (ls : List (Loc × Nat)) : State := ls.foldl (fun s l => s.noteLoc y l.1 l.2) s

/-! ### Frames -/

/-- One descriptor of a head as it is latched: a plane, or none with an error record (R362). Each aligned 8-byte piece is read
whole, and may miss a store that races with the latch (R186, R192, R363). -/
def State.latchPlane (s : State) (c : Context) (h : DispHead) (k va : Nat) : Option Plane × State :=
  let y := unitAccess h.unit (s.unitCount h.unit) false false
  match s.unitLocs c (fun e => scratchPage e && e.rd) y h.clk va 32 with
  | some ls =>
    let r := unitReader h.unit h.clk false
    let ws := ls.flatMap fun l => (List.range (l.2 / 8)).map fun i => BitVec.ofNat 64 (s.readNat r (l.1.plus (8 * i)) 8)
    let s := s.unitNote y ls
    (match planeOf ws with
     | some p => (p, s)
     | none => (none, s.report (.plane h.engine h.head k)))
  | none => (none, s.report (.plane h.engine h.head k))

/-- The releases that the latched descriptors carry. -/
def State.latchHeads (s : State) (c : Context) (h : DispHead) : List RelHead :=
  h.cfg.planes.flatMap fun a =>
    match s.unitLocs c (fun e => scratchPage e && e.rd) (unitAccess h.unit (s.unitCount h.unit) false false) h.clk a 32 with
    | some ls => ls.flatMap fun l => (List.range (l.2 / 8)).flatMap fun i =>
        s.readHeads (unitReader h.unit h.clk false) (l.1.plus (8 * i)) 8
    | none => []

/-- FRAME_LATCH: a head latches its four descriptors, an acquire at SLICE scope (R363). -/
def execFrameLatch (engine head : Nat) (s : State) : Out :=
  match s.head? engine head with
  | none => .refused (.notDue "FRAME_LATCH")
  | some h =>
    match s.context? h.cfg.ctx, h.latched with
    | some c, none =>
      let x := h.cfg.planes.zipIdx.foldl (fun (x : List (Option Plane) × State) a =>
        let r := x.2.latchPlane c h a.2 a.1
        (x.1 ++ [r.1], r.2)) ([], s)
      .next (x.2.modHead engine head fun q =>
        { q with latched := some x.1, clk := acquireFrom (h.party c.slice) .slice (s.latchHeads c h) q.clk })
    | _, _ => .refused (.notDue "FRAME_LATCH")

/-- The byte runs of a plane's surface that the frame shows (R362). -/
def Plane.runs (p : Plane) (w h : Nat) : List (Nat × Nat) :=
  let x0 := (max 0 (-p.dx)).toNat
  let x1 := (min (p.width : Int) ((w : Int) - p.dx)).toNat
  let y0 := (max 0 (-p.dy)).toNat
  let y1 := (min (p.height : Int) ((h : Int) - p.dy)).toNat
  if x0 < x1 then
    (List.range (y1 - y0)).map fun i =>
      (p.addr.toNat + (y0 + i) * p.pitch + x0 * pixelBytes p.fmt, (x1 - x0) * pixelBytes p.fmt)
  else []

/-- Where a head's read of a surface run lies. -/
def State.surfaceLocs (s : State) (c : Context) (h : DispHead) (r : Nat × Nat) : Option (List (Loc × Nat)) :=
  s.unitLocs c (fun e => surfacePage e && e.rd) (unitAccess h.unit (s.unitCount h.unit) false true) h.clk r.1 r.2

/-- Whether every read of a plane's surface succeeds. -/
def State.surfaceReads (s : State) (c : Context) (h : DispHead) (p : Plane) : Bool :=
  (p.runs h.cfg.width h.cfg.height).all fun r => (s.surfaceLocs c h r).isSome

/-- The planes as the frame shows them: one whose surface faults is left out with an error record (R362). -/
def State.readSurfaces (s : State) (c : Context) (h : DispHead) (ps : List (Option Plane)) : List (Option Plane) × State :=
  ps.zipIdx.foldl (fun x p =>
    match p.1 with
    | some q =>
      if x.2.surfaceReads c h q then
        (x.1 ++ [some q], (q.runs h.cfg.width h.cfg.height).foldl (fun s r =>
          s.unitNote (unitAccess h.unit (s.unitCount h.unit) false true) ((s.surfaceLocs c h r).getD [])) x.2)
      else (x.1 ++ [none], x.2.report (.plane h.engine h.head p.2))
    | none => (x.1 ++ [none], x.2)) ([], s)

/-- A pixel: premultiplied channels, and whether its colour is linear or sRGB-encoded (R362). -/
structure Pix where
  r      : Q
  g      : Q
  b      : Q
  a      : Q
  linear : Bool

/-- Opaque black. -/
def Pix.black : Pix := ⟨Q.zero, Q.zero, Q.zero, Q.ofInt 1, false⟩

def Pix.noColour (p : Pix) : Bool := p.r.isZero && p.g.isZero && p.b.isZero
def Pix.opaque (p : Pix) : Bool := p.a.eq (Q.ofInt 1)

/-- A pixel from its bits (R362); none where an f16 channel is no number. RGBA n8 and f16 stand with red lowest (PRESUMED, log
48). -/
def pixOf (fmt x : Nat) : Option Pix :=
  let part (w k m : Nat) : Q := ⟨(x / 2 ^ (w * k) % 2 ^ w : Nat), m⟩
  match fmt with
  | 0 => some ⟨part 8 0 255, part 8 1 255, part 8 2 255, part 8 3 255, false⟩
  | 1 => some ⟨part 10 0 1023, part 10 1 1023, part 10 2 1023, ⟨(x / 2 ^ 30 % 4 : Nat), 3⟩, false⟩
  | _ =>
    let h (k : Nat) : FVal := fmtF16.decode (x / 2 ^ (16 * k) % 2 ^ 16)
    if [h 0, h 1, h 2, h 3].any fun f => f.isNan || f.isInf then none else some ⟨(h 0).q, (h 1).q, (h 2).q, (h 3).q, true⟩

/-- Premultiplied OVER (R362). None, a pixel that the manual does not give, stays where a plane that is not opaque lies over it,
or over one whose colour has the other encoding (DESIGN CHOICE, log 17). -/
def Pix.over (p : Option Pix) (under : Option Pix) : Option Pix :=
  match p, under with
  | none, _ => none
  | some p, none => if p.opaque then some p else none
  | some p, some u =>
    let k := (Q.ofInt 1).sub p.a
    if p.opaque then some p
    else if p.a.isZero && p.noColour then some u
    else if p.linear == u.linear || u.noColour then
      some ⟨p.r.add (k.mul u.r), p.g.add (k.mul u.g), p.b.add (k.mul u.b), p.a.add (k.mul u.a), p.linear⟩
    else none

/-- The plane's own pixel under a pixel of the frame, if the plane covers it (R362). -/
def Plane.under (p : Plane) (x y : Nat) : Option Nat :=
  let sx := (x : Int) - p.dx
  let sy := (y : Int) - p.dy
  if 0 ≤ sx ∧ sx < p.width ∧ 0 ≤ sy ∧ sy < p.height then
    some (p.addr.toNat + sy.toNat * p.pitch + sx.toNat * pixelBytes p.fmt)
  else none

/-- A pixel of a surface as a head reads it: old or new bytes where a write races with the head (R192, R363). -/
def State.surfacePix (s : State) (c : Context) (h : DispHead) (p : Plane) (va : Nat) : Option Pix :=
  match s.surfaceLocs c h (va, pixelBytes p.fmt) with
  | some ls =>
    let r := unitReader h.unit h.clk true
    pixOf p.fmt (leNat (ls.flatMap fun l => s.readBytes r l.1 l.2))
  | none => none

/-- A composed pixel: the planes in order over opaque black (R361, R362). -/
def State.composed (s : State) (c : Context) (h : DispHead) (ps : List (Option Plane)) (x y : Nat) : Option Pix :=
  ps.foldl (fun under p =>
    match p with
    | none => under
    | some q => match q.under x y with | some va => Pix.over (s.surfacePix c h q va) under | none => under) (some .black)

/-- A channel in `n` steps: exact, or one of the two nearest (DESIGN CHOICE, log 17). -/
def pixSteps (tick k n : Nat) (q : Q) : Nat :=
  let x := q.mul (Q.ofInt n)
  let f := x.floor
  let v := if x.eq (Q.ofInt f) then f else if Config.pixelPick tick k then f + 1 else f
  (min (n : Int) (max 0 v)).toNat

/-- A channel as an f16, exact or one of the two nearest (DESIGN CHOICE, log 17). -/
def pixHalf (tick k : Nat) (q : Q) : Nat := (roundQ fmtF16 (if Config.pixelPick tick k then .rup else .rdn) q).1

/-- The bits of a composed pixel in the destination's format; `k` numbers the pixel. A colour in the other encoding, or a pixel
that the manual does not give, is written with free channels (DESIGN CHOICE, log 17). -/
def pixBits (fmt tick k : Nat) (p : Option Pix) : Nat :=
  let free (i : Nat) : Nat := Config.pixelChannel tick (4 * k + i)
  match p with
  | some p =>
    if p.noColour || p.linear == (fmt == 2) then
      match fmt with
      | 0 => pixSteps tick (4 * k) 255 p.r + pixSteps tick (4 * k + 1) 255 p.g * 2 ^ 8 + pixSteps tick (4 * k + 2) 255 p.b * 2 ^ 16
               + pixSteps tick (4 * k + 3) 255 p.a * 2 ^ 24
      | 1 => pixSteps tick (4 * k) 1023 p.r + pixSteps tick (4 * k + 1) 1023 p.g * 2 ^ 10
               + pixSteps tick (4 * k + 2) 1023 p.b * 2 ^ 20 + pixSteps tick (4 * k + 3) 3 p.a * 2 ^ 30
      | _ => pixHalf tick (4 * k) p.r + pixHalf tick (4 * k + 1) p.g * 2 ^ 16 + pixHalf tick (4 * k + 2) p.b * 2 ^ 32
               + pixHalf tick (4 * k + 3) p.a * 2 ^ 48
    else
      match fmt with
      | 0 => free 0 % 256 + free 1 % 256 * 2 ^ 8 + free 2 % 256 * 2 ^ 16 + pixSteps tick (4 * k + 3) 255 p.a * 2 ^ 24
      | 1 => free 0 % 1024 + free 1 % 1024 * 2 ^ 10 + free 2 % 1024 * 2 ^ 20 + pixSteps tick (4 * k + 3) 3 p.a * 2 ^ 30
      | _ => free 0 % 2 ^ 16 + free 1 % 2 ^ 16 * 2 ^ 16 + free 2 % 2 ^ 16 * 2 ^ 32 + pixHalf tick (4 * k + 3) p.a * 2 ^ 48
  | none => free 0 % 2 ^ 16 + free 1 % 2 ^ 16 * 2 ^ 16 + free 2 % 2 ^ 16 * 2 ^ 32 + free 3 % 2 ^ 16 * 2 ^ 48

/-- A row of the composed frame as bytes of the destination surface. -/
def State.frameRow (s : State) (c : Context) (h : DispHead) (ps : List (Option Plane)) (y : Nat) : List Byte :=
  (List.range h.cfg.width).flatMap fun x =>
    leBytes (pixelBytes h.cfg.fmt) (pixBits h.cfg.fmt s.tick (y * h.cfg.width + x) (s.composed c h ps x y))

/-- A unit writes bytes of a context, where every page is present, noted for later races. -/
def State.unitWrite (s : State) (c : Context) (ok : TlbEntry → Bool) (y : Access) (va : Nat) (bs : List Byte) : State :=
  match s.ctlWrite c ok va bs with
  | some t => t.unitNote { y with write := true } ((s.unitLocs c ok { y with write := true } [] va bs.length).getD [])
  | none => s

/-- The composed frame in its destination surface (R361, R362). The surface is read whole before it is written. -/
def State.writeFrame (s : State) (c : Context) (h : DispHead) (ps : List (Option Plane)) : State :=
  if h.cfg.toEncoder then s
  else
    ((List.range h.cfg.height).map fun y => (h.cfg.surface + y * h.cfg.pitch, s.frameRow c h ps y)).foldl (fun s w =>
      s.unitWrite c (fun e => surfacePage e && e.w) (unitAccess h.unit (s.unitCount h.unit) true true) w.1 w.2) s

/-- A released write by a head or encoder of its slice (R363, R371). -/
def State.writeRelease (s : State) (c : Context) (ok : TlbEntry → Bool) (p : Party) (clk : Clock) (va : Nat) (bs : List Byte) :
    State :=
  match s.ctlLocs c ok va bs.length, s.ctlWrite c ok va bs with
  | some ls, some s =>
    (ls.flatMap fun l => (Loc.at l.1 0 false).keys l.2).foldl (fun s k => s.setHeads k false [⟨p, .slice, clk⟩]) s
  | _, _ => s

/-- The end of a frame: its surfaces are read, it is composed and written, and FRAME takes n + 1, a release at SLICE scope
(R362, R363). -/
def State.endFrame (s : State) (c : Context) (h : DispHead) (ps : List (Option Plane)) : State :=
  let x := s.readSurfaces c h ps
  let s := x.2.writeFrame c h x.1
  let s := s.writeRelease c scratchPage (h.party c.slice) (unitRelease h.unit (s.unitCount h.unit) h.clk) h.cfg.status (leBytes 8 (h.frame + 1))
  (s.unitReleased h.unit).modHead h.engine h.head fun q => { q with frame := q.frame + 1, latched := none }

/-- FRAME_DONE: after its last read of frame n the head writes n + 1 to FRAME (R363). -/
def execFrameDone (engine head : Nat) (s : State) : Out :=
  match s.head? engine head with
  | none => .refused (.notDue "FRAME_DONE")
  | some h =>
    match s.context? h.cfg.ctx, h.latched with
    | some c, some ps => .next (s.endFrame c h ps)
    | _, _ => .refused (.notDue "FRAME_DONE")

/-! ## Encode (R364, R365, R371) -/

/-- Whether a stream configuration is supported (R364). -/
def State.streamOk (s : State) (engine stream : Nat) (cfg : StreamCfg) : Bool :=
  match s.context? cfg.ctx, s.sourceOf cfg with
  | some c, some h =>
    let others := (s.streams.filter fun x => x.engine == engine && x.stream != stream).map fun x => s.streamPixels x.cfg
    decide (engine < 8) && decide (stream < 4) && s.engineSlice engine == c.slice && s.engineSlice h.engine == c.slice
      && h.cfg.toEncoder && !(cfg.codec == .h264 && cfg.tenBit)
      && decide (s.streamPixels cfg + others.sum ≤ 1990656000)
      && decide (1 ≤ cfg.auBytes) && decide (1 ≤ cfg.ceEntries)
      && s.inPages c surfacePage cfg.auRing cfg.auBytes && s.inPages c surfacePage cfg.ceRing (16 * cfg.ceEntries)
      && s.inPages c surfacePage cfg.auWord 8 && s.inPages c surfacePage cfg.ceWord 8
  | _, _ => false

/-- Gularo OS clears the words in which the tenant is to return space: they name no entry yet (R371; DESIGN CHOICE, log 17). -/
def State.clearWords (s : State) (cfg : StreamCfg) : State :=
  match s.context? cfg.ctx with
  | some c => [cfg.auWord, cfg.ceWord].foldl (fun s a => (s.ctlWrite c surfacePage a (leBytes 8 (2 ^ 64 - 1))).getD s) s
  | none => s

/-- ENCODE_CONFIGURE: accepted, or refused (R364). The first unit of a stream is a random-access point. -/
def execEncodeConfigure (engine stream : Nat) (cfg : StreamCfg) (s : State) : Out :=
  if s.boot ≠ .running then .refused (.notDue "ENCODE_CONFIGURE")
  else if s.streamOk engine stream cfg then
    let frame := match s.sourceOf cfg with | some h => h.frame | none => 0
    (.next (({ s with streams := (s.streams.filter fun x => !(x.engine == engine && x.stream == stream)) ++
      [{ engine := engine, stream := stream, cfg := cfg, auPos := 0, lengths := [], written := 0, taken := 0, nextKey := true,
         nextFrame := frame, cands := [], clk := [] }] } : State).clearWords cfg))
  else .next (s.respond (.vf (s.engineSlice engine)) .refusedConfig)

def State.stream? (s : State) (engine stream : Nat) : Option Stream :=
  s.streams.find? fun x => x.engine == engine && x.stream == stream

def State.modStream (s : State) (engine stream : Nat) (f : Stream → Stream) : State :=
  { s with streams := s.streams.map fun x => if x.engine = engine ∧ x.stream = stream then f x else x }

/-- A component of a vector in the codec's precision: RNE of the exact quotient of 1/16 pixels (R365). -/
def codecVec (codec : Codec) (d : Int) : Int :=
  let q : Int := match codec with | .av1 => 2 | _ => 4
  let f := d.fdiv q
  let r := 2 * d.fmod q
  if r < q ∨ (r = q ∧ f % 2 = 0) then f else f + 1

/-- The candidate that an entry gives (R290, R365). -/
def entryCand (codec : Codec) (e : Nat) : Option Cand :=
  if e / 2 ^ 62 = 1 then
    some ⟨codecVec codec (disp16 e), codecVec codec (disp16 (e / 2 ^ 16)), e / 2 ^ 48 % 256, e / 2 ^ 32 % 2 ^ 16⟩
  else none

/-- The centres of the encoder blocks of a frame in 1/16 pixel, in row order (R291); the side of a block is the codec's (DESIGN
CHOICE, log 17). -/
def blockCentres (side w h : Nat) : List (Nat × Nat) :=
  (List.range ((h + side - 1) / side)).flatMap fun y =>
    (List.range ((w + side - 1) / side)).map fun x => (16 * side * x + 8 * side, 16 * side * y + 8 * side)

/-- The hints of a frame (R365): where a space's newest field is SEALED, each encoder block takes the entry of the field block
that holds its centre; none where the frame has no hints. -/
def hintRun (i : Item) (codec : Codec) (side w h : Nat) : Eng (Option (List (Option Cand))) := do
  let sp ← readSpatial i i.sa
  match sp.ring with
  | [] => pure none
  | a :: _ => do
    let f ← readField i sp a false false
    stepAcquire i f
    if f.state ≠ 1 then pure none
    else do
      let es ← (blockCentres side w h).mapM fun p => do
        let bx := p.1 / (16 * f.side)
        let by_ := p.2 / (16 * f.side)
        if f.gw ≤ bx ∨ f.gh ≤ by_ then pure none
        else do
          let e ← engNat i false reachAll (f.grid + BitVec.ofNat 64 (8 * (bx + f.gw * by_))) 8
          pure (entryCand codec e)
      pure (some es)

/-- An encoder as it reads a history space, by the steps of HLD (R365). -/
def State.hintItem (s : State) (c : Context) (x : Stream) (space : Nat) : Item :=
  { id := x.unit, ctx := c.id, core := c.slice * (512 / s.cut), party := x.party c.slice, flow := 0, lanes := 0, tok := 0, eff := 0,
    sa := BitVec.ofNat 64 space, sb := 0, vs := [], d := 0, outs := [], drop := [], dropM := false, clk := x.clk, waits := [],
    work := .arrival 0 false 0 }

/-- The hints of a frame, with what the encoder has acquired; a space that cannot be read gives none, and the encoder never
waits. -/
def State.hints (s : State) (c : Context) (x : Stream) (h : DispHead) : Option (List (Option Cand)) × Clock × State :=
  match x.cfg.hints with
  | none => (none, x.clk, s)
  | some a =>
    let i := s.hintItem c x a
    let r := (hintRun i x.cfg.codec (Config.encoderBlock s.tick + 1) h.cfg.width h.cfg.height).attempt i s
    match r.1 with
    | .ok es => (es, r.2.clk, r.2.s)
    | .error _ => (none, x.clk, r.2.s)

/-- The second dword of a completion entry (R371). -/
def entryWord (frame stream : Nat) (hinted key : Bool) (bytes : Nat) : Nat :=
  frame % 2 ^ 24 * 2 ^ 40 + stream * 2 ^ 38 + hinted.toNat * 2 ^ 37 + key.toNat * 2 ^ 36 + bytes % 2 ^ 36

/-- The bytes of an access unit in its ring, which may wrap; they are the codec's (DESIGN CHOICE, log 17). -/
def State.writeUnit (s : State) (c : Context) (x : Stream) (n : Nat) : State :=
  let bs := (List.range n).map fun i => Config.unitByte s.tick i
  let first := min n (x.cfg.auBytes - x.auPos)
  let ok (e : TlbEntry) : Bool := surfacePage e
  let s := (s.ctlWrite c ok (x.cfg.auRing + x.auPos) (bs.take first)).getD s
  (s.ctlWrite c ok x.cfg.auRing (bs.drop first)).getD s

/-- An access unit with its completion entry, a release at SLICE scope after the unit's bytes (R364, R371). -/
def State.encodeUnit (s : State) (c : Context) (x : Stream) (src : DispHead) (n : Nat) : State :=
  let h := s.hints c x src
  let s := h.2.2.writeUnit c x n
  let clk := Clock.join h.2.1 src.clk
  let key := x.nextKey || Config.unitKey s.tick
  let entry := leBytes 8 (x.cfg.auRing + x.auPos) ++ leBytes 8 (entryWord x.nextFrame x.stream h.1.isSome key n)
  let s := s.writeRelease c surfacePage (x.party c.slice) (unitRelease x.unit (s.unitCount x.unit) clk)
    (x.cfg.ceRing + 16 * (x.written % x.cfg.ceEntries)) entry
  (s.unitReleased x.unit).modStream x.engine x.stream fun y =>
    { y with auPos := (y.auPos + n) % y.cfg.auBytes, lengths := y.lengths ++ [n], written := y.written + 1, nextKey := false
             nextFrame := y.nextFrame + 1, cands := h.1.getD [], clk := clk }

/-- ACCESS_UNIT_WRITE: the next frame of the source is encoded, or skipped where a ring is full, and the next unit then is
a random-access point (R371). -/
def execAccessUnitWrite (engine stream : Nat) (s : State) : Out :=
  match s.stream? engine stream with
  | none => .refused (.notDue "ACCESS_UNIT_WRITE")
  | some x =>
    match s.context? x.cfg.ctx, s.sourceOf x.cfg with
    | some c, some h =>
      if h.frame ≤ x.nextFrame then .refused (.notDue "ACCESS_UNIT_WRITE")
      else
        let n := Config.unitLength s.tick % 2 ^ 36
        if x.written - x.taken < x.cfg.ceEntries ∧ x.lengths.sum + n ≤ x.cfg.auBytes then .next (s.encodeUnit c x h n)
        else .next (s.modStream engine stream fun y => { y with nextKey := true, nextFrame := y.nextFrame + 1 })
    | _, _ => .refused (.notDue "ACCESS_UNIT_WRITE")

/-- What the tenant has written to a word that returns space, and the releases it carries (R371). -/
def State.returnWord (s : State) (c : Context) (x : Stream) (va : Nat) : Option (Nat × List RelHead) :=
  match s.unitLocs c surfacePage (unitAccess x.unit (s.unitCount x.unit) false false) x.clk va 8 with
  | some [l] => some (s.readNat (unitReader x.unit x.clk false) l.1 8, s.readHeads (unitReader x.unit x.clk false) l.1 8)
  | _ => none

/-- The indices of the last unit and of the last entry that a tenant has written to the words of a stream. -/
def State.returned (s : State) (c : Context) (x : Stream) : Option (Nat × Nat × List RelHead) :=
  match s.returnWord c x x.cfg.auWord, s.returnWord c x x.cfg.ceWord with
  | some a, some b => some (a.1, b.1, a.2 ++ b.2)
  | _, _ => none

/-- Whether indices return space that was not yet returned; entries and units are counted from 0 (DESIGN CHOICE, log 17). -/
def Stream.returns (x : Stream) (au ce : Nat) : Bool :=
  decide (au < x.written) && decide (ce < x.written) && decide (x.taken ≤ ce + 1)

/-- RING_RETURN: the encoder finds the indices of the last unit and of the last entry that the tenant has consumed in the words
that Gularo OS names (R371). -/
def execRingReturn (engine stream auIndex ceIndex : Nat) (s : State) : Out :=
  match s.stream? engine stream with
  | none => .refused (.notDue "RING_RETURN")
  | some x =>
    match (s.context? x.cfg.ctx).bind fun c => (s.returned c x).map fun r => (c, r) with
    | none => .refused (.notDue "RING_RETURN")
    | some (c, r) =>
      if r.1 = auIndex ∧ r.2.1 = ceIndex ∧ x.returns auIndex ceIndex = true then
        .next (s.modStream engine stream fun y =>
          { y with taken := ceIndex + 1, lengths := y.lengths.drop (auIndex + 1 - (y.written - y.lengths.length))
                   clk := acquireFrom (y.party c.slice) .slice r.2.2 y.clk })
      else .refused (.notDue "RING_RETURN")

/-! ## The slice cut (R359) -/

/-- The frames that heads are reading are finished. -/
def State.drainHeads (s : State) : State :=
  s.heads.foldl (fun s h =>
    match s.context? h.cfg.ctx, h.latched with
    | some c, some ps => s.endFrame c h ps
    | _, _ => s) s

/-- Streams whose composed frames are not encoded yet: their work is cancelled and reported (R23). -/
def State.dropStreams (s : State) : State :=
  s.streams.foldl (fun s x =>
    match s.sourceOf x.cfg with
    | some h => if x.nextFrame < h.frame then s.report (.cancelled x.engine x.stream true) else s
    | none => s) s

/-- A change of the cut drains and resets the display and encode engines, and drops every installed translation, since a page
may now lie outside its slice (R31, R359, R360). Contexts, queue bindings and launches stay as they are (DESIGN CHOICE, log 47). -/
def State.setCut (s : State) (slices : Nat) : State :=
  { s.drainHeads.dropStreams with cut := slices, heads := [], streams := [], tlb1 := [], tlb2 := [] }

/-- SLICE_CUT_CHANGE: only with no team resident (R359). What existed under the old cut keeps its slice number (R30; DESIGN CHOICE,
log 47). -/
def execSliceCutChange (slices : Nat) (s : State) : Out :=
  if s.boot = .running ∧ [1, 2, 4, 8].contains slices ∧ s.teams.all fun t => t.core.isNone then
    .next (s.setCut slices).measureSlices
  else .refused (.notDue "SLICE_CUT_CHANGE")

/-! ## REPLAY (R370) -/

/-- The queue a replay uses: the packet's own, or another bound to the context. -/
def State.replayQueue (s : State) (c : Context) (p : List Word) : Option Nat :=
  if s.queueCtx c.slice (pktQueue p) = some c.id then some (pktQueue p)
  else (s.queues.find? fun q => q.1 == c.slice && q.2.2 == c.id).map fun q => q.2.1

/-- The captured regions are written back. -/
def State.writeInputs (s : State) (c : Context) (rs : List (Nat × List Byte)) : Option State :=
  rs.foldl (fun (x : Option State) r => x.bind fun s => s.ctlWrite c (fun _ => true) r.1 r.2) (some s)

/-- REPLAY: the slice goes into deterministic mode, the inputs are written back and the packet is enqueued. -/
def execReplay (capture : Nat) (s : State) : Out :=
  match s.captures.find? fun x => x.id == capture with
  | none => .refused (.notDue "REPLAY")
  | some cap =>
    match s.context? cap.ctx with
    | none => .refused (.notDue "REPLAY")
    | some c =>
      match s.replayQueue c cap.packet, s.writeInputs c cap.inputs with
      | some q, some t =>
        if cap.incomplete || s.sliceBusy c.slice || 1024 ≤ s.queueLen c.slice q then .refused (.notDue "REPLAY")
        else
          let p := cap.packet.set 3 (BitVec.ofNat 64 ((pktWord cap.packet 3).toNat / 64 * 64 + q))
          .next ({ t with det := addOnce c.slice t.det }.enqueue c (2 ^ 53) p [] [])
      | _, _ => .refused (.notDue "REPLAY")

end Sys2Proof.Machine
end

