-- ==== Sys2Proof/Machine/Boot.lean ====
section
/-!
DEFINITION. Module reset, boot and measurement (R367 to R369), SPDM on the host link (R368), links and windows (R15, R31,
R372), clocks and the start of clusters (R373, R374), and an uncorrectable error of the Millers (R375).
-/
namespace Sys2Proof.Machine

/-! ## Reset and boot -/

/-- MODULE_RESET: the state right after module reset. The fuses, the flash, the rollback request recorded for the next boot,
the links and the events still to come from outside stay. -/
def execModuleReset (s : State) : Out :=
  .next { State.reset with
    tick := s.tick, inputs := s.inputs, flash := s.flash, fuses := s.fuses, rollback := s.rollback, linksDown := s.linksDown }

/-- The image that stage `k` verifies: that of stage `k + 1` (R367). -/
def State.imageOf (s : State) (k : Nat) : Option FlashImage := s.flash[k]?

/-- The check of an image by stage `k`: the signature under the root key or the firmware key, and the security version. -/
def imageOk (k fuses : Nat) (i : FlashImage) : Bool :=
  let d := sha256 i.payload
  (if k = 0 then rsaVerify Config.rootModulus Config.rootExponent d i.signature
   else rsaVerify Config.firmwareModulus Config.firmwareExponent d i.signature)
    && decide (i.secVer ≤ 64) && decide (fuses ≤ i.secVer)

/-- Extends a measurement register. -/
def State.measure (s : State) (k : Nat) (digest : BitVec 256) : State :=
  { s with meas := vset s.meas k (extendMeas (vget s.meas k 0) digest) }

/-- Stage 1 raises the rollback counter to the lower of the request and the security version it has verified (R369). -/
def State.blowFuses (s : State) (secVer : Nat) : State :=
  match s.rollback with
  | some r => { s with fuses := max s.fuses (min r secVer), rollback := none }
  | none => s

/-- A stage hands over: the boot ROM's own measurement at stage 0, that of the next image, the fuses at stage 1, and the
start of Gularo OS's service after stage 3 has been verified. -/
def State.handOver (s : State) (k : Nat) (i : FlashImage) : State :=
  let s := if k = 0 then s.measure 0 Config.romDigest else s
  let s := if k = 1 then s.blowFuses i.secVer else s
  let s := s.measure (k + 1) (sha256 i.payload)
  if k = 2 then { s with boot := .running }.measureSlices else { s with boot := .atStage (k + 1) }

/-- BOOT_STAGE: a stage verifies, measures and runs the next image, or boot stops and only recovery remains. -/
def execBootStage (s : State) : Out :=
  match s.boot with
  | .atStage k =>
    (match s.imageOf k with
     | some i => if imageOk k s.fuses i then .next (s.handOver k i) else .next { s with boot := .recovery }
     | none => .next { s with boot := .recovery })
  | _ => .refused (.notDue "BOOT_STAGE")

/-- Whether images fit the 1 GiB flash (R1, R367). -/
def flashFits (images : List FlashImage) : Bool := decide ((images.map fun i => i.payload.length).sum ≤ 2 ^ 30)

/-- RECOVERY_FLASH_IMAGE: the recovery function accepts a new flash image and nothing else (R367). -/
def execRecoveryFlashImage (images : List FlashImage) (s : State) : Out :=
  if s.boot = .recovery ∧ flashFits images = true then .next { s with flash := images } else .refused (.notDue "RECOVERY_FLASH_IMAGE")

/-- ROLLBACK_REQUEST: recorded when it comes through the physical function, never through another (R369). -/
def execRollbackRequest (who : Requester) (value : Nat) (s : State) : Out :=
  if s.boot ≠ .running then .refused (.notDue "ROLLBACK_REQUEST")
  else if who = .pf then .next { s with rollback := some value }
  else .next (s.respond who .unsupported)

/-! ## SPDM (R368) -/

/-- Whether a requester is a function of the host link whose device answers. -/
def State.answers (s : State) (who : Requester) : Bool :=
  s.boot == .running && !s.linksDown.contains .host &&
    (match who with | .pf => true | .vf k => decide (k < s.cut) | _ => false)

/-- An SPDM answer, where the requester may ask. -/
def State.spdm (s : State) (who : Requester) (name : String) (r : Response) : Out :=
  if s.answers who then .next (s.respond who r) else .refused (.notDue name)

/-- Whether a requester has negotiated the algorithms. -/
def State.negotiated (s : State) (who : Requester) : Bool := s.spdmAlgs.contains who

def execGetVersion (who : Requester) (s : State) : Out := s.spdm who "GET_VERSION" (.version Config.spdmVersion)

def execGetCapabilities (who : Requester) (s : State) : Out :=
  s.spdm who "GET_CAPABILITIES" (.capabilities Config.spdmCapabilities)

/-- NEGOTIATE_ALGORITHMS: RSASSA-3072 with SHA-256 only. -/
def execNegotiateAlgorithms (who : Requester) (algs : SpdmAlgs) (s : State) : Out :=
  if algs.rsassa3072 && algs.sha256 then
    if s.answers who then .next ({ s with spdmAlgs := addOnce who s.spdmAlgs }.respond who .algorithms)
    else .refused (.notDue "NEGOTIATE_ALGORITHMS")
  else s.spdm who "NEGOTIATE_ALGORITHMS" .unsupported

/-- GET_DIGESTS: the digest of slot 0's chain. -/
def execGetDigests (who : Requester) (s : State) : Out :=
  s.spdm who "GET_DIGESTS" (if s.negotiated who then .digest (sha256 Config.certChain) else .unsupported)

/-- GET_CERTIFICATE: slot 0 only. -/
def execGetCertificate (who : Requester) (slot : Nat) (s : State) : Out :=
  s.spdm who "GET_CERTIFICATE"
    (if s.negotiated who && slot == 0 then .certificate Config.certChain else .unsupported)

/-- The bytes of a nonce. -/
def nonceBytes (nonce : BitVec 256) : List Byte := beBytes 32 nonce.toNat

/-- CHALLENGE: an answer signed with the device identity key over slot 0's digest and the nonce. -/
def execChallenge (who : Requester) (slot : Nat) (nonce : BitVec 256) (s : State) : Out :=
  s.spdm who "CHALLENGE"
    (if s.negotiated who && slot == 0 then
      .auth nonce (Config.identitySign (beBytes 32 (sha256 Config.certChain).toNat ++ nonceBytes nonce))
     else .unsupported)

/-- The measurements a function may see: all through the physical function; MEAS[0] to MEAS[4] and its own slice's through
a virtual function. -/
def State.measFor (s : State) (who : Requester) : List (Nat × BitVec 256) :=
  let ks := match who with | .pf => List.range 13 | .vf k => [0, 1, 2, 3, 4, 5 + k] | _ => []
  ks.map fun k => (k, vget s.meas k 0)

/-- The bytes of measurements, as they are signed. -/
def measBytes (ms : List (Nat × BitVec 256)) : List Byte := ms.flatMap fun m => BitVec.ofNat 8 m.1 :: beBytes 32 m.2.toNat

/-- GET_MEASUREMENTS: signed with the device identity key. -/
def execGetMeasurements (who : Requester) (nonce : BitVec 256) (s : State) : Out :=
  s.spdm who "GET_MEASUREMENTS"
    (if s.negotiated who then
      .measurements nonce (s.measFor who) (Config.identitySign (measBytes (s.measFor who) ++ nonceBytes nonce))
     else .unsupported)

/-! ## Links and windows (R15, R31, R372) -/

/-- Whether a module has a link: the host link and 16 Mukai ports (R1, R372). -/
def hasLink : Link → Bool
  | .host => true
  | .mukai p => decide (p < 16)

/-- LINK_DOWN: accesses outstanding over the link fail with cause 0x60 where they are performed while it is down. -/
def execLinkDown (link : Link) (s : State) : Out :=
  if hasLink link then .next { s with linksDown := addOnce link s.linksDown } else .refused (.notDue "LINK_DOWN")

/-- LINK_UP. -/
def execLinkUp (link : Link) (s : State) : Out :=
  if hasLink link then .next { s with linksDown := s.linksDown.filter fun l => l != link } else .refused (.notDue "LINK_UP")

/-- The slice whose MAIN memory a requester's window reaches: its own slice through a virtual function, the slice that the
window names through a Mukai port; the physical function has none (R31, R372). -/
def State.windowSlice (s : State) (who : Requester) : Option Nat :=
  let k := match who with | .pf => 0 | .vf k => k + 1 | .peer p => if p < 16 then Config.peerSlice p else 0 | _ => 0
  if k = 0 ∨ s.cut < k then none else some (k - 1)

/-- Whether the link of a requester is down. -/
def State.requesterDown (s : State) (who : Requester) : Bool :=
  match who with
  | .peer p => s.linksDown.contains (.mukai p)
  | .debugShared _ | .debugPages _ => false
  | _ => s.linksDown.contains .host

/-- What a control core reads or writes through a debug window on a team's shared memory (R15); a split that sleeps on a queue
object there tests it again. -/
def State.debugShared (s : State) (u addr : Nat) (write : Option (List Byte)) (n : Nat) : State × Response :=
  let fits := match s.team? u with | some t => t.core.isSome && decide (addr + n ≤ t.shBytes) | none => false
  if !fits then (s, .linkError)
  else
    match write with
    | some bs =>
      let l := Loc.sh u addr
      (((l.keys n).foldl (fun s k => s.setHeads k false []) (s.homeWrite (0, 0) l bs)).touchQueue u addr n, .windowWritten)
    | none => if s.badShared u addr n then (s, .linkError) else (s, .windowData (Memory.bytes (s.sharedOf u) addr n))

/-- What a control core reads or writes through a debug window on a context's pages of every kind, its spill stacks among them
(R15). -/
def State.debugPages (s : State) (ctx addr : Nat) (write : Option (List Byte)) (n : Nat) : State × Response :=
  match s.context? ctx with
  | none => (s, .linkError)
  | some c =>
    let ok (e : TlbEntry) : Bool := (s.farCause e e.frame).isNone
    match write with
    | some bs => (match s.ctlWrite c ok addr bs with | some t => (t, .windowWritten) | none => (s, .linkError))
    | none => (match s.ctlBytes c ok addr n with | some bs => (s, .windowData bs) | none => (s, .linkError))

/-- An access through a host or peer window: MAIN memory of the window's slice alone (R15, R31). -/
def State.windowAccess (s : State) (who : Requester) (addr : Nat) (write : Option (List Byte)) (n : Nat) : State × Response :=
  match s.windowSlice who with
  | none => (s, .linkError)
  | some slice =>
    if s.requesterDown who || !inMain s.cut slice addr n then (s, .linkError)
    else
      match write with
      | some bs => (s.ctlPoke addr bs, .windowWritten)
      | none => if s.badMem addr n then (s, .linkError) else (s, .windowData (Memory.bytes s.mem addr n))

/-- HOST_PEER_WINDOW_ACCESS: bytes that a window reaches are read or written, or the requester receives a link error (R15). The
control cores' debug windows are of this event too. -/
def execHostPeerWindowAccess (who : Requester) (addr : Nat) (write : Option (List (BitVec 8))) (len : Nat) (s : State) : Out :=
  let n := match write with | some bs => bs.length | none => len
  let x : State × Response :=
    if s.boot ≠ .running then (s, .linkError)
    else
      match who with
      | .debugShared u => s.debugShared u addr write n
      | .debugPages c => s.debugPages c addr write n
      | _ => s.windowAccess who addr write n
  .next (x.1.respond who x.2)

/-! ## Clocks and clusters (R373, R374) -/

/-- The clock of a block in sixteenths of nominal. -/
def State.clockOf (s : State) (b : ClockBlock) : Nat := match s.clocks.find? fun x => x.1 == b with | some x => x.2 | none => 16

def State.setClock (s : State) (b : ClockBlock) (n : Nat) : State :=
  { s with clocks := (s.clocks.filter fun x => x.1 != b) ++ (if n = 16 then [] else [(b, n)]) }

/-- Whether a module has a block (R1, R13, R30). -/
def hasBlock : ClockBlock → Bool
  | .cluster n => decide (n < 128)
  | .core n => decide (n < 512)
  | .matrix n => decide (n < 128)
  | .store n => decide (n < 8)
  | .hbm n => decide (n < 8)

/-- CLOCK_LOWER: one step of 1/16 of nominal, down to 4/16. -/
def execClockLower (block : ClockBlock) (s : State) : Out :=
  if 4 < s.clockOf block ∧ hasBlock block = true then .next (s.setClock block (s.clockOf block - 1)) else .refused (.notDue "CLOCK_LOWER")

/-- CLOCK_RAISE: one step back towards nominal. -/
def execClockRaise (block : ClockBlock) (s : State) : Out :=
  if s.clockOf block < 16 ∧ hasBlock block = true then .next (s.setClock block (s.clockOf block + 1)) else .refused (.notDue "CLOCK_RAISE")

/-- The unit of a kind that starts next in a slice: the lowest that has not started (R30, R374). -/
def State.nextStart (s : State) (k : StartKind) (slice : Nat) : Option Nat :=
  let per := 8 / s.cut
  ((List.range per).map fun i => slice * per + i).findSome? fun e =>
    let n := (vget s.started e ⟨0, 0, 0⟩).get k
    if n < k.size then some (e * k.size + n) else none

/-- A unit starts. -/
def State.start (s : State) (k : StartKind) (n : Nat) : State :=
  let e := n / k.size
  { s with started := vset s.started e ((vget s.started e ⟨0, 0, 0⟩).set k (n % k.size + 1)) }

/-- The slice that owns a unit of a kind (R30). -/
def State.startSlice (s : State) (k : StartKind) (n : Nat) : Nat := n / k.size / (8 / s.cut)

/-- CLUSTER_START: the clusters of a slice start in ascending order (R374). -/
def execClusterStart (cluster : Nat) (s : State) : Out :=
  if s.boot = .running ∧ s.nextStart .cluster (s.startSlice .cluster cluster) = some cluster then .next (s.start .cluster cluster)
  else .refused (.notDue "CLUSTER_START")

/-- The next matrix engine or store-die bank of a slice starts. -/
def State.startNext (s : State) (k : StartKind) (slice : Nat) : State :=
  match s.nextStart k slice with | some n => s.start k n | none => s

/-- Whether a slice may enter its idle state: it has nothing to do (R374; DESIGN CHOICE, log 47). -/
def State.idleDue (s : State) (slice : Nat) : Bool :=
  s.teams.all (fun t => t.slice != slice) && s.grids.all (fun g => g.slice != slice || g.state == .complete)
    && (s.nextStart .cluster slice).isNone

/-- A slice enters its idle state: its units start again when it wakes. -/
def State.idle (s : State) (slice : Nat) : State :=
  let per := 8 / s.cut
  { s with started := Vector.ofFn fun (e : Fin 8) => if e.val / per = slice then ⟨0, 0, 0⟩ else s.started[e.val] }

/-! ## The Millers (R375) -/

/-- MILLER_UNCORRECTABLE: every slice is halted, and each context is reported as killed. -/
def execMillerUncorrectable (s : State) : Out := .next s.millersFail

end Sys2Proof.Machine
end

