-- ==== Sys2Proof/Machine/Lanes.lean ====
section
/-!
DEFINITION. Cross-lane instructions (R115, R116, R138 to R144).
-/
namespace Sys2Proof.Machine

/-- Whether a source lane answers with its register (R138): launched, and not exited in service mode. -/
def View.laneThere (v : View) (sl : Nat) : Bool :=
  v.g.launched.getLsbD sl && (!v.svc || v.g.live.getLsbD sl)

/-- SRC of R138: sub-element `ss` of a lane of register `r`, as `w` bits. -/
def View.crossSub (v : View) (r w sl ss : Nat) : Nat :=
  if subCount w ≤ ss || !v.laneThere sl || inRuns v.heldV r || !(v.vLive r).getLsbD sl then poison.toNat % 2 ^ w
  else subElem w ss (lane (v.vraw r) sl)

/-- The (destination, source) pairs that read a register, for DEADRD (R138). -/
def View.crossReads (v : View) (m : Mask) (w : Nat) (srcs : Nat → List (Nat × Nat)) : List (Nat × Nat) :=
  (lanesOf m).flatMap fun l => (srcs l).filterMap fun p =>
    if decide (p.2 < subCount w) && v.laneThere p.1 then some (l, p.1) else none

/-- A cross-lane move: each destination sub-element `(l, s)` takes source `(lane, sub-element)` (R139, R140). -/
def View.crossMove (v : View) (d : Nat) (a : Src) (extra : List Opnd) (kills : List (Nat × Mask)) (ahead : BitVec 4)
    (m : Mask) (src : Nat → Nat → Nat × Nat) : Out :=
  let w := tyWidth v.et
  let reads := v.crossReads m w fun l => (List.range (subCount w)).map (src l)
  v.issue none false m (opWr d :: { opRd a.reg with reads := some reads } :: extra) fun v st =>
    v.laneLater st d m (killsOf m [a] ++ kills) ahead fun l => mapSubs w fun s =>
      (v.crossSub a.reg w (src l s).1 (src l s).2, flNone)

/-- The registers of B that hold an XPERM's indices (R139). -/
def permRun (w : Nat) : Nat := if 16 ≤ w then 1 else 16 / w

/-- The nine index bits of destination sub-element `s` of a lane (R139). -/
def permIndex (w s : Nat) (idx : List Word) : Nat :=
  if 16 ≤ w then subElem w s (idx.getD 0 0) % 512 else subElem 16 (s % 4) (idx.getD (s / 4) 0) % 512

def execXperm (d : BitVec 7) (a b : VSrc) (ahead : BitVec 4) (s : State) : Out :=
  withIssuer s 2 fun v =>
    let m := v.eff false
    let w := tyWidth v.et
    let nb := permRun w
    let bs := (List.range nb).map fun i => v.rdV (b.reg.toNat + i)
    v.crossMove d.toNat (vsrc a) [opRun b.reg.toNat nb true]
      (if b.last then (List.range nb).map fun i => (b.reg.toNat + i, m) else []) ahead m fun l s =>
        let x := permIndex w s (bs.map fun y => lane y l)
        (x % 32, x / 32)

def execXbfly (d : BitVec 7) (a : VSrc) (x : BitVec 5) (ahead : BitVec 4) (s : State) : Out :=
  withIssuer s 2 fun v => v.crossMove d.toNat (vsrc a) [] [] ahead (v.eff false) fun l s => (l ^^^ x.toNat, s)

def execXbcast (d : BitVec 7) (a : VSrc) (x : BitVec 5) (ahead : BitVec 4) (s : State) : Out :=
  withIssuer s 2 fun v => v.crossMove d.toNat (vsrc a) [] [] ahead (v.eff false) fun _ s => (x.toNat, s)

/-! ## Reductions and scans -/

/-- The operation at a node (R93, R115). -/
def redOp : ROp → SubOp
  | .add => opAdd
  | .min => opMinMax false
  | .max => opMinMax true
  | .and => opBits fun x y => x &&& y
  | .or => opBits fun x y => x ||| y
  | .xor => opBits fun x y => x ^^^ y

/-- The types a reduction takes (R141). -/
def okRed (o : ROp) (t : ETy) : Bool :=
  match o with
  | .add | .min | .max => okArith t
  | .and | .or | .xor => okInt t

/-- The result when every element is absent (R115). -/
def redIdentity (o : ROp) (t : ETy) : Nat :=
  let w := tyWidth t
  match tyFmt t, o with
  | some F, .min => F.infBits
  | some F, .max => F.signBit true + F.infBits
  | some _, _ => 0
  | none, .min => wrapInt w (intMax (tySigned t) w)
  | none, .max => wrapInt w (intMin (tySigned t) w)
  | none, .and => 2 ^ w - 1
  | none, _ => 0

/-- COMB of R115. -/
def comb (f : Nat → Nat → Nat × Flags) (a b : Option Nat) : Option Nat × Flags :=
  match a, b with
  | a, none => (a, 0)
  | none, some y => (some y, 0)
  | some x, some y => (some (f x y).1, (f x y).2)

/-- One level of the tree. -/
def treeLevel (f : Nat → Nat → Nat × Flags) : List (Option Nat) → List (Option Nat) × Flags
  | a :: b :: t =>
    let c := comb f a b
    let r := treeLevel f t
    (c.1 :: r.1, c.2 ||| r.2)
  | xs => (xs, 0)

/-- TREE of R115, level by level, over a list of `2^k` elements. -/
def treeRed (f : Nat → Nat → Nat × Flags) : Nat → List (Option Nat) → Option Nat × Flags
  | 0, xs => ((xs.head?).join, 0)
  | k + 1, xs =>
    let l := treeLevel f xs
    let r := treeRed f k l.1
    (r.1, l.2 ||| r.2)

/-- The elements of a register under a mask, flattened (R141). -/
def View.elements (v : View) (r : Nat) (m : Mask) : List (Option Nat) :=
  let w := tyWidth v.et
  (List.range 32).flatMap fun l => (List.range (subCount w)).map fun s =>
    if m.getLsbD l then some (v.crossSub r w l s) else none

/-- The levels of a tree over 32 lanes of an element type. -/
def treeDepth (t : ETy) : Nat := 5 + (subCount (tyWidth t)).log2

/-- XRED: one result in every sub-element of the EFFMASK lanes (R141). -/
def bodyXred (d : Nat) (a : Src) (o : ROp) (v : View) : Out :=
  let m := v.eff false
  v.issue none (!okRed o v.et) m [opWr d, opRd a.reg] fun v st =>
    let r := treeRed (fun x y => redOp o v.et v.rm v.sat x y 0) (treeDepth v.et) (v.elements a.reg m)
    let x := r.1.getD (redIdentity o v.et)
    v.laneWrite st d m (killsOf m [a]) fun _ => mapSubs (tyWidth v.et) fun _ => (x, r.2)

/-- The elements kept for a scan at index `e` (R116). -/
def scanKeep (incl : Bool) (e : Nat) (xs : List (Option Nat)) : List (Option Nat) :=
  xs.zipIdx.map fun p => if p.2 < e || (incl && p.2 == e) then p.1 else none

/-- XSCAN: a tree for each index (R116, R142). -/
def bodyXscan (d : Nat) (a : Src) (o : ROp) (incl : Bool) (v : View) : Out :=
  let m := v.eff false
  v.issue none (!okRed o v.et) m [opWr d, opRd a.reg] fun v st =>
    let xs := v.elements a.reg m
    let n := subCount (tyWidth v.et)
    v.laneWrite st d m (killsOf m [a]) fun l => mapSubs (tyWidth v.et) fun s =>
      let r := treeRed (fun x y => redOp o v.et v.rm v.sat x y 0) (treeDepth v.et) (scanKeep incl (n * l + s) xs)
      (r.1.getD (redIdentity o v.et), r.2)

/-- XPSUM: counts of set mask bits below each lane (R143). -/
def bodyXpsum (d ma : Nat) (incl : Bool) (v : View) : Out :=
  let m := v.eff false
  v.issue none false m [opWr d, opMr ma] fun v st =>
    let x := v.rdM ma
    v.laneWrite st d m [] fun l =>
      (BitVec.ofNat 64 (((List.range (if incl then l + 1 else l)).filter fun i => x.getLsbD i).length), 0)

/-- VTOS: the lowest EFFMASK lane of A (R144). -/
def bodyVtos (sd : Nat) (a : Src) (v : View) : Out :=
  let m := v.eff false
  let low := lowestLane m
  v.issue none false m
      [opSw sd, { opRd a.reg with lanes := some (match low with | some l => BitVec.ofNat 32 (2 ^ l) | none => 0) }]
      fun v st =>
    v.finish st
      { sw := match low with | some l => [(sd, lane (v.rdV a.reg) l)] | none => []
        kills := killsOf m [a] }

/-- STOV: a scalar into every EFFMASK lane (R144). -/
def bodyStov (d sa : Nat) (v : View) : Out :=
  let m := v.eff false
  v.issue none false m [opWr d, opS sa] fun v st => v.finish st { vw := [(d, m, LaneVec.splat (v.rdS sa))] }

def execXred (d : BitVec 7) (a : VSrc) (o : ROp) (s : State) : Out := withIssuer s 1 (bodyXred d.toNat (vsrc a) o)
def execXscan (d : BitVec 7) (a : VSrc) (o : ROp) (incl : Bool) (s : State) : Out :=
  withIssuer s 1 (bodyXscan d.toNat (vsrc a) o incl)
def execXpsum (d : BitVec 7) (ma : BitVec 4) (incl : Bool) (s : State) : Out :=
  withIssuer s 1 (bodyXpsum d.toNat ma.toNat incl)
def execVtos (sd : BitVec 6) (a : VSrc) (s : State) : Out := withIssuer s 1 (bodyVtos sd.toNat (vsrc a))
def execStov (d : BitVec 7) (sa : BitVec 6) (s : State) : Out := withIssuer s 1 (bodyStov d.toNat sa.toNat)

end Sys2Proof.Machine
end

