-- ==== Sys2Proof/Machine/Rep.lean ====
section
/-!
DEFINITION. The REP prefix (R68, R157 to R159). A step runs one iteration: between iterations the PC stays at the REP word
and REPI holds the next one.
-/
namespace Sys2Proof.Machine

/-- A repeated instruction: which of D, A and B are register operands (R68), and its run with each of them advanced. -/
structure RepForm where
  d   : Bool
  a   : Bool
  b   : Bool
  run : Nat → Nat → Nat → View → Out

/-- A source field advanced by `n` registers. -/
def vsrcPlus (a : VSrc) (n : Nat) : Src := ⟨a.reg.toNat + n, a.last⟩

def rep3 (d : BitVec 7) (a b : VSrc) (f : Nat → Src → Src → View → Out) : RepForm :=
  ⟨true, true, true, fun i j k => f (d.toNat + i) (vsrcPlus a j) (vsrcPlus b k)⟩

def rep1 (d : BitVec 7) (a : VSrc) (f : Nat → Src → View → Out) : RepForm :=
  ⟨true, true, false, fun i j _ => f (d.toNat + i) (vsrcPlus a j)⟩

def repS3 (d a b : BitVec 6) (f : Nat → Nat → Nat → View → Out) : RepForm :=
  ⟨true, true, true, fun i j k => f (d.toNat + i) (a.toNat + j) (b.toNat + k)⟩

/-- Scalar and mask forms of two register fields, each widened by its caller. -/
def rep2 (d a : Nat) (f : Nat → Nat → View → Out) : RepForm := ⟨true, true, false, fun i j _ => f (d + i) (a + j)⟩

/-- The one-word instructions of formats V3, VI, VC, S3 and SI (R68); none for any other. -/
def repForm : Instr → Option RepForm
  | .vadd d a b => some (rep3 d a b bodyVadd)
  | .vsub d a b => some (rep3 d a b bodyVsub)
  | .vmul d a b => some (rep3 d a b bodyVmul)
  | .vmulh d a b => some (rep3 d a b bodyVmulh)
  | .vfma d a b => some (rep3 d a b bodyVfma)
  | .vfms d a b => some (rep3 d a b bodyVfms)
  | .vmin d a b => some (rep3 d a b bodyVmin)
  | .vmax d a b => some (rep3 d a b bodyVmax)
  | .vand d a b => some (rep3 d a b bodyVand)
  | .vor d a b => some (rep3 d a b bodyVor)
  | .vxor d a b => some (rep3 d a b bodyVxor)
  | .vshl d a b => some (rep3 d a b bodyVshl)
  | .vshr d a b => some (rep3 d a b bodyVshr)
  | .vsel d a b => some (rep3 d a b bodyVsel)
  | .vabsd d a b => some (rep3 d a b bodyVabsd)
  | .vbfx d a b => some (rep3 d a b bodyVbfx)
  | .vbfi d a b => some (rep3 d a b bodyVbfi)
  | .vlerp d a b => some (rep3 d a b bodyVlerp)
  | .vaddi d a k => some (rep1 d a fun d a => bodyVaddi d a k)
  | .vmuli d a k => some (rep1 d a fun d a => bodyVmuli d a k)
  | .vshli d a k => some (rep1 d a fun d a => bodyVshli d a k)
  | .vshri d a k => some (rep1 d a fun d a => bodyVshri d a k)
  | .vandi d a k => some (rep1 d a fun d a => bodyVandi d a k)
  | .vmov d a => some (rep1 d a bodyVmov)
  | .vneg d a => some (rep1 d a bodyVneg)
  | .vabs d a => some (rep1 d a bodyVabs)
  | .vpopc d a => some (rep1 d a bodyVpopc)
  | .vclz d a => some (rep1 d a bodyVclz)
  | .vclass d a => some (rep1 d a bodyVclass)
  | .vcvt d a t r sat => some (rep1 d a fun d a => bodyVcvt d a t r sat)
  | .vrint d a r => some (rep1 d a fun d a => bodyVrint d a r)
  | .xred d a o => some (rep1 d a fun d a => bodyXred d a o)
  | .xscan d a o i => some (rep1 d a fun d a => bodyXscan d a o i)
  | .xpsum d ma i => some (rep2 d.toNat ma.toNat fun d a => bodyXpsum d a i)
  | .vtos sd a => some ⟨true, true, false, fun i j _ => bodyVtos (sd.toNat + i) (vsrcPlus a j)⟩
  | .stov d sa => some (rep2 d.toNat sa.toNat bodyStov)
  | .sadd d a b => some (repS3 d a b bodySadd)
  | .ssub d a b => some (repS3 d a b bodySsub)
  | .smul d a b => some (repS3 d a b bodySmul)
  | .smulh d a b => some (repS3 d a b bodySmulh)
  | .sand d a b => some (repS3 d a b bodySand)
  | .sor d a b => some (repS3 d a b bodySor)
  | .sxor d a b => some (repS3 d a b bodySxor)
  | .sshl d a b => some (repS3 d a b bodySshl)
  | .sshr d a b => some (repS3 d a b bodySshr)
  | .ssra d a b => some (repS3 d a b bodySsra)
  | .smin d a b => some (repS3 d a b bodySmin)
  | .smax d a b => some (repS3 d a b bodySmax)
  | .smov d a => some (rep2 d.toNat a.toNat bodySmov)
  | .saddi d a k => some (rep2 d.toNat a.toNat fun d a => bodySaddi d a k)
  | .mtos sd ma => some (rep2 sd.toNat ma.toNat bodyMtos)
  | .mcnt sd ma => some (rep2 sd.toNat ma.toNat bodyMcnt)
  | .mffs sd ma => some (rep2 sd.toNat ma.toNat bodyMffs)
  | .stom md sa => some (rep2 md.toNat sa.toNat bodyStom)
  | .srd d idx => some ⟨true, false, false, fun i _ _ => bodySrd (d.toNat + i) idx.toNat⟩
  | .swr idx sa => some ⟨false, true, false, fun _ j _ => bodySwr idx.toNat (sa.toNat + j)⟩
  | _ => none

/-- The form of a repeated word, or none where REP raises ILLOP (R68): two-word, undecodable or of another format, or a
stride for a field that is no register operand. -/
def repChecked (w : W32) (ds as bs : Nat) : Option RepForm :=
  if opWords (opcodeOf w) = 2 then none
  else
    match decodeWords w 0 with
    | .error _ => none
    | .ok i =>
      match repForm i with
      | none => none
      | some f => if (ds = 0 || f.d) && (as = 0 || f.a) && (bs = 0 || f.b) then some f else none

/-- REP: one iteration of the repeated instruction, or its end (R157, R158). -/
def execRep (count : BitVec 6) (dstr astr bstr : BitVec 3) (s : State) : Out :=
  withIssuer s 1 fun v =>
    v.fetch (v.back + 4) fun w v =>
      match repChecked w dstr.toNat astr.toNat bstr.toNat with
      | none => v.trap 0 0x01 0
      | some f =>
        let i := v.repi.toNat
        let after := v.back + 8
        if count = 0 then { v with next := after }.finish 0 {}
        else if count.toNat ≤ i then { v with next := after, repi := 0 }.finish 0 {}
        else
          let v := if i + 1 < count.toNat then { v with next := v.back, repi := v.repi + 1, last := false }
            else { v with next := after, repi := 0 }
          f.run (i * dstr.toNat) (i * astr.toNat) (i * bstr.toNat) v

end Sys2Proof.Machine
end

