-- ==== Sys2Proof/Machine/Dispatch.lean ====
section
/-!
DEFINITION. The meaning of each instruction and event: one arm per constructor of `Instr`.
-/
namespace Sys2Proof.Machine

def exec (i : Instr) (s : State) : Host.Outcome State Fault Refusal :=
  match i with
  | .vadd d a b => Sys2Proof.Machine.execVadd d a b s
  | .vsub d a b => Sys2Proof.Machine.execVsub d a b s
  | .vmul d a b => Sys2Proof.Machine.execVmul d a b s
  | .vmulh d a b => Sys2Proof.Machine.execVmulh d a b s
  | .vfma d a b => Sys2Proof.Machine.execVfma d a b s
  | .vfms d a b => Sys2Proof.Machine.execVfms d a b s
  | .vmin d a b => Sys2Proof.Machine.execVmin d a b s
  | .vmax d a b => Sys2Proof.Machine.execVmax d a b s
  | .vand d a b => Sys2Proof.Machine.execVand d a b s
  | .vor d a b => Sys2Proof.Machine.execVor d a b s
  | .vxor d a b => Sys2Proof.Machine.execVxor d a b s
  | .vshl d a b => Sys2Proof.Machine.execVshl d a b s
  | .vshr d a b => Sys2Proof.Machine.execVshr d a b s
  | .vsel d a b => Sys2Proof.Machine.execVsel d a b s
  | .vabsd d a b => Sys2Proof.Machine.execVabsd d a b s
  | .vdiv d a b ahead => Sys2Proof.Machine.execVdiv d a b ahead s
  | .vrem d a b ahead => Sys2Proof.Machine.execVrem d a b ahead s
  | .vaddi d a imm => Sys2Proof.Machine.execVaddi d a imm s
  | .vmuli d a imm => Sys2Proof.Machine.execVmuli d a imm s
  | .vshli d a imm => Sys2Proof.Machine.execVshli d a imm s
  | .vshri d a imm => Sys2Proof.Machine.execVshri d a imm s
  | .vandi d a imm => Sys2Proof.Machine.execVandi d a imm s
  | .vmov d a => Sys2Proof.Machine.execVmov d a s
  | .vldi d lit => Sys2Proof.Machine.execVldi d lit s
  | .vneg d a => Sys2Proof.Machine.execVneg d a s
  | .vabs d a => Sys2Proof.Machine.execVabs d a s
  | .vpopc d a => Sys2Proof.Machine.execVpopc d a s
  | .vclz d a => Sys2Proof.Machine.execVclz d a s
  | .vbfx d a b => Sys2Proof.Machine.execVbfx d a b s
  | .vbfi d a b => Sys2Proof.Machine.execVbfi d a b s
  | .vlerp d a b => Sys2Proof.Machine.execVlerp d a b s
  | .vcvt d a styp rm sat => Sys2Proof.Machine.execVcvt d a styp rm sat s
  | .vexp2 d a ahead => Sys2Proof.Machine.execVexp2 d a ahead s
  | .vlog2 d a ahead => Sys2Proof.Machine.execVlog2 d a ahead s
  | .vrcp d a ahead => Sys2Proof.Machine.execVrcp d a ahead s
  | .vrsq d a ahead => Sys2Proof.Machine.execVrsq d a ahead s
  | .vsqrt d a ahead => Sys2Proof.Machine.execVsqrt d a ahead s
  | .vsinp d a ahead => Sys2Proof.Machine.execVsinp d a ahead s
  | .vcosp d a ahead => Sys2Proof.Machine.execVcosp d a ahead s
  | .vtanh d a ahead => Sys2Proof.Machine.execVtanh d a ahead s
  | .vcmp md cond a la b lb => Sys2Proof.Machine.execVcmp md cond a la b lb s
  | .vclass d a => Sys2Proof.Machine.execVclass d a s
  | .vrint d a rm => Sys2Proof.Machine.execVrint d a rm s
  | .xperm d a b ahead => Sys2Proof.Machine.execXperm d a b ahead s
  | .xbfly d a x ahead => Sys2Proof.Machine.execXbfly d a x ahead s
  | .xbcast d a lane ahead => Sys2Proof.Machine.execXbcast d a lane ahead s
  | .xred d a op => Sys2Proof.Machine.execXred d a op s
  | .xscan d a op incl => Sys2Proof.Machine.execXscan d a op incl s
  | .xpsum d ma incl => Sys2Proof.Machine.execXpsum d ma incl s
  | .vtos sd a => Sys2Proof.Machine.execVtos sd a s
  | .stov d sa => Sys2Proof.Machine.execStov d sa s
  | .sadd d a b => Sys2Proof.Machine.execSadd d a b s
  | .ssub d a b => Sys2Proof.Machine.execSsub d a b s
  | .smul d a b => Sys2Proof.Machine.execSmul d a b s
  | .smulh d a b => Sys2Proof.Machine.execSmulh d a b s
  | .sand d a b => Sys2Proof.Machine.execSand d a b s
  | .sor d a b => Sys2Proof.Machine.execSor d a b s
  | .sxor d a b => Sys2Proof.Machine.execSxor d a b s
  | .sshl d a b => Sys2Proof.Machine.execSshl d a b s
  | .sshr d a b => Sys2Proof.Machine.execSshr d a b s
  | .ssra d a b => Sys2Proof.Machine.execSsra d a b s
  | .saddi d a imm => Sys2Proof.Machine.execSaddi d a imm s
  | .sldi d lit => Sys2Proof.Machine.execSldi d lit s
  | .scmp cond dc a b => Sys2Proof.Machine.execScmp cond dc a b s
  | .smin d a b => Sys2Proof.Machine.execSmin d a b s
  | .smax d a b => Sys2Proof.Machine.execSmax d a b s
  | .smov d a => Sys2Proof.Machine.execSmov d a s
  | .mand md ma mb => Sys2Proof.Machine.execMand md ma mb s
  | .mor md ma mb => Sys2Proof.Machine.execMor md ma mb s
  | .mxor md ma mb => Sys2Proof.Machine.execMxor md ma mb s
  | .mandn md ma mb => Sys2Proof.Machine.execMandn md ma mb s
  | .mnot md ma => Sys2Proof.Machine.execMnot md ma s
  | .mmov md ma => Sys2Proof.Machine.execMmov md ma s
  | .mtos sd ma => Sys2Proof.Machine.execMtos sd ma s
  | .stom md sa => Sys2Proof.Machine.execStom md sa s
  | .mcnt sd ma => Sys2Proof.Machine.execMcnt sd ma s
  | .mffs sd ma => Sys2Proof.Machine.execMffs sd ma s
  | .setmode et rm g sat wet wrm wg wsat => Sys2Proof.Machine.execSetmode et rm g sat wet wrm wg wsat s
  | .srd d idx => Sys2Proof.Machine.execSrd d idx s
  | .swr idx sa => Sys2Proof.Machine.execSwr idx sa s
  | .mldi md lit => Sys2Proof.Machine.execMldi md lit s
  | .bra off => Sys2Proof.Machine.execBra off s
  | .bru mc off => Sys2Proof.Machine.execBru mc off s
  | .brz mc off => Sys2Proof.Machine.execBrz mc off s
  | .brnz mc off => Sys2Proof.Machine.execBrnz mc off s
  | .brs sc off => Sys2Proof.Machine.execBrs sc off s
  | .jmpi a join tag => Sys2Proof.Machine.execJmpi a join tag s
  | .calli a tag => Sys2Proof.Machine.execCalli a tag s
  | .call off => Sys2Proof.Machine.execCall off s
  | .ret => Sys2Proof.Machine.execRet s
  | .pad tag => Sys2Proof.Machine.execPad tag s
  | .loop sc off => Sys2Proof.Machine.execLoop sc off s
  | .exit => Sys2Proof.Machine.execExit s
  | .nop => Sys2Proof.Machine.execNop s
  | .brk => Sys2Proof.Machine.execBrk s
  | .yield => Sys2Proof.Machine.execYield s
  | .ld d m ahead w => Sys2Proof.Machine.execLd d m ahead w s
  | .st d m w => Sys2Proof.Machine.execSt d m w s
  | .lds sd sb ahead w => Sys2Proof.Machine.execLds sd sb ahead w s
  | .sts sd sb w => Sys2Proof.Machine.execSts sd sb w s
  | .atom d m w => Sys2Proof.Machine.execAtom d m w s
  | .red m w => Sys2Proof.Machine.execRed m w s
  | .qpush sd sb gang off => Sys2Proof.Machine.execQpush sd sb gang off s
  | .qpop sd sb gang off => Sys2Proof.Machine.execQpop sd sb gang off s
  | .barvInit sd sb off => Sys2Proof.Machine.execBarvInit sd sb off s
  | .barvArr sd sb off => Sys2Proof.Machine.execBarvArr sd sb off s
  | .barvTx sd sb off => Sys2Proof.Machine.execBarvTx sd sb off s
  | .barvArrtx sd sb off => Sys2Proof.Machine.execBarvArrtx sd sb off s
  | .bwait sd sb off => Sys2Proof.Machine.execBwait sd sb off s
  | .fence kind scope => Sys2Proof.Machine.execFence kind scope s
  | .sapp sd sb sc off => Sys2Proof.Machine.execSapp sd sb sc off s
  | .ldk d m ahead size off => Sys2Proof.Machine.execLdk d m ahead size off s
  | .stk d m size off => Sys2Proof.Machine.execStk d m size off s
  | .xcp d sa sb tok batch nm1 bytes => Sys2Proof.Machine.execXcp d sa sb tok batch nm1 bytes s
  | .xdrain => Sys2Proof.Machine.execXdrain s
  | .xqry sd => Sys2Proof.Machine.execXqry sd s
  | .mma d sa sb tok => Sys2Proof.Machine.execMma d sa sb tok s
  | .mzero d => Sys2Proof.Machine.execMzero d s
  | .mfenceOpr => Sys2Proof.Machine.execMfenceOpr s
  | .mprio p => Sys2Proof.Machine.execMprio p s
  | .hld d sa tok age filter fault short mm cm1 vc vp lp => Sys2Proof.Machine.execHld d sa tok age filter fault short mm cm1 vc vp lp s
  | .hopen sa sb tok => Sys2Proof.Machine.execHopen sa sb tok s
  | .hmw d sa tok vp lp => Sys2Proof.Machine.execHmw d sa tok vp lp s
  | .hseal sa sb tok pages => Sys2Proof.Machine.execHseal sa sb tok pages s
  | .hshort sa sb tok slot k j => Sys2Proof.Machine.execHshort sa sb tok slot k j s
  | .hinv sa sb tok n => Sys2Proof.Machine.execHinv sa sb tok n s
  | .hqry sa sb tok sel sslot vp lp => Sys2Proof.Machine.execHqry sa sb tok sel sslot vp lp s
  | .lins d sa tok lp => Sys2Proof.Machine.execLins d sa tok lp s
  | .lres sa sb tok free cov vp lp => Sys2Proof.Machine.execLres sa sb tok free cov vp lp s
  | .lclr sa tok vp lp => Sys2Proof.Machine.execLclr sa tok vp lp s
  | .lqry d sa tok layer vp lp => Sys2Proof.Machine.execLqry d sa tok layer vp lp s
  | .cinit d sa sb tok sp va lv => Sys2Proof.Machine.execCinit d sa sb tok sp va lv s
  | .cacc d sa tok sp va lv => Sys2Proof.Machine.execCacc d sa tok sp va lv s
  | .cflush sa tok sp va lv => Sys2Proof.Machine.execCflush sa tok sp va lv s
  | .crd d sa tok sp va lv => Sys2Proof.Machine.execCrd d sa tok sp va lv s
  | .cadj d sa tok sp va lv => Sys2Proof.Machine.execCadj d sa tok sp va lv s
  | .rtrace d sa tok first cullb yield mask vr lr => Sys2Proof.Machine.execRtrace d sa tok first cullb yield mask vr lr s
  | .rtresume d tok ma => Sys2Proof.Machine.execRtresume d tok ma s
  | .rtsave sa tok va lv => Sys2Proof.Machine.execRtsave sa tok va lv s
  | .rtload d sa tok va lv => Sys2Proof.Machine.execRtload d sa tok va lv s
  | .rtabort tok => Sys2Proof.Machine.execRtabort tok s
  | .wgalloc d sa node => Sys2Proof.Machine.execWgalloc d sa node s
  | .wgallocTry d sa mf node => Sys2Proof.Machine.execWgallocTry d sa mf node s
  | .wgcommit d sa node => Sys2Proof.Machine.execWgcommit d sa node s
  | .dlaunch d => Sys2Proof.Machine.execDlaunch d s
  | .dlaunchS sa => Sys2Proof.Machine.execDlaunchS sa s
  | .rep count dstr astr bstr => Sys2Proof.Machine.execRep count dstr astr bstr s
  | .trap code => Sys2Proof.Machine.execTrap code s
  | .tret => Sys2Proof.Machine.execTret s
  | .hsr sd sel => Sys2Proof.Machine.execHsr sd sel s
  | .hbar sd => Sys2Proof.Machine.execHbar sd s
  | .hsw sel sa => Sys2Proof.Machine.execHsw sel sa s
  | .texitDone => Sys2Proof.Machine.execTexitDone s
  | .texitSaved => Sys2Proof.Machine.execTexitSaved s
  | .icinv => Sys2Proof.Machine.execIcinv s
  | .longLatencyResult team gid idx => Sys2Proof.Machine.execLongLatencyResult team gid idx s
  | .atomReturn team gid fl => Sys2Proof.Machine.execAtomReturn team gid fl s
  | .redPerform red => Sys2Proof.Machine.execRedPerform red s
  | .barrierArrival item => Sys2Proof.Machine.execBarrierArrival item s
  | .bwaitWake team gid fl => Sys2Proof.Machine.execBwaitWake team gid fl s
  | .queueRetest team gid fl => Sys2Proof.Machine.execQueueRetest team gid fl s
  | .recordFreeWaitEnd team gid fl => Sys2Proof.Machine.execRecordFreeWaitEnd team gid fl s
  | .yieldExpiry team gid fl => Sys2Proof.Machine.execYieldExpiry team gid fl s
  | .trapEntry team gid => Sys2Proof.Machine.execTrapEntry team gid s
  | .preempt team areas => Sys2Proof.Machine.execPreempt team areas s
  | .teamRestore team cluster => Sys2Proof.Machine.execTeamRestore team cluster s
  | .hbarRelease team => Sys2Proof.Machine.execHbarRelease team s
  | .handlerResume team gid => Sys2Proof.Machine.execHandlerResume team gid s
  | .contextKill ctx => Sys2Proof.Machine.execContextKill ctx s
  | .engineReset unit => Sys2Proof.Machine.execEngineReset unit s
  | .pagePresent ctx va entries => Sys2Proof.Machine.execPagePresent ctx va entries s
  | .pageMigrate ctx va frame kind finish => Sys2Proof.Machine.execPageMigrate ctx va frame kind finish s
  | .contextHalt ctx => Sys2Proof.Machine.execContextHalt ctx s
  | .launchEnqueue ctx packet image => Sys2Proof.Machine.execLaunchEnqueue ctx packet image s
  | .dlaunchEnqueue team gid fl => Sys2Proof.Machine.execDlaunchEnqueue team gid fl s
  | .dispatch grid => Sys2Proof.Machine.execDispatch grid s
  | .teamPlacement grid cores => Sys2Proof.Machine.execTeamPlacement grid cores s
  | .groupRetire team gid => Sys2Proof.Machine.execGroupRetire team gid s
  | .gridComplete grid => Sys2Proof.Machine.execGridComplete grid s
  | .wgallocGrant team gid fl => Sys2Proof.Machine.execWgallocGrant team gid fl s
  | .batchTimeout graph node => Sys2Proof.Machine.execBatchTimeout graph node s
  | .batchDrain graph node => Sys2Proof.Machine.execBatchDrain graph node s
  | .graphLoad ctx addr => Sys2Proof.Machine.execGraphLoad ctx addr s
  | .graphUnload graph => Sys2Proof.Machine.execGraphUnload graph s
  | .copyItemComplete item idx => Sys2Proof.Machine.execCopyItemComplete item idx s
  | .matrixGrant cluster => Sys2Proof.Machine.execMatrixGrant cluster s
  | .mmaComplete cluster => Sys2Proof.Machine.execMmaComplete cluster s
  | .htuItemComplete item => Sys2Proof.Machine.execHtuItemComplete item s
  | .hctlComplete item => Sys2Proof.Machine.execHctlComplete item s
  | .scrub ctx space page => Sys2Proof.Machine.execScrub ctx space page s
  | .lcuOperation item => Sys2Proof.Machine.execLcuOperation item s
  | .lcuItemComplete item => Sys2Proof.Machine.execLcuItemComplete item s
  | .raySlotBind team gid fl => Sys2Proof.Machine.execRaySlotBind team gid fl s
  | .traversalStep team gid lane => Sys2Proof.Machine.execTraversalStep team gid lane s
  | .rayItemComplete item => Sys2Proof.Machine.execRayItemComplete item s
  | .xdrainComplete team gid fl => Sys2Proof.Machine.execXdrainComplete team gid fl s
  | .sliceCutChange slices => Sys2Proof.Machine.execSliceCutChange slices s
  | .deterministicModeSet slice on => Sys2Proof.Machine.execDeterministicModeSet slice on s
  | .replay capture => Sys2Proof.Machine.execReplay capture s
  | .headConfigure engine head cfg => Sys2Proof.Machine.execHeadConfigure engine head cfg s
  | .frameLatch engine head => Sys2Proof.Machine.execFrameLatch engine head s
  | .frameDone engine head => Sys2Proof.Machine.execFrameDone engine head s
  | .encodeConfigure engine stream cfg => Sys2Proof.Machine.execEncodeConfigure engine stream cfg s
  | .accessUnitWrite engine stream => Sys2Proof.Machine.execAccessUnitWrite engine stream s
  | .ringReturn engine stream auIndex ceIndex => Sys2Proof.Machine.execRingReturn engine stream auIndex ceIndex s
  | .moduleReset => Sys2Proof.Machine.execModuleReset s
  | .bootStage => Sys2Proof.Machine.execBootStage s
  | .rollbackRequest who value => Sys2Proof.Machine.execRollbackRequest who value s
  | .recoveryFlashImage images => Sys2Proof.Machine.execRecoveryFlashImage images s
  | .getVersion who => Sys2Proof.Machine.execGetVersion who s
  | .getCapabilities who => Sys2Proof.Machine.execGetCapabilities who s
  | .negotiateAlgorithms who algs => Sys2Proof.Machine.execNegotiateAlgorithms who algs s
  | .getDigests who => Sys2Proof.Machine.execGetDigests who s
  | .getCertificate who slot => Sys2Proof.Machine.execGetCertificate who slot s
  | .challenge who slot nonce => Sys2Proof.Machine.execChallenge who slot nonce s
  | .getMeasurements who nonce => Sys2Proof.Machine.execGetMeasurements who nonce s
  | .linkDown link => Sys2Proof.Machine.execLinkDown link s
  | .clockLower block => Sys2Proof.Machine.execClockLower block s
  | .clockRaise block => Sys2Proof.Machine.execClockRaise block s
  | .clusterStart cluster => Sys2Proof.Machine.execClusterStart cluster s
  | .millerUncorrectable => Sys2Proof.Machine.execMillerUncorrectable s
  | .reservedOpcode w0 w1 => Sys2Proof.Machine.execReservedOpcode w0 w1 s
  | .translationBufferInvalidation ctx va => Sys2Proof.Machine.execTranslationBufferInvalidation ctx va s
  | .queueBind slice queue ctx => Sys2Proof.Machine.execQueueBind slice queue ctx s
  | .contextCreate ctx slice root logBase handler capBase capBytes => Sys2Proof.Machine.execContextCreate ctx slice root logBase handler capBase capBytes s
  | .groupRemove team gid => Sys2Proof.Machine.execGroupRemove team gid s
  | .hostPeerWindowAccess who addr write len => Sys2Proof.Machine.execHostPeerWindowAccess who addr write len s
  | .linkUp link => Sys2Proof.Machine.execLinkUp link s
  | .softError site correctable => Sys2Proof.Machine.execSoftError site correctable s

end Sys2Proof.Machine
end

