-- ==== Sys2Proof/Machine/Acts.lean ====
section
/-!
DEFINITION. What the machine can do next: the enabled acts of a state, of which a step performs one.
-/
namespace Sys2Proof.Machine

/-- What the module's units do between the events that the opcode table names: a part of an item's work by itself, a lane of an
ATOM, the start of a unit and a slice's idle state, the distributor's pre-emption, and the first half of a context kill. -/
inductive Part where
  | copyBegin (item idx : Nat)
  | copyMove (item idx : Nat)
  | hmw (item : Nat)
  | ray (item : Nat)
  | atom (id : Nat)
  | start (kind : StartKind) (slice : Nat)
  | idle (slice : Nat)
  | preempt (team : Nat)
  | kill (ctx : Nat)
  deriving DecidableEq, Repr

/-- One act: an event from outside, an event within the module, a part of one, the issue of a flow, or one act of a default
handler. -/
inductive Act where
  | input (i : Instr)
  | event (i : Instr)
  | part (p : Part)
  | issue (c : Issuer)
  | dflt (team gid : Nat)
  deriving DecidableEq, Repr

/-- Whether an event can take place: its meaning answers a next state. -/
def State.enabled (s : State) (i : Instr) : Bool := match exec i s with | .next _ => true | _ => false

/-- Performs a part. -/
def State.doPart (s : State) : Part → State
  | .copyBegin item idx => s.copyBegin item idx
  | .copyMove item idx => s.copyMove item idx
  | .hmw item => s.hmwPart item
  | .ray item => s.rayPart item
  | .atom id => s.atomPerform id
  | .start k slice => s.startNext k slice
  | .idle slice => s.idle slice
  | .preempt team => s.ownPreempt team
  | .kill ctx => s.killBegin ctx

/-! ## Issue -/

/-- Whether the cluster of a team's core has started (R374). -/
def State.teamRuns (s : State) (t : Team) : Bool :=
  match t.core with
  | some c => s.hasStarted .cluster (clusterOf c)
  | none => false

/-- The flows of a group that are ready to issue (R209, R217, R218). -/
def Group.readyFlows (g : Group) : List Nat :=
  if g.retired || g.saved then []
  else
    match g.handler with
    | some h => if h.stop == .running && !h.dflt && h.sleep == .awake then [4] else []
    | none =>
      if g.pending.isSome || g.preempt then []
      else (List.range 4).filter fun k => (g.record k).used && (g.record k).sleep == .awake && !g.heldAtJoin k

def State.issues (s : State) : List Act :=
  s.teams.flatMap fun t =>
    if s.teamRuns t then t.groups.flatMap fun g => g.readyFlows.map fun k => .issue ⟨t.uid, g.gid, k⟩ else []

/-- The default handlers that can go on (R377). -/
def State.dfltActs (s : State) : List Act :=
  s.teams.flatMap fun t =>
    if s.teamRuns t then (t.groups.filter fun g => s.dfltDue t g).map fun g => .dflt t.uid g.gid else []

/-! ## Events that a state may hold -/

/-- The event that may end what a flow sleeps on. -/
def sleepEvents (u gid k : Nat) : Sleep → List Instr
  | .yield => [.yieldExpiry u gid k]
  | .record => [.recordFreeWaitEnd u gid k]
  | .bwait .. | .woken _ => [.bwaitWake u gid k]
  | .queue .. => [.queueRetest u gid k]
  | .room _ => [.dlaunchEnqueue u gid k]
  | .slots .. => [.raySlotBind u gid k]
  | .drain _ => [.xdrainComplete u gid k]
  | .awake | .xlate .. | .wgalloc .. | .hbar _ | .hld _ | .atom _ => []

/-- The events of a group: its flows' sleeps, its outstanding results, its trap entry and its retirement. -/
def Group.events (g : Group) (u : Nat) : List Instr :=
  if g.retired || g.saved then []
  else
    (List.range 5).flatMap (fun k => sleepEvents u g.gid k (g.sleepOf k) ++ [.atomReturn u g.gid k])
      ++ (g.pends.zipIdx.filter fun p => p.1.win == 0).map (fun p => .longLatencyResult u g.gid p.2)
      ++ (if g.entryDue then [.trapEntry u g.gid] else [])
      ++ (if g.live == 0#32 then [.groupRetire u g.gid] else [])

/-- The events of an item. -/
def Item.events (i : Item) : List Instr :=
  match i.work with
  | .copy _ _ _ _ _ items => (List.range items.length).map fun k => .copyItemComplete i.id k
  | .mma .. => [.matrixGrant (clusterOf i.core), .mmaComplete (clusterOf i.core)]
  | .hld .. => [.htuItemComplete i.id]
  | .hctl .. => [.hctlComplete i.id]
  | .lcu .. => [.lcuOperation i.id, .lcuItemComplete i.id]
  | .ray .. => (lanesOf i.eff).map (fun l => .traversalStep i.party.team i.party.gid l) ++ [.rayItemComplete i.id]
  | .arrival .. => [.barrierArrival i.id]

/-- The parts of an item's work that may be done by themselves. -/
def Item.parts (i : Item) : List Part :=
  match i.work with
  | .copy _ _ _ _ _ items => (List.range items.length).flatMap fun k =>
      match i.copyAt k with
      | some .queued => [.copyBegin i.id k]
      | some (.running ..) => [.copyMove i.id k]
      | _ => []
  | .hctl .hmw .. => [.hmw i.id]
  | .ray .save .. | .ray .load .. => [.ray i.id]
  | _ => []

/-- The ways to put `n` ranks on distinct cores of a list. -/
def corePicks : Nat → List Nat → List (List Nat)
  | 0, _ => [[]]
  | n + 1, cs => cs.flatMap fun c => (corePicks n (cs.filter fun x => x != c)).map fun r => c :: r

/-- The events of a grid: its dispatch, the placements of its next gang, its completion. -/
def State.gridEvents (s : State) (g : Grid) : List Instr :=
  match g.state with
  | .queued => [.dispatch g.uid]
  | .eligible =>
    .gridComplete g.uid ::
      (if g.placed < g.teamCount then
        (s.clustersOf g.slice).flatMap fun cl =>
          (corePicks (pktGang g.packet) ((List.range 4).map fun i => 4 * cl + i)).map fun cs => .teamPlacement g.uid cs
       else [])
  | .complete => []

/-- The events of a graph. -/
def Graph.events (x : Graph) : List Instr :=
  (List.range x.nodes.length).flatMap fun n => [.batchTimeout x.uid n, .batchDrain x.uid n]

/-- The pre-emptions that the distributor may make (R208). -/
def State.ownPreempts (s : State) : List Part :=
  (s.grids.filter fun g => g.state == .eligible && decide (g.placed < g.teamCount)).flatMap fun g =>
    (s.teams.filter fun t => t.core.isSome && s.ownPreemptDue g t).map fun t => .preempt t.uid

/-- The context kill that the next outside event is, as it begins (R228). -/
def State.killParts (s : State) : List Part := match s.inputs with | .contextKill ctx :: _ => [.kill ctx] | _ => []

/-- The parts that the module's own units may perform next. -/
def State.parts (s : State) : List Part :=
  s.killParts ++ s.items.flatMap Item.parts
    ++ ((s.reds.filter fun r => r.back.isSome && (s.redDue r.id true).isSome && !r.lanes.isEmpty).map fun r => .atom r.id)
    ++ s.ownPreempts
    ++ ((List.range s.cut).flatMap fun k =>
      (if (s.nextStart .matrix k).isSome then [.start .matrix k] else [])
        ++ (if (s.nextStart .bank k).isSome then [.start .bank k] else [])
        ++ (if s.idleDue k then [.idle k] else []))

/-- The returns of space that a tenant has written (R371). -/
def State.ringEvents (s : State) : List Instr :=
  s.streams.filterMap fun x =>
    (s.context? x.cfg.ctx).bind fun c => (s.returned c x).map fun r => .ringReturn x.engine x.stream r.1 r.2.1

/-- The events that the module's own units may perform next. -/
def State.candidates (s : State) : List Instr :=
  s.teams.flatMap (fun t => if t.core.isSome then t.groups.flatMap fun g => g.events t.uid else [])
    ++ (s.teams.filter fun t => t.groups.any fun g => g.hbarIn).map (fun t => .hbarRelease t.uid)
    ++ s.items.flatMap Item.events
    ++ s.reds.map (fun r => .redPerform r.id)
    ++ s.grids.flatMap s.gridEvents
    ++ s.graphs.flatMap Graph.events
    ++ s.heads.flatMap (fun h => [.frameLatch h.engine h.head, .frameDone h.engine h.head])
    ++ s.streams.map (fun x => .accessUnitWrite x.engine x.stream)
    ++ s.ringEvents
    ++ (List.range s.cut).filterMap fun k => (s.nextStart .cluster k).map fun n => .clusterStart n

/-- The enabled acts. Before boot has ended a stage of it is due; a halted module waits for reset. Slots that have returned
to a pool are granted before anything else happens (R238). -/
def State.acts (s : State) : List Act :=
  let outside : List Act := (s.inputs.take 1).map .input
  match s.boot with
  | .atStage _ => outside ++ [.event .bootStage]
  | .recovery | .halted => outside
  | .running =>
    match s.nextGrant with
    | some c => [.event (.wgallocGrant c.team c.gid c.flow)]
    | none => outside ++ (s.candidates.filter s.enabled).map .event ++ s.parts.map .part ++ s.dfltActs ++ s.issues

end Sys2Proof.Machine
end

