-- ==== Sys2Proof/Machine/Step.lean ====
section
/-!
DEFINITION. One step of the module: one enabled act (DESIGN CHOICE, log 3), or nothing where none is enabled.
-/
namespace Sys2Proof.Machine

/-- A flow issues: it fetches and decodes at its PC, and the instruction executes (R55, R56, R59). A word the decoder
rejects is ILLOP. -/
def issueFlow (s : State) (c : Issuer) : Out :=
  match ({ s with cur := some c } : State).viewOf c.team c.gid c.flow 0 with
  | none => .fault .noIssuer
  | some v =>
    v.fetchInstr fun w0 w1 v =>
      match decodeWords w0 w1 with
      | .ok i => exec i v.s
      | .error _ => v.trap 0 0x01 0

/-- Performs an act. An outside event that is not due changes nothing. -/
def perform (s : State) : Act → Out
  | .input i =>
    let s := { s with inputs := s.inputs.drop 1 }
    match exec i s with
    | .next t => .next t
    | _ => .next s
  | .event i => exec i s
  | .part p => .next (s.doPart p)
  | .issue c => issueFlow s c
  | .dflt u g => .next (s.dfltAct u g)

/-- One step. -/
def step (s : State) : Out :=
  let s := { s with tick := s.tick + 1, cur := none }
  match s.acts with
  | [] => .next s
  | [a] => perform s a
  | a :: as => perform s ((a :: as).getD (Config.schedule s.tick % (a :: as).length) a)

/-- The state with an instruction's bits placed where the next step fetches (DESIGN CHOICE, log 6): the only act of this state is the
issue of the placed team's split. -/
def State.withFetchWord (s : State) (_nbits w : Nat) : State :=
  { s with
    cur := none, inputs := [], mem := placedMemory w, eccMem := [], eccShared := [], cut := 1,
    contexts := [placedContext], grids := [placedGrid], teams := [placedTeam], graphs := [], items := [], reds := [],
    heads := [], streams := [], det := [], refused := [],
    tlb1 := [], tlb2 := [], migrating := [], wlog := [], locs := [], hist := [], flips := [], endRels := [], lines := [],
    captures := [], boot := .running, started := Vector.replicate 8 ⟨16, 16, 1⟩ }

end Sys2Proof.Machine
end

