-- ==== Sys2Proof/Safety.lean ====
section
/-!
DEFINITION. The terms that statements use. A safe step goes on: no instruction stops the module, since an instruction that
cannot execute takes the trap that the manual names (R216), or waits. Then: the view in which an instruction runs, when its
issue meets nothing that stops it (R376), what a flow's lanes and registers hold, and what stays the same.
-/
namespace Sys2Proof

/-- An outcome is a next state. -/
def Safe (o : Machine.Out) : Prop := ∃ s, o = .next s

namespace Machine

/-! ## The issue of an instruction -/

/-- The view in which an instruction of `words` words runs: the issuing flow's, after the results whose lookahead windows
have closed are written (R56, R65). -/
def State.issuer? (s : State) (words : Nat) : Option View :=
  s.cur.bind fun c => (s.closeWindows c.team c.gid c.flow).viewOf c.team c.gid c.flow words

/-- The view after the issue acquires from the tokens the operands read, or have waited for (R24). -/
def View.readied (v : View) (ops : List Opnd) : View := v.withGroup (v.g.acquireTokens v.fl ops)

/-- The STAT bits that the operands meet at issue: LAVIOL, HRA and DEADRD (R376). -/
def View.metBits (v : View) (eff : Mask) (ops : List Opnd) : BitVec 10 :=
  ((if (v.breach ops).isSome then statLaviol else 0) ||| if (v.heldNamed ops).isSome then statHra else 0)
    ||| if (v.deadRead eff ops).isSome then statDeadrd else 0

/-- Nothing stops the instruction at issue (R376): every register lies in its file, the element type is accepted, no token
named is busy, no ATOM's result named is outstanding (R170), no cause met is enabled, and no register read has an ECC error. -/
def View.canIssue (v : View) (ill : Bool) (eff : Mask) (ops : List Opnd) : Bool :=
  (firstBeyond v.g.budget ops).isNone && !ill && !v.namesBusy ops && !v.namesAtom ops
    && (!v.svc || (v.readied ops).metBits eff ops &&& (v.readied ops).g.trapen == 0)
    && ((v.readied ops).eccRead eff ops).isNone

/-- A flow has its turn: a split issues only while its group runs no handler, whose flow is the fifth (R53, R218). -/
def View.inTurn (v : View) : Bool := decide (v.fl ≤ 4) && (v.fl == 4 || v.g.handler.isNone)

/-! ## What a group holds -/

/-- A lane of a vector register. -/
def Group.vAt (g : Group) (r l : Nat) : Word := lane (vget g.v r (LaneVec.splat 0)) l

/-- Whether a lane of a vector register is live (R50). -/
def Group.vLiveAt (g : Group) (r l : Nat) : Bool := (vget g.vlive r 0).getLsbD l

/-- Whether an outstanding result has a lane of a vector register as a destination (R65, R170). -/
def Group.dueV (g : Group) (r l : Nat) : Bool := g.pends.any fun p => p.vs.any fun w => w.1 == r && w.2.1.getLsbD l

/-- Whether a flow's scalar register is one of the handler's banked S56 to S63, and its mask register M14 or M15 (R53). -/
def Group.bankS (g : Group) (fl r : Nat) : Bool := fl == 4 && decide (56 ≤ r) && g.handler.isSome
def Group.bankM (g : Group) (fl r : Nat) : Bool := fl == 4 && decide (14 ≤ r) && g.handler.isSome

/-- A scalar register, the handler's own where `bank`; S0 reads zero (R46, R53). -/
def Group.sReg (g : Group) (bank : Bool) (r : Nat) : Word :=
  if r = 0 then 0
  else if bank then (match g.handler with | some h => vget h.sbank (r - 56) 0 | none => 0)
  else vget g.s r 0

/-- The liveness of a scalar register (R50, R53). -/
def Group.sRegLive (g : Group) (bank : Bool) (r : Nat) : Bool :=
  if r = 0 then true
  else if bank then (match g.handler with | some h => h.slive.getLsbD (r - 56) | none => false)
  else g.slive.getLsbD r

/-- A mask register other than M0, the handler's own where `bank` (R46, R53). -/
def Group.mReg (g : Group) (bank : Bool) (r : Nat) : Mask :=
  if bank then (match g.handler with | some h => if r = 14 then h.m14 else h.m15 | none => 0) else vget g.m r 0

/-- Whether an outstanding result has a scalar register as its destination (R65). -/
def Group.dueS (g : Group) (bank : Bool) (r : Nat) : Bool :=
  g.pends.any fun p => p.ss.any fun w => w.1 == r && g.bankS p.flow r == bank

/-- One scalar or mask register of a flow, as a set of registers. -/
def Group.oneS (g : Group) (fl d : Nat) (bank : Bool) (r : Nat) : Bool := r == d && g.bankS fl d == bank
def Group.oneM (g : Group) (fl d : Nat) (bank : Bool) (r : Nat) : Bool := r == d && g.bankM fl d == bank

/-- The members `ms` of a flow stand at an address: the handler's PC, or that of a record that holds them all. A merge may
have moved them to a lower record (R39). -/
def Group.standsAt (g : Group) (fl : Nat) (ms : Mask) (pc : Word) : Prop :=
  if fl = 4 then ∃ h, g.handler = some h ∧ h.pc = pc
  else ∃ k, (g.record k).pc = pc ∧ ms &&& ~~~(g.record k).members = 0

/-- The split records divide the live lanes, and EXEC lies within MEMBERS (R33, R34). -/
def Group.recordsApart (g : Group) : Bool :=
  (List.range 4).all fun i => (g.record i).exec &&& ~~~(g.record i).members == 0 &&
    (List.range 4).all fun j => i == j || (g.record i).members &&& (g.record j).members == 0

/-- A group still holds a split: at its PC, with its members and their EXEC, and unless others have joined it (R39) as the
same record. -/
def Group.holdsSplit (g : Group) (r : Split) : Prop :=
  ∃ k, (g.record k).pc = r.pc ∧ r.members &&& ~~~(g.record k).members = 0 ∧
    (g.record k).exec &&& r.members = r.exec &&& r.members ∧ ((g.record k).members = r.members → g.record k = r)

/-! ## What stays the same -/

/-- Every byte of physical and of shared memory reads as before. -/
def SameMemory (s t : State) : Prop :=
  (∀ a, Memory.read t.mem a = Memory.read s.mem a) ∧
  ∀ u a, Memory.read (t.sharedOf u) a = Memory.read (s.sharedOf u) a

/-- Only one group of the state has changed, and it is the group `g'` now. -/
def OnlyGroup (s t : State) (u gid : Nat) (g' : Group) : Prop :=
  (∃ f : Group → Group, (∀ g, g.gid = gid → (f g).gid = gid) ∧ t = s.modGroup u gid f) ∧ t.group? u gid = some g'

/-- A group keeps everything but its registers, STAT, split records, outstanding results and handler flow: no
special register, accumulated state or hidden state of R221 other than these changes. A register that is written holds no
token's release any more, and a held cause goes with the record that merges into another (R221). -/
def Group.keepsRest (g g' : Group) : Prop :=
  g'.pending.map (fun p => (p.cause, p.hinfo)) = g.pending.map (fun p => (p.cause, p.hinfo)) ∧
  (∀ e ∈ g'.tokClk, e ∈ g.tokClk) ∧
  g' = { g with
    v := g'.v, vlive := g'.vlive, s := g'.s, slive := g'.slive, m := g'.m, stat := g'.stat, recs := g'.recs,
    handler := g'.handler, pends := g'.pends, eccV := g'.eccV, eccS := g'.eccS, eccM := g'.eccM, tokClk := g'.tokClk,
    pending := g'.pending }

/-- The other flows of a group keep their state: while the handler runs every split record stands (R53), and a split leaves
the handler as it is. The handler keeps its cause, HPC, HINFO, TRAPREC, MODE and tokens. -/
def Group.keepsFlows (g g' : Group) (fl : Nat) : Prop :=
  (if fl = 4 then
    (g.handler.isSome → g'.recs = g.recs) ∧ ∀ h, g.handler = some h → ∃ h', g'.handler = some h' ∧
      h' = { h with pc := h'.pc, repi := h'.repi, sbank := h'.sbank, slive := h'.slive, m14 := h'.m14, m15 := h'.m15,
                    ord := h'.ord }
   else g'.handler = g.handler) ∧ g'.handler.isSome = g.handler.isSome

/-- Every lane of every vector register is as before, but for those of `ds`, those that an outstanding result has as a
destination, and the liveness of those of `ks`. -/
def Group.keepsV (g g' : Group) (ds ks : Nat → Nat → Bool) : Prop :=
  ∀ r l, l < 32 → g.dueV r l = false → ds r l = false →
    g'.vAt r l = g.vAt r l ∧ (ks r l = false → g'.vLiveAt r l = g.vLiveAt r l)

/-- Every scalar register, of service mode and of the handler, is as before, but for those of `ds` and those that an
outstanding result has as a destination. -/
def Group.keepsS (g g' : Group) (ds : Bool → Nat → Bool) : Prop :=
  ∀ b r, r < 64 → (b = true → 56 ≤ r) → g.dueS b r = false → ds b r = false →
    g'.sReg b r = g.sReg b r ∧ g'.sRegLive b r = g.sRegLive b r

/-- Every mask register other than M0, of service mode and of the handler, is as before, but for those of `dm`. -/
def Group.keepsM (g g' : Group) (dm : Bool → Nat → Bool) : Prop :=
  ∀ b r, 0 < r → r < 16 → (b = true → 14 ≤ r) → dm b r = false → g'.mReg b r = g.mReg b r

/-- The outstanding results are those of before, or have destinations of `dv` and `ds`. -/
def Group.keepsDue (g g' : Group) (dv : Nat → Nat → Bool) (ds : Bool → Nat → Bool) : Prop :=
  (∀ r l, g'.dueV r l = true → g.dueV r l = true ∨ dv r l = true) ∧
  ∀ b r, g'.dueS b r = true → g.dueS b r = true ∨ ds b r = true

/-- What an instruction of a flow leaves in its group: everything but the vector lanes `dv` it writes, the lanes `kv` it
kills, the scalar and mask registers `ds` and `dm` it writes, the flow's own place, and the results that were outstanding. -/
structure Group.Keeps (g g' : Group) (fl : Nat) (dv kv : Nat → Nat → Bool) (ds dm : Bool → Nat → Bool) : Prop where
  rest  : g.keepsRest g'
  flows : g.keepsFlows g' fl
  v     : g.keepsV g' dv kv
  s     : g.keepsS g' ds
  m     : g.keepsM g' dm
  due   : g.keepsDue g' dv ds

/-- A lane of a vector register that a new outstanding result will write. -/
def Eff.laterV (e : Eff) (d l : Nat) : Bool :=
  match e.pend with
  | some p => p.vs.any fun w => w.1 == d && w.2.1.getLsbD l
  | none => false

/-- The vector lanes that an effect writes at once or later. -/
def Eff.dv (e : Eff) (r l : Nat) : Bool := (e.vw.any fun w => w.1 == r && w.2.1.getLsbD l) || e.laterV r l

/-- The vector lanes that an effect kills. -/
def Eff.kv (e : Eff) (r l : Nat) : Bool := e.kills.any fun k => k.1 == r && k.2.getLsbD l

/-- The scalar registers that an effect of a flow writes at once or later; S0 takes nothing (R46). -/
def Eff.ds (e : Eff) (g : Group) (fl : Nat) (b : Bool) (r : Nat) : Bool :=
  (e.sw.any fun w => w.1 != 0 && g.oneS fl w.1 b r) ||
    match e.pend with
    | some p => p.ss.any fun w => g.oneS p.flow w.1 b r
    | none => false

/-- The mask registers that an effect of a flow writes. -/
def Eff.dm (e : Eff) (g : Group) (fl : Nat) (b : Bool) (r : Nat) : Bool :=
  e.mw.any fun w => w.1 != 0 && g.oneM fl w.1 b r

/-- Nothing of a group changed but results that were outstanding, which now stand (R65, R67, R170). -/
def Group.Readied (g g' : Group) (fl : Nat) : Prop :=
  g.Keeps g' fl (fun _ _ => false) (fun _ _ => false) (fun _ _ => false) (fun _ _ => false)

/-- The instruction of a view ends: the group that `s` holds was readied to `w`'s, set to `w1`'s, and is `g'` in `t`; the
effect changed nothing but what it names, and no other group, no byte of memory and no other state changed. -/
def View.Completes (v : View) (s t : State) (w w1 : View) (e : Eff) (g' : Group) : Prop :=
  OnlyGroup s t v.u v.g.gid g' ∧ SameMemory s t ∧ (∃ g, s.group? v.u v.g.gid = some g ∧ g.Readied w.g v.fl) ∧
    w1.g.Keeps g' v.fl e.dv e.kv (e.ds w1.g v.fl) (e.dm w1.g v.fl)

/-- The EXEC that the mask writes of an instruction leave in its split (R34, R145). -/
def View.execAfter (v : View) (e : Eff) : Mask :=
  match e.mw.find? fun w => w.1 == 0 && !v.heldM.contains 0 with
  | some w => w.2 &&& v.members
  | none => v.split.exec

/-- A new outstanding result is outstanding still, or a merge has waited for it (R67) and it stands. -/
def View.Owes (v : View) (p : Pend) (g' : Group) : Prop :=
  p ∈ g'.pends ∨
    (∀ d m x, (d, m, x) ∈ p.vs → d < 128 → ∀ l, l < 32 → m.getLsbD l = true → v.g.dueV d l = false →
      g'.vAt d l = lane x l ∧ g'.vLiveAt d l = true) ∧
    ∀ d x, (d, x) ∈ p.ss → d ≠ 0 → d < 64 → v.g.dueS (v.g.bankS v.fl d) d = false →
      g'.sReg (v.g.bankS v.fl d) d = x ∧ g'.sRegLive (v.g.bankS v.fl d) d = true

/-- What a completed instruction has done in its group, which is `g'` now: its vector, scalar and mask writes stand (unless
an item holds the register, R29, or a result that was outstanding has it as a destination), the registers it kills are dead,
STAT holds the bits it sets beside those of before, and the flow stands at its branch target or at the next instruction. In
service mode the split and every other split of the group are still held. A long-latency result is outstanding or stands. -/
structure View.Wrote (v : View) (st : BitVec 10) (e : Eff) (g' : Group) : Prop where
  vec    : ∀ d m x, (d, m, x) ∈ e.vw → d < 128 → inRuns v.heldV d = false → ∀ l, l < 32 → m.getLsbD l = true →
    v.g.dueV d l = false → e.laterV d l = false → g'.vAt d l = lane x l ∧ g'.vLiveAt d l = true
  killed : ∀ r m, (r, m) ∈ e.kills → r < 128 → ∀ l, l < 32 → m.getLsbD l = true → v.g.dueV r l = false →
    (∀ w ∈ e.vw, w.1 = r → w.2.1.getLsbD l = false) → e.laterV r l = false → g'.vLiveAt r l = false
  scal   : ∀ d x, (d, x) ∈ e.sw → d ≠ 0 → d < 64 → v.g.dueS (v.g.bankS v.fl d) d = false →
    g'.sReg (v.g.bankS v.fl d) d = x ∧ g'.sRegLive (v.g.bankS v.fl d) d = true
  mask   : ∀ d x, (d, x) ∈ e.mw → d ≠ 0 → d < 16 → v.heldM.contains d = false → g'.mReg (v.g.bankM v.fl d) d = x
  stat   : g'.stat = v.g.stat ||| v.statBits st
  place  : g'.standsAt v.fl v.members (e.pc.getD v.next)
  splits : v.fl < 4 → v.g.recordsApart = true → v.members ≠ 0 →
    g'.holdsSplit { v.split with pc := e.pc.getD v.next, repi := v.repi, exec := v.execAfter e } ∧
      ∀ j, j < 4 → j ≠ v.fl → (v.g.record j).used = true → g'.holdsSplit (v.g.record j)
  later  : ∀ p, e.pend = some p → v.Owes p g'

end Machine
end Sys2Proof
end

