-- ==== Sys2Proof/Safety/Forms.lean ====
section
/-!
DEFINITION. The shape of the statements about instructions whose effect stays in their group: what the issue checks, and what
is written, as the rules give them. A table names the form of each instruction of a family; the statements say that `exec`
does what the table says.
-/
namespace Sys2Proof.Machine

/-- What a rule says of one instruction. `early` is the decoder's own trap,
`ill` ILLTYPE (R59), `reads` the lanes in which vector sources are read, and `ops` the registers that the words name in field
order (R376). The rest is on the view after the issue: `fault`, what the instruction itself raises; `waits`, whether it
waits; `sets`, what it changes outside the registers; `flags`, each lane's flags (R106); `stat`, further STAT bits; `result`, its writes. -/
structure Form where
  words  : Nat
  early  : View → Option Nat := fun _ => none
  ill    : View → Bool := fun _ => false
  reads  : View → Mask := fun _ => 0#32
  ops    : View → List Opnd := fun _ => []
  fault  : View → Option (Nat × Word) := fun _ => none
  waits  : View → Bool := fun _ => false
  sets   : Option (View → Group) := none
  flags  : View → Vector Flags 32 := fun _ => Vector.replicate 32 0#10
  stat   : View → BitVec 10 := fun _ => 0#10
  result : View → Eff := fun _ => {}

/-- The view after the issue. -/
def Form.issued (F : Form) (v : View) : View := v.readied (F.ops v)

/-- The issuing flow has its turn and nothing stops the instruction at issue. -/
def Form.CanIssue (F : Form) (s : State) (v : View) : Prop :=
  s.issuer? F.words = some v ∧ v.inTurn = true ∧ F.early v = none ∧
    v.canIssue (F.ill v) (F.reads v) (F.ops v) = true

/-- The view whose group the effect applies to. -/
def Form.after (F : Form) (v : View) : View :=
  match F.sets with
  | some f => (F.issued v).withGroup (f (F.issued v))
  | none => F.issued v

/-- The STAT bits that the instruction sets: those met at issue, its own, and the flags of its lanes. -/
def Form.bits (F : Form) (v : View) : BitVec 10 :=
  (F.issued v).metBits (F.reads v) (F.ops v) ||| F.stat (F.issued v) ||| allFlags (F.flags (F.issued v))

/-- The instruction neither raises anything itself nor waits. -/
def Form.Free (F : Form) (w : View) : Prop := F.fault w = none ∧ F.waits w = false

/-- Where an instruction of this form runs to its end: in every state in which nothing stops it at issue, it raises nothing
itself and waits for nothing, and no flag that TRAPEN enables arises, `exec` answers the next state that the form gives. -/
def Form.Runs (F : Form) (i : Instr) : Prop :=
  ∀ s v, F.CanIssue s v → F.Free (F.issued v) → (F.issued v).fpxLanes (F.flags (F.issued v)) = 0#32 →
    ∃ t g', exec i s = .next t ∧ v.Completes s t (F.issued v) (F.after v) (F.result (F.issued v)) g' ∧
      (F.after v).Wrote (F.bits v) (F.result (F.issued v)) g'

/-- Where a flag that TRAPEN enables arises: FPX, precise, with the lanes, and nothing written (R107). -/
def Form.RaisesFpx (F : Form) (i : Instr) : Prop :=
  ∀ s v, F.CanIssue s v → F.Free (F.issued v) → (F.issued v).fpxLanes (F.flags (F.issued v)) ≠ 0#32 →
    exec i s = (F.issued v).trap (F.bits v) 0x0B (((F.issued v).fpxLanes (F.flags (F.issued v))).zeroExtend 64)

/-- Where the instruction itself raises a cause: a precise trap under it, with the STAT bits met and its own. -/
def Form.Faults (F : Form) (i : Instr) : Prop :=
  ∀ s v c h, F.CanIssue s v → F.fault (F.issued v) = some (c, h) →
    exec i s = (F.issued v).trap ((F.issued v).metBits (F.reads v) (F.ops v) ||| F.stat (F.issued v)) c h

/-- What stops an instruction at issue, in the order of R376: its own decoder trap, ILLREG on a register beyond its file,
ILLTYPE, a busy token or an outstanding ATOM (a wait, in which nothing changes but that the flow has waited), then LAVIOL, HRA
and DEADRD where TRAPEN enables them, each with the STAT bits met so far, and ECC. -/
def Form.StopsAt (F : Form) (i : Instr) (s : State) (v : View) : Prop :=
  s.issuer? F.words = some v → v.inTurn = true →
    let ops := F.ops v
    let w := v.readied ops
    let on (b : Nat) : Bool := w.svc && w.g.trapen.getLsbD b
    let lav : BitVec 10 := if (w.breach ops).isSome then 0x002 else 0
    let hra : BitVec 10 := if (w.heldNamed ops).isSome then 0x008 else 0
    let dead : BitVec 10 := if (w.deadRead (F.reads v) ops).isSome then 0x001 else 0
    match F.early v, firstBeyond v.g.budget ops with
    | some c, _ => exec i s = v.trap 0 c 0
    | none, some r => exec i s = v.trap 0 0x02 (BitVec.ofNat 64 (r % 128))
    | none, none =>
      if F.ill v then exec i s = v.trap 0 0x03 0
      else if v.namesBusy ops then ∃ f, exec i s = (v.withGroup (v.g.modOrd v.fl f)).wait
      else if v.namesAtom ops then exec i s = v.wait
      else
        (∀ r, on 1 = true → w.breach ops = some r → exec i s = w.trap lav 0x09 (BitVec.ofNat 64 r)) ∧
        ((on 1 && (w.breach ops).isSome) = false → ∀ r, on 3 = true → w.heldNamed ops = some r →
          exec i s = w.trap (lav ||| hra) 0x0A (BitVec.ofNat 64 r)) ∧
        ((on 1 && (w.breach ops).isSome) = false → (on 3 && (w.heldNamed ops).isSome) = false →
          ∀ h, on 0 = true → w.deadRead (F.reads v) ops = some h → exec i s = w.trap (lav ||| hra ||| dead) 0x08 h) ∧
        ((on 1 && (w.breach ops).isSome) = false → (on 3 && (w.heldNamed ops).isSome) = false →
          (on 0 && (w.deadRead (F.reads v) ops).isSome) = false →
          ∀ h, w.eccRead (F.reads v) ops = some h → exec i s = w.trap (lav ||| hra ||| dead) 0x60 h)

/-- The same of every state. -/
def Form.StopsAtIssue (F : Form) (i : Instr) : Prop := ∀ s v, F.StopsAt i s v

/-! ## Sub-elements by the rules -/

/-- The value of an integer sub-element: two's complement under i types, binary under n types (R96). -/
def ruleVal (t : ETy) (x : Nat) : Int :=
  if tySigned t then (BitVec.ofNat (tyWidth t) x).toInt else (BitVec.ofNat (tyWidth t) x).toNat

/-- The range of R96. -/
def ruleMin (t : ETy) : Int := if tySigned t then -(2 ^ (tyWidth t - 1)) else 0
def ruleMax (t : ETy) : Int := if tySigned t then 2 ^ (tyWidth t - 1) - 1 else 2 ^ tyWidth t - 1

/-- The low w bits of an integer. -/
def ruleBits (t : ETy) (x : Int) : Nat := (BitVec.ofInt (tyWidth t) x).toNat

/-- INT: an exact result wraps, or with MODE.SAT takes the nearest bound and sets SATI (R97). -/
def ruleInt (t : ETy) (sat : Bool) (x : Int) : Nat × Flags :=
  if sat then
    if x < ruleMin t then (ruleBits t (ruleMin t), flSat)
    else if ruleMax t < x then (ruleBits t (ruleMax t), flSat)
    else (ruleBits t x, 0)
  else (ruleBits t x, 0)

/-- An operation with an integer and a float column (R118, R120). -/
def ruleNum (fi : Int → Int → Int → Int) (ff : FFmt → RMode → FVal → FVal → FVal → Nat × Flags) : SubOp :=
  fun t rm sat a b d =>
    match tyFmt t with
    | some F => ff F rm (F.decode a) (F.decode b) (F.decode d)
    | none => ruleInt t sat (fi (ruleVal t a) (ruleVal t b) (ruleVal t d))

/-- An operation on bits, without flags (R121). -/
def ruleBitwise (f : (w : Nat) → BitVec w → BitVec w → BitVec w) : SubOp := fun t _ _ a b _ =>
  ((f (tyWidth t) (BitVec.ofNat (tyWidth t) a) (BitVec.ofNat (tyWidth t) b)).toNat, 0)

/-- Shifts by the amount mod w: left with zeros; right arithmetically under i types, else logically (R121). -/
def ruleShl (n : Nat → Nat → Nat) : SubOp := fun t _ _ a b _ =>
  ((BitVec.ofNat (tyWidth t) a <<< (n b (tyWidth t))).toNat, 0)
def ruleShr (n : Nat → Nat → Nat) : SubOp := fun t _ _ a b _ =>
  ((if tySigned t then (BitVec.ofNat (tyWidth t) a).sshiftRight (n b (tyWidth t))
    else BitVec.ofNat (tyWidth t) a >>> (n b (tyWidth t))).toNat, 0)

/-- Bits [2w−1:w] of the exact product (R120). -/
def ruleMulh : SubOp := fun t _ _ a b _ => (ruleBits t (ruleVal t a * ruleVal t b / 2 ^ tyWidth t), 0)

/-- The lesser or the greater integer; of floats, as R111 chooses. -/
def ruleMinMax (isMax : Bool) : SubOp := fun t _ _ a b _ =>
  match tyFmt t with
  | some F => (fMinMax F isMax a b, 0)
  | none =>
    (if isMax then (if ruleVal t a < ruleVal t b then b else a) else (if ruleVal t a < ruleVal t b then a else b), 0)

/-- The quotient and the remainder of R98; neither saturates or sets a bit. -/
def ruleDiv : SubOp := fun t rm _ a b _ =>
  match tyFmt t with
  | some F => fDiv F rm (F.decode a) (F.decode b)
  | none =>
    (if ruleVal t b = 0 then 2 ^ tyWidth t - 1 else ruleBits t ((ruleVal t a).tdiv (ruleVal t b)), 0)
def ruleRem : SubOp := fun t _ _ a b _ =>
  (if ruleVal t b = 0 then a
   else ruleBits t (ruleVal t a - (ruleVal t a).tdiv (ruleVal t b) * ruleVal t b), 0)

/-- The immediate as the exact integer k (R122); as a float, k is exact in every ordinary type. -/
def ruleImm (fi : Int → Int → Int) (ff : FFmt → RMode → FVal → FVal → Nat × Flags) (k : BitVec 9) : SubOp :=
  fun t rm sat a _ _ =>
    match tyFmt t with
    | some F => ff F rm (F.decode a) (F.decode (roundQ F .rne (Q.ofInt k.toInt)).1)
    | none => ruleInt t sat (fi (ruleVal t a) k.toInt)

/-- The sign of a float: flipped for VNEG, cleared for VABS; a NaN becomes the canonical one (R125). -/
def ruleSign (f : Int → Int) (clear : Bool) : SubOp := fun t _ sat a _ _ =>
  match tyFmt t with
  | some F =>
    let m := a % 2 ^ (F.w - 1)
    (if (F.decode a).isNan then F.nan else if clear then m else if a < 2 ^ (F.w - 1) then m + 2 ^ (F.w - 1) else m, 0)
  | none => ruleInt t sat (f (ruleVal t a))

/-- Set bits, and leading zeros (R125). -/
def rulePopc : SubOp := fun t _ _ a _ _ => ((List.range (tyWidth t)).countP fun i => a.testBit i, 0)
def ruleClz : SubOp := fun t _ _ a _ _ =>
  (((List.range (tyWidth t)).find? fun i => a.testBit (tyWidth t - 1 - i)).getD (tyWidth t), 0)

/-- VBFX takes WID bits of A from OFF, sign-extended under i types; VBFI puts A's low WID bits into D at OFF (R127). OFF is
B mod w, and WID one more than the next log2(w) bits of B, at most w − OFF. -/
def ruleField (t : ETy) (b : Nat) : Nat × Nat :=
  (b % tyWidth t, min (b / tyWidth t % tyWidth t + 1) (tyWidth t - b % tyWidth t))
def ruleBfx : SubOp := fun t _ _ a b _ =>
  let x := (BitVec.ofNat (tyWidth t) a).extractLsb' (ruleField t b).1 (ruleField t b).2
  ((if tySigned t then x.signExtend (tyWidth t) else x.zeroExtend (tyWidth t)).toNat, 0)
def ruleBfi : SubOp := fun t _ _ a b d =>
  let m := BitVec.ofNat (tyWidth t) (2 ^ (ruleField t b).2 - 1) <<< (ruleField t b).1
  ((BitVec.ofNat (tyWidth t) d &&& ~~~m ||| BitVec.ofNat (tyWidth t) a <<< (ruleField t b).1 &&& m).toNat, 0)

/-- The condition of VCMP under one element type (R92, R132): an unordered pair satisfies NE and UNO only. -/
def ruleCond (c : Cond) (t : ETy) (a b : Nat) : Bool :=
  match tyFmt t with
  | some F =>
    let x := F.decode a
    let y := F.decode b
    let un := x.isNan || y.isNan
    (match c with
     | .eq => !un && x.eqv y
     | .ne => un || !x.eqv y
     | .lt => !un && x.lt y
     | .le => !un && (x.lt y || x.eqv y)
     | .gt => !un && y.lt x
     | .ge => !un && (y.lt x || x.eqv y)
     | .uno => un
     | .ord => !un
     | _ => false)
  | none =>
    (match c with
     | .eq => decide (ruleVal t a = ruleVal t b)
     | .ne => decide (ruleVal t a ≠ ruleVal t b)
     | .lt => decide (ruleVal t a < ruleVal t b)
     | .le => decide (ruleVal t a ≤ ruleVal t b)
     | .gt => decide (ruleVal t b < ruleVal t a)
     | .ge => decide (ruleVal t b ≤ ruleVal t a)
     | _ => false)

/-! ## Frames of a vector instruction -/

/-- A lane vector from a function of the lane. -/
def lanesFrom (f : Nat → Word) : LaneVec := Vector.ofFn fun (l : Fin 32) => f l.val

/-- The result of an operation on every sub-element of three lanes, with its flags (R117). -/
def ruleLane (op : SubOp) (t : ETy) (rm : RMode) (sat : Bool) (a b d : Word) : Word × Flags :=
  let rs := (List.range (64 / tyWidth t)).map fun i =>
    op t rm sat (subElem (tyWidth t) i a) (subElem (tyWidth t) i b) (subElem (tyWidth t) i d)
  (laneOfSubs (tyWidth t) (rs.map Prod.fst), rs.foldl (fun f r => f ||| r.2) 0)

/-- The kill that a last-use bit asks for, in the lanes read (R50). -/
def lastUse (s : VSrc) (m : Mask) : List (Nat × Mask) := if s.last then [(s.reg.toNat, m)] else []

/-- One register written in the EFFMASK lanes; the other lanes keep their values and raise no flag (R117). -/
def oneWrite (w : View) (d : Nat) (f : Nat → Word × Flags) (kills : List (Nat × Mask)) : Eff :=
  { vw := [(d, w.eff false, lanesFrom fun l => if (w.eff false).getLsbD l then (f l).1 else 0)], kills := kills }

/-- As `oneWrite`, but outstanding: the instruction after a window of `ahead` waits for it (R64, R65). A held destination
takes nothing (R29). -/
def oneLater (w : View) (d : Nat) (f : Nat → Word × Flags) (kills : List (Nat × Mask)) (ahead : BitVec 4) : Eff :=
  { kills := kills
    pend := some
      { flow := w.fl, win := ahead.toNat, ss := []
        vs := if inRuns w.heldV d then []
          else [(d, w.eff false, lanesFrom fun l => if (w.eff false).getLsbD l then (f l).1 else 0)] } }

/-- The flags of the EFFMASK lanes. -/
def laneFlags (w : View) (f : Nat → Word × Flags) : Vector Flags 32 :=
  Vector.ofFn fun (l : Fin 32) => if (w.eff false).getLsbD l.val then (f l.val).2 else 0

/-- D from A and B, and from D itself where it is read (R117). -/
def Form.vector3 (d : BitVec 7) (a b : VSrc) (rd : Bool) (ok : ETy → Bool) (op : SubOp) : Form :=
  let f (w : View) (l : Nat) : Word × Flags :=
    ruleLane op w.et w.rm w.sat (lane (w.rdV a.reg.toNat) l) (lane (w.rdV b.reg.toNat) l) (lane (w.rdV d.toNat) l)
  { words := 1, ill := fun v => !ok v.et, reads := fun v => v.eff false
    ops := fun _ => [opRun d.toNat 1 rd, opRd a.reg.toNat, opRd b.reg.toNat]
    flags := fun w => laneFlags w (f w)
    result := fun w => oneWrite w d.toNat (f w) (lastUse a (w.eff false) ++ lastUse b (w.eff false)) }

/-- D from A (R122, R125). -/
def Form.vector1 (d : BitVec 7) (a : VSrc) (ok : ETy → Bool) (op : SubOp) : Form :=
  let f (w : View) (l : Nat) : Word × Flags := ruleLane op w.et w.rm w.sat (lane (w.rdV a.reg.toNat) l) 0 0
  { words := 1, ill := fun v => !ok v.et, reads := fun v => v.eff false
    ops := fun _ => [opWr d.toNat, opRd a.reg.toNat]
    flags := fun w => laneFlags w (f w)
    result := fun w => oneWrite w d.toNat (f w) (lastUse a (w.eff false)) }

/-- D from A and B, or from A alone, as a result that stands later (R124, R131). -/
def Form.later2 (d : BitVec 7) (a b : VSrc) (ahead : BitVec 4) (ok : ETy → Bool) (op : SubOp) : Form :=
  let f (w : View) (l : Nat) : Word × Flags :=
    ruleLane op w.et w.rm w.sat (lane (w.rdV a.reg.toNat) l) (lane (w.rdV b.reg.toNat) l) 0
  { words := 2, ill := fun v => !ok v.et, reads := fun v => v.eff false
    ops := fun _ => [opWr d.toNat, opRd a.reg.toNat, opRd b.reg.toNat]
    flags := fun w => laneFlags w (f w)
    result := fun w => oneLater w d.toNat (f w) (lastUse a (w.eff false) ++ lastUse b (w.eff false)) ahead }

def Form.later1 (d : BitVec 7) (a : VSrc) (ahead : BitVec 4) (ok : ETy → Bool) (op : SubOp) : Form :=
  let f (w : View) (l : Nat) : Word × Flags := ruleLane op w.et w.rm w.sat (lane (w.rdV a.reg.toNat) l) 0 0
  { words := 2, ill := fun v => !ok v.et, reads := fun v => v.eff false
    ops := fun _ => [opWr d.toNat, opRd a.reg.toNat]
    flags := fun w => laneFlags w (f w)
    result := fun w => oneLater w d.toNat (f w) (lastUse a (w.eff false)) ahead }

/-- The element types of the rows of R119. -/
def arithType (t : ETy) : Bool :=
  match t with | .e4m3 | .e5m2 | .e2m1 => false | _ => true
def intType (t : ETy) : Bool :=
  match t with | .i64 | .n64 | .i32 | .n32 | .i16 | .n16 | .i8 | .n8 => true | _ => false
def floatType (t : ETy) : Bool :=
  match t with | .f64 | .f32 | .f16 | .bf16 => true | _ => false

/-! ## Vector arithmetic (R117 to R127, R130, R133) -/

/-- Instructions of two or three vector sources. -/
def vectorForms : Instr → Option Form
  | .vadd d a b => some (.vector3 d a b false arithType (ruleNum (fun x y _ => x + y) fun F rm x y _ => fAdd F rm x y))
  | .vsub d a b => some (.vector3 d a b false arithType (ruleNum (fun x y _ => x - y) fun F rm x y _ => fAdd F rm x y.negate))
  | .vmul d a b => some (.vector3 d a b false arithType (ruleNum (fun x y _ => x * y) fun F rm x y _ => fMul F rm x y))
  | .vmulh d a b => some (.vector3 d a b false intType ruleMulh)
  | .vfma d a b => some (.vector3 d a b true arithType (ruleNum (fun x y z => x * y + z) fun F rm x y z => fFma F rm x y z))
  | .vfms d a b =>
    some (.vector3 d a b true arithType (ruleNum (fun x y z => z - x * y) fun F rm x y z => fFma F rm x.negate y z))
  | .vmin d a b => some (.vector3 d a b false arithType (ruleMinMax false))
  | .vmax d a b => some (.vector3 d a b false arithType (ruleMinMax true))
  | .vand d a b => some (.vector3 d a b false arithType (ruleBitwise fun _ x y => x &&& y))
  | .vor d a b => some (.vector3 d a b false arithType (ruleBitwise fun _ x y => x ||| y))
  | .vxor d a b => some (.vector3 d a b false arithType (ruleBitwise fun _ x y => x ^^^ y))
  | .vshl d a b => some (.vector3 d a b false arithType (ruleShl fun b w => b % w))
  | .vshr d a b => some (.vector3 d a b false arithType (ruleShr fun b w => b % w))
  | .vabsd d a b => some (.vector3 d a b false arithType (ruleNum (fun x y _ => ((x - y).natAbs : Int)) fun F rm x y _ => fAbsDiff F rm x y))
  | .vbfx d a b => some (.vector3 d a b false intType ruleBfx)
  | .vbfi d a b => some (.vector3 d a b true intType ruleBfi)
  | .vlerp d a b => some (.vector3 d a b true arithType (ruleNum (fun x y z => z + x * (y - z)) fLerp))
  | _ => none

/-- Instructions of one vector source, with or without an immediate. -/
def unaryForms : Instr → Option Form
  | .vaddi d a k => some (.vector1 d a arithType (ruleImm (fun x k => x + k) fAdd k))
  | .vmuli d a k => some (.vector1 d a arithType (ruleImm (fun x k => x * k) fMul k))
  | .vshli d a k => some (.vector1 d a arithType (ruleShl fun _ w => k.toNat % 64 % w))
  | .vshri d a k => some (.vector1 d a arithType (ruleShr fun _ w => k.toNat % 64 % w))
  | .vandi d a k => some (.vector1 d a arithType fun t _ _ x _ _ =>
      ((BitVec.ofNat (tyWidth t) x &&& BitVec.ofInt (tyWidth t) k.toInt).toNat, 0))
  | .vmov d a => some (.vector1 d a (fun _ => true) fun _ _ _ x _ _ => (x, 0))
  | .vneg d a => some (.vector1 d a arithType (ruleSign (fun x => -x) false))
  | .vabs d a => some (.vector1 d a arithType (ruleSign (fun x => (x.natAbs : Int)) true))
  | .vpopc d a => some (.vector1 d a intType rulePopc)
  | .vclz d a => some (.vector1 d a intType ruleClz)
  | .vclass d a => some (.vector1 d a floatType opClass)
  | .vrint d a r => some (.vector1 d a floatType (opRint r))
  | _ => none

/-- Long-latency instructions: divisions and VSFU (R64, R124, R131). -/
def laterForms : Instr → Option Form
  | .vdiv d a b n => some (.later2 d a b n arithType ruleDiv)
  | .vrem d a b n => some (.later2 d a b n intType ruleRem)
  | .vexp2 d a n => some (.later1 d a n (okSfu 0) (opSfu 0))
  | .vlog2 d a n => some (.later1 d a n (okSfu 1) (opSfu 1))
  | .vrcp d a n => some (.later1 d a n (okSfu 2) (opSfu 2))
  | .vrsq d a n => some (.later1 d a n (okSfu 3) (opSfu 3))
  | .vsqrt d a n => some (.later1 d a n (okSfu 4) (opSfu 4))
  | .vsinp d a n => some (.later1 d a n (okSfu 5) (opSfu 5))
  | .vcosp d a n => some (.later1 d a n (okSfu 6) (opSfu 6))
  | .vtanh d a n => some (.later1 d a n (okSfu 7) (opSfu 7))
  | _ => none

/-! ## Selection, literals, conversion and compare (R123, R126, R128, R132) -/

/-- The lanes that VSEL writes (R54). -/
def wset (v : View) : Mask := if v.svc then v.split.exec else v.g.launched

/-- The converted sub-element at index `e` of the destination registers, from the source registers' lanes (R128). -/
def cvtSub (sty t : ETy) (r : RMode) (sat : Bool) (src : Nat → Word) (e : Nat) : Nat × Flags :=
  conv sty t r sat (subElem (tyWidth sty) (e % (64 / tyWidth sty)) (src (e / (64 / tyWidth sty))))

/-- A lane of register `j` of a VCVT's destination, with its flags (R128). -/
def cvtResult (w : View) (r : Nat) (sty : ETy) (rm : RMode) (sat : Bool) (j l : Nat) : Word × Flags :=
  let n := 64 / tyWidth w.et
  let rs := (List.range n).map fun i => cvtSub sty w.et rm sat (fun k => lane (w.rdV (r + k)) l) (j * n + i)
  (laneOfSubs (tyWidth w.et) (rs.map Prod.fst), rs.foldl (fun f r => f ||| r.2) 0)

def selectForms : Instr → Option Form
  | .vsel d a b => some
      { words := 1, reads := fun v => v.eff true
        ops := fun v =>
          [opWr d.toNat, opRd a.reg.toNat, { opRd b.reg.toNat with lanes := some (wset v &&& ~~~v.eff true) }]
        result := fun w =>
          { vw := [(d.toNat, wset w, lanesFrom fun l =>
              if (w.eff true).getLsbD l then lane (w.rdV a.reg.toNat) l else lane (w.rdV b.reg.toNat) l)]
            kills := lastUse a (w.eff true &&& wset w) ++ lastUse b (wset w &&& ~~~w.eff true) } }
  | .vldi d lit => some
      { words := 2, reads := fun v => v.eff false, ops := fun _ => [opWr d.toNat]
        result := fun w =>
          { vw := [(d.toNat, w.eff false, LaneVec.splat
              (laneOfSubs (tyWidth w.et) (List.replicate (64 / tyWidth w.et) (vldiValue w.et lit))))] } }
  | .vcvt d a sty r sat => some
      { words := 1, reads := fun v => v.eff false
        ops := fun v =>
          [opRun d.toNat (max 1 (tyWidth v.et / tyWidth sty)) false, opRun a.reg.toNat (max 1 (tyWidth sty / tyWidth v.et)) true]
        flags := fun w => Vector.ofFn fun (l : Fin 32) =>
          (List.range (max 1 (tyWidth w.et / tyWidth sty))).foldl
            (fun g j => g ||| if (w.eff false).getLsbD l.val then (cvtResult w a.reg.toNat sty r sat j l.val).2 else 0) 0
        result := fun w =>
          { vw := (List.range (max 1 (tyWidth w.et / tyWidth sty))).map fun j =>
              (d.toNat + j, w.eff false,
                lanesFrom fun l => if (w.eff false).getLsbD l then (cvtResult w a.reg.toNat sty r sat j l).1 else 0)
            kills := if a.last then (List.range (max 1 (tyWidth sty / tyWidth w.et))).map fun i => (a.reg.toNat + i, w.eff false)
              else [] } }
  | .vcmp md c a la b lb => some
      { words := 1, reads := fun v => v.eff false
        ill := fun v => !arithType v.et || ((c == .uno || c == .ord) && intType v.et)
        ops := fun _ => [opMw md.toNat, opRd a.toNat, opRd b.toNat]
        result := fun w =>
          { mw := [(md.toNat, maskOf fun l => (w.eff false).getLsbD l &&
              (List.range (64 / tyWidth w.et)).all fun i => ruleCond c w.et
                (subElem (tyWidth w.et) i (lane (w.rdV a.toNat) l)) (subElem (tyWidth w.et) i (lane (w.rdV b.toNat) l)))]
            kills := lastUse ⟨a, la, false⟩ (w.eff false) ++ lastUse ⟨b, lb, false⟩ (w.eff false) } }
  | _ => none

/-! ## Scalars and masks (R134 to R137, R145 to R147) -/

/-- A scalar from two. -/
def Form.scalar2 (d : Nat) (a b : BitVec 6) (f : Word → Word → Word) : Form :=
  { words := 1, ops := fun _ => [opSw d, opS a.toNat, opS b.toNat]
    result := fun w => { sw := [(d, f (w.rdS a.toNat) (w.rdS b.toNat))] } }

/-- A scalar from one. -/
def Form.scalar1 (d a : BitVec 6) (f : Word → Word) : Form :=
  { words := 1, ops := fun _ => [opSw d.toNat, opS a.toNat], result := fun w => { sw := [(d.toNat, f (w.rdS a.toNat))] } }

/-- The signed and the unsigned conditions of SCMP (R92, R137). -/
def ruleScmp (c : Cond) (x y : Word) : Bool :=
  match c with
  | .eq => decide (x = y)
  | .ne => decide (x ≠ y)
  | .lt => decide (x.toInt < y.toInt)
  | .le => decide (x.toInt ≤ y.toInt)
  | .gt => decide (y.toInt < x.toInt)
  | .ge => decide (y.toInt ≤ x.toInt)
  | .ltu => decide (x.toNat < y.toNat)
  | .leu => decide (x.toNat ≤ y.toNat)
  | .gtu => decide (y.toNat < x.toNat)
  | .geu => decide (y.toNat ≤ x.toNat)
  | .uno | .ord => false

/-- A scalar from a mask. -/
def Form.maskTo (d : BitVec 6) (m : BitVec 4) (f : Mask → Word) : Form :=
  { words := 1, ops := fun _ => [opSw d.toNat, opMr m.toNat], result := fun w => { sw := [(d.toNat, f (w.rdM m.toNat))] } }

def scalarForms : Instr → Option Form
  | .sadd d a b => some (.scalar2 d.toNat a b fun x y => BitVec.ofInt 64 (x.toInt + y.toInt))
  | .ssub d a b => some (.scalar2 d.toNat a b fun x y => BitVec.ofInt 64 (x.toInt - y.toInt))
  | .smul d a b => some (.scalar2 d.toNat a b fun x y => BitVec.ofInt 64 (x.toInt * y.toInt))
  | .smulh d a b => some (.scalar2 d.toNat a b fun x y => BitVec.ofInt 64 (x.toInt * y.toInt / 2 ^ 64))
  | .sand d a b => some (.scalar2 d.toNat a b fun x y => x &&& y)
  | .sor d a b => some (.scalar2 d.toNat a b fun x y => x ||| y)
  | .sxor d a b => some (.scalar2 d.toNat a b fun x y => x ^^^ y)
  | .sshl d a b => some (.scalar2 d.toNat a b fun x y => BitVec.ofNat 64 (x.toNat * 2 ^ (y.toNat % 64)))
  | .sshr d a b => some (.scalar2 d.toNat a b fun x y => BitVec.ofNat 64 (x.toNat / 2 ^ (y.toNat % 64)))
  | .ssra d a b => some (.scalar2 d.toNat a b fun x y => BitVec.ofInt 64 (x.toInt / 2 ^ (y.toNat % 64)))
  | .smin d a b => some (.scalar2 d.toNat a b fun x y => BitVec.ofInt 64 (min x.toInt y.toInt))
  | .smax d a b => some (.scalar2 d.toNat a b fun x y => BitVec.ofInt 64 (max x.toInt y.toInt))
  | .smov d a => some (.scalar1 d a fun x => x)
  | .saddi d a k => some (.scalar1 d a fun x => BitVec.ofInt 64 (x.toInt + k.toInt))
  | .sldi d lit => some
      { words := 2, ops := fun _ => [opSw d.toNat], result := fun _ => { sw := [(d.toNat, BitVec.ofInt 64 lit.toInt)] } }
  | .scmp c dc a b => some (.scalar2 dc.toNat a b fun x y => if ruleScmp c x y then 1 else 0)
  | .mtos d m => some (.maskTo d m fun x => BitVec.ofNat 64 x.toNat)
  | .mcnt d m => some (.maskTo d m fun x => BitVec.ofNat 64 ((List.range 32).countP fun l => x.getLsbD l))
  | .mffs d m => some (.maskTo d m fun x => BitVec.ofNat 64 (((List.range 32).find? fun l => x.getLsbD l).getD 32))
  | _ => none

/-- A mask from one or two. -/
def Form.mask2 (d a b : BitVec 4) (f : Bool → Bool → Bool) : Form :=
  { words := 1, ops := fun _ => [opMw d.toNat, opMr a.toNat, opMr b.toNat]
    result := fun w => { mw := [(d.toNat, maskOf fun l => f ((w.rdM a.toNat).getLsbD l) ((w.rdM b.toNat).getLsbD l))] } }
def Form.mask1 (d a : BitVec 4) (f : Bool → Bool) : Form :=
  { words := 1, ops := fun _ => [opMw d.toNat, opMr a.toNat]
    result := fun w => { mw := [(d.toNat, maskOf fun l => f ((w.rdM a.toNat).getLsbD l))] } }

def maskForms : Instr → Option Form
  | .mand d a b => some (.mask2 d a b fun x y => x && y)
  | .mor d a b => some (.mask2 d a b fun x y => x || y)
  | .mxor d a b => some (.mask2 d a b fun x y => x != y)
  | .mandn d a b => some (.mask2 d a b fun x y => x && !y)
  | .mnot d a => some (.mask1 d a fun x => !x)
  | .mmov d a => some (.mask1 d a fun x => x)
  | .stom d a => some
      { words := 1, ops := fun _ => [opMw d.toNat, opS a.toNat]
        result := fun w => { mw := [(d.toNat, BitVec.ofNat 32 (w.rdS a.toNat).toNat)] } }
  | .mldi d lit => some { words := 2, ops := fun _ => [opMw d.toNat], result := fun _ => { mw := [(d.toNat, lit)] } }
  | _ => none

/-! ## Across lanes (R115, R116, R138 to R144) -/

/-- SRC of R138: POISON for a sub-element that a lane has not, an unlaunched or exited lane, and a held or dead register. -/
def ruleSrc (w : View) (r width sl ss : Nat) : Nat :=
  if ss < 64 / width ∧ w.g.launched.getLsbD sl = true ∧ (w.svc = true → w.g.live.getLsbD sl = true) ∧
      inRuns w.heldV r = false ∧ (w.vLive r).getLsbD sl = true then
    subElem width ss (lane (w.vraw r) sl)
  else poison.toNat % 2 ^ width

/-- The (destination, source) lanes in which a move reads its register: those of lanes that answer with it (R138). -/
def crossPairs (v : View) (src : Nat → Nat → Nat × Nat) : List (Nat × Nat) :=
  (lanesOf (v.eff false)).flatMap fun l => (List.range (64 / tyWidth v.et)).filterMap fun s =>
    if (src l s).2 < 64 / tyWidth v.et ∧ v.laneThere (src l s).1 = true then some (l, (src l s).1) else none

/-- A lane of a move's result. -/
def crossLane (w : View) (r : Nat) (src : Nat → Nat → Nat × Nat) (l : Nat) : Word :=
  laneOfSubs (tyWidth w.et) ((List.range (64 / tyWidth w.et)).map fun s =>
    ruleSrc w r (tyWidth w.et) (src l s).1 (src l s).2)

/-- A move between lanes: sub-element s of lane l takes SRC of a lane and sub-element (R139, R140). -/
def Form.cross (d : BitVec 7) (a : VSrc) (ahead : BitVec 4) (more : View → List Opnd)
    (kills : View → List (Nat × Mask)) (src : View → Nat → Nat → Nat × Nat) : Form :=
  { words := 2, reads := fun v => v.eff false
    ops := fun v => opWr d.toNat :: { opRd a.reg.toNat with reads := some (crossPairs v (src v)) } :: more v
    result := fun w =>
      oneLater w d.toNat (fun l => (crossLane w a.reg.toNat (src w) l, 0)) (lastUse a (w.eff false) ++ kills w) ahead }

/-- The index of a destination sub-element in XPERM: the lane and sub-element that nine bits of B name (R139). -/
def ruleIndex (w : View) (b l s : Nat) : Nat × Nat :=
  let n := tyWidth w.et
  let x := if 16 ≤ n then subElem n s (lane (w.rdV b) l) else subElem 16 (s % 4) (lane (w.rdV (b + s / 4)) l)
  (x % 32, x / 32 % 16)

/-- The active sub-elements of a register, flattened at e = n·l + s (R115, R141). -/
def ruleElements (w : View) (r : Nat) : List (Option Nat) :=
  let n := 64 / tyWidth w.et
  (List.range (32 * n)).map fun e =>
    if (w.eff false).getLsbD (e / n) then some (ruleSrc w r (tyWidth w.et) (e / n) (e % n)) else none

/-- TREE of R115 from the top: the two halves, then one node over their results. An absent half leaves the other. -/
def ruleTree (f : Nat → Nat → Nat × Flags) : Nat → List (Option Nat) → Option Nat × Flags
  | 0, xs => ((xs.head?).join, 0)
  | k + 1, xs =>
    let p := ruleTree f k (xs.take (2 ^ k))
    let q := ruleTree f k (xs.drop (2 ^ k))
    match p.1, q.1 with
    | some x, some y => (some (f x y).1, p.2 ||| q.2 ||| (f x y).2)
    | some x, none => (some x, p.2 ||| q.2)
    | none, y => (y, p.2 ||| q.2)

/-- The node operation (R93, R115). -/
def ruleNode : ROp → SubOp
  | .add => ruleNum (fun x y _ => x + y) fun F rm x y _ => fAdd F rm x y
  | .min => ruleMinMax false
  | .max => ruleMinMax true
  | .and => ruleBitwise fun _ x y => x &&& y
  | .or => ruleBitwise fun _ x y => x ||| y
  | .xor => ruleBitwise fun _ x y => x ^^^ y

/-- The result where no element is active (R115). -/
def ruleIdentity (o : ROp) (t : ETy) : Nat :=
  match tyFmt t, o with
  | some F, .min => F.infBits
  | some F, .max => 2 ^ (F.w - 1) + F.infBits
  | none, .min => ruleBits t (ruleMax t)
  | none, .max => ruleBits t (ruleMin t)
  | none, .and => 2 ^ tyWidth t - 1
  | _, _ => 0

/-- The types that a reduction takes (R141). -/
def redType (o : ROp) (t : ETy) : Bool :=
  match o with | .add | .min | .max => arithType t | _ => intType t

/-- The tree over the elements that a test keeps, with the identity of an empty one. -/
def ruleReduce (w : View) (o : ROp) (r : Nat) (keep : Nat → Bool) : Nat × Flags :=
  let n := 64 / tyWidth w.et
  let xs := (ruleElements w r).zipIdx.map fun p => if keep p.2 then p.1 else none
  let t := ruleTree (fun x y => ruleNode o w.et w.rm w.sat x y 0) (5 + n.log2) xs
  (t.1.getD (ruleIdentity o w.et), t.2)

/-- The lowest EFFMASK lane (R144). -/
def lowLane (v : View) : Option Nat := (List.range 32).find? fun l => (v.eff false).getLsbD l

/-- XRED's result, the same in every sub-element (R141). -/
def redLane (w : View) (o : ROp) (r : Nat) : Word × Flags :=
  let x := ruleReduce w o r fun _ => true
  (laneOfSubs (tyWidth w.et) (List.replicate (64 / tyWidth w.et) x.1), x.2)

/-- XSCAN's lane: at e = n·l + s the elements before e, and e itself where inclusive (R116, R142). -/
def scanLane (w : View) (o : ROp) (incl : Bool) (r l : Nat) : Word × Flags :=
  let n := 64 / tyWidth w.et
  let rs := (List.range n).map fun s => ruleReduce w o r fun e => decide (e < n * l + s) || incl && e == n * l + s
  (laneOfSubs (tyWidth w.et) (rs.map Prod.fst), rs.foldl (fun g r => g ||| r.2) 0)

/-- The set bits of a mask below lane l, and l's own where inclusive (R143). -/
def prefixCount (m : Mask) (incl : Bool) (l : Nat) : Word :=
  BitVec.ofNat 64 ((List.range 32).countP fun i => m.getLsbD i && (decide (i < l) || incl && i == l))

/-- One register written in the EFFMASK lanes from a function of the lane. -/
def Form.lanewise (d : BitVec 7) (more : List Opnd) (ok : ETy → Bool) (ks : View → List (Nat × Mask))
    (f : View → Nat → Word × Flags) : Form :=
  { words := 1, ill := fun v => !ok v.et, reads := fun v => v.eff false, ops := fun _ => opWr d.toNat :: more
    flags := fun w => laneFlags w (f w), result := fun w => oneWrite w d.toNat (f w) (ks w) }

def laneForms : Instr → Option Form
  | .xperm d a b n =>
    let run (v : View) : Nat := if 16 ≤ tyWidth v.et then 1 else 16 / tyWidth v.et
    some (.cross d a n (fun v => [opRun b.reg.toNat (run v) true])
      (fun w => if b.last then (List.range (run w)).map fun i => (b.reg.toNat + i, w.eff false) else [])
      fun w l s => ruleIndex w b.reg.toNat l s)
  | .xbfly d a x n => some (.cross d a n (fun _ => []) (fun _ => []) fun _ l s => (l ^^^ x.toNat, s))
  | .xbcast d a x n => some (.cross d a n (fun _ => []) (fun _ => []) fun _ _ s => (x.toNat, s))
  | .xred d a o => some (.lanewise d [opRd a.reg.toNat] (redType o) (fun w => lastUse a (w.eff false)) fun w _ => redLane w o a.reg.toNat)
  | .xscan d a o incl => some
      (.lanewise d [opRd a.reg.toNat] (redType o) (fun w => lastUse a (w.eff false)) fun w l => scanLane w o incl a.reg.toNat l)
  | .xpsum d m incl => some
      (.lanewise d [opMr m.toNat] (fun _ => true) (fun _ => []) fun w l => (prefixCount (w.rdM m.toNat) incl l, 0))
  | .vtos d a =>
    some
      { words := 1, reads := fun v => v.eff false
        ops := fun v => [opSw d.toNat, { opRd a.reg.toNat with lanes := some (maskOf fun l => lowLane v == some l) }]
        result := fun w =>
          { sw := match lowLane w with | some l => [(d.toNat, lane (w.rdV a.reg.toNat) l)] | none => []
            kills := lastUse a (w.eff false) } }
  | .stov d a => some
      { words := 1, reads := fun v => v.eff false, ops := fun _ => [opWr d.toNat, opS a.toNat]
        result := fun w => { vw := [(d.toNat, w.eff false, LaneVec.splat (w.rdS a.toNat))] } }
  | _ => none

end Sys2Proof.Machine
end

