-- ==== Sys2Proof/Safety/Control.lean ====
section
/-!
DEFINITION. The forms of branches and of the instructions that change MODE, STAT, special registers and hidden state (R47,
R61 to R63, R148 to R151, R154, R156, R180, R219 to R222).
-/
namespace Sys2Proof.Machine

/-! ## Branches (R148 to R151) -/

/-- The target: OFF words from the branch's own first word. -/
def ruleTarget {n : Nat} (v : View) (off : BitVec n) : Word := v.back + BitVec.ofInt 64 (4 * off.toInt)

/-- X: EXEC in service mode, EFFMASK in handler mode (R149, R150). -/
def ruleX (v : View) : Mask := if v.svc then v.split.exec else v.eff true

/-- Whether lane l of X has its condition bit. -/
def condAt (v : View) (mc l : Nat) : Bool := (v.rdM mc).getLsbD l

/-- The lanes of X whose condition bit differs from that of the lowest (R150). -/
def ruleDiffer (v : View) (mc : Nat) : Mask :=
  match (List.range 32).find? fun l => (ruleX v).getLsbD l with
  | some k => maskOf fun l => (ruleX v).getLsbD l && condAt v mc l != condAt v mc k
  | none => 0#32

/-- The branch of a form: to the target where the condition holds, else to the next instruction. -/
def Form.branch {n : Nat} (off : BitVec n) (ops : List Opnd) (taken : View → Bool) : Form :=
  { words := 1, ops := fun _ => ops, result := fun w => { pc := if taken w then some (ruleTarget w off) else none } }

/-! ## MODE and the special registers (R47, R61 to R63, R180) -/

/-- The MODE that SETMODE leaves (R63): ET in bits 11:8, RM in 7:5, G in 4:1, SAT in bit 0. -/
def ruleMode (old : Nat) (et : BitVec 4) (rm : BitVec 3) (g : BitVec 4) (sat wet wrm wg wsat : Bool) : BitVec 12 :=
  BitVec.ofNat 12 ((if wet then et.toNat else old / 256 % 16) * 256 + (if wrm then rm.toNat else old / 32 % 8) * 32 +
    (if wg then g.toNat else old / 2 % 16) * 2 + if wsat then (if sat then 1 else 0) else old % 2)

/-- A legal MODE value (R62): bits 63:12 zero, no ET of 15, no RM above 4. -/
def ruleModeLegal (x : Word) : Bool := decide (x.toNat < 4096) && decide (x.toNat / 256 ≠ 15) && decide (x.toNat / 32 % 8 ≤ 4)

/-- The grid's dimensions in teams, and a team's place among them (R45, R47). -/
def ruleSize (v : View) : Nat × Nat × Nat := v.dims
def ruleXyz (x y z : Nat) : Word := (0#16 ++ BitVec.ofNat 16 z) ++ (BitVec.ofNat 16 y ++ BitVec.ofNat 16 x)

/-- A special register other than LANE and CYC (R47 to R49, R180). -/
def ruleSpecial (v : View) (idx : Nat) : Word :=
  let h := v.g.handler
  match idx with
  | 1 => BitVec.ofNat 64 v.g.gid
  | 2 => ruleXyz (v.t.tidx % (ruleSize v).1) (v.t.tidx / (ruleSize v).1 % (ruleSize v).2.1)
      (v.t.tidx / (ruleSize v).1 / (ruleSize v).2.1)
  | 3 => ruleXyz (ruleSize v).1 (ruleSize v).2.1 (ruleSize v).2.2
  | 4 => BitVec.ofNat 64 v.g.role
  | 5 => BitVec.ofNat 64 v.core
  | 6 => BitVec.ofNat 64 (v.core / 4)
  | 7 => BitVec.ofNat 64 (v.core / 4 / 32)
  | 8 => BitVec.ofNat 64 v.t.slice
  | 10 => 0#54 ++ v.g.stat
  | 11 => 0#54 ++ v.g.trapen
  | 12 => 0#52 ++ v.mode
  | 13 => v.g.ksp
  | 14 => 0#58 ++ if v.svc then v.split.repi else (h.map fun h => (v.g.record h.traprec).repi).getD 0
  | 15 => v.t.gmap
  | 16 => BitVec.ofNat 64 ((h.map Handler.cause).getD 0)
  | 17 => (h.map Handler.hpc).getD 0
  | 18 => (h.map Handler.hinfo).getD 0
  | _ => 0

/-- SRD of LANE: each lane's own number; of any other register: a scalar. CAUSE, HPC and HINFO are the handler's (R53). -/
def Form.srd (d idx : Nat) : Form :=
  if idx = 0 then
    { words := 1, reads := fun v => v.eff false, ops := fun _ => [opWr d]
      result := fun w => { vw := [(d, w.eff false, lanesFrom fun l => BitVec.ofNat 64 l)] } }
  else
    { words := 1, early := fun v => if v.svc && decide (16 ≤ idx) then some 0x05 else none, ops := fun _ => [opSw d]
      result := fun w => { sw := [(d, ruleSpecial w idx)] } }

/-- What SWR raises for a value that its register does not take (R47, R62). -/
def swrFault (idx : Nat) (x : Word) : Option (Nat × Word) :=
  match idx with
  | 11 => if x.toNat < 512 then none else some (0x01, 0)
  | 12 => if ruleModeLegal x then none else some (0x04, 0)
  | 13 => if x.toNat % 16 = 0 then none else some (0x13, 0)
  | _ => none

/-- What SWR leaves in the group: REPI is that of the record TRAPREC names, and a value above 63 is free (R180; DESIGN CHOICE, log 15). -/
def swrGroup (idx : Nat) (x : Word) (w : View) : Group :=
  match idx with
  | 10 => { w.g with stat := x.extractLsb' 0 10 }
  | 11 => { w.g with trapen := x.extractLsb' 0 10 }
  | 12 => w.g.setMode w.fl (x.extractLsb' 0 12)
  | 13 => { w.g with ksp := x }
  | _ =>
    match w.g.handler with
    | some h => w.g.modRec h.traprec fun r =>
        { r with repi := if x.toNat < 64 then x.extractLsb' 0 6 else Config.wideRepi w.s.tick }
    | none => w.g

def Form.swr (idx : Nat) (a : BitVec 6) : Form :=
  { words := 1, early := fun v => if v.svc && decide (idx = 14) then some 0x05 else none, ops := fun _ => [opS a.toNat]
    fault := fun w => swrFault idx (w.rdS a.toNat), sets := some fun w => swrGroup idx (w.rdS a.toNat) w }

/-! ## Hidden state (R221, R222) -/

/-- A field of a split record: PC, MEMBERS and EXEC, REPI and MODE, JOIN, OUTER JOIN. -/
def ruleField5 (r : Split) (f : Nat) : Word :=
  match f with
  | 0 => r.pc
  | 1 => r.members ++ r.exec
  | 2 => 0#46 ++ (r.repi ++ r.mode)
  | 3 => r.join.getD (-1)
  | _ => r.ojoin.getD (-1)

/-- PENDING: the valid bit, the record, the cause, and HINFO's low half (R217, R221). A pre-emption and a value without VALID
keep the fields that HSW wrote. -/
def rulePending (g : Group) : Word :=
  match g.pending with
  | some p => (1#1 ++ 0#21) ++ (BitVec.ofNat 2 p.record ++ (BitVec.ofNat 8 p.cause ++ p.hinfo.extractLsb' 0 32))
  | none => (if g.preempt then (1#1 ++ 0#21) ++ (0#2 ++ (0x50#8 ++ 0#32)) else 0) ||| g.pendRest

/-- Hidden state as HSR reads it. -/
def ruleHidden (v : View) (sel : Nat) : Word :=
  if sel < 0x0200 then ruleField5 (v.g.record (sel / 16 % 4)) (sel % 16)
  else if sel = 0x0200 then BitVec.ofNat 64 ((v.g.handler.map Handler.traprec).getD 0)
  else if sel = 0x0201 then rulePending v.g
  else if sel = 0x0300 then v.g.slive ||| 1
  else if sel < 0x0500 then 0#32 ++ v.vLive (sel - 0x0400)
  else if sel = 0x0500 then v.g.tokBusy
  else if sel < 0x0640 then (if v.g.slive.getLsbD (sel - 0x0600) then vget v.g.s (sel - 0x0600) 0 else poison)
  else if sel < 0x0642 then 0#32 ++ vget v.g.m (sel - 0x0632) 0
  else if sel = 0x0700 then v.g.saveArea
  else v.t.teamArea

/-- The vector register that a VLIVE selector names. -/
def selReg (sel : Nat) : List Opnd := if 0x0400 ≤ sel ∧ sel < 0x0480 then [opWr (sel - 0x0400)] else []

/-- What HSW raises for a value that its selector does not take (R221, R222): ILLOP. -/
def hswFault (sel : Nat) (x : Word) : Option (Nat × Word) :=
  let ok : Bool :=
    if sel < 0x0200 then
      (if sel % 16 = 0 then decide (x.toNat % 4 = 0)
       else if sel % 16 = 2 then decide (x.toNat < 2 ^ 18) && ruleModeLegal (BitVec.ofNat 64 (x.toNat % 4096)) else true)
    else if sel = 0x0201 then decide (x.toNat / 2 ^ 42 % 2 ^ 21 = 0)
    else if sel = 0x0500 then decide (x = 0)
    else true
  if ok then none else some (0x01, 0)

/-- In service mode a handler's instruction raises PRIV (R53, R59). -/
def handlerOnly (v : View) : Option Nat := if v.svc then some 0x05 else none

def controlForms : Instr → Option Form
  | .bra off => some (.branch off [] fun _ => true)
  | .bru mc off =>
    let differs (w : View) : Bool := decide (ruleDiffer w mc.toNat ≠ 0#32)
    some
      { Form.branch off [opMr mc.toNat] fun w =>
          match (List.range 32).find? fun l => (ruleX w).getLsbD l with
          | some k => condAt w mc.toNat k
          | none => false with
        fault := fun w =>
          if differs w && w.svc && w.g.trapen.getLsbD 2 then some (0x07, (ruleDiffer w mc.toNat).zeroExtend 64) else none
        stat := fun w => if differs w then statDivu else 0 }
  | .brz mc off => some (.branch off [opMr mc.toNat] fun w =>
      (List.range 32).all fun l => !((ruleX w).getLsbD l && condAt w mc.toNat l))
  | .brnz mc off => some (.branch off [opMr mc.toNat] fun w =>
      (List.range 32).any fun l => (ruleX w).getLsbD l && condAt w mc.toNat l)
  | .brs sc off => some (.branch off [opS sc.toNat] fun w => decide (w.rdS sc.toNat ≠ 0))
  | .loop sc off => some
      { words := 1, early := fun _ => if sc = 0 then some 0x01 else none, ops := fun _ => [opS sc.toNat]
        result := fun w =>
          let n := w.rdS sc.toNat - 1
          { sw := [(sc.toNat, n)], pc := if n = 0 then none else some (ruleTarget w off) } }
  | .call off => some
      { words := 1, ops := fun _ => [opSw 62]
        result := fun w => { sw := [(62, w.back + 4)], pc := some (ruleTarget w off) } }
  | .ret => some
      { words := 1, ops := fun _ => [opS 62]
        fault := fun w =>
          if (w.rdS 62).toNat % 4 ≠ 0 then some (0x13, 0) else if 2 ^ 53 ≤ (w.rdS 62).toNat then some (0x11, 0) else none
        result := fun w => { pc := some (w.rdS 62) } }
  | .pad _ | .nop => some { words := 1 }
  | .yield => some { words := 1, sets := some fun w => (w.g.drainFlow w.fl).setSleep w.fl .yield }
  | .setmode et rm g sat wet wrm wg wsat => some
      { words := 1
        fault := fun _ =>
          if (wet ∧ et.toNat = 15) ∨ (wrm ∧ 4 < rm.toNat) then some (0x04, 0) else none
        sets := some fun w => w.g.setMode w.fl (ruleMode w.mode.toNat et rm g sat wet wrm wg wsat) }
  | .srd d idx => if idx = 9 then none else some (.srd d.toNat idx.toNat)
  | .swr idx a => if 10 ≤ idx.toNat ∧ idx.toNat ≤ 14 then some (.swr idx.toNat a) else none
  | .hsr sd sel =>
    if selReadable sel then some
      { words := 1, early := handlerOnly, ops := fun _ => opSw sd.toNat :: selReg sel.toNat
        result := fun w => { sw := [(sd.toNat, ruleHidden w sel.toNat)] } }
    else none
  | .hsw sel sa =>
    if selWritable sel then some
      { words := 1, early := handlerOnly, ops := fun _ => opS sa.toNat :: selReg sel.toNat
        fault := fun w => hswFault sel.toNat (w.rdS sa.toNat)
        sets := some fun w => w.g.setHidden sel.toNat (w.rdS sa.toNat) }
    else none
  | _ => none

end Sys2Proof.Machine
end

