-- ==== Sys2Proof/Safety/Access.lean ====
section
/-!
DEFINITION. The shape of the statements about instructions that reach memory (R160 to R179): where their bytes lie, the rows
of R165, what the bytes of memory are afterwards, and what stays the same.
-/
namespace Sys2Proof.Machine

/-! ## What an access leaves in the groups -/

/-- How an access may change what a flow sleeps on: a queue sleeper has its object accessed (R178), and a BWAIT's phase
flips (R176). -/
def Sleep.Becomes (a b : Sleep) : Prop :=
  b = a ∨ (∃ t o p d g, a = .queue t o p d g false ∧ b = .queue t o p d g true) ∨ ∃ t o par c, a = .bwait t o par ∧ b = .woken c

/-- Nothing of a group changes but its sleepers, as above. -/
def Group.OnlySleeps (g g' : Group) : Prop :=
  g' = { g with recs := g'.recs, handler := g'.handler } ∧
    (∀ k, k < 4 → g'.record k = { g.record k with sleep := (g'.record k).sleep } ∧
      (g.record k).sleep.Becomes (g'.record k).sleep) ∧
    match g.handler, g'.handler with
    | some h, some h' => h' = { h with sleep := h'.sleep } ∧ h.sleep.Becomes h'.sleep
    | none, none => True
    | _, _ => False

/-- Nothing of the issuing group changes but what ordering tracks (R186, R188, R189) and its sleepers. -/
def Group.Ordered (g g' : Group) : Prop :=
  ∃ c r m fl f, (({ g with clk := c, rels := r, relMark := m } : Group).modOrd fl f).OnlySleeps g'

/-- Every other group is as it was but for its sleepers, and a team but for its groups and its shared memory. -/
def OthersStay (s t : State) (u gid : Nat) : Prop :=
  (t.teams.map fun x => { x with groups := [], shared := [] }) = (s.teams.map fun x => { x with groups := [], shared := [] }) ∧
    ∀ u' gid', (u' ≠ u ∨ gid' ≠ gid) →
      match s.group? u' gid', t.group? u' gid' with
      | some g, some g' => g.OnlySleeps g'
      | none, none => True
      | _, _ => False

/-- Nothing changes beyond the teams, memory with its ECC words, the translation buffers, the record of rewritten words, and
what ordering and race metadata track. -/
def SameBeyond (s t : State) : Prop :=
  t = { s with teams := t.teams, mem := t.mem, eccMem := t.eccMem, eccShared := t.eccShared, tlb1 := t.tlb1, tlb2 := t.tlb2,
               wlog := t.wlog, locs := t.locs, lines := t.lines, hist := t.hist, flips := t.flips }

/-- As above, with the items, the REDs and the next number beside them. -/
def SameBeyondItems (s t : State) : Prop :=
  t = { s with teams := t.teams, mem := t.mem, eccMem := t.eccMem, eccShared := t.eccShared, tlb1 := t.tlb1, tlb2 := t.tlb2,
               wlog := t.wlog, locs := t.locs, lines := t.lines, hist := t.hist, flips := t.flips, items := t.items, reds := t.reds, nextId := t.nextId,
               matrices := t.matrices }

/-- An instruction of the view ends: `w` is the view after the issue, `change` what the instruction did to the group before
its writes, and `st` and `e` its STAT bits and writes. -/
def View.Performs (v : View) (s t : State) (w : View) (change : Group → Group → Prop) (st : BitVec 10) (e : Eff) : Prop :=
  ∃ (w1 : View) (g' : Group), w1 = { w with s := w1.s, g := w1.g } ∧ change w.g w1.g ∧
    t.group? v.u v.g.gid = some g' ∧ (∃ g, s.group? v.u v.g.gid = some g ∧ g.Readied w.g v.fl) ∧
    w1.g.Keeps g' v.fl e.dv e.kv (e.ds w1.g v.fl) (e.dm w1.g v.fl) ∧ w1.Wrote st e g' ∧ OthersStay s t v.u v.g.gid

/-! ## The rows of R165 -/

/-- What each address of an access translates to, piece by piece (R17 to R21, R165 row 3). -/
def View.xlated (w : View) (q : Req) (as : List (Nat × Word)) : List (Nat × Nat × Xl) :=
  (w.s.translateAll w.core w.t.ctx
    (as.flatMap fun a => (List.range q.pieces).map fun i => (a.1, (w.vaOf q a).toNat + 8 * i))).1

/-- The view after the lookups of an access, which fill the translation buffers (R20). -/
def View.looked (w : View) (q : Req) (as : List (Nat × Word)) : View :=
  if q.space = .sh then w
  else
    { w with s := (w.s.translateAll w.core w.t.ctx
        (as.flatMap fun a => (List.range q.pieces).map fun i => (a.1, (w.vaOf q a).toNat + 8 * i))).2 }

/-- Rows 1 and 2: each cause with the lanes that meet it. -/
def View.firstRows (w : View) (q : Req) (as : List (Nat × Word)) : List (Nat × List Nat) :=
  w.row1 q as ++ [(0x13, row2 q as)]

/-- Row 3: the first address whose translation is absent, and whether its entry is malformed. -/
def View.absentAt (w : View) (q : Req) (as : List (Nat × Word)) : Option (Nat × Bool) :=
  if q.space = .sh then none
  else (w.xlated q as).findSome? fun x => match x.2.2 with | .absent m => some (x.2.1, m) | _ => none

/-- The lanes in which an access meets an absent page. -/
def View.absentLanes (w : View) (q : Req) (as : List (Nat × Word)) : Mask :=
  if q.scalar then 0
  else maskOf fun l => (w.xlated q as).any fun x => x.1 == l && (match x.2.2 with | .absent _ => true | _ => false)

/-- Rows 4 to 7: PROT, BADSPACE, RACE and ECC, with the lanes; a shared access meets only ECC. -/
def View.lastRows (w : View) (q : Req) (as : List (Nat × Word)) : List (Nat × List Nat) :=
  let ls (f : Nat → TlbEntry → Bool) : List Nat :=
    (w.xlated q as).filterMap fun x => match x.2.2 with | .ok e => if f x.2.1 e then some x.1 else none | _ => none
  if q.space = .sh then
    [(0x60, (as.filter fun a => match w.s.shAddr w.t a.2 q.z with
      | .ok u off => q.ecc && w.s.badShared u off q.z
      | _ => q.ecc && w.s.badShared w.u 0 q.z).map Prod.fst)]
  else
    [(0x11, ((w.xlated q as).filter fun x => match x.2.2 with
        | .ok e => (q.rd && !e.rd) || (q.wr && !e.w)
        | _ => true).map Prod.fst),
     (0x12, ls fun _ e => e.kind != .scratch),
     (0x20, ls fun va e => e.race && w.s.raceAt (w.accessOf q) w.clk (e.pa va) q.piece),
     (0x60, ls fun va e => q.ecc && w.s.badMem (e.pa va) q.piece)]

/-- The first cause that some lane meets. -/
def firstCause (rows : List (Nat × List Nat)) : Option (Nat × List Nat) := rows.find? fun r => !r.2.isEmpty

/-- No row stops the access. -/
def View.passes (w : View) (q : Req) (as : List (Nat × Word)) : Prop :=
  firstCause (w.firstRows q as) = none ∧ w.absentAt q as = none ∧ firstCause (w.lastRows q as) = none

/-- Where the pieces of each lane lie, each of at most 8 bytes. -/
def View.spots (w : View) (q : Req) (as : List (Nat × Word)) : List (Nat × List Loc) :=
  as.map fun a => (a.1,
    if q.space = .sh then
      (List.range q.pieces).map fun i => match w.s.shAddr w.t a.2 q.z with
        | .ok u off => .sh u (off + 8 * i)
        | _ => .sh w.u (8 * i)
    else (w.xlated q as).filterMap fun x => match x.2.2 with
      | .ok e => if x.1 = a.1 then some (.at (e.pa x.2.1) x.2.1 e.race) else none
      | _ => none)

/-- Every piece, in lane order. -/
def View.allSpots (w : View) (q : Req) (as : List (Nat × Word)) : List Loc := (w.spots q as).flatMap Prod.snd

/-! ## Bytes -/

/-- A byte of physical memory, and of a team's shared memory, after writes of `n` bytes each in order: the last write that
covers it, little-endian (R4, R167). -/
def physAfter (ws : List (Loc × Nat)) (n a : Nat) (old : Byte) : Byte :=
  ws.foldl (fun b w => match w.1 with
    | .at pa _ _ => if pa ≤ a ∧ a < pa + n then BitVec.ofNat 8 (w.2 / 256 ^ (a - pa)) else b
    | .sh _ _ => b) old
def sharedAfter (ws : List (Loc × Nat)) (n u a : Nat) (old : Byte) : Byte :=
  ws.foldl (fun b w => match w.1 with
    | .sh u' off => if u' = u ∧ off ≤ a ∧ a < off + n then BitVec.ofNat 8 (w.2 / 256 ^ (a - off)) else b
    | .at _ _ _ => b) old

/-- Memory after writes of `n` bytes each: every byte they cover, and every other byte as before. -/
def Stored (s t : State) (n : Nat) (ws : List (Loc × Nat)) : Prop :=
  (∀ a, Memory.read t.mem a = physAfter ws n a (Memory.read s.mem a)) ∧
    ∀ u a, (s.team? u).isSome →
      Memory.read (t.sharedOf u) a = sharedAfter ws n u a (Memory.read (s.sharedOf u) a)

/-- Memory is in its canonical form: physical memory, and that of every team. -/
def State.memOk (s : State) : Bool := Memory.wf s.mem && s.teams.all fun t => Memory.wf t.shared

/-- A number of `n` bytes at a location, after earlier writes. -/
def numberAt (s : State) (ws : List (Loc × Nat)) (n : Nat) (l : Loc) : Nat :=
  leNat ((List.range n).map fun k => match l with
    | .at pa _ _ => physAfter ws n (pa + k) (Memory.read s.mem (pa + k))
    | .sh u off => sharedAfter ws n u (off + k) (Memory.read (s.sharedOf u) (off + k)))

/-! ## Loads and stores (R160 to R169) -/

/-- A memory instruction: its issue, what it asks for, the address of each lane, and what else it waits for. -/
structure Reach where
  form  : Form
  req   : Req
  addrs : View → List (Nat × Word)
  waits : View → Bool := fun _ => false

/-- The view after the issue, and the STAT bits met there. -/
def Reach.issued (R : Reach) (v : View) : View := R.form.issued v
def Reach.met (R : Reach) (v : View) : BitVec 10 := (R.issued v).metBits (R.form.reads v) (R.form.ops v)

/-- The instruction goes on: no row of R165 stops it, none of its group's REDs and ATOMs is still to be performed on its bytes
(R185, R186), and nothing else is waited for. -/
def Reach.goes (R : Reach) (w : View) : Prop :=
  w.passes R.req (R.addrs w) ∧
    (w.looked R.req (R.addrs w)).redBlocks R.req (w.allSpots R.req (R.addrs w)) = false ∧ R.waits w = false

/-- The lanes' addresses: the base scalar, the offset, and the index lane where one is named (R160). -/
def ruleAddrs (w : View) (m : LAddr) {n : Nat} (off : BitVec n) (eff : Mask) : List (Nat × Word) :=
  ((List.range 32).filter fun l => eff.getLsbD l).map fun l =>
    (l, w.rdS m.sb.toNat + BitVec.ofInt 64 off.toInt + if m.vx = 127#7 then 0 else lane (w.rdV m.vx.toNat) l)

/-- The register fields of an address; with no lane nothing is read. -/
def ruleAddrOps (m : LAddr) (eff : Mask) : List Opnd :=
  { file := .s, reg := m.sb.toNat, rd := eff != 0#32 } :: if m.vx = 127#7 then [] else [opRd m.vx.toNat]

/-- How the issuing flow reads (R186, R191, R192): what it has seen, what happens before it, and for an acquire the releases of
its own that it may pass. -/
def ruleReader (w : View) (plain : Bool) : Reader :=
  { thread := 2 * (32 * w.u + w.g.gid), clk := w.clk, plain := plain, seen := w.ord.seen
    mark := if plain then none else w.g.relMark }

/-- The number that a read at a place returns (R186, R192): what memory holds, but where the read races with the newest writes,
or may be performed before them; then what stood there before some of these (DESIGN CHOICE, log 19). -/
def loadedAt (w : View) (q : Req) (x : Loc) : Nat :=
  if w.s.missable (ruleReader w q.plain) x.key q.piece = [] then numberAt w.s [] q.piece x
  else w.s.readNat (ruleReader w q.plain) x q.piece

/-- Piece `j` of lane `l` as loaded. -/
def loadLane (w : View) (q : Req) (as : List (Nat × Word)) (j l : Nat) : Word :=
  match ((w.spots q as).find? fun p => p.1 == l).bind fun p => p.2[j]? with
  | some x => BitVec.ofNat 64 (loadedAt w q x)
  | none => 0

def Reach.load (d : BitVec 7) (m : LAddr) (size : MSize) (space : Space) (plain : Bool) (off : BitVec 23) : Reach :=
  { form := { words := 2, reads := fun v => v.eff false
              ops := fun v => opRun d.toNat (sizeRegs size) false :: ruleAddrOps m (v.eff false) }
    req := Req.load space size plain false
    addrs := fun w => ruleAddrs w m off (w.eff false)
    waits := fun w => !plain && (w.eff false != 0#32) && w.redsBefore true }

/-- A loaded register is one result for each 8 bytes, outstanding (R64, R166); LX kills the index. -/
def loadEff (R : Reach) (d : BitVec 7) (m : LAddr) (size : MSize) (ahead : BitVec 4) (w : View) : Eff :=
  if w.eff false = 0 then {}
  else
    { kills := if m.lx then [(m.vx.toNat, w.eff false)] else []
      pend := some
        { flow := w.fl, win := ahead.toNat, ss := []
          vs := ((List.range (sizeRegs size)).map fun j =>
            (d.toNat + j, w.eff false, lanesFrom fun l => loadLane w R.req (R.addrs w) j l)).filter fun x =>
              !inRuns w.heldV x.1 } }

/-- The one address of a scalar form (R160, R168). -/
def ruleAddr (w : View) (sb : BitVec 6) (off : BitVec 23) : List (Nat × Word) :=
  [(0, w.rdS sb.toNat + BitVec.ofInt 64 off.toInt)]

def loadForms : Instr → Option (Reach × (View → Eff))
  | .ld d m ahead x =>
    let R := Reach.load d m x.size x.space (!x.ordered) x.off
    some (R, loadEff R d m x.size ahead)
  | .ldk d m ahead size off =>
    let R := Reach.load d m size .sk true off
    some (R, loadEff R d m size ahead)
  | .lds sd sb ahead x =>
    let R : Reach :=
      { form := { words := 2, ops := fun _ => [opSw sd.toNat, opS sb.toNat] }
        req := Req.load x.space x.size (!x.ordered) true, addrs := fun w => ruleAddr w sb x.off
        waits := fun w => x.ordered && w.redsBefore true }
    some (R, fun w =>
      { pend := some { flow := w.fl, win := ahead.toNat, vs := [], ss := [(sd.toNat, loadLane w R.req (R.addrs w) 0 0)] } })
  | _ => none

/-- Where a load completes: its result is what memory held, and no byte changes. -/
def LoadRuns (i : Instr) (R : Reach) (e : View → Eff) : Prop :=
  ∀ s v, R.form.CanIssue s v → R.goes (R.issued v) →
    ∃ t, exec i s = .next t ∧ v.Performs s t (R.issued v) Group.Ordered (R.met v) (e (R.issued v)) ∧
      SameMemory s t ∧ SameBeyond s t

/-- The pieces that a store writes, with the low bytes of its data registers, lane by lane (R167). -/
def storeWrites (R : Reach) (d : Nat) (w : View) : List (Loc × Nat) :=
  (w.spots R.req (R.addrs w)).flatMap fun p => p.2.zipIdx.map fun l =>
    (l.1, (lane (w.rdV (d + l.2)) p.1).toNat % 2 ^ (8 * R.req.piece))

def Reach.store (d : BitVec 7) (m : LAddr) (size : MSize) (space : Space) (rel : Bool) (off : BitVec 23) : Reach :=
  { form := { words := 2, reads := fun v => v.eff true
              ops := fun v => opRun d.toNat (sizeRegs size) true :: ruleAddrOps m (v.eff true) }
    req := Req.store space size (!rel) false
    addrs := fun w => ruleAddrs w m off (w.eff true)
    waits := fun w => rel && (w.eff true != 0#32) && w.redsOut }

def storeForms : Instr → Option (Reach × (View → List (Loc × Nat)) × (View → List (Nat × Mask)))
  | .st d m x =>
    let R := Reach.store d m x.size x.space x.ordered x.off
    some (R, storeWrites R d.toNat, fun w => if m.lx then [(m.vx.toNat, w.eff true)] else [])
  | .stk d m size off =>
    let R := Reach.store d m size .sk false off
    some (R, storeWrites R d.toNat, fun w => if m.lx then [(m.vx.toNat, w.eff true)] else [])
  | .sts sd sb x =>
    let R : Reach :=
      { form := { words := 2, ops := fun _ => [opS sd.toNat, opS sb.toNat] }
        req := Req.store x.space x.size (!x.ordered) true, addrs := fun w => ruleAddr w sb x.off
        waits := fun w => x.ordered && w.redsOut }
    some (R, fun w => (w.allSpots R.req (R.addrs w)).map fun l => (l, (w.rdS sd.toNat).toNat % 2 ^ (8 * R.req.piece)),
      fun _ => [])
  | _ => none

/-- Where a store completes: the bytes it covers hold its data, and no other byte changes. -/
def StoreRuns (i : Instr) (R : Reach) (ws : View → List (Loc × Nat)) (ks : View → List (Nat × Mask)) : Prop :=
  ∀ s v, s.memOk = true → R.form.CanIssue s v → R.goes (R.issued v) →
    ∃ t, exec i s = .next t ∧ v.Performs s t (R.issued v) Group.Ordered (R.met v) { kills := ks (R.issued v) } ∧
      Stored s t R.req.piece (ws (R.issued v)) ∧ SameBeyond s t

/-- Where a row of R165 stops the access: rows 1 and 2, then the absent page, then rows 4 to 7, each precise, under the
first cause that a lane meets, with the lanes (R165, R168, R216). -/
def Reach.Refuses (R : Reach) (i : Instr) : Prop :=
  ∀ s v, R.form.CanIssue s v →
    let w := R.issued v
    let as := R.addrs w
    let lanes (ls : List Nat) : Word := if R.req.scalar then 0 else (maskOf fun l => ls.contains l).zeroExtend 64
    let at3 : View := w.looked R.req as
    (∀ c, firstCause (w.firstRows R.req as) = some c → exec i s = w.trap (R.met v) c.1 (lanes c.2)) ∧
    (firstCause (w.firstRows R.req as) = none → ∀ a, w.absentAt R.req as = some a →
      exec i s = at3.xlate (R.met v) a.1 a.2 (w.absentLanes R.req as)) ∧
    (firstCause (w.firstRows R.req as) = none → w.absentAt R.req as = none →
      ∀ c, firstCause (w.lastRows R.req as) = some c →
        exec i s = at3.trap (R.met v) c.1
          (if c.1 = 0x60 then lanes c.2 ||| hinfoMem 0 else lanes c.2))

/-! ## Atomics (R170, R171, R174) -/

/-- The new value of an atomic on `n` bytes: minimum and maximum unsigned under n types, fadd to nearest (R170). -/
def ruleAtom (op : AOp) (n : Nat) (unsigned : Bool) (old x c : Nat) : Nat :=
  let val (a : Nat) : Int := if unsigned then a else (BitVec.ofNat (8 * n) a).toInt
  match op with
  | .add => (old + x) % 256 ^ n
  | .min => if val old < val x then old else x
  | .max => if val x ≤ val old then old else x
  | .and => old &&& x
  | .or => old ||| x
  | .xor => old ^^^ x
  | .swap => x
  | .cas => if old = x then c else old
  | .fadd => let F := if n = 8 then fmtF64 else fmtF32; (fAdd F .rne (F.decode old) (F.decode x)).1

def unsignedType (t : ETy) : Bool := match t with | .n64 | .n32 | .n16 | .n8 => true | _ => false

/-- The issue of ATOM and RED: D for ATOM, the address, and VB with VB+1 for .cas. They wait while their core has 512 requests
outstanding (R1). -/
def Reach.atom (d : Option (BitVec 7)) (m : LAddr) (x : AtomWord) : Reach :=
  { form := { words := 2, reads := fun v => v.eff true
              ops := fun v => (match d with | some d => [opWr d.toNat] | none => []) ++ ruleAddrOps m (v.eff true) ++
                [opRun x.vb.toNat (if x.op = .cas then 2 else 1) true] }
    req := { space := if x.sp then .sp else .sh, z := if x.wide then 8 else 4, align := if x.wide then 8 else 4, rd := true,
             wr := true, plain := false, scalar := false, ecc := false }
    addrs := fun w => ruleAddrs w m x.off (w.eff true)
    waits := fun w => !w.roomForRed (ruleAddrs w m x.off (w.eff true)).length }

/-- What ATOM and RED kill at issue: the index register, under LX (R160). -/
def atomKills (m : LAddr) (w : View) : List (Nat × Mask) := if m.lx then [(m.vx.toNat, w.eff true)] else []

/-- The lanes of an ATOM whose line has an uncorrectable error as it issues. -/
def badLanes (R : Reach) (w : View) : Mask :=
  maskOf fun l => (w.spots R.req (R.addrs w)).any fun p => p.1 == l && p.2.any fun q => w.s.locBad q R.req.z

end Sys2Proof.Machine
end

