-- ==== Sys2Proof/Safety/Command.lean ====
section
/-!
DEFINITION. The shape of the statements about engine commands (R23, R24, R250, R272, R299, R300, R316, R317, R324, R342,
R349 to R353): the item that a command posts, and what it leaves in its group.
-/
namespace Sys2Proof.Machine

/-- What posting an item changes in the issuing group: its token register is busy, the handler's own where it names S56 to
S63 (R24, R53), and the issue is a release (R194). -/
def Group.Posts (fl : Nat) (tok : BitVec 6) (g g' : Group) : Prop :=
  let banked := decide (fl = 4) && decide (56 ≤ tok.toNat)
  g' = { g with clk := g'.clk, rels := g'.rels, relMark := g'.relMark, tokBusy := g'.tokBusy, handler := g'.handler } ∧
    (∀ r, r < 64 → g'.tokBusy.getLsbD r =
      (g.tokBusy.getLsbD r || decide (r = tok.toNat) && decide (tok ≠ 0) && !banked)) ∧
    g'.handler = g.handler.map fun h =>
      if banked then { h with tokBusy := h.tokBusy ||| BitVec.ofNat 8 (2 ^ (tok.toNat - 56)) } else h

/-- The token field, and a scalar field in which 0 names no register. -/
def tokField (tok : BitVec 6) : List Opnd := if tok = 0 then [] else [opSw tok.toNat]
def orNone (r : BitVec 6) : List Opnd := if r = 0 then [] else [opS r.toNat]

/-- In a KILL handler the opcodes 0x68 to 0x77 are double faults (R86, R228; the cause is the model's, DESIGN CHOICE, log 25). -/
def killed (v : View) : Option Nat := if v.inKill then some 0x51 else none

/-- A command: its issue, its token, what its addresses raise, whether its unit's queue is full, the item it posts and the
registers that last use kills. `first` is the issue as it is judged before the addresses, which MMA has otherwise (R272). -/
structure Command where
  form  : Form
  first : Form := form
  tok   : BitVec 6
  fault : View → Option (Nat × Word) := fun _ => none
  full  : View → Bool := fun _ => false
  item  : View → Item
  kills : View → List (Nat × Mask) := fun _ => []

/-- An item of the issuing flow: its number, context, core and party, with the lanes it works on. -/
def itemOf (w : View) (tok : BitVec 6) (eff : Mask) (work : Work) : Item :=
  { id := w.s.nextId, ctx := w.t.ctx, core := w.core, party := ⟨w.t.slice, w.t.gang, w.u, w.g.gid⟩, flow := w.fl,
    lanes := w.members, tok := tok, eff := eff, sa := 0, sb := 0, vs := [], d := 0, outs := [], drop := [], dropM := false, clk := [], waits := [], work := work }

/-- The checks of R250: an address outside its allocation, an absent gang peer, a misaligned address, each first in field
order; `as` gives addresses, lengths and alignments. -/
def ruleChecks (w : View) (as : List (Word × Nat × Nat)) : Option (Nat × Word) :=
  if as.any fun a => w.s.shAddr w.t a.1 a.2.1 == .shbound then some (0x15, 0)
  else if as.any fun a => w.s.shAddr w.t a.1 a.2.1 == .gang then some (0x14, 0)
  else if as.any fun a => decide (a.1.toNat % a.2.2 ≠ 0) then some (0x13, 0)
  else none

/-- The lanes whose ray records lie outside the own allocation, or are not 64-byte aligned (R351, R352). -/
def ruleRecords (w : View) (eff : Mask) (addr : Nat → Word) : Option (Nat × Word) :=
  let out := maskOf fun l => eff.getLsbD l &&
    match w.s.shAddr w.t (addr l) 192 with | .ok u _ => decide (u ≠ w.u) | _ => true
  let mis := maskOf fun l => eff.getLsbD l && decide ((addr l).toNat % 64 ≠ 0)
  if out ≠ 0 then some (0x15, out.zeroExtend 64) else if mis ≠ 0 then some (0x13, mis.zeroExtend 64) else none

/-- The commands of one cluster in a unit's queue (R250, R265). -/
def queueOf (s : State) (cluster : Nat) (mine : Work → Bool) : List Item :=
  s.items.filter fun i => decide (i.core / 4 = cluster) && mine i.work
def isCopy : Work → Bool | .copy .. => true | _ => false
def isMma : Work → Bool | .mma .. => true | _ => false

/-- XCP (R250). -/
def xcpCommand (d sa sb tok : BitVec 6) (batch : Bool) (nm1 : BitVec 6) (bytes : Bool) : Command :=
  let n := if batch then nm1.toNat + 1 else 1
  { form := { words := 2, early := killed, ops := fun _ => orNone d ++ [opS sa.toNat] ++ orNone sb ++ tokField tok }, tok := tok
    fault := fun w => ruleChecks w ((if d = 0 then [] else [(w.rdS d.toNat, 8 * n, 8)]) ++ [(w.rdS sa.toNat, 64 * n, 64)] ++
      if sb = 0 then [] else [(w.rdS sb.toNat, 32, 8)])
    full := fun w => decide (64 ≤ (queueOf w.s (w.core / 4) isCopy).length)
    item := fun w => itemOf w tok 0 (.copy (w.rdS sa.toNat) (if d = 0 then none else some (w.rdS d.toNat))
      (if sb = 0 then none else some (w.rdS sb.toNat)) bytes batch (List.replicate n .queued)) }

/-- The four dwords of the format block at a shared address, none where they cannot be read (R268, R278). Where bytes of it race
with writes since the group's last MFENCE.opr, it is what the engine's read of them gives (R196; DESIGN CHOICE, log 19). -/
def ruleBlock (w : View) (i : Item) (a : Word) : List Word :=
  match w.s.shAddr w.t a 32 with
  | .ok u off =>
    let r : Reader := { thread := 2 * i.id + 1, clk := w.g.oprClk, plain := true, seen := [], mark := none }
    if w.s.badShared u off 32 then []
    else if w.s.missable r (sharedKey u off) 32 = [] then (List.range 4).map fun k => Memory.word (w.s.sharedOf u) (off + 8 * k)
    else w.blockAt i a
  | _ => []

/-- MMA (R268, R272): 64 accumulator registers in every launched lane; its addresses are judged before HRA and DEADRD of
these. -/
def mmaCommand (d : BitVec 7) (sa sb tok : BitVec 6) : Command :=
  let a := sa.toNat
  let b := sb.toNat
  let acc : Opnd := { file := .v, reg := d.toNat, run := 64, rd := true, lanes := none, ecc := false }
  let form (late : Bool) : Form :=
    { words := 2, early := killed, reads := fun v => v.g.launched
      ops := fun v => [{ acc with lanes := some v.g.launched, rd := !late, late := late }, opS a, opS b] ++ tokField tok }
  { form := form false, first := form true, tok := tok
    fault := fun w => ruleChecks w [(w.rdS a, 32, 32), (w.rdS b, 32, 8)]
    full := fun w => decide (32 ≤ (queueOf w.s (w.core / 4) isMma).length)
    item := fun w =>
      { itemOf w tok w.g.launched (.mma (ruleBlock w (itemOf w tok 0 (.mma [] 0 0 0 0 false [])) (w.rdS a)) (w.rdS b) w.g.mprio.toNat
          (w.s.mmaClock (w.core / 4) w.core w.g.slot) w.g.slot false w.g.oprClk) with
        d := d.toNat, vs := (List.range 64).map fun j => w.rdV (d.toNat + j) } }

/-- HRA and DEADRD of an MMA's accumulators, once its addresses have passed (R272). -/
def MmaJudges (d : BitVec 7) (sa sb tok : BitVec 6) : Prop :=
  ∀ s v, (mmaCommand d sa sb tok).first.CanIssue s v →
    let C := mmaCommand d sa sb tok
    let w := C.first.issued v
    let met := w.metBits (C.first.reads v) (C.first.ops v)
    let acc : List Opnd := [{ file := .v, reg := d.toNat, run := 64, rd := true, lanes := some w.g.launched }]
    let hra : BitVec 10 := if (w.heldNamed acc).isSome then 0x008 else 0
    let on (b : Nat) : Bool := w.svc && w.g.trapen.getLsbD b
    C.fault w = none →
      (∀ r, on 3 = true → w.heldNamed acc = some r → exec (.mma d sa sb tok) s = w.trap (met ||| hra) 0x0A (BitVec.ofNat 64 r)) ∧
      ((on 3 && (w.heldNamed acc).isSome) = false → ∀ h, on 0 = true → w.deadRead w.g.launched acc = some h →
        exec (.mma d sa sb tok) s = w.trap (met ||| hra ||| 0x001) 0x08 h)

/-- A history control command (R300): its scalars, and the vector operands it captures. -/
def hctlCommand (ops : List Opnd) (sa sb tok : BitVec 6) (vs : List Nat) (last : List Nat) (lanes : Bool) (work : Work) : Command :=
  let m (w : View) : Mask := if lanes then w.eff false else 0
  { form := { words := 2, early := killed, reads := m, ops := fun _ => ops }, tok := tok
    item := fun w => { itemOf w tok (m w) work with sa := w.rdS sa.toNat, sb := w.rdS sb.toNat, vs := vs.map w.rdV }
    kills := fun w => last.map fun r => (r, m w) }

/-- A LOP command (R316, R317): operands in the lanes of EFFMASK. -/
def lopCommand (ops : List Opnd) (sa sb tok : BitVec 6) (d : Nat) (vs : List Nat) (last : Bool) (work : Work) : Command :=
  { form := { words := 2, early := killed, reads := fun v => v.eff false, ops := fun _ => ops }, tok := tok
    item := fun w =>
      { itemOf w tok (w.eff false) work with sa := w.rdS sa.toNat, sb := w.rdS sb.toNat, vs := vs.map w.rdV, d := d }
    kills := fun w => if last then vs.map fun r => (r, w.eff false) else [] }

/-- A COP command (R324): the record of lane l is at S[SA] + V[VA][l], or at S[SA]. `reads` names D where it is read. -/
def copCommand (ops : List Opnd) (sa tok : BitVec 6) (va : BitVec 7) (last : Bool) (d : Nat) (reads : View → List Nat)
    (work : View → Work) : Command :=
  let own : List Nat := if va = 127 then [] else [va.toNat]
  { form := { words := 2, early := killed, reads := fun v => v.eff false, ops := fun _ => ops ++ own.map opRd }, tok := tok
    item := fun w =>
      { itemOf w tok (w.eff false) (work w) with
        sa := w.rdS sa.toNat
        vs := (lanesFrom fun l => w.rdS sa.toNat + if va = 127 then 0 else lane (w.rdV va.toNat) l) :: (reads w).map w.rdV
        d := d }
    kills := fun w => if last then (own ++ reads w).map fun r => (r, w.eff false) else [] }

def lcuStart (fn : LcuFn) (sp free cov : Bool) (p : Word) : Work := .lcu fn sp free cov p 0 0 0 none

def three (r : BitVec 7) : List Nat := [r.toNat, r.toNat + 1, r.toNat + 2]

def commandForms : Instr → Option Command
  | .xcp d sa sb tok batch nm1 bytes => some (xcpCommand d sa sb tok batch nm1 bytes)
  | .mma d sa sb tok => some (mmaCommand d sa sb tok)
  | .hld d sa tok age filter fault short mm cm1 vc vp lp =>
    if fault then none
    else some
      { form :=
          { words := 2, early := killed, reads := fun v => v.eff false
            ops := fun _ => [opRun d.toNat ((cm1.toNat + 2) / 2) false, opS sa.toNat] ++ tokField tok ++
              (if mm = 0 then [] else [opMw mm.toNat]) ++ (if vc = 0 then [] else [opWr vc.toNat]) ++ [opRd vp.toNat] }
        tok := tok
        item := fun w =>
          { itemOf w tok (w.eff false) (.hld age.toNat filter false short mm.toNat (cm1.toNat + 1) vc.toNat []) with
            sa := w.rdS sa.toNat, vs := [w.rdV vp.toNat], d := d.toNat }
        kills := fun w => if lp then [(vp.toNat, w.eff false)] else [] }
  | .hopen sa sb tok => some (hctlCommand ([opS sa.toNat, opS sb.toNat] ++ tokField tok) sa sb tok [] [] false
      (.hctl .hopen 0 0 0 0 true 0))
  | .hmw d sa tok vp lp => some (hctlCommand ([opRd d.toNat, opS sa.toNat] ++ tokField tok ++ [opRd vp.toNat]) sa 0 tok
      [d.toNat, vp.toNat] (if lp then [vp.toNat] else []) true (.hctl .hmw 0 0 0 0 false 0))
  | .hseal sa sb tok pages => some (hctlCommand ([opS sa.toNat] ++ orNone sb ++ tokField tok) sa sb tok [] [] false
      (.hctl .hseal pages.toNat 0 0 0 (sb != 0) 0))
  | .hshort sa sb tok slot k j => some (hctlCommand ([opS sa.toNat, opS sb.toNat] ++ tokField tok) sa sb tok [] [] false
      (.hctl .hshort 0 k.toNat j.toNat slot.toNat true 0))
  | .hinv sa sb tok n => some (hctlCommand ([opS sa.toNat] ++ orNone sb ++ tokField tok) sa sb tok [] [] false
      (.hctl .hinv n.toNat 0 0 0 (sb != 0) 0))
  | .hqry sa sb tok sel sslot vp lp => some (hctlCommand ([opS sa.toNat, opS sb.toNat] ++ tokField tok ++ [opRd vp.toNat]) sa sb
      tok [vp.toNat] (if lp then [vp.toNat] else []) true (.hctl .hqry sel.toNat 0 0 sslot.toNat true 0))
  | .lins d sa tok lp => some (lopCommand ([opRun d.toNat 3 true, opS sa.toNat] ++ tokField tok) sa 0 tok 0 (three d) lp
      (lcuStart .lins false false false 0))
  | .lres sa sb tok free cov vp lp => some (lopCommand ([opS sa.toNat, opS sb.toNat] ++ tokField tok ++ [opRd vp.toNat]) sa sb
      tok 0 [vp.toNat] lp (lcuStart .lres false free cov 0))
  | .lclr sa tok vp lp => some (lopCommand ([opS sa.toNat] ++ tokField tok ++ [opRd vp.toNat]) sa 0 tok 0 [vp.toNat] lp
      (lcuStart .lclr false false false 0))
  | .lqry d sa tok layer vp lp => some (lopCommand ([opRun d.toNat 3 false, opS sa.toNat] ++ tokField tok ++ [opRd vp.toNat]) sa
      0 tok d.toNat [vp.toNat] lp (lcuStart .lqry false false false (BitVec.ofNat 64 layer.toNat)))
  | .cacc d sa tok sp va lv => some (copCommand ([opRun d.toNat 3 true, opS sa.toNat] ++ tokField tok) sa tok va lv 0
      (fun _ => three d) fun _ => lcuStart .cacc sp false false 0)
  | .cflush sa tok sp va lv => some (copCommand ([opS sa.toNat] ++ tokField tok) sa tok va lv 0 (fun _ => [])
      fun _ => lcuStart .cflush sp false false 0)
  | .crd d sa tok sp va lv => some (copCommand ([opRun d.toNat 3 false, opS sa.toNat] ++ tokField tok) sa tok va lv d.toNat
      (fun _ => []) fun _ => lcuStart .crd sp false false 0)
  | .cadj d sa tok sp va lv => some (copCommand ([opRun d.toNat 3 true, opS sa.toNat] ++ tokField tok) sa tok va lv 0
      (fun _ => three d) fun _ => lcuStart .cadj sp false false 0)
  | .rtresume d tok ma => some
      { form :=
          { words := 2, early := killed, reads := fun v => v.eff false
            ops := fun _ => [opRun d.toNat 3 false] ++ tokField tok ++ if ma = 0 then [] else [opMr ma.toNat] }
        tok := tok
        item := fun w =>
          { itemOf w tok (w.eff false) (.ray .resume (if ma = 0 then 0 else w.rdM ma.toNat) (Vector.replicate 32 none) 0 false) with
            d := d.toNat } }
  | .rtsave sa tok va lv =>
    let addr (w : View) (l : Nat) : Word := w.rdS sa.toNat + lane (w.rdV va.toNat) l
    some
      { form := { words := 2, early := killed, reads := fun v => v.eff false
                  ops := fun _ => [opS sa.toNat] ++ tokField tok ++ [opRd va.toNat] }
        tok := tok
        fault := fun w => ruleRecords w (w.eff false) (addr w)
        item := fun w =>
          { itemOf w tok (w.eff false) (.ray .save 0 (Vector.replicate 32 none) 0 false) with vs := [lanesFrom (addr w)] }
        kills := fun w => if lv then [(va.toNat, w.eff false)] else [] }
  | .rtabort tok => some
      { form := { words := 2, early := killed, reads := fun v => v.eff false, ops := fun _ => tokField tok }, tok := tok
        item := fun w => itemOf w tok (w.eff false) (.ray .abort 0 (Vector.replicate 32 none) 0 false) }
  | _ => none

/-- CINIT reads V[D] only where bit 0 of its parameters, S[SB], is set (R325). -/
def cinitCommand (d : BitVec 7) (sa sb tok : BitVec 6) (sp : Bool) (va : BitVec 7) (lv : Bool) (p : Word) : Command :=
  copCommand ([{ opRd d.toNat with rd := p.getLsbD 0 }, opS sa.toNat, opS sb.toNat] ++ tokField tok) sa tok va lv 0
    (fun _ => if p.getLsbD 0 then [d.toNat] else []) fun _ => lcuStart .cinit sp false false p

/-- The item that is posted: as captured, with what other items' holds and its clock add. -/
def PostedAs (i j : Item) : Prop := j = { i with drop := j.drop, dropM := j.dropM, clk := j.clk }

/-- Where a command completes: one item is posted, its token is busy, and no byte changes. -/
def Command.RunsAt (C : Command) (i : Instr) (s : State) (v : View) : Prop :=
  C.form.CanIssue s v →
    let w := C.form.issued v
    C.fault w = none → C.full w = false → w.redsOut = false →
      ∃ t j, exec i s = .next t ∧
        v.Performs s t w (Group.Posts v.fl C.tok) (w.metBits (C.form.reads v) (C.form.ops v)) { kills := C.kills w } ∧
        t.items = s.items ++ [j] ∧ PostedAs (C.item w) j ∧ t.nextId = s.nextId + 1 ∧ t.reds = s.reds ∧
        SameMemory s t ∧ SameBeyondItems s t

/-- Where a command does not: what stops its issue, what its addresses raise, each a precise trap, and a wait in which nothing is
posted while its unit's queue is full or its group has a RED outstanding (R194). -/
def Command.StopsAt (C : Command) (i : Instr) (s : State) (v : View) : Prop :=
  C.first.StopsAt i s v ∧
  (C.first.CanIssue s v → ∀ c h, C.fault (C.first.issued v) = some (c, h) →
    exec i s = (C.first.issued v).trap ((C.first.issued v).metBits (C.first.reads v) (C.first.ops v)) c h) ∧
  (C.form.CanIssue s v →
    let w := C.form.issued v
    C.fault w = none → (C.full w = true → exec i s = .next w.s) ∧
      (w.redsOut = true → exec i s = .next w.s))

/-! ## Commands without an item (R263, R264, R268, R270, R277) -/

/-- Whether an item or a RED that a team issued before now has not ended (R263). -/
def teamBusy (s : State) (u : Nat) : Bool :=
  s.items.any (fun i => decide (i.party.team = u) && decide (i.id < s.nextId)) ||
    s.reds.any fun r => decide (r.party.team = u) && decide (r.id < s.nextId)

/-- Whether writes of the issuing group to shared memory are still to be performed: its REDs and its arrivals (R277). -/
def sharedPending (w : View) : Bool :=
  w.s.reds.any (fun r => decide (r.party.team = w.u ∧ r.party.gid = w.g.gid) && !r.word.sp) ||
    w.s.items.any fun i => decide (i.party.team = w.u ∧ i.party.gid = w.g.gid) &&
      match i.work with | .arrival .. => true | _ => false

/-- What XDRAIN acquires: every item, RED and arrival of its team that is final (R263). -/
def drainClock (w : View) : Clock :=
  (((w.s.team? w.u).map Team.ended).getD []).foldl (fun c e => if e.1 < w.s.nextId then c.join e.2 else c) []

/-- The group after MFENCE.opr: its later MMAs read what happens-before here (R196, R281). -/
def oprFenced (w : View) : Group :=
  let t := 2 * (32 * w.u + w.g.gid)
  let c := w.g.clk.raise t (w.g.clk.get t + 1)
  { w.g with clk := c, oprClk := w.g.oprClk.join (c.join w.ord.clk) }

def engineForms : Instr → Option Form
  | .xdrain => some
      { words := 2, early := killed, waits := fun w => teamBusy w.s w.u
        sets := some fun w => { w.g with clk := w.g.clk.join (drainClock w), relMark := none } }
  | .xqry sd => some
      { words := 2, early := killed, ops := fun _ => [opSw sd.toNat]
        result := fun w =>
          let q := queueOf w.s (w.core / 4) isCopy
          let own := (q.filter fun i => decide (i.party.team = w.u ∧ i.party.gid = w.g.gid)).length
          { sw := [(sd.toNat, BitVec.ofNat 64 (own % 65536 * 65536 + (64 - q.length)))] } }
  | .mzero d => some
      { words := 2, early := killed, reads := fun v => v.g.launched, ops := fun _ => [opRun d.toNat 64 false]
        result := fun w => { vw := (List.range 64).map fun k => (d.toNat + k, w.g.launched, LaneVec.splat 0) } }
  | .mfenceOpr => some { words := 2, early := killed, waits := sharedPending, sets := some oprFenced }
  | .mprio p => some { words := 2, early := killed, sets := some fun w => { w.g with mprio := p } }
  | _ => none

end Sys2Proof.Machine
end

