-- ==== Sys2Proof/Safety/Steps.lean ====
section
/-!
DEFINITION. What a step of the module starts from: the act it performs, the words at a program counter, and the canonical
form that every step keeps.
-/
namespace Sys2Proof.Machine

/-- The state as a step begins. -/
def State.ticked (s : State) : State := { s with tick := s.tick + 1, cur := none }

/-- The act that a step performs, if one is enabled (DESIGN CHOICE, log 3). -/
def State.chosen (s : State) : Option Act :=
  match s.acts with
  | [] => none
  | a :: as => some ((a :: as).getD (Config.schedule s.tick % (a :: as).length) a)

/-- The word at an address as a core's instruction cache returns it, with the state after the lookup: the page is present,
in the slice and executable, and no ECC error strikes it (R55, R184). -/
def State.codeAt (s : State) (core ctx : Nat) (pc : Word) (w : W32) (t : State) : Prop :=
  pc.toNat < 2 ^ 53 ∧ ∃ e, s.translate core ctx pc.toNat = (.ok e, t) ∧ e.x = true ∧
    t.badMem (e.pa pc.toNat) 4 = false ∧ w = t.cachedWord core (e.pa pc.toNat)

/-- The words of the instruction at an address: the second only where the opcode has two (R56). -/
def State.instrAt (s : State) (core ctx : Nat) (pc : Word) (w0 w1 : W32) (t : State) : Prop :=
  if opWords (opcodeOf w0) = 2 then ∃ t0, s.codeAt core ctx pc w0 t0 ∧ t0.codeAt core ctx (pc + 4) w1 t
  else s.codeAt core ctx pc w0 t ∧ w1 = 0

/-- Physical memory and every team's shared memory are in canonical form, and rewritten words are numbered below their count
(R184). -/
def State.canonical (s : State) : Bool :=
  Memory.wf s.mem && s.teams.all (fun t => Memory.wf t.shared)
    && s.wlog.all fun e => decide (e.1 < s.wlog.length)

/-- SRD of CYC, and ICINV, as they issue. -/
def cycForm (d : BitVec 7) : Form := { words := 1, ops := fun _ => [opSw d.toNat] }
def bareForm : Form := { words := 1 }

end Sys2Proof.Machine
end

