-- ==== Sys2Proof/Safety/Flow.lean ====
section
/-!
DEFINITION. The shape of the statements about traps and returns (R216 to R222), indirect branches and their divisions (R36 to
R38, R152, R153), EXIT (R155) and REP (R68, R157, R158).
-/
namespace Sys2Proof.Machine

/-! ## Traps (R216, R218, R220) -/

/-- The group and the team of a view are those of its state. -/
def View.Current (v : View) : Prop :=
  v.s.group? v.u v.g.gid = some v.g ∧ ∃ t, v.s.team? v.u = some t ∧ t.ctx = v.t.ctx ∧ t.grid = v.t.grid ∧
    t.core = v.t.core ∧ t.lastCore = v.t.lastCore

/-- Where a group's records come from: its core's global number (R12) and its launch's sequence number (R202). -/
def ruleOrigin (v : View) : Origin := ⟨some v.core, (v.s.grid? v.t.grid).map Grid.seq⟩

/-- The packet's HANDLER, dword 5 of the launch; 0 names the context's default handler (R200, R218). -/
def ruleOwnHandler (v : View) : Word := ((v.s.grid? v.t.grid).map fun g => g.packet.getD 5 0).getD 0
def ruleEntry (v : View) : Word :=
  if ruleOwnHandler v ≠ 0 then ruleOwnHandler v else ((v.s.context? v.t.ctx).map Context.handler).getD 0

/-- The handler at its entry (R218): MODE i64, RNE, no guard; the banked scalars dead, the banked masks zero. -/
def ruleHandler (v : View) (cause : Nat) (hinfo : Word) : Handler :=
  { pc := ruleEntry v, mode := 0, repi := 0, sleep := .awake, cause := cause, hpc := v.back, hinfo := hinfo, traprec := v.fl,
    sbank := Vector.replicate 8 0, slive := 0, tokBusy := 0, m14 := 0, m15 := 0, stop := .running, kill := false,
    dflt := decide (ruleOwnHandler v = 0), ord := ⟨[], [], [], [], []⟩ }

/-- A record as it is frozen: a BWAIT that was woken has returned (R176), a split that waits on its own HLD or ATOM goes on
waiting, and any other sleeper stands at its instruction (R217). -/
def ruleFrozen (r : Split) : Split :=
  match r.sleep with
  | .woken _ => { r with pc := r.pc + 8, sleep := .awake }
  | .hld _ | .atom _ => r
  | _ => { r with sleep := .awake }

/-- The only changes of a double fault outside the group: reports, captures, and what halting the context does (R366). -/
def SameBeyondHalt (s t : State) : Prop :=
  t = { s with teams := t.teams, reports := t.reports, captures := t.captures, contexts := t.contexts, grids := t.grids }

/-- A context is halted, and none of its launches is still queued (R366). -/
def State.haltedCtx (t : State) (ctx : Nat) : Prop :=
  (∀ c, t.context? ctx = some c → c.halted = true) ∧ ∀ g ∈ t.grids, g.ctx = ctx → g.state ≠ .queued

/-! ## TRET (R219) -/

/-- A record as TRET makes it consistent: no lane of a lower record, and EXEC within MEMBERS. -/
def ruleResumed (g : Group) (k : Nat) : Split :=
  let lower := (List.range k).foldl (fun m j => m ||| (g.record j).members) 0#32
  let m := (g.record k).members &&& g.launched &&& ~~~lower
  { g.record k with members := m, exec := (g.record k).exec &&& m }

/-! ## Hidden state (R221, R222) -/

/-- What a selector reads after a legal HSW of `x`: SLIVE keeps S0 live, VLIVE and the masks take the low half, MODEREP its 18
bits, TOKBUSY 0, and any other selector the value. -/
def ruleHsrAfter (sel : Nat) (x : Word) : Word :=
  if sel < 0x0200 then (if sel % 16 = 2 then x &&& 0x3FFFF#64 else x)
  else if sel = 0x0201 then x
  else if sel = 0x0300 then x ||| 1
  else if sel < 0x0500 then x &&& 0xFFFFFFFF#64
  else if sel = 0x0500 then 0
  else if sel < 0x0640 then x
  else x &&& 0xFFFFFFFF#64

/-! ## Indirect branches (R36, R37, R152, R153) -/

/-- The lanes whose targets are taken: EXEC, or in handler mode the lowest lane of EFFMASK. -/
def ruleUsed (v : View) : Mask :=
  if v.svc then v.split.exec
  else
    match (List.range 32).find? fun l => (v.eff true).getLsbD l with
    | some k => maskOf fun l => decide (l = k)
    | none => 0#32

/-- LANES(t). -/
def lanesTo (x : Mask) (a : LaneVec) (t : Word) : Mask := maskOf fun l => x.getLsbD l && decide (lane a l = t)

/-- T, by the lowest lane that names each, with the lanes of each. -/
def ruleTargets (x : Mask) (a : LaneVec) : List (Word × Mask) :=
  ((List.range 32).filter fun l => x.getLsbD l && (List.range l).all fun k => !(x.getLsbD k && decide (lane a k = lane a l))).map
    fun l => (lane a l, lanesTo x a (lane a l))

/-- An indirect branch: its target register, tag, join point, and whether it is CALLI. -/
structure Indirect where
  a    : VSrc
  tag  : BitVec 16
  join : View → Option Word
  link : Bool

def indirectForms : Instr → Option Indirect
  | .jmpi a join tag => some ⟨a, tag, fun v => if join = 0 then none else some (v.back + BitVec.ofInt 64 (4 * join.toInt)), false⟩
  | .calli a tag => some ⟨a, tag, fun v => some (v.back + 8), true⟩
  | _ => none

def Indirect.form (I : Indirect) : Form :=
  { words := 2, reads := ruleUsed
    ops := fun v => { opRd I.a.reg.toNat with lanes := some (ruleUsed v) } :: if I.link then [opSw 62] else [] }

/-- The lanes that meet a check. -/
def Indirect.failing (I : Indirect) (w : View) (f : Word → Bool) : Mask :=
  maskOf fun l => (ruleUsed w).getLsbD l && f (lane (w.rdV I.a.reg.toNat) l)

/-- The targets, and what fetching each of them finds, in their order (R152 rows 3 and 4). -/
def Indirect.targets (I : Indirect) (w : View) : List (Word × Mask) := ruleTargets (ruleUsed w) (w.rdV I.a.reg.toNat)
def Indirect.found (I : Indirect) (w : View) : List (Word × Mask × TargetFate) × State :=
  w.s.targetFates w.core w.t.ctx I.tag (I.targets w)

/-- Every lane's target passes. -/
def Indirect.passes (I : Indirect) (w : View) : Prop :=
  (∀ p ∈ I.targets w, p.1.toNat % 4 = 0 ∧ p.1.toNat < 2 ^ 53) ∧ ∀ p ∈ (I.found w).1, p.2.2 = .ok

/-- The lanes in which A is killed when they leave the instruction: every lane of EFFMASK in handler mode. -/
def Indirect.kills (I : Indirect) (w : View) (left : Mask) : List (Nat × Mask) :=
  if I.a.last then [(I.a.reg.toNat, if w.svc then left else w.eff true)] else []

/-- CALLI's link. -/
def Indirect.sw (I : Indirect) (w : View) : List (Nat × Word) := if I.link then [(62, w.back + 8)] else []

/-- The records that a division gives (R37): the new ones, and record x. -/
def ruleMoved (I : Indirect) (w : View) : List (Word × Mask) :=
  if (I.targets w).length ≤ 1 + w.g.freeRecs.length then (I.targets w).drop 1 else (I.targets w).take w.g.freeRecs.length
def ruleJoin (I : Indirect) (w : View) : Option Word := match I.join w with | some j => some j | none => w.split.join
def ruleOuter (I : Indirect) (w : View) : Option Word :=
  if w.split.join = ruleJoin I w then w.split.ojoin else w.split.join
def ruleNewRecord (I : Indirect) (w : View) (p : Word × Mask) : Split :=
  { pc := p.1, members := p.2, exec := p.2, mode := w.split.mode, repi := 0, join := ruleJoin I w, ojoin := ruleOuter I w,
    sleep := .awake, ord := w.split.ord }
def ruleKept (I : Indirect) (w : View) : Split :=
  let gone := (ruleMoved I w).foldl (fun m p => m ||| p.2) 0#32
  let t0 := (I.targets w).headD (0, 0#32)
  if (I.targets w).length ≤ 1 + w.g.freeRecs.length then
    { w.split with pc := t0.1, exec := t0.2, members := w.split.members &&& ~~~gone, join := ruleJoin I w, ojoin := ruleOuter I w }
  else
    { w.split with exec := w.split.exec &&& ~~~gone, members := w.split.members &&& ~~~gone, join := ruleJoin I w,
                   ojoin := ruleOuter I w }

/-- Where an indirect branch completes: with no lane, with one target, and with several, in each of the cases of R37. -/
def Indirect.Runs (I : Indirect) (i : Instr) : Prop :=
  ∀ s v, I.form.CanIssue s v →
    let w := I.form.issued v
    let met := w.metBits (I.form.reads v) (I.form.ops v)
    let w' : View := { w with s := (I.found w).2 }
    (I.targets w = [] → ∃ t, exec i s = .next t ∧ v.Performs s t w Eq met {} ∧ SameMemory s t ∧ SameBeyond s t) ∧
    (I.passes w → ∀ p, I.targets w = [p] →
      ∃ t, exec i s = .next t ∧
        v.Performs s t w' Eq met { sw := I.sw w, kills := I.kills w (ruleUsed w), pc := some p.1 } ∧
        SameMemory s t ∧ SameBeyond s t) ∧
    (I.passes w → 2 ≤ (I.targets w).length → w.g.freeRecs = [] →
      ∃ t g, exec i s = .next t ∧ t.group? v.u v.g.gid = some g ∧ g.record v.fl = { w.split with sleep := .record } ∧
        (I.link = true → g.sReg false 62 = v.back + 8 ∧ g.sRegLive false 62 = true) ∧
        g.stat = w.g.stat ||| met ∧ SameMemory s t ∧ SameBeyond s t ∧ OthersStay s t v.u v.g.gid) ∧
    (I.passes w → 2 ≤ (I.targets w).length → w.g.freeRecs ≠ [] → w.g.recordsApart = true →
      ∃ t g, exec i s = .next t ∧ t.group? v.u v.g.gid = some g ∧
        (∀ p ∈ ruleMoved I w, g.holdsSplit (ruleNewRecord I w p)) ∧ g.holdsSplit (ruleKept I w) ∧
        (∀ j, j < 4 → j ≠ v.fl → (w.g.record j).used = true → g.holdsSplit (w.g.record j)) ∧
        (I.link = true → w.g.dueS false 62 = false → g.sReg false 62 = v.back + 8) ∧
        g.stat = w.g.stat ||| met ∧ SameMemory s t ∧ SameBeyond s t ∧ OthersStay s t v.u v.g.gid)

/-- What the checks of R152 raise, each in its turn, with the lanes that fail it. -/
def Indirect.Refuses (I : Indirect) (i : Instr) : Prop :=
  ∀ s v, I.form.CanIssue s v →
    let w := I.form.issued v
    let met := w.metBits (I.form.reads v) (I.form.ops v)
    let w' : View := { w with s := (I.found w).2 }
    let m1 := I.failing w fun t => decide (t.toNat % 4 ≠ 0)
    let m2 := I.failing w fun t => decide (2 ^ 53 ≤ t.toNat)
    let lanes (f : TargetFate) : Mask := maskOf fun l => (I.found w).1.any fun p => p.2.1.getLsbD l && decide (p.2.2 = f)
    let gone : Mask := maskOf fun l => (I.found w).1.any fun p => p.2.1.getLsbD l && p.2.2.isAbsent
    (m1 ≠ 0#32 → exec i s = w.trap met 0x13 (m1.zeroExtend 64)) ∧
    (m1 = 0#32 → m2 ≠ 0#32 → exec i s = w.trap met 0x11 (m2.zeroExtend 64)) ∧
    (m1 = 0#32 → m2 = 0#32 →
      (∀ (a : Word) (m : Mask) (mal : Bool), (I.found w).1.find? (fun p => p.2.2.isAbsent) = some (a, m, .absent mal) →
        exec i s = w'.xlate met a.toNat mal gone) ∧
      (gone = 0#32 → lanes .prot ≠ 0#32 → exec i s = w'.trap met 0x11 ((lanes .prot).zeroExtend 64)) ∧
      (gone = 0#32 → lanes .prot = 0#32 → lanes .ecc ≠ 0#32 → exec i s = w'.trap met 0x60 (hinfoMem (lanes .ecc))) ∧
      (gone = 0#32 → lanes .prot = 0#32 → lanes .ecc = 0#32 → lanes .notPad ≠ 0#32 →
        exec i s = w'.trap met 0x06 ((lanes .notPad).zeroExtend 64)))

/-! ## Instructions without operands, and the ways out of a handler -/

/-- FENCE, ICINV, TRAP and BRK name no register. -/
def isBare : Instr → Bool
  | .fence .. | .icinv | .trap _ | .brk => true
  | _ => false

/-- TRET, TEXIT and HSR HBAR, which only a handler executes (R53, R59). -/
def returnForms : Instr → Option Form
  | .tret | .texitDone | .texitSaved => some { words := 1, early := handlerOnly }
  | .hbar sd => some { words := 1, early := handlerOnly, ops := fun _ => [opSw sd.toNat] }
  | _ => none

/-- Every ATOM of a group has returned. -/
def State.atomsBack (s : State) (u gid : Nat) : Prop :=
  ∀ r ∈ s.reds, r.party.team = u → r.party.gid = gid → r.back = none

/-! ## EXIT (R155) -/

def exitForm : Form := { words := 1, early := fun v => if v.svc then none else some 0x01 }

/-- EXIT is of the group's last lanes. -/
def ruleLast (w : View) : Bool := decide (w.g.live &&& ~~~w.split.exec = 0#32)

/-! ## REP (R68, R157, R158) -/

/-- The instruction with its register operands D, A and B advanced, where the fields hold the numbers; none for one that REP
does not repeat: it repeats the one-word instructions of formats V3, VI, VC, S3 and SI (R68). -/
def plus {n : Nat} (r : BitVec n) (k : Nat) : BitVec n := r + BitVec.ofNat n k
def fits {n : Nat} (r : BitVec n) (k : Nat) : Bool := decide (r.toNat + k < 2 ^ n)
def VSrc.plus (a : VSrc) (k : Nat) : VSrc := { a with reg := Machine.plus a.reg k }

def onD {n : Nat} (d : BitVec n) (i : Nat) (x : BitVec n → Instr) : Option Instr := if fits d i then some (x (plus d i)) else none
def on3 (i j k : Nat) (d : BitVec 7) (a b : VSrc) (x : BitVec 7 → VSrc → VSrc → Instr) : Option Instr :=
  if fits d i && fits a.reg j && fits b.reg k then some (x (plus d i) (VSrc.plus a j) (VSrc.plus b k)) else none
def on2 (i j : Nat) (d : BitVec 7) (a : VSrc) (x : BitVec 7 → VSrc → Instr) : Option Instr :=
  if fits d i && fits a.reg j then some (x (plus d i) (VSrc.plus a j)) else none
def onS3 (i j k : Nat) (d a b : BitVec 6) (x : BitVec 6 → BitVec 6 → BitVec 6 → Instr) : Option Instr :=
  if fits d i && fits a j && fits b k then some (x (plus d i) (plus a j) (plus b k)) else none
def onR {n m : Nat} (i j : Nat) (d : BitVec n) (a : BitVec m) (x : BitVec n → BitVec m → Instr) : Option Instr :=
  if fits d i && fits a j then some (x (plus d i) (plus a j)) else none

def advanced (i j k : Nat) : Instr → Option Instr
  | .vadd d a b => on3 i j k d a b .vadd
  | .vsub d a b => on3 i j k d a b .vsub
  | .vmul d a b => on3 i j k d a b .vmul
  | .vmulh d a b => on3 i j k d a b .vmulh
  | .vfma d a b => on3 i j k d a b .vfma
  | .vfms d a b => on3 i j k d a b .vfms
  | .vmin d a b => on3 i j k d a b .vmin
  | .vmax d a b => on3 i j k d a b .vmax
  | .vand d a b => on3 i j k d a b .vand
  | .vor d a b => on3 i j k d a b .vor
  | .vxor d a b => on3 i j k d a b .vxor
  | .vshl d a b => on3 i j k d a b .vshl
  | .vshr d a b => on3 i j k d a b .vshr
  | .vsel d a b => on3 i j k d a b .vsel
  | .vabsd d a b => on3 i j k d a b .vabsd
  | .vbfx d a b => on3 i j k d a b .vbfx
  | .vbfi d a b => on3 i j k d a b .vbfi
  | .vlerp d a b => on3 i j k d a b .vlerp
  | .vaddi d a n => on2 i j d a (.vaddi · · n)
  | .vmuli d a n => on2 i j d a (.vmuli · · n)
  | .vshli d a n => on2 i j d a (.vshli · · n)
  | .vshri d a n => on2 i j d a (.vshri · · n)
  | .vandi d a n => on2 i j d a (.vandi · · n)
  | .vmov d a => on2 i j d a .vmov
  | .vneg d a => on2 i j d a .vneg
  | .vabs d a => on2 i j d a .vabs
  | .vpopc d a => on2 i j d a .vpopc
  | .vclz d a => on2 i j d a .vclz
  | .vclass d a => on2 i j d a .vclass
  | .vcvt d a t r sat => on2 i j d a (.vcvt · · t r sat)
  | .vrint d a r => on2 i j d a (.vrint · · r)
  | .xred d a o => on2 i j d a (.xred · · o)
  | .xscan d a o n => on2 i j d a (.xscan · · o n)
  | .xpsum d ma n => onR i j d ma (.xpsum · · n)
  | .vtos sd a => if fits sd i && fits a.reg j then some (.vtos (plus sd i) (VSrc.plus a j)) else none
  | .stov d sa => onR i j d sa .stov
  | .sadd d a b => onS3 i j k d a b .sadd
  | .ssub d a b => onS3 i j k d a b .ssub
  | .smul d a b => onS3 i j k d a b .smul
  | .smulh d a b => onS3 i j k d a b .smulh
  | .sand d a b => onS3 i j k d a b .sand
  | .sor d a b => onS3 i j k d a b .sor
  | .sxor d a b => onS3 i j k d a b .sxor
  | .sshl d a b => onS3 i j k d a b .sshl
  | .sshr d a b => onS3 i j k d a b .sshr
  | .ssra d a b => onS3 i j k d a b .ssra
  | .smin d a b => onS3 i j k d a b .smin
  | .smax d a b => onS3 i j k d a b .smax
  | .smov d a => onR i j d a .smov
  | .saddi d a n => onR i j d a (.saddi · · n)
  | .mtos sd ma => onR i j sd ma .mtos
  | .mcnt sd ma => onR i j sd ma .mcnt
  | .mffs sd ma => onR i j sd ma .mffs
  | .stom md sa => onR i j md sa .stom
  | .srd d n => onD d i (.srd · n)
  | .swr n sa => onD sa j (.swr n ·)
  | _ => none

/-- Which fields of a repeated instruction are register operands. -/
def strided : Instr → Bool × Bool × Bool
  | .srd .. => (true, false, false)
  | .swr .. => (false, true, false)
  | i => (true, true, match i with
    | .vadd .. | .vsub .. | .vmul .. | .vmulh .. | .vfma .. | .vfms .. | .vmin .. | .vmax .. | .vand .. | .vor .. | .vxor ..
    | .vshl .. | .vshr .. | .vsel .. | .vabsd .. | .vbfx .. | .vbfi .. | .vlerp .. | .sadd .. | .ssub .. | .smul ..
    | .smulh .. | .sand .. | .sor .. | .sxor .. | .sshl .. | .sshr .. | .ssra .. | .smin .. | .smax .. => true
    | _ => false)

/-- The form of an instruction that REP repeats. -/
def repeatedForm (i : Instr) : Option Form :=
  ((((((vectorForms i).orElse fun _ => unaryForms i).orElse fun _ => selectForms i).orElse fun _ => scalarForms i).orElse
    fun _ => maskForms i).orElse fun _ => laneForms i).orElse fun _ => controlForms i

/-- What REP repeats: a word that decodes to an instruction it may repeat, with strides for register operands only (R68). -/
def repeats (w0 : W32) (ds as bs : BitVec 3) (i : Instr) : Prop :=
  opWords (opcodeOf w0) = 1 ∧ decodeWords w0 0 = .ok i ∧ (advanced 0 0 0 i).isSome ∧
    (ds = 0 ∨ (strided i).1 = true) ∧ (as = 0 ∨ (strided i).2.1 = true) ∧ (bs = 0 ∨ (strided i).2.2 = true)

/-- The view in which iteration REPI of REP runs: it leaves the PC at REP and REPI at the next, or ends (R157, R158). -/
def View.iteration (v : View) (t : State) (count : BitVec 6) : View :=
  if v.repi.toNat + 1 < count.toNat then { v with s := t, next := v.back, repi := v.repi + 1, last := false }
  else { v with s := t, next := v.back + 8, repi := 0 }

end Sys2Proof.Machine
end

