-- ==== Sys2Proof/Safety/Sync.lean ====
section
/-!
DEFINITION. The shape of the statements about shared appends, REDs, barrier objects and named queues (R25 to R28, R171 to
R178).
-/
namespace Sys2Proof.Machine

/-- Nothing of the issuing group changes but the results of the flow that were outstanding, which now stand (R67), and what
ordering tracks. -/
def Group.Settled (fl : Nat) (g g' : Group) : Prop := (g.drainFlow fl).Ordered g'

/-- The group goes on after a sleep: the flow is awake, and what it acquires is known. -/
def Group.Woken (fl : Nat) (g g' : Group) : Prop := ∃ g1 : Group, g1 = g.setSleep fl .awake ∧ g1.Ordered g'

/-- The one location of a scalar access. -/
def View.spot (w : View) (R : Reach) : Loc := (w.allSpots R.req (R.addrs w)).headD (.sh w.u 0)

/-! ## SAPP (R174) -/

def Reach.sapp (sd sb sc : BitVec 6) (off : BitVec 23) : Reach :=
  { form := { words := 2, ops := fun _ => [opSw sd.toNat, opS sb.toNat, opS sc.toNat] }
    req := { space := .sh, z := 8, align := 8, rd := true, wr := true, plain := false, scalar := true, ecc := true }
    addrs := fun w => ruleAddr w sb off
    waits := fun w => w.redsBefore false }

/-! ## RED and ATOM (R170 to R172) -/

/-- The RED or ATOM that is issued: every lane's address and data, its word, its team and launch. -/
def RedAs (w : View) (m : LAddr) (x : AtomWord) (r : Red) : Prop :=
  r.id = w.s.nextId ∧ r.ctx = w.t.ctx ∧ r.core = w.core ∧ r.party = ⟨w.t.slice, w.t.gang, w.u, w.g.gid⟩ ∧ r.word = x ∧
    r.sgn = !unsignedType w.et ∧ r.tidx = w.t.tidx ∧ r.wait = none ∧ r.seq = ((w.s.grid? w.t.grid).map Grid.seq).getD 0 ∧
    r.lanes = (ruleAddrs w m x.off (w.eff true)).map fun a =>
      ⟨a.1, a.2, lane (w.rdV x.vb.toNat) a.1, if x.op = .cas then lane (w.rdV (x.vb.toNat + 1)) a.1 else 0⟩

/-- What an ATOM keeps for its return (R170): the flow, its PC, D unless an item held it, and its lanes. -/
def ruleBack (w : View) (d : BitVec 7) : AtomBack :=
  { flow := w.fl, pc := w.back, d := if inRuns w.heldV d.toNat then none else some d.toNat, eff := w.eff true, got := [], bad := 0 }

/-- Where a lane of a RED lands, with the state after the lookup; or the cause with which it fails (R171). -/
inductive RedFate where
  | at_ (l : Loc) (s : State)
  | fails (cause : Nat) (s : State)
  | waits (malformed : Bool) (s : State)
  | gone

def redFate (s : State) (r : Red) (x : RedLane) : RedFate :=
  let n := if r.word.wide then 8 else 4
  if r.word.sp then
    match s.translate r.core r.ctx x.addr.toNat with
    | (.absent m, t) => .waits m t
    | (.outside, t) => .fails 0x11 t
    | (.ok e, t) =>
      if (e.rd && e.w) = false then .fails 0x11 t
      else if e.kind ≠ .scratch then .fails 0x12 t
      else if t.badMem (e.pa x.addr.toNat) n then .fails 0x60 t
      else .at_ (.at (e.pa x.addr.toNat) x.addr.toNat e.race) t
  else
    match s.team? r.party.team with
    | none => .gone
    | some t =>
      match s.shAddr t x.addr n with
      | .ok u off => if s.badShared u off n then .fails 0x60 s else .at_ (.sh u off) s
      | _ => .gone

/-- The REDs and ATOMs after the first lane of one has ended, with what the lane gives an ATOM; an ATOM stays until its return. -/
def redsAfter (s : State) (id : Nat) (f : AtomBack → AtomBack) : List Red :=
  (s.reds.map fun q => if q.id = id then { q with lanes := q.lanes.drop 1, wait := none, back := q.back.map f } else q).filter
    fun q => !q.lanes.isEmpty || q.back.isSome

/-- A RED or ATOM is next at its home: no older one of its group has a lane to perform (R185), and it waits for no page. -/
def State.redNow (s : State) (id : Nat) (r : Red) : Prop :=
  s.reds.find? (fun q => q.id == id) = some r ∧ r.wait = none ∧ (∀ q ∈ s.reds, q.id = id → q = r) ∧
    ∀ q ∈ s.reds, q.party.team = r.party.team → q.party.gid = r.party.gid → q.lanes ≠ [] → r.id ≤ q.id

/-- The four dwords of a log entry (R172): address, datum, then TEAM, CAUSE, OP, SIZE, lane and GID, then SEQ and LAUNCH. -/
def ruleEntryWords (r : Red) (x : RedLane) (cause n : Nat) : List Nat :=
  let op : Nat := match r.word.op with
    | .add => 0 | .min => 1 | .max => 2 | .and => 3 | .or => 4 | .xor => 5 | .swap => 6 | .cas => 7 | .fadd => 8
  [x.addr.toNat, x.data.toNat,
   r.tidx % 2 ^ 32 * 2 ^ 32 + cause * 2 ^ 24 + op * 2 ^ 20 + (if r.word.wide then 0 else 3) * 2 ^ 18 + x.lane * 2 ^ 13 +
     r.party.gid * 2 ^ 8,
   n % 2 ^ 32 * 2 ^ 32 + r.seq.toNat]

/-! ## Barrier objects (R25 to R28, R175, R176) -/

/-- BARV and BWAIT: the object's 32 bytes, 8-byte aligned; BARV.init writes alone. They come after the group's REDs and ATOMs, but
that an acquire may pass a RED.rel (R191). -/
def Reach.barrier (sd : List Opnd) (sb : BitVec 6) (off : BitVec 23) (rd waits : Bool) : Reach :=
  { form := { words := 2, ops := fun _ => sd ++ [opS sb.toNat] }
    req := { space := .sh, z := 32, align := 8, rd := rd, wr := true, plain := false, scalar := true, ecc := rd }
    addrs := fun w => ruleAddr w sb off
    waits := fun w => w.redsBefore true || waits && w.redsOut }

/-- Where the object lies. -/
def View.objectAt (w : View) (R : Reach) (u o : Nat) : Prop :=
  ∀ a ∈ R.addrs w, w.s.shAddr w.t a.2 R.req.z = .ok u o

/-- A number of `n` bytes of a team's shared memory. -/
def State.shNat (s : State) (u off n : Nat) : Nat := numberAt s [] n (.sh u off)

/-- The writes of R27 on an object: the arrival, if there is one, the bytes, and a flip where both counts are then zero, with
whether it flips. `st` goes to the status of the phase. -/
def ruleArrive (s : State) (u o : Nat) (st : Nat) (arrives : Bool) (bytes : Nat) : List (Loc × Nat) × Bool :=
  let w0 := s.shNat u o 8
  let ph := w0 / 2 ^ 32 % 2
  let ex := w0 % 2 ^ 16
  let p := (w0 / 2 ^ 16 % 2 ^ 16 + if arrives then 2 ^ 16 - 1 else 0) % 2 ^ 16
  let w1 := s.shNat u (o + 8) 8
  let tx := (w1 % 2 ^ 32 + (2 ^ 32 - bytes % 2 ^ 32)) % 2 ^ 32
  let s0 := if ph = 0 then s.shNat u (o + 16) 8 ||| st else s.shNat u (o + 16) 8
  let s1 := if ph = 1 then s.shNat u (o + 24) 8 ||| st else s.shNat u (o + 24) 8
  let flip := decide (p = 0 ∧ tx = 0)
  let ph' := if flip then 1 - ph else ph
  ([(.sh u o, w0 / 2 ^ 33 * 2 ^ 33 + ph' * 2 ^ 32 + (if flip then ex else p) * 2 ^ 16 + ex),
    (.sh u (o + 8), w1 / 2 ^ 32 * 2 ^ 32 + tx),
    (.sh u (o + 16), if flip ∧ ph' = 0 then 0 else s0),
    (.sh u (o + 24), if flip ∧ ph' = 1 then 0 else s1)], flip)

/-- The phase of an object. -/
def State.phaseOf (s : State) (u o : Nat) : Nat := s.shNat u o 8 / 2 ^ 32 % 2

/-- BARV.arr, .tx and .arrtx: whether it arrives, and the bytes it takes from the transaction count. -/
structure Arrival where
  reach   : Reach
  arrives : Bool
  bytes   : View → Nat

def arrivalForms : Instr → Option Arrival
  | .barvArr _ sb off => some ⟨.barrier [] sb off true true, true, fun _ => 0⟩
  | .barvTx sd sb off =>
    some ⟨.barrier [opS sd.toNat] sb off true true, false, fun w => 2 ^ 32 - (w.rdS sd.toNat).toNat % 2 ^ 32⟩
  | .barvArrtx sd sb off =>
    some ⟨.barrier [opS sd.toNat] sb off true true, true, fun w => 2 ^ 32 - (w.rdS sd.toNat).toNat % 2 ^ 32⟩
  | _ => none

/-- Where an arrival completes: on an object of its own core the counts change at once; on a gang peer's an item is posted
that arrives later. A flip wakes the sleepers on the object. -/
def Arrival.Runs (A : Arrival) (i : Instr) : Prop :=
  ∀ s v u o, s.memOk = true → A.reach.form.CanIssue s v → A.reach.goes (A.reach.issued v) → (A.reach.issued v).objectAt A.reach u o →
    let w := A.reach.issued v
    (u = v.u → ∃ t, exec i s = .next t ∧ v.Performs s t w Group.Ordered (A.reach.met v) {} ∧
      Stored s t 8 (ruleArrive s u o 0 A.arrives (A.bytes w)).1 ∧ SameBeyond s t ∧
      ((ruleArrive s u o 0 A.arrives (A.bytes w)).2 = true → ∀ u' gid' k par, (u' ≠ v.u ∨ gid' ≠ v.g.gid) →
        s.sleepAt u' gid' k = .bwait u o par → ∃ c, t.sleepAt u' gid' k = .woken c)) ∧
    (u ≠ v.u → ∃ t j, exec i s = .next t ∧ v.Performs s t w Group.Ordered (A.reach.met v) {} ∧
      t.items = s.items ++ [j] ∧ j.id = s.nextId ∧ j.tok = 0 ∧ j.party = ⟨w.t.slice, w.t.gang, w.u, w.g.gid⟩ ∧
      (∀ a ∈ A.reach.addrs w, ∃ b, j.work = .arrival a.2 A.arrives b ∧ b.toNat = A.bytes w % 2 ^ 32) ∧
      SameMemory s t ∧ SameBeyondItems s t)

/-! ## Named queues (R177, R178) -/

/-- QPUSH and QPOP: the object's 64 bytes, aligned so. They come after the group's REDs and ATOMs, but that a pop, an acquire, may
pass a RED.rel (R191). -/
def Reach.queue (sd : Opnd) (sb : BitVec 6) (off : BitVec 23) (push : Bool) : Reach :=
  { form := { words := 2, ops := fun _ => [sd, opS sb.toNat] }
    req := { space := .sh, z := 64, align := 64, rd := true, wr := true, plain := false, scalar := true, ecc := true }
    addrs := fun w => ruleAddr w sb off
    waits := fun w => w.redsBefore (!push) }

/-- A queue object as R177 lays it out: ring offset, log2 of its entries, HEAD, TAIL and ALLOW, zero elsewhere, within the
allocation of its team, with no more entries and allowance than it has room for. -/
structure QueueIs (s : State) (u o ring logd head tail allow : Nat) : Prop where
  hasRing  : s.shNat u o 8 = ring
  hasLogd  : s.shNat u (o + 8) 8 = logd
  hasHead  : s.shNat u (o + 16) 8 = head
  hasTail  : s.shNat u (o + 24) 8 = tail
  hasAllow : s.shNat u (o + 32) 8 = allow
  hasZeros : ∀ k, 5 ≤ k → k < 8 → s.shNat u (o + 8 * k) 8 = 0
  sizes    : ring < 2 ^ 21 ∧ ring % 8 = 0 ∧ logd ≤ 8 ∧ head < 2 ^ 32 ∧ tail < 2 ^ 32 ∧ allow < 2 ^ 16
  inside   : ∃ t, s.team? u = some t ∧ ring + 8 * 2 ^ logd ≤ t.shBytes
  room     : (tail + 2 ^ 32 - head) % 2 ^ 32 + allow ≤ 2 ^ logd

/-- The writes of a push of `x`: the entry at TAIL, TAIL + 1 and ALLOW − 1; and of a pop: HEAD + 1 and ALLOW + 1. -/
def rulePush (u o ring logd tail allow : Nat) (x : Word) : List (Loc × Nat) :=
  [(.sh u (ring + 8 * (tail % 2 ^ logd)), x.toNat), (.sh u (o + 24), (tail + 1) % 2 ^ 32), (.sh u (o + 32), allow - 1)]
def rulePop (u o head allow : Nat) : List (Loc × Nat) := [(.sh u (o + 16), (head + 1) % 2 ^ 32), (.sh u (o + 32), allow + 1)]

/-- The issue of atomics, shared appends, barrier and queue operations. -/
def objectForms : Instr → Option Reach
  | .atom d m x => some (.atom (some d) m x)
  | .red m x => some (.atom none m x)
  | .sapp sd sb sc off => some (.sapp sd sb sc off)
  | .barvInit sd sb off => some (.barrier [opS sd.toNat] sb off false false)
  | .bwait sd sb off => some (.barrier [opS sd.toNat] sb off true false)
  | .qpush sd sb _ off => some (.queue (opS sd.toNat) sb off true)
  | .qpop sd sb _ off => some (.queue (opSw sd.toNat) sb off false)
  | i => (arrivalForms i).map Arrival.reach

end Sys2Proof.Machine
end

