-- ==== Sys2Proof/Safety/Work.lean ====
section
/-!
DEFINITION. The shape of the statements about ray commands that bind slots (R339, R342, R352), HLD under policy FAULT (R299),
work graphs (R236 to R242) and DLAUNCH (R245).
-/
namespace Sys2Proof.Machine

/-! ## HLD under FAULT, and ray commands that bind slots -/

/-- HLD under policy FAULT as a command: the item kills V[P] at its end, and the flow sleeps until then (R299). -/
def hldFaultCommand (d : BitVec 7) (sa tok : BitVec 6) (age : BitVec 4) (filter : HFilter) (short : Bool) (mm cm1 : BitVec 4)
    (vc vp : BitVec 7) (lp : Bool) : Command :=
  { form :=
      { words := 2, early := killed, reads := fun v => v.eff false
        ops := fun _ => [opRun d.toNat ((cm1.toNat + 2) / 2) false, opS sa.toNat] ++ tokField tok ++
          (if mm = 0 then [] else [opMw mm.toNat]) ++ (if vc = 0 then [] else [opWr vc.toNat]) ++ [opRd vp.toNat] }
    tok := tok
    item := fun w =>
      { itemOf w tok (w.eff false) (.hld age.toNat filter true short mm.toNat (cm1.toNat + 1) vc.toNat
          (if lp then [(vp.toNat, w.eff false)] else [])) with
        sa := w.rdS sa.toNat, vs := [w.rdV vp.toNat], d := d.toNat } }

/-- The lanes of EFFMASK that hold a ray already (R339). -/
def rayHeld (w : View) : Mask := maskOf fun l => (w.eff false).getLsbD l && (vget w.g.rays l none).isSome

/-- RTRACE and RTLOAD as commands that bind a slot for each lane. -/
def rayForms : Instr → Option Command
  | .rtrace d sa tok first cullb yield mask vr lr => some
      { form :=
          { words := 2, early := killed, reads := fun v => v.eff false
            ops := fun _ => [opRun d.toNat 3 false, opS sa.toNat] ++ tokField tok ++ [opRun vr.toNat 4 true] }
        tok := tok
        fault := fun w => if rayHeld w = 0#32 then none else some (0x15, (rayHeld w).zeroExtend 64)
        item := fun w =>
          { itemOf w tok (w.eff false) (.ray .trace 0 (Vector.replicate 32 none) 0 false) with
            sa := w.rdS sa.toNat, d := d.toNat, vs := (List.range 4).map fun k => w.rdV (vr.toNat + k)
            sb := BitVec.ofNat 64 (mask.toNat * 256 + yield.toNat * 4 + cullb.toNat * 2 + first.toNat) }
        kills := fun w => if lr then (List.range 4).map fun k => (vr.toNat + k, w.eff false) else [] }
  | .rtload d sa tok va lv =>
    let addr (w : View) (l : Nat) : Word := w.rdS sa.toNat + lane (w.rdV va.toNat) l
    some
      { form :=
          { words := 2, early := killed, reads := fun v => v.eff false
            ops := fun _ => [opRun d.toNat 3 false] ++ [opS sa.toNat] ++ tokField tok ++ [opRd va.toNat] }
        tok := tok
        fault := fun w =>
          match ruleRecords w (w.eff false) (addr w) with
          | some f => some f
          | none => if rayHeld w = 0#32 then none else some (0x15, (rayHeld w).zeroExtend 64)
        item := fun w =>
          { itemOf w tok (w.eff false) (.ray .load 0 (Vector.replicate 32 none) 0 false) with
            vs := [lanesFrom (addr w)], d := d.toNat }
        kills := fun w => if lv then [(va.toNat, w.eff false)] else [] }
  | _ => none

/-- The group's change when a ray command is posted: its token, and in the lanes of the item alone its rays. -/
def Group.PostsRays (fl : Nat) (tok : BitVec 6) (i : Item) (g g' : Group) : Prop :=
  Group.Posts fl tok g { g' with rays := g.rays } ∧
    ∀ l, l < 32 → i.eff.getLsbD l = false → vget g'.rays l none = vget g.rays l none

/-- The slots that a posted item has bound (R339): RTRACE a new ray in each lane, the world ray as captured, without a hit, at
its root (R342, R343). -/
def BoundRays (i : Item) (g' : Group) : Prop :=
  match i.work with
  | .ray .trace .. => ∀ l, l < 32 → i.eff.getLsbD l = true → ∃ r, vget g'.rays l none = some r ∧ r.owner = i.id ∧
      r.stack = [] ∧ r.held = 0 ∧ r.sbase = 0 ∧ r.level = false ∧ r.root = i.sa ∧
      (r.world.toList.map fun (x : W32) => x.toNat) = i.vs.flatMap (fun a => [(lane a l).toNat % 2 ^ 32, (lane a l).toNat / 2 ^ 32])
  | _ => True

/-- One item is posted, and no other changes. -/
def AddsItem (s t : State) (i : Item) : Prop :=
  t.nextId = s.nextId + 1 ∧ ∃ j, t.items = s.items ++ [j] ∧ PostedAs i j

/-- Where such a command completes: enough slots of its core are free and none waits in line before it (R339). -/
def Command.BindsAt (C : Command) (i : Instr) (s : State) (v : View) : Prop :=
  C.form.CanIssue s v →
    let w := C.form.issued v
    let need := w.s.slotNeed (C.item w)
    C.fault w = none → w.redsOut = false →
      (need = 0 ∨ (w.s.slotWaiters w.core = [] ∧ need ≤ w.s.freeSlots w.core) →
        ∃ t, exec i s = .next t ∧
          v.Performs s t w (Group.PostsRays v.fl C.tok (C.item w)) (w.metBits (C.form.reads v) (C.form.ops v))
            { kills := C.kills w } ∧
          (∀ g', t.group? v.u v.g.gid = some g' → BoundRays (C.item w) g') ∧
          AddsItem s t (C.item w) ∧ SameMemory s t ∧ SameBeyondItems s t) ∧
      (need ≠ 0 → (w.s.slotWaiters w.core ≠ [] ∨ w.s.freeSlots w.core < need) →
        ∃ t, exec i s = .next t ∧ t.items = s.items ∧ SameMemory s t ∧
          ∃ o x ks, t.sleepAt v.u v.g.gid v.fl = .slots o x ks ∧ x = C.item w ∧ ks = C.kills w ∧ o = s.nextId)

/-! ## Work graphs (R236 to R242) -/

/-- WGALLOC and WGCOMMIT: with no lane nothing is read. -/
def graphForm (d : Opnd) (sa : BitVec 6) (mf : List Opnd) : Form :=
  { words := 2, early := killed, reads := fun v => v.eff false
    ops := fun v => [d, { opS sa.toNat with rd := v.eff false != 0#32 }] ++ mf }

def graphForms : Instr → Option Form
  | .wgalloc d sa _ => some (graphForm (opWr d.toNat) sa [])
  | .wgallocTry d sa mf _ => some (graphForm (opWr d.toNat) sa (if mf = 0 then [] else [opMw mf.toNat]))
  | .wgcommit d sa _ => some (graphForm (opRd d.toNat) sa [])
  | _ => none

/-- The lanes of EFFMASK, ascending. -/
def effLanes (w : View) : List Nat := (List.range 32).filter fun l => (w.eff false).getLsbD l

/-- A handle names a loaded graph of the context, and the node is a record node of it (R233, R238). -/
structure Names (w : View) (handle : Word) (node : Nat) (x : Graph) (n : Node) : Prop where
  graph : w.s.graphOf w.t.ctx handle.toNat = some x
  node  : x.nodes[node]? = some n
  leaf  : n.entry = false

/-- What a request that names no record node raises: PROT for a handle of no graph, SHBOUND for a node (R238). -/
def namesFault (w : View) (handle : Word) (node : Nat) : Option Nat :=
  match w.s.graphOf w.t.ctx handle.toNat with
  | none => some 0x11
  | some x =>
    match x.nodes[node]? with
    | none => some 0x15
    | some n => if n.entry then some 0x15 else none

/-- Slots of a graph granted to lanes: distinct free ones, now allocated to the node, each lane's address its slot's. -/
structure Granted (x x' : Graph) (node : Nat) (lanes : List Nat) (a : LaneVec) (is : List Nat) : Prop where
  count  : is.length = lanes.length
  apart  : is.Nodup
  free   : ∀ i ∈ is, i < x.nslots ∧ ∀ e ∈ x.slots, e.1 ≠ i
  addrs  : ∀ k l i : Nat, lanes[k]? = some l → is[k]? = some i → lane a l = BitVec.ofNat 64 (x.pool + i * x.slotSize)
  became : x' = { x with slots := x.slots ++ is.map fun i => (i, .allocated node) }

/-- Nothing but a graph and the teams changes. -/
def SameBeyondGraph (s t : State) (x' : Graph) : Prop :=
  t = { s with teams := t.teams, graphs := s.graphs.map fun y => if y.uid = x'.uid then x' else y }

/-- The slots that the lanes' addresses name. -/
def ruleSlots (x : Graph) (a : LaneVec) (lanes : List Nat) : List Nat :=
  lanes.map fun l => ((lane a l).toNat - x.pool) / x.slotSize

/-- A lane's address may be committed: it is the first byte of a slot that is allocated to the node, and no other lane's
(R241). -/
def commitGood (x : Graph) (node : Nat) (a : LaneVec) (lanes : List Nat) (l : Nat) : Bool :=
  let o := (lane a l).toNat - x.pool
  decide (x.pool ≤ (lane a l).toNat) && decide (o % x.slotSize = 0) && decide (o / x.slotSize < x.nslots) &&
    (x.slots.any fun e => e.1 == o / x.slotSize && decide (e.2 = .allocated node)) &&
    lanes.all fun k => k == l || decide (lane a k ≠ lane a l)

/-! ## DLAUNCH (R245) -/

/-- Every packet is readable, in scratchpad or HBM, and names a queue of its own context. -/
structure PacketsGood (w : View) (as : List (Nat × Word)) (fs : List (Nat × Word × PacketFate)) (s' : State) : Prop where
  fates   : w.s.packetFates w.core w.t.ctx as = (fs, s')
  aligned : ∀ a ∈ as, a.2.toNat % 64 = 0 ∧ a.2.toNat < 2 ^ 53
  read    : ∀ f ∈ fs, ∃ ls, f.2.2 = .ok ls ∧ ∀ l ∈ ls, s'.badMem l.1 l.2 = false
  bound   : ∀ p ∈ s'.packetsOf fs, s'.queueCtx w.t.slice (pktQueue p.2.2) = some w.t.ctx

/-- The launches that packets become: in order, each with the slice's next sequence number, on its queue. -/
def EnqueuedAs (s : State) (c : Context) (ps : List (Nat × Word × List Word)) (gs : List Grid) : Prop :=
  gs.length = ps.length ∧ ∀ k p g, ps[k]? = some p → gs[k]? = some g →
    g.packet = p.2.2 ∧ g.addr = p.2.1.toNat ∧ g.queue = some (pktQueue p.2.2) ∧ g.ctx = c.id ∧ g.slice = c.slice ∧
      g.seq = assocGet 0 s.seqs c.slice + BitVec.ofNat 32 k ∧ g.placed = 0 ∧
      g.state = if c.halted then .complete else .queued

/-- The lanes of DLAUNCH with their packets' addresses; DLAUNCH.s has one, of no lane. -/
structure DLaunch where
  form  : Form
  addrs : View → List (Nat × Word)

def dlaunchForms : Instr → Option DLaunch
  | .dlaunch d => some
      ⟨{ words := 2, early := killed, reads := fun v => v.eff false, ops := fun _ => [opRd d.toNat] },
        fun w => (effLanes w).map fun l => (l, lane (w.rdV d.toNat) l)⟩
  | .dlaunchS sa => some ⟨{ words := 2, early := killed, ops := fun _ => [opS sa.toNat] }, fun w => [(32, w.rdS sa.toNat)]⟩
  | _ => none

/-- Where DLAUNCH completes: the packets are copied and enqueued in lane order, or wait for queue room. -/
def DLaunch.Runs (D : DLaunch) (i : Instr) : Prop :=
  ∀ s v fs s' c, D.form.CanIssue s v →
    let w := D.form.issued v
    PacketsGood w (D.addrs w) fs s' → w.redsOut = false → s'.context? w.t.ctx = some c → c.slice = w.t.slice →
      (s'.roomFor w.t.slice (s'.packetsOf fs) = true →
        ∃ t gs, exec i s = .next t ∧
          v.Performs s t w Group.Ordered (w.metBits (D.form.reads v) (D.form.ops v)) {} ∧ SameMemory s t ∧
          t.grids = s.grids ++ gs ∧ EnqueuedAs s c (s'.packetsOf fs) gs ∧
          t = { s with teams := t.teams, tlb1 := t.tlb1, tlb2 := t.tlb2, grids := t.grids, seqs := t.seqs, nextId := t.nextId }) ∧
      (s'.roomFor w.t.slice (s'.packetsOf fs) = false →
        ∃ t, exec i s = .next t ∧ t.grids = s.grids ∧ SameMemory s t ∧
          t.sleepAt v.u v.g.gid v.fl = .room (D.addrs w))

/-- The lanes whose packets a test picks; the scalar form names none. -/
def packetMask (fs : List (Nat × Word × PacketFate)) (f : PacketFate → Bool) : Mask :=
  maskOf fun l => fs.any fun x => x.1 == l && f x.2.2

/-- What DLAUNCH raises, each in its turn with the lanes that meet it (R245): a packet that is not 64-byte aligned; an absent
page, which the flow waits for, unless an address is beyond any page; a page it may not read; a page of another kind; a packet
with an uncorrectable error; a queue of another context. Nothing is enqueued. -/
def DLaunch.Refuses (D : DLaunch) (i : Instr) : Prop :=
  ∀ s v, D.form.CanIssue s v →
    let w := D.form.issued v
    let as := D.addrs w
    let met := w.metBits (D.form.reads v) (D.form.ops v)
    let mis (a : Nat × Word) : Bool := decide (a.2.toNat % 64 ≠ 0)
    (as.any mis = true → exec i s = w.trap met 0x13 ((maskOf fun l => as.any fun a => a.1 == l && mis a).zeroExtend 64)) ∧
    ∀ fs s', as.any mis = false → w.s.packetFates w.core w.t.ctx as = (fs, s') →
      let x := w.onState s'
      let high : Bool := as.any fun a => decide (2 ^ 53 ≤ a.2.toNat)
      let has (f : PacketFate → Bool) : Bool := fs.any fun y => f y.2.2
      let prot (f : PacketFate) : Bool := decide (f = .prot)
      let kind (f : PacketFate) : Bool := decide (f = .kind)
      let ecc (f : PacketFate) : Bool := match f with | .ok ls => ls.any fun l => s'.badMem l.1 l.2 | _ => false
      let lost := (s'.packetsOf fs).filter fun p => decide (s'.queueCtx w.t.slice (pktQueue p.2.2) ≠ some w.t.ctx)
      (high = false → ∀ l a va m, fs.find? (fun y => y.2.2.isAbsent) = some (l, a, .absent va m) →
        exec i s = x.xlate met va m (packetMask fs PacketFate.isAbsent)) ∧
      (high = true ∨ has PacketFate.isAbsent = false →
        (has prot = true → exec i s = x.trap met 0x11 ((packetMask fs prot).zeroExtend 64)) ∧
        (has prot = false → has kind = true → exec i s = x.trap met 0x12 ((packetMask fs kind).zeroExtend 64)) ∧
        (has prot = false → has kind = false → has ecc = true → exec i s = x.trap met 0x60 (hinfoMem (packetMask fs ecc))) ∧
        (has prot = false → has kind = false → has ecc = false → lost ≠ [] →
          exec i s = x.trap met 0x11 ((maskOf fun l => lost.any fun p => p.1 == l).zeroExtend 64)))

end Sys2Proof.Machine
end

