-- ==== Sys2Proof/Safety/Events.lean ====
section
/-!
DEFINITION. The shape of the statements about events of groups, launches and contexts: results and sleeps that end (R65, R170,
R176, R178, R210, R263, R339), traps and pre-emptions (R217, R218, R223, R226, R228), launches and teams (R155, R198 to R207).
-/
namespace Sys2Proof.Machine

/-! ## Results and sleeps -/

/-- A flow sleeps, in its turn. -/
def State.sleeps (s : State) (v : View) (u gid fl : Nat) (sl : Sleep) : Prop :=
  s.viewOf u gid fl 2 = some v ∧ v.inTurn = true ∧ s.sleepAt u gid fl = sl

/-- A flow of a group is awake, and stands where it slept; nothing else of the group changes. -/
def Group.Wakes (fl : Nat) (g g' : Group) : Prop :=
  g' = { g with recs := g'.recs, handler := g'.handler } ∧
    (∀ k, k < 4 → g'.record k = if k = fl then { g.record k with sleep := .awake } else g.record k) ∧
    g'.handler = if fl = 4 then g.handler.map fun h => { h with sleep := .awake } else g.handler

/-- An event ends the sleep of a flow: its instruction completes with these writes. -/
def View.Returns (v : View) (s : State) (o : Out) (e : Eff) : Prop :=
  ∃ t, o = .next t ∧ v.Performs s t v (Group.Woken v.fl) 0 e ∧ SameMemory s t

/-- Outstanding results that `due` names are written, and no other register changes. -/
def Group.Returned (fl : Nat) (due : Pend → Bool) (g g' : Group) : Prop :=
  g.Readied g' fl ∧ g'.pends = g.pends.filter (fun p => !due p) ∧
    (∀ r l, l < 32 → (∀ p ∈ g.pends, due p = true → ∀ w ∈ p.vs, w.1 = r → w.2.1.getLsbD l = false) →
      g'.vAt r l = g.vAt r l ∧ g'.vLiveAt r l = g.vLiveAt r l) ∧
    ∀ p ∈ g.pends, due p = true → ∀ d m x, (d, m, x) ∈ p.vs → d < 128 → ∀ l, l < 32 → m.getLsbD l = true →
      (∀ q ∈ g.pends, due q = true → ∀ w ∈ q.vs, w.1 = d → w.2.1.getLsbD l = true → lane w.2.2 l = lane x l) →
      g'.vAt d l = lane x l ∧ g'.vLiveAt d l = true

/-- The oldest ATOM of a flow all of whose lanes have been performed (R170). -/
def State.atomDue (s : State) (u gid fl : Nat) (r : Red) (b : AtomBack) : Prop :=
  (s.reds.find? fun q => q.party.team == u && q.party.gid == gid && q.lanes.isEmpty && q.back.any fun b => b.flow == fl) = some r ∧
    r.back = some b

/-- The old values that an ATOM's lanes gave stand in D, in the lanes that were performed, and no other register changes; with
no D, which an item held, none does (R29, R170). -/
def Group.AtomWritten (g : Group) (b : AtomBack) (g' : Group) : Prop :=
  (∀ d l, b.d = some d → d < 128 → l < 32 → (b.eff &&& ~~~b.bad).getLsbD l = true →
    g'.vAt d l = BitVec.ofNat 64 (assocGet 0 b.got l) ∧ g'.vLiveAt d l = true) ∧
  (∀ r l, l < 32 → (b.d ≠ some r ∨ (b.eff &&& ~~~b.bad).getLsbD l = false) →
    g'.vAt r l = g.vAt r l ∧ g'.vLiveAt r l = g.vLiveAt r l) ∧
  g'.s = g.s ∧ g'.slive = g.slive ∧ g'.m = g.m

/-- A team that holds a core. -/
def State.onCore (s : State) (u : Nat) : Prop := ∃ x, s.team? u = some x ∧ x.core ≠ none

/-! ## Traps and pre-emption -/

/-- A group is resident and has lanes or a handler. -/
def Group.inPlay (g : Group) : Prop := g.retired = false ∧ g.saved = false ∧ (g.live ≠ 0#32 ∨ g.handler.isSome)

/-- A group has entered its handler: its records frozen and its outstanding results written (R217, R218). It acquires what its
woken BWAITs acquire (R176). -/
def Group.Entered (g g' : Group) (h : Handler) : Prop :=
  g'.handler = some h ∧ (∀ k, k < 4 → g'.record k = ruleFrozen (g.record k)) ∧ g'.stat = g.stat ∧
    (∃ x, x = { g' with hbarIn := g.hbarIn, pending := g.pending, preempt := g.preempt, pendRest := g.pendRest, rays := g.rays,
                        clk := g.clk } ∧ g.keepsRest x) ∧
    g.keepsV g' (fun _ _ => false) (fun _ _ => false) ∧ g.keepsS g' (fun _ _ => false) ∧ g.keepsM g' (fun _ _ => false)

/-- A dword of the packet that a team runs, 0 where its launch is gone. -/
def State.packetWord (s : State) (t : Team) (n : Nat) : Word :=
  match s.grid? t.grid with
  | some g => g.packet.getD n 0
  | none => 0

/-- What a team's handler starts with under a cause that names no instruction (R223, R226, R228). -/
def State.entryHandler (s : State) (t : Team) (cause : Nat) (hinfo : Word) : Handler :=
  let own := s.packetWord t 5
  { pc := if own ≠ 0 then own else ((s.context? t.ctx).map Context.handler).getD 0, mode := 0, repi := 0, sleep := .awake,
    cause := cause, hpc := 0, hinfo := hinfo, traprec := 0, sbank := Vector.replicate 8 0, slive := 0, tokBusy := 0, m14 := 0,
    m15 := 0, stop := .running, kill := decide (cause = 0x51), dflt := decide (own = 0), ord := ⟨[], [], [], [], []⟩ }

/-- A restored group (R226): record 0 holds every launched lane at the packet's entry, every register is dead, and the
handler starts under PREEMPT with HINFO 1. -/
structure RestoredFrom (s : State) (t : Team) (g g' : Group) : Prop where
  handler : g'.handler = some (s.entryHandler t 0x50 1)
  zero    : g'.record 0 = { Split.unused with
    pc := s.packetWord t 4, members := g.launched, exec := g.launched, mode := (s.packetWord t 7).extractLsb' 0 12
    ord := (g.record 0).ord }
  others  : ∀ k, 0 < k → k < 4 → (g'.record k).members = 0#32
  dead    : ∀ r l, l < 32 → g'.vLiveAt r l = false
  deadS   : ∀ r, 0 < r → r < 64 → g'.sRegLive false r = false
  lanes   : g'.live = g.launched ∧ g'.launched = g.launched ∧ g'.saved = false ∧ g'.retired = false
  kept    : g'.gid = g.gid ∧ g'.role = g.role ∧ g'.budget = g.budget ∧ g'.stat = g.stat ∧ g'.trapen = g.trapen ∧
    g'.ksp = g.ksp ∧ g'.kwin = g.kwin ∧ g'.mprio = g.mprio ∧ g'.saveArea = g.saveArea ∧ g'.clk = g.clk ∧ g'.rels = g.rels

/-! ## Launch packets (R200, R201, R204) -/

/-- A dword of a packet as a number, its count of roles, and the groups of a role. -/
def pNat (p : List Word) (n : Nat) : Nat := (p.getD n 0).toNat
def pRoles (p : List Word) : Nat := pNat p 1 / 2 ^ 40 % 4 + 1
def pGroups (p : List Word) (r : Nat) : Nat := pNat p 1 / 2 ^ (6 * r) % 64

/-- A packet that dispatches without a launch fault, for `x` by `y` by `z` teams. -/
structure PacketGood (p : List Word) (x y z : Nat) : Prop where
  zeros   : pNat p 1 / 2 ^ 44 = 0 ∧ pNat p 2 / 2 ^ 19 = 0 ∧ pNat p 3 / 2 ^ 11 = 0 ∧ pNat p 7 / 2 ^ 22 = 0 ∧
    ∀ i, 12 ≤ i → i < 33 → pNat p i = 0
  count   : if pNat p 3 / 2 ^ 9 % 2 = 1 then pNat p 6 % 4 = 0 else pNat p 6 = 0
  gang    : pNat p 1 / 2 ^ 42 % 4 ≠ 3
  named   : ∀ r, r < pRoles p → 1 ≤ pGroups p r ∧ pGroups p r ≤ 32
  unnamed : ∀ r, pRoles p ≤ r → r < 4 → pGroups p r = 0
  lanes   : 1 ≤ pNat p 0 / 2 ^ 48 ∧ pNat p 0 / 2 ^ 48 ≤ 32 * ((List.range (pRoles p)).map (pGroups p)).sum
  most    : ((List.range (pRoles p)).map (pGroups p)).sum ≤ 32
  regs    : ((List.range (pRoles p)).map fun r => pGroups p r * (8 * (pNat p 1 / 2 ^ (24 + 4 * r) % 16 + 1))).sum ≤ 2048
  shared  : pNat p 2 % 2 ^ 19 ≤ 393216
  whole   : x * y * z % 2 ^ (pNat p 1 / 2 ^ 42 % 4) = 0
  stack   : pNat p 8 % 16 = 0 ∧ pNat p 9 % 16 = 0
  live    : pNat p 10 % 2 = 0 ∧ pNat p 7 / 2 ^ 21 % 2 = 0
  code    : pNat p 4 < 2 ^ 53 ∧ pNat p 4 % 4 = 0 ∧ pNat p 5 < 2 ^ 53 ∧ pNat p 5 % 4 = 0
  mode    : pNat p 7 / 2 ^ 8 % 16 ≠ 15 ∧ pNat p 7 / 2 ^ 5 % 8 ≤ 4

/-- A launch is next on its queue (R203): the earlier ones have completed, or with OVERLAP have started every team. -/
def State.isNext (s : State) (g : Grid) : Prop :=
  s.grid? g.uid = some g ∧ g.state = .queued ∧ g.wait = none ∧
    ∀ e ∈ s.earlier g, if (g.packet.getD 3 0).getLsbD 8 then e.started = true else e.state = .complete

/-- With CAPTURE set a grid has a capture record of its packet and sequence number, the last (R215); without, none is made and no
byte of memory changes. -/
def Captures (s t : State) (g' : Grid) (p : List Word) (seq : BitVec 32) (ctx : Nat) : Prop :=
  if (p.getD 3 0).getLsbD 10 then
    ∃ x, t.captures = s.captures ++ [x] ∧ g'.capture = some x.id ∧ x.packet = p ∧ x.seq = seq ∧ x.ctx = ctx ∧ x.reports = []
  else t.captures = s.captures ∧ g'.capture = none ∧ SameMemory s t

/-- A launch dispatches with these counts: eligible, or complete at once where it has no team; or a launch fault. -/
def Dispatches (s : State) (g : Grid) (x y z : Nat) : Prop :=
  let o := exec (.dispatch g.uid) s
  let good : Prop := PacketGood g.packet x y z ∧ ∀ e ∈ g.image, e.1 < (g.packet.getD 2 0).toNat % 2 ^ 19
  (good → g.capture = none → (∀ y ∈ s.captures, y.id ≠ s.nextId) → ∃ t g', o = .next t ∧ t.grid? g.uid = some g' ∧ g'.dims = (x, y, z) ∧
    g'.state = (if x * y * z = 0 then .complete else .eligible) ∧ t.teams = s.teams ∧ t.reports = s.reports ∧
    Captures s t g' g.packet g.seq g.ctx) ∧
  (¬good → ∃ t g', o = .next t ∧ t.grid? g.uid = some g' ∧ g'.state = .complete ∧ SameMemory s t ∧ t.teams = s.teams ∧
    t.reports = s.reports ++ [.launch g.ctx g.seq] ∧ t.haltedCtx g.ctx)

/-- The count words of an INDIRECT launch lie at `pas` in pages of memory that can be read, and met no error (R201); no plain
write to them is recorded, which the distributor's read could miss (R192). -/
def State.countsAt (s : State) (c : Context) (g : Grid) (pas : List Nat) : Prop :=
  let a := (g.packet.getD 6 0).toNat
  a % 4 = 0 ∧ a + 12 ≤ 2 ^ 53 ∧ pas.length = 3 ∧ ∀ (i pa : Nat), pas[i]? = some pa →
    ∃ e, s.walk c (a + 4 * i) = .ok e ∧ e.rd = true ∧ (e.kind = .main ∨ e.kind = .scratch) ∧ e.race = false ∧
      e.pa (a + 4 * i) = pa ∧ s.badMem pa 4 = false ∧
      ∀ w ∈ s.hist, rangesMeet w.key w.old.length pa 4 = true → w.plain = false

/-! ## Teams (R44, R155, R205 to R207, R214) -/

/-- The next teams of a grid may start on these cores: none of its teams waits for a restore, no other grid of the slice that
wants a place comes before it, and the cores, distinct and of one cluster of the slice, hold what the teams need. -/
structure PlacesOn (s : State) (g : Grid) (cores : List Nat) : Prop where
  grid    : s.grid? g.uid = some g
  open_   : g.state = .eligible ∧ g.placed < g.teamCount
  runs    : ∃ c, s.context? g.ctx = some c ∧ c.halted = false
  whole   : ∀ t ∈ s.teams, t.grid = g.uid → t.core ≠ none
  first   : ∀ h ∈ s.grids, h.slice = g.slice → h.uid ≠ g.uid → s.wantsPlace h = true →
    pktPrio h.packet < pktPrio g.packet ∨ (pktPrio h.packet = pktPrio g.packet ∧ g.seq.toNat ≤ h.seq.toNat)
  onCores : cores.length = pktGang g.packet ∧ cores.Nodup ∧
    ∃ cl, g.slice * (128 / s.cut) ≤ cl ∧ cl < (g.slice + 1) * (128 / s.cut) ∧ ∀ c ∈ cores, c / 4 = cl
  room    : g.slice ∉ s.det → ∀ c ∈ cores,
    ((s.residents c).map fun r => r.2.2).sum + ((pktGroupRoles g.packet).map (pktBudget g.packet)).sum ≤ 2048 ∧
    (s.residents c).length + (pktGroupRoles g.packet).length ≤ 32 ∧ s.sharedUsed c + pktShared g.packet ≤ 393216
  fixed   : g.slice ∈ s.det → s.detCores g.slice (pktGang g.packet) = some cores

/-- A group as a team starts (R34, R46, R207): the launched lanes in record 0 at ENTRY, no vector register live, each scalar
that S0's mask names preloaded, masks and STAT zero. -/
structure StartedAt (g : Grid) (t : Team) (x : Group) (role : Nat) : Prop where
  launched : x.launched = maskOf fun l => decide (32 * x.gid + l < (g.packet.getD 0 0).toNat / 2 ^ 48)
  record   : x.record 0 = { Split.unused with
    pc := g.packet.getD 4 0, members := x.launched, exec := x.launched, mode := (g.packet.getD 7 0).extractLsb' 0 12 }
  others   : ∀ k, 0 < k → k < 4 → (x.record k).members = 0#32
  role     : x.role = role ∧ x.budget = pktBudget g.packet role
  vectors  : g.batch = none → ∀ r l, l < 32 → x.vLiveAt r l = false
  scalars  : ∀ r, 0 < r → r < 64 → (g.batch = none ∨ r ≠ 1) →
    if (g.packet.getD 10 0).getLsbD r then x.sReg false r = g.packet.getD (32 + r) 0 ∧ x.sRegLive false r = true
    else x.sRegLive false r = false
  masks    : ∀ r, r < 16 → x.mReg false r = 0#32
  state    : x.stat = 0 ∧ x.trapen = (g.packet.getD 7 0).extractLsb' 12 10 ∧ x.handler = none ∧ x.pends = [] ∧
    x.retired = decide (x.launched = 0#32) ∧ x.saved = false ∧ x.tokBusy = 0 ∧ x.mprio = 0
  stack    : x.ksp = g.packet.getD 8 0 + g.packet.getD 9 0 *
      BitVec.ofNat 64 (t.tidx * (pktGroupRoles g.packet).length + x.gid) ∧ x.kwin = (x.ksp, g.packet.getD 9 0)

/-- A group has left its core: retired; or, the last of its team, it is gone with the team, whose grid counts one more. -/
def Departs (s t : State) (u gid : Nat) : Prop :=
  ∀ x, s.team? u = some x →
    ((∀ y ∈ x.groups, y.gid = gid ∨ y.retired = true) →
      t.team? u = none ∧ ∀ g, s.grid? x.grid = some g → ∃ g', t.grid? x.grid = some g' ∧ g'.done = g.done + 1) ∧
    ((∃ y ∈ x.groups, y.gid ≠ gid ∧ y.retired = false) → ∃ g', t.group? u gid = some g' ∧ g'.retired = true)

/-! ## Work graphs (R233 to R235, R238, R242 to R244) -/

/-- Node `n` launches a consumer grid from the first `k` records of its queue (R243): one team, LANES the record count, and
its slots held until it ends. In a halted context it completes at once, and its slots return. That it takes the slice's next
sequence number is the model's reading (log 23 DEDUCED). -/
def LaunchesBatch (s : State) (o : Out) (x : Graph) (n k : Nat) : Prop :=
  ∀ d c, x.nodes[n]? = some d → s.context? x.ctx = some c → (∀ y ∈ s.grids, y.uid ≠ s.nextId) →
    ∃ t g x', o = .next t ∧ t.grids = s.grids ++ [g] ∧ g.batch = some (x.uid, n, d.queue.take k) ∧
      (c.halted = true → SameMemory s t) ∧ (c.halted = false → Captures s t g g.packet g.seq c.id) ∧
      g.packet = d.packet.set 0 (BitVec.ofNat 64 (k * 2 ^ 48 + 2 ^ 32 + 2 ^ 16 + 1)) ∧ g.dims = (1, 1, 1) ∧ g.queue = none ∧
      g.ctx = c.id ∧ g.seq = assocGet 0 s.seqs c.slice ∧ g.placed = 0 ∧
      g.state = (if c.halted then .complete else .eligible) ∧ t.graph? x.uid = some x' ∧
      x'.nodes = x.nodes.set n { d with queue := d.queue.drop k } ∧
      x'.slots = (if c.halted then x.slots.filter fun e => !(d.queue.take k).contains e.1
        else x.slots.map fun e => if e.1 ∈ d.queue.take k then (e.1, .held n s.nextId) else e)

/-- A node is live (R242): a launch of an entry node's template is not complete; a record node holds records, or a consumer
grid of it is not complete. -/
def ruleLive (s : State) (x : Graph) (m : Nat) (d : Node) : Prop :=
  if d.entry then ∃ g ∈ s.grids, g.ctx = x.ctx ∧ g.addr = d.template ∧ g.batch = none ∧ g.state ≠ .complete
  else d.queue ≠ [] ∨ ∃ g ∈ s.grids, g.state ≠ .complete ∧ ∃ rs, g.batch = some (x.uid, m, rs)

/-- An edge of a graph, to a node that is there. -/
def Graph.edge (x : Graph) (a b : Nat) : Prop := b < x.nodes.length ∧ ∃ d, x.nodes[a]? = some d ∧ d.succ.getLsbD b = true

/-- A dword of a run of bytes. -/
def wordAt (bs : List Byte) (k : Nat) : Nat := leNat ((bs.drop (8 * k)).take 8)

/-- A node's eight dwords in a graph descriptor (R233). -/
structure NodeIs (w : Nat → Nat) (d : Node) : Prop where
  template : w 0 = d.template
  succ     : w 1 = d.succ.toNat
  zeros    : w 2 / 2 ^ 48 = 0 ∧ w 2 / 2 ^ 6 % 8 = 0 ∧ ∀ j, 3 ≤ j → j < 8 → w j = 0
  floor    : w 2 / 2 ^ 32 % 2 ^ 16 = d.floor
  timeout  : w 2 / 2 ^ 16 % 2 ^ 16 = d.timeout
  entry    : d.entry = decide (w 2 / 2 ^ 15 % 2 = 1)
  recBytes : 16 * (w 2 / 2 ^ 9 % 64) = d.recBytes
  batch    : w 2 % 64 + 1 = d.batch

/-- The descriptor of a graph in memory (R233): header and nodes, in SCRATCH pages with RD, as the graph holds them. -/
def DescribedBy (s : State) (c : Context) (addr : Nat) (x : Graph) : Prop :=
  ∃ hb nb, s.ctlBytes c (fun e => decide (e.kind = .scratch) && e.rd) addr 64 = some hb ∧
    s.ctlBytes c (fun e => decide (e.kind = .scratch) && e.rd) (addr + 64) (64 * x.nodes.length) = some nb ∧
    wordAt hb 0 = x.pool ∧ wordAt hb 1 = x.nslots * 2 ^ 16 + x.slotSize ∧ wordAt hb 2 = x.nodes.length ∧
    (∀ j, 3 ≤ j → j < 8 → wordAt hb j = 0) ∧
    ∀ (n : Nat) d, x.nodes[n]? = some d → NodeIs (fun j => wordAt nb (8 * n + j)) d

/-- The team counts of a packet (R200). -/
def pDims (p : List Word) (k : Nat) : Nat := pNat p 0 / 2 ^ (16 * k) % 2 ^ 16

/-- A graph that its descriptor gives and that may be loaded (R233 to R235). -/
structure GraphGood (s : State) (c : Context) (addr : Nat) (x : Graph) : Prop where
  bytes  : DescribedBy s c addr x
  names  : x.ctx = c.id ∧ x.handle = addr ∧ addr % 64 = 0 ∧ x.uid = s.nextId
  pool   : x.pool % 64 = 0 ∧ 1 ≤ x.nslots ∧ x.nslots < 2 ^ 16 ∧ x.slotSize % 16 = 0 ∧ 16 ≤ x.slotSize ∧ x.slotSize ≤ 512
  pages  : (s.ctlLocs c (fun e => decide (e.kind = .scratch) && e.rd && e.w) x.pool (x.nslots * x.slotSize)).isSome = true
  empty  : x.slots = [] ∧ x.freed = [] ∧ ∀ d ∈ x.nodes, d.queue = []
  count  : 1 ≤ x.nodes.length ∧ x.nodes.length ≤ 64
  floors : (x.nodes.map Node.floor).sum ≤ x.nslots
  order  : ¬∃ a, Relation.TransGen x.edge a a
  edges  : ∀ d ∈ x.nodes, ∀ b, x.nodes.length ≤ b → d.succ.getLsbD b = false
  packet : ∀ d ∈ x.nodes, s.packetAt c d.template = some d.packet
  entry  : ∀ (n : Nat) d, x.nodes[n]? = some d → d.entry = true → d.floor = 0 ∧ d.timeout = 0 ∧ d.recBytes = 0 ∧ d.batch = 1 ∧
    (∀ a, a < x.nodes.length → ¬x.edge a n) ∧
    if (d.packet.getD 3 0).getLsbD 9 then PacketGood d.packet 0 0 0
    else PacketGood d.packet (pDims d.packet 0) (pDims d.packet 1) (pDims d.packet 2)
  record : ∀ (n : Nat) d, x.nodes[n]? = some d → d.entry = false → 16 ≤ d.recBytes ∧ d.recBytes ≤ x.slotSize ∧ 1 ≤ d.batch ∧
    d.batch ≤ 64 ∧ d.batch + ((x.nodes.map Node.floor).sum - d.floor) ≤ x.nslots ∧ PacketGood d.packet 1 1 1 ∧
    d.batch ≤ 32 * ((List.range (pRoles d.packet)).map (pGroups d.packet)).sum ∧ (d.packet.getD 3 0).getLsbD 9 = false ∧
    (d.packet.getD 10 0).getLsbD 1 = false ∧
    ((∃ a e, x.edge a n ∧ x.nodes[a]? = some e ∧ e.entry = false) → d.batch ≤ d.floor)

/-! ## Pages (R18 to R22) -/

/-- A flow waits for a page of the number given. -/
def Sleep.waitsPage (sl : Sleep) (page : Nat) : Prop := ∃ va ls, sl = .xlate va ls ∧ va / 8192 = page

/-- How many corrected errors a block has counted (R375). -/
def State.correctedIn (s : State) (b : ErrBlock) : Nat := ((s.corrected.find? fun x => x.1 == b).map Prod.snd).getD 0

/-- An address of a context is absent from its tables. -/
def State.absentAt (s : State) (c : Context) (va : Nat) : Prop := ∃ m, s.walk c va = .absent m

end Sys2Proof.Machine
end

