-- ==== Sys2Proof/Safety/Engines.lean ====
section
/-!
DEFINITION. The shape of the statements about the ends of engine items: their token (R24), copies (R250 to R262), matrix
passes (R266 to R278), history lookups and functions (R292 to R307), layer operations (R317 to R331) and rays (R344 to R353).
-/
namespace Sys2Proof.Machine

/-! ## Tokens and writes of items -/

/-- The token word (R24): STATUS, CAUSE and RESULT. -/
def ruleToken (e : ItemEnd) (n : Nat) : Word :=
  let status := match e with | .done => 0 | .failed _ => 1 | .cancelled => 2 | .code k => k % 2 ^ 16
  let cause := match e with | .failed c => c % 256 | _ => 0
  BitVec.ofNat 64 (status * 2 ^ 48 + cause * 2 ^ 40 + n % 2 ^ 40)

/-- Whether an item's token is one of the handler's banked registers (R53), and whether it is busy in a group. -/
def Item.bankTok (i : Item) : Bool := i.flow == 4 && decide (56 ≤ i.tok.toNat)
def Group.tokenBusy (g : Group) (i : Item) : Bool :=
  if i.bankTok then (match g.handler with | some h => h.tokBusy.getLsbD (i.tok.toNat - 56) | none => false)
  else g.tokBusy.getLsbD i.tok.toNat

/-- An item has ended: it is gone, and its token register, where it was busy, holds the word and is busy no more (R23, R24). -/
def EndsItem (s t : State) (i : Item) (x : Word) : Prop :=
  t.item? i.id = none ∧ ∀ g, s.group? i.party.team i.party.gid = some g → ∃ g', t.group? i.party.team i.party.gid = some g' ∧
    (i.tok ≠ 0 → g.tokenBusy i = true → g.dueS i.bankTok i.tok.toNat = false →
      g'.sReg i.bankTok i.tok.toNat = x ∧ g'.sRegLive i.bankTok i.tok.toNat = true ∧ g'.tokenBusy i = false)

/-- An item waits for a page, and its fault record is sent, with its core and its launch's sequence number (R12, R22, R202). -/
def ItemWaits (s : State) (o : Out) (i : Item) (k va : Nat) (m : Bool) : Prop :=
  ∃ t, o = .next t ∧ SameMemory s t ∧ t.item? i.id = some { i with waits := i.waits ++ [(k, va)] } ∧
    t.reports = s.reports ++ [.xlate i.ctx va m
      ⟨some i.core, (s.team? i.party.team).bind fun x => (s.grid? x.grid).map Grid.seq⟩]

/-- How an item ends that an engine reset, a context kill or the unload of its graph ends (R228, R244): CANCELLED; an XCP command
FAILED where one of its items had failed, with a batch's DONE items as RESULT (R261, R262); a request of a running pass, which
ends whole, DONE or CANCELLED, with the count of the pass (R279). -/
def CancelledEnd (s : State) (i : Item) (e : ItemEnd) (n : Nat) : Prop :=
  match i.work with
  | .copy _ _ _ _ batch items => (∃ c ∈ items, c = .queued ∨ ∃ ws m, c = .running ws m) →
    let ends := items.filterMap fun c => match c with | .final y m => some (y, m) | _ => none
    e = ((ends.map Prod.fst).find? fun y => match y with | .failed _ => true | _ => false).getD .cancelled ∧
      n = if batch then (ends.filter fun p => p.1 == .done).length
        else match items.head? with | some (.final .done m) => m | _ => 0
  | .mma .. =>
    if i.inPass then (e = .done ∨ e = .cancelled) ∧
      n = (s.items.filter fun j => decide (j.core / 4 = i.core / 4) && j.inPass).length
    else e = .cancelled ∧ n = 0
  | _ => e = .cancelled ∧ n = 0

/-- No other of some items of its group has an item's token register. -/
def Item.tokenAlone (i : Item) (js : List Item) : Prop :=
  ∀ j ∈ js, j.id ≠ i.id → j.party.team = i.party.team → j.party.gid = i.party.gid → j.bankTok = i.bankTok → j.tok ≠ i.tok

/-- The items that a test names end, and no other but those of a matrix pass that ends with them; each one's token, which no
other item has, holds its end: a banked one too, where the handlers go on. -/
def ItemsCancelled (s t : State) (hit : Item → Bool) (banked : Bool) : Prop :=
  (∀ j ∈ t.items, j ∈ s.items ∧ hit j = false) ∧ (∀ j ∈ s.items, hit j = false → j.inPass = false → j ∈ t.items) ∧
    ∀ i ∈ s.items, hit i = true → (i.bankTok = true → banked = true) → i.tokenAlone s.items →
      ∃ e n, CancelledEnd s i e n ∧ EndsItem s t i (ruleToken e n)

/-- The items have numbers of their own and cores of the module. -/
def State.itemsApart (s : State) : Prop := (s.items.map Item.id).Nodup ∧ ∀ i ∈ s.items, i.core < 512

/-- How an engine item reads (R194): ordered after what its clock, or an MMA's last MFENCE.opr, knows. -/
def Item.readsBy (i : Item) (clk : Clock) : Reader :=
  { thread := 2 * i.id + 1, clk := clk, plain := true, seen := [], mark := none }

/-- The bytes of a run over its parts, each with its place. -/
def byteSpots : List (Loc × Nat) → List Byte → List (Loc × Nat)
  | [], _ => []
  | (l, n) :: ls, bs =>
    ((List.range n).map fun k => (l.plus k, ((bs.take n).getD k 0).toNat)) ++ byteSpots ls (bs.drop n)

/-- What an engine's writes leave. -/
def EngineWrote (s t : State) (ws : List EngWrite) : Prop := Stored s t 1 (ws.flatMap fun w => byteSpots w.locs w.bytes)

/-- Registers of the issuing group that an item writes: in lanes `m`, unless another item held the register when it was issued
(R29) or a result is outstanding for it. -/
def WritesRegs (s t : State) (i : Item) (m : Mask) (f : Nat → Option (Nat → Word)) : Prop :=
  ∀ g, s.group? i.party.team i.party.gid = some g → ∃ g', t.group? i.party.team i.party.gid = some g' ∧
    ∀ r l, r < 128 → l < 32 → g.dueV r l = false →
      (∀ h, f r = some h → m.getLsbD l = true → i.drop.contains r = false → g'.vAt r l = h l) ∧
      (f r = none ∨ m.getLsbD l = false ∨ i.drop.contains r = true → g'.vAt r l = g.vAt r l)

/-! ## Copies -/

/-- A run that an item reaches in one piece within an 8 KiB page: readable or writable, without error, and not subject to a
race trap (R15, R22, R255). -/
def State.placed (s : State) (i : Item) (x : Team) (sh wr : Bool) (a : Word) (n : Nat) (l : Loc) : Prop :=
  a.toNat % 8192 + n ≤ 8192 ∧ a.toNat + n ≤ 2 ^ 53 ∧
    if sh then ∃ u o, s.shAddr x a n = .ok u o ∧ l = .sh u o ∧ (wr = false → s.badShared u o n = false)
    else ∃ e, (s.translate i.core i.ctx a.toNat).1 = .ok e ∧ l = .at (e.pa a.toNat) a.toNat false ∧ e.race = false ∧
      (e.kind = .scratch ∨ e.kind = .main) ∧
      if wr then e.w = true else e.rd = true ∧ s.badMem (e.pa a.toNat) n = false

/-- A LINEAR descriptor of `n` bytes (R252, R254), whose runs lie at `src` and `dst`, and no write races with the read. -/
def State.linearCopy (s : State) (i : Item) (x : Team) (ws : List Word) (n : Nat) (src dst : Loc) : Prop :=
  let w (j : Nat) : Nat := (ws.getD j 0).toNat
  w 2 / 2 ^ 47 = 0 ∧ w 2 % 2 ^ 45 = 0 ∧ w 3 = n ∧ 0 < n ∧ n < 2 ^ 32 ∧ (∀ j, 4 ≤ j → j < 8 → w j = 0) ∧
    let a := BitVec.ofNat 64 (w 0)
    s.placed i x (decide (w 2 / 2 ^ 46 % 2 = 1)) false a n src ∧
      (if w 2 / 2 ^ 46 % 2 = 1 then s else (s.translate i.core i.ctx a.toNat).2).placed i x (decide (w 2 / 2 ^ 45 % 2 = 1)) true
        (BitVec.ofNat 64 (w 1)) n dst ∧ s.missable (i.readsBy i.clk) src.key n = []

/-- An XCP command as its item holds it (R250). -/
structure Xcp where
  desc  : Word
  sts   : Option Word
  bar   : Option Word
  bytes : Bool
  batch : Bool
  items : List CopyState

def Xcp.work (x : Xcp) : Work := .copy x.desc x.sts x.bar x.bytes x.batch x.items

def CopyState.isFinal : CopyState → Bool | .final _ _ => true | _ => false

/-- Where a shared address of an item lies, for a run; or the cause it fails with (R161, R283). -/
def State.itemAddr (s : State) (i : Item) (a : Word) (n : Nat) : Except Nat (Nat × Nat) :=
  match (s.team? i.party.team).map fun x => s.shAddr x a n with
  | some (.ok u o) => .ok (u, o)
  | some .shbound => .error 0x15
  | _ => .error 0x14

/-- A final status with its record (R260): a record on a gang peer that has left its core fails the item (R283). -/
def ruleRecorded (s : State) (i : Item) (x : Xcp) (k : Nat) (e : ItemEnd) : ItemEnd :=
  match e, x.sts with
  | .done, some a => match s.itemAddr i (a + BitVec.ofNat 64 (8 * k)) 8 with | .ok _ => .done | .error c => .failed c
  | e, _ => e

/-- The status of a command whose items are final: FAILED with the cause of the first that failed, else CANCELLED, else DONE; and
FAILED where its barrier object is on a gang peer that has left its core (R261, R283). -/
def ruleCommandEnd (s : State) (i : Item) (x : Xcp) (es : List ItemEnd) : ItemEnd :=
  match es.find? fun e => match e with | .failed _ => true | _ => false with
  | some e => e
  | none =>
    if es.contains .cancelled then .cancelled
    else match x.bar with
      | none => .done
      | some b => match s.itemAddr i b 32 with | .ok _ => .done | .error _ => .failed 0x14

/-- An item of an XCP command ends (R260, R261): its status stands, and with the last the command ends too; RESULT counts the DONE
items of a batch, or gives DBYTES. -/
def CopyEnds (s : State) (o : Out) (i : Item) (x : Xcp) (k : Nat) (e : ItemEnd) (n : Nat) : Prop :=
  let all := x.items.set k (.final (ruleRecorded s i x k e) n)
  ∃ t, o = .next t ∧
    ((∃ j c, j ≠ k ∧ x.items[j]? = some c ∧ c.isFinal = false) →
      t.item? i.id = some { i with work := ({ x with items := all } : Xcp).work }) ∧
    ((∀ j c, j ≠ k → x.items[j]? = some c → c.isFinal = true) →
      let es := all.filterMap fun c => match c with | .final y _ => some y | _ => none
      let result := if x.batch then (es.filter fun y => y == .done).length
        else match all.head? with | some (.final .done m) => m | _ => 0
      EndsItem s t i (ruleToken (ruleCommandEnd s i x es) result))

/-- An item's turn to start has come (R251): the items before it have started, those of earlier commands of its engine first. -/
def CopyTurn (s : State) (i : Item) (x : Xcp) (k : Nat) : Prop :=
  x.items[k]? = some .queued ∧ (∀ j, j < k → x.items[j]? ≠ some .queued) ∧
    ∀ y ∈ s.items, y.core / 4 = i.core / 4 → y.id < i.id → ∀ z : Xcp, y.work = z.work → CopyState.queued ∉ z.items

/-! ## Matrix passes -/

/-- Request `x` is granted before `y` or at the same time (R266): by priority, by age, by the cores after LASTCORE in turn,
and by issue slot. -/
def notAfter (last : Nat) (x y : Item) : Prop :=
  ∀ a b, x.mma? = some a → y.mma? = some b →
    let k (i : Item) : Nat := (i.core % 4 + 3 - last) % 4
    b.prio < a.prio ∨ (a.prio = b.prio ∧ (a.entered < b.entered ∨ (a.entered = b.entered ∧
      (k x < k y ∨ (k x = k y ∧ a.slot ≤ b.slot)))))

/-- What stops a request in one half of its format block (R269, R278): its operand's bytes, row by row, then its scales. -/
def ruleHalf (s : State) (i : Item) (h : MmaHalf) (isA : Bool) (k : Nat) : Option Nat :=
  match s.itemAddr i h.addr h.span with
  | .error c => some c
  | .ok (u, o) =>
    if (List.range 64).any fun r => s.badShared u (o + r * h.pitch) 128 then some 0x60
    else if h.scaleSpan isA k = 0 then none
    else match s.itemAddr i h.scale (h.scaleSpan isA k) with
      | .error c => some c
      | .ok (u, o) => if s.badShared u o (h.scaleSpan isA k) then some 0x60 else none

/-- A request's own failure, and whether it is an uncorrectable error of the B half (R278). -/
def ruleMmaOwn (s : State) (i : Item) : Option (Nat × Bool) :=
  match i.mma? with
  | none => some (0x01, false)
  | some r =>
    if r.block = [] then some (0x60, false)
    else match mmaBlock r.block with
      | none => some (0x01, false)
      | some (f, a, b) =>
        match ruleHalf s i a true f.k with
        | some c => some (c, false)
        | none => (ruleHalf s i b false f.k).map fun c => (c, c == 0x60)

/-- How the `k`-th request of a pass ends (R278, R283): an error in the array or in the buffer of B fails every request, one in
the buffer of an A its own; then its own failure; an error that a request met in the shared B; one in its accumulators; a
barrier object on a peer that has left. -/
def ruleMmaEnd (s : State) (cluster : Nat) (pass : List Item) (k : Nat) (i : Item) : ItemEnd :=
  let m := s.matrix cluster
  if m.errArray || m.errB || m.errA.contains k then .failed 0x60
  else match ruleMmaOwn s i with
    | some c => .failed c.1
    | none =>
      if pass.any fun j => (ruleMmaOwn s j).any Prod.snd then .failed 0x60
      else if (s.group? i.party.team i.party.gid).any fun g => g.accBad i then .failed 0x60
      else match i.mma? with
        | none => .done
        | some r => match s.itemAddr i r.bar 32 with | .ok _ => .done | .error _ => .failed 0x14

/-- The requests of the pass that a cluster's engine runs, and those that end DONE. -/
def State.passOf (s : State) (cluster : Nat) : List Item := s.items.filter fun i => decide (i.core / 4 = cluster) && i.inPass
def ruleDone (s : State) (cluster : Nat) : List Item :=
  ((s.passOf cluster).zipIdx.filter fun p => ruleMmaEnd s cluster (s.passOf cluster) p.2 p.1 == .done).map Prod.fst

/-- An item has register `r` among its accumulators, and in it lane `l` is written: launched, and not held by an item before it
(R29). -/
def Item.accumulates (i : Item) (g : Group) (u r l : Nat) : Prop :=
  i.party.team = u ∧ i.party.gid = g.gid ∧ i.d ≤ r ∧ r < i.d + i.vs.length ∧ g.launched.getLsbD l = true ∧ i.drop.contains r = false

/-- The accumulators of a pass (R277): the products of its DONE requests stand, where one request alone writes, and no other
vector register changes. -/
def PassWrites (s t : State) (done : List Item) : Prop :=
  ∀ u gid g, s.group? u gid = some g → ∃ g', t.group? u gid = some g' ∧ ∀ r l, r < 128 → l < 32 → g.dueV r l = false →
    (∀ i ∈ done, i.accumulates g u r l → (∀ j ∈ done, j.accumulates g u r l → j.id = i.id) →
      g'.vAt r l = lane ((s.mmaValues i g.launched).getD (r - i.d) (LaneVec.splat 0)) l) ∧
    ((∀ i ∈ done, ¬i.accumulates g u r l) → g'.vAt r l = g.vAt r l)

/-- The rows of an operand lie at an offset of a team's memory, and no write races with the read of one (R196). -/
def State.operandAt (s : State) (i : Item) (opr : Clock) (x : Team) (h : MmaHalf) (u o : Nat) : Prop :=
  s.shAddr x h.addr h.span = .ok u o ∧ ∀ r, r < 64 → s.missable (i.readsBy opr) (sharedKey u (o + r * h.pitch)) 128 = []

/-- An INT8 element of C (R274): the accumulator plus the sum of 128 products, mod 2^32; row `r` of A and column `j` of B lie at
their pitch from each operand's place. -/
def ruleInt8 (s : State) (a b : MmaHalf) (ua oa ub ob r j : Nat) (c : BitVec 32) : BitVec 32 :=
  let v (t : ETy) (x : Byte) : Int := if t = .i8 then x.toInt else x.toNat
  let p (k : Nat) : Int := v a.ty (Memory.read (s.sharedOf ua) (oa + r * a.pitch + k)) *
    v b.ty (Memory.read (s.sharedOf ub) (ob + j * b.pitch + k))
  BitVec.ofInt 32 (c.toInt + ((List.range 128).map p).sum)

/-! ## History lookups -/

/-- Where the flow that waits for an HLD under FAULT sleeps on it. -/
def State.hldSleeper (s : State) (i : Item) : Prop := s.sleepAt i.party.team i.party.gid i.flow = .hld i.id

/-- A register of an HLD's result (R299): two channels of a lane, FALLBACK where it missed, an odd last half +0; then the
cause register. -/
def ruleHldReg (i : Item) (c vc fb : Nat) (xs : List (Nat × HLane)) (r : Nat) : Option (Nat → Word) :=
  let at_ (l : Nat) : HLane := ((xs.find? fun x => x.1 == l).map Prod.snd).getD (.hit [])
  let ch (x : HLane) (k : Nat) : Nat := match x with | .hit ys => ys.getD k 0 | .miss _ => fb
  if vc ≠ 0 ∧ r = vc then some fun l => BitVec.ofNat 64 (match at_ l with | .hit _ => 0 | .miss m => m)
  else if i.d ≤ r ∧ r < i.d + (c + 1) / 2 then
    some fun l => BitVec.ofNat 64 (ch (at_ l) (2 * (r - i.d)) +
      if 2 * (r - i.d) + 1 < c then 2 ^ 32 * ch (at_ l) (2 * (r - i.d) + 1) else 0)
  else none

/-- A function's turn on its space has come (R301): no earlier one of its split on the space is unfinished, and no HMW of the
context on it has written part of its entries (R197). -/
def HctlTurn (s : State) (i : Item) : Prop :=
  ∀ x ∈ s.items, x.isHctl = true → x.sa = i.sa → x.id ≠ i.id →
    ¬(x.party = i.party ∧ x.id < i.id ∧ x.ofSplit (i.flow == 4) i.lanes = true) ∧
      (x.ctx = i.ctx → ∀ fn n k j slot sbf part, x.work = .hctl fn n k j slot sbf part → part = 0#32)

/-- What the scrubber reads (R298): a SEQUENCE space, a page of it in use, its SEALED page word `w`, and the bytes that its CRC
covers: the page's data, and under e4m3 its scale. -/
structure Scrubbed (s : State) (c : Context) (space page : Nat) (q : HSeq) (w : Nat) (bytes : List Byte) : Prop where
  space  : space % 64 = 0 ∧ ∃ hb, s.ctlBytes c scrubMeta space 256 = some hb ∧ bits ((dwordsOf 32 hb).getD 0 0) 63 62 = 1 ∧
    seqOf (dwordsOf 32 hb) = some q
  used   : (page + 1) * 8192 ≤ (q.sink + q.window) * q.row
  sealed : w / 2 ^ 32 % 2 = 1
  word   : ∃ pw, s.ctlBytes c scrubPage (q.pages + BitVec.ofNat 64 (8 * page)).toNat 8 = some pw ∧ leNat pw = w
  bytes  : ∃ data sc, s.ctlBytes c scrubPage (q.data + BitVec.ofNat 64 (8192 * page)).toNat 8192 = some data ∧
    (if q.ty = .e4m3 then s.ctlBytes c scrubPage (q.scales + BitVec.ofNat 64 (4 * page)).toNat 4 = some sc else sc = []) ∧
    bytes = data ++ sc

/-! ## Layer items and rays -/

/-- The status and RESULT of a layer item (R317, R324, R325): LINS tells the lanes that lost an entry, CADJ those it could not
replay, CACC and CFLUSH the opaque records, LRES and LCLR the nodes they returned. -/
def ruleLcuEnd (w : LcuWork) : ItemEnd × Nat :=
  match w.fail, w.fn with
  | some c, _ => (.failed c, 0)
  | none, .lins => (if w.told = 0#32 then .done else .code 0x0110, w.told.toNat)
  | none, .cadj => (if w.told = 0#32 then .done else .code 0x0111, w.told.toNat)
  | none, .lres | none, .lclr => (.done, w.count)
  | none, .cacc | none, .cflush => (.done, w.told.toNat)
  | none, .cinit => (if w.param.toNat / 2 ^ 48 = 0 then .done else .failed 0x01, 0)
  | none, .lqry | none, .crd => (.done, 0)

/-- What a lane of a ray item has reported. -/
def State.reported (t : State) (id l : Nat) : Option RayOut := ((t.item? id).bind Item.ray?).bind fun w => w.out l

/-- The three result registers of a ray item (R348). -/
def ruleRayReg (d : Nat) (out : Nat → RayOut) (r : Nat) : Option (Nat → Word) :=
  if r = d then some fun l => BitVec.ofNat 64 ((out l).t.toNat + (out l).status * 2 ^ 32 + (out l).cause * 2 ^ 36)
  else if r = d + 1 then some fun l => (out l).inst ++ (out l).prim
  else if r = d + 2 then some fun l => (out l).v ++ (out l).u
  else none

/-- The lanes of a ray item whose slot it holds. -/
def raysHeld (t : State) (i : Item) : Mask :=
  maskOf fun l => i.eff.getLsbD l && (t.group? i.party.team i.party.gid).any fun g => (vget g.rays l none).any fun r => r.owner == i.id

/-- RTRACE, RTRESUME or RTLOAD ends with these reports (R348): the registers, and a token that names the lanes whose slot is
held; status 0x0120 where a lane's is FAULT. -/
def RaysReport (s : State) (o : Out) (i : Item) (out : Nat → RayOut) : Prop :=
  ∃ t, o = .next t ∧ SameMemory s t ∧ WritesRegs s t i i.eff (ruleRayReg i.d out) ∧
    EndsItem s t i (ruleToken (if (lanesOf i.eff).any fun l => (out l).status == 5 then .code 0x0120 else .done)
      (raysHeld t i).toNat)

/-- No earlier ray item of the group works on a lane of the item; for RTABORT, none but a traversal (R349). -/
def State.rayTurn (s : State) (i : Item) (w : RayWork) : Prop :=
  ∀ x ∈ s.items, x.party = i.party → x.id < i.id → x.eff &&& i.eff ≠ 0#32 → ∀ y, x.ray? = some y →
    w.fn = .abort ∧ y.traverses = true

end Sys2Proof.Machine
end

