-- ==== Sys2Proof/Safety/Module.lean ====
section
/-!
DEFINITION. The shape of the statements about heads and encode streams (R361 to R365, R371), boot and measurement (R367 to
R369).
-/
namespace Sys2Proof.Machine

/-- Pixels per second of a configuration, and of a stream's source once a head is configured anew. -/
def cfgPixels (c : HeadCfg) : Nat := c.width * c.height * c.rate
def sourcePixels (s : State) (engine head : Nat) (cfg : HeadCfg) (x : Stream) : Nat :=
  if x.cfg.head / 4 = engine ∧ x.cfg.head % 4 = head then cfgPixels cfg
  else ((s.head? (x.cfg.head / 4) (x.cfg.head % 4)).map fun h => cfgPixels h.cfg).getD 0

/-- The streams that are configured keep their source, which feeds its encoder, and every encode engine its rate (R364). -/
def StreamsKept (s : State) (engine head : Nat) (cfg : HeadCfg) : Prop :=
  (∀ x ∈ s.streams, if x.cfg.head / 4 = engine ∧ x.cfg.head % 4 = head then cfg.toEncoder = true
    else ∃ h, s.head? (x.cfg.head / 4) (x.cfg.head % 4) = some h ∧ h.cfg.toEncoder = true) ∧
  ∀ x ∈ s.streams, ((s.streams.filter fun y => y.engine == x.engine).map (sourcePixels s engine head cfg)).sum ≤ 7680 * 4320 * 60

/-- A head configuration within the limits of R361: sizes, pixel rate alone and with the engine's other heads, and four plane
descriptors, a status record and a surface that the context's tables map; and the streams stand (R364). The formats of a
surface are the model's (DESIGN CHOICE, log 17). -/
structure HeadAllowed (s : State) (engine head : Nat) (cfg : HeadCfg) : Prop where
  place  : engine < 8 ∧ head < 4
  ctx    : ∃ c, s.context? cfg.ctx = some c ∧ s.engineSlice engine = c.slice ∧
    (∀ a ∈ cfg.planes, a % 32 = 0 ∧ s.inPages c scratchPage a 32 = true) ∧ s.inPages c scratchPage cfg.status 64 = true ∧
    (cfg.toEncoder = false → s.inPages c surfacePage cfg.surface (cfg.pitch * cfg.height) = true)
  planes : cfg.planes.length = 4
  format : cfg.toEncoder = false → cfg.fmt ≤ 2
  streams : StreamsKept s engine head cfg
  size   : 1 ≤ cfg.width ∧ cfg.width ≤ 7680 ∧ 1 ≤ cfg.height ∧ cfg.height ≤ 4320 ∧ 1 ≤ cfg.rate
  rate   : cfg.width * cfg.height * cfg.rate ≤ 7680 * 4320 * 60
  engine : cfg.width * cfg.height * cfg.rate + ((s.heads.filter fun h => h.engine == engine && h.head != head).map fun h =>
    h.cfg.width * h.cfg.height * h.cfg.rate).sum ≤ 2 * (7680 * 4320 * 60)

/-- A plane as its descriptor gives it (R362), from its four dwords; none where it takes no part. -/
def rulePlane (w : Nat → Nat) (p : Option Plane) : Prop :=
  if w 1 % 2 = 0 then p = none
  else
    let f := w 1 / 2 ^ 28 % 16
    let n := if f = 2 then 8 else 4
    let z (x : Nat) : Int := (BitVec.ofNat 32 x).toInt
    f ≤ 2 ∧ w 1 / 2 % 2 ^ 27 = 0 ∧ w 2 / 2 ^ 32 = 0 ∧ 1 ≤ w 2 % 2 ^ 16 ∧ w 2 % 2 ^ 16 ≤ 7680 ∧ 1 ≤ w 2 / 2 ^ 16 % 2 ^ 16 ∧
      w 2 / 2 ^ 16 % 2 ^ 16 ≤ 4320 ∧ w 0 % n = 0 ∧ w 1 / 2 ^ 32 % n = 0 ∧
      p = some ⟨BitVec.ofNat 64 (w 0), w 1 / 2 ^ 32, f, w 2 % 2 ^ 16, w 2 / 2 ^ 16 % 2 ^ 16, z (w 3), z (w 3 / 2 ^ 32)⟩

/-- A head or encoder reads `n` dwords at `pa` as they stand (R186, R193): in a page that keeps no race metadata, without error,
and no write races with the read. -/
def UnitReads (s : State) (c : Context) (ok : TlbEntry → Bool) (unit : Nat) (clk : Clock) (va n pa : Nat) : Prop :=
  s.ctlLocs c (fun e => ok e && !e.race) va (8 * n) = some [(pa, 8 * n)] ∧ s.badMem pa (8 * n) = false ∧
    ∀ i, i < n → s.missable { thread := 64 * unit, clk := clk, plain := false, seen := [], mark := none } (pa + 8 * i) 8 = []

/-- Cluster `n` is the lowest of its slice that has not started (R374). -/
def NextCluster (s : State) (n : Nat) : Prop :=
  n < 128 ∧ s.hasStarted .cluster n = false ∧
    ∀ m, m < n → m / (128 / s.cut) = n / (128 / s.cut) → s.hasStarted .cluster m = true

/-- An encode configuration that is supported (R364): codec and depth, a source of the slice that feeds the encoder, the pixel
rate with the engine's other streams, and rings that the context's tables map. -/
structure StreamAllowed (s : State) (engine stream : Nat) (cfg : StreamCfg) (h : DispHead) : Prop where
  place  : engine < 8 ∧ stream < 4
  source : s.head? (cfg.head / 4) (cfg.head % 4) = some h ∧ h.cfg.toEncoder = true ∧ s.engineSlice h.engine = s.engineSlice engine
  ctx    : ∃ c, s.context? cfg.ctx = some c ∧ s.engineSlice engine = c.slice ∧
    s.inPages c surfacePage cfg.auRing cfg.auBytes = true ∧ s.inPages c surfacePage cfg.ceRing (16 * cfg.ceEntries) = true ∧
    s.inPages c surfacePage cfg.auWord 8 = true ∧ s.inPages c surfacePage cfg.ceWord 8 = true
  depth  : ¬(cfg.codec = .h264 ∧ cfg.tenBit = true)
  rings  : 1 ≤ cfg.auBytes ∧ 1 ≤ cfg.ceEntries
  rate   : h.cfg.width * h.cfg.height * h.cfg.rate +
    ((s.streams.filter fun x => x.engine == engine && x.stream != stream).map fun x => s.streamPixels x.cfg).sum ≤
      7680 * 4320 * 60

/-- A measurement register after an extension (R368): the digest of its old value followed by what is measured. -/
def ruleExtended (old digest : BitVec 256) : BitVec 256 := sha256 (beBytes 32 old.toNat ++ beBytes 32 digest.toNat)

/-- A register of MEAS. -/
def State.measAt (s : State) (k : Nat) : BitVec 256 := vget s.meas k 0

/-- Gularo OS has measured the cut in MEAS[4] and each slice's configuration in MEAS[5 + s], and no other register (R368). -/
def SlicesMeasured (old : Nat → BitVec 256) (t : State) : Prop :=
  (∃ d, t.measAt 4 = ruleExtended (old 4) d) ∧
    ∀ k, k < 13 → k ≠ 4 → (5 ≤ k ∧ k < 5 + t.cut → ∃ d, t.measAt k = ruleExtended (old k) d) ∧
      (k < 5 ∨ 5 + t.cut ≤ k → t.measAt k = old k)

/-- The key that verifies the image of stage `k + 1`, and whether it does (R367). -/
def ruleVerified (k : Nat) (i : FlashImage) : Bool :=
  if k = 0 then rsaVerify Config.rootModulus Config.rootExponent (sha256 i.payload) i.signature
  else rsaVerify Config.firmwareModulus Config.firmwareExponent (sha256 i.payload) i.signature

/-- An SPDM request is answered while the device runs, the host link is up and the requester is a function of it (R368). -/
def SpdmAnswers (s : State) (who : Requester) (o : Out) (r : Response) : Prop :=
  s.boot = .running → Link.host ∉ s.linksDown → (who = .pf ∨ ∃ k, who = .vf k ∧ k < s.cut) →
    o = .next { s with responses := s.responses ++ [(who, r)] }

end Sys2Proof.Machine
end

