-- ==== Sys2Proof/Certificates/Slice0/Obligations.lean ====
section
/-!
DEFINITION. The statements for the provers. OBLIGATIONS.json lists them with the rules of spec/ that each formalises.
-/
open Sys2Proof Sys2Proof.Machine

/-! ## Encoding (R56 to R94) -/

/-- Decoding the encoding of a well-formed instruction gives it back. -/
def Obligations.DecodeEncodeAgree : Prop :=
  ∀ i : Instr, i.wf = true → i.isEvent = false → decodeEncoded i = .ok i

/-- What the decoder accepts is well-formed, is no event, and encodes to the words that were decoded: the second only where
the opcode has two (R56). -/
def Obligations.EncodeDecodeAgree : Prop :=
  ∀ w v i, decodeWords w v = .ok i →
    i.wf = true ∧ i.isEvent = false ∧ encode i = some (if opWords (opcodeOf w) = 1 then [w] else [w, v])

/-- Words written out field by field from the formats of R57 and the tables of R79 to R91 decode to the instructions they
stand for. -/
def Obligations.SampleWordsDecode : Prop :=
  decodeWords (0x01#7 ++ (5#7 ++ (6#7 ++ (0#1 ++ (0#1 ++ (7#7 ++ (1#1 ++ 0#1))))))) 0#32 =
    .ok (.vadd 5 ⟨6, false, false⟩ ⟨7, true, false⟩) ∧
  decodeWords (0x20#7 ++ (1#7 ++ (2#7 ++ (0#1 ++ (1#1 ++ (9#4 ++ (1#3 ++ (1#1 ++ 0#1)))))))) 0#32 =
    .ok (.vcvt 1 ⟨2, false, true⟩ .f32 .rtz true) ∧
  decodeWords (0x28#7 ++ (1#7 ++ (2#7 ++ (0#2 ++ (3#7 ++ 0#2))))) (0#28 ++ 9#4) =
    .ok (.xperm 1 ⟨2, false, false⟩ ⟨3, false, false⟩ 9) ∧
  decodeWords (0x30#7 ++ (4#7 ++ (5#7 ++ (0#2 ++ (6#7 ++ 0#2))))) 0#32 = .ok (.sadd 4 5 6) ∧
  decodeWords (0x40#7 ++ (1#4 ++ (2#4 ++ (3#4 ++ (2#3 ++ 0#10))))) 0#32 = .ok (.mxor 1 2 3) ∧
  decodeWords (0x4A#7 ++ (3#4 ++ 0x1FFFFF#21)) 0#32 = .ok (.brz 3 (-1)) ∧
  decodeWords (0x5C#7 ++ (13#7 ++ (4#6 ++ (7#7 ++ (0#1 ++ 0#4)))))
      (0#2 ++ (1#2 ++ (1#2 ++ (3#3 ++ (6#4 ++ (14#7 ++ 0#12)))))) =
    .ok (.atom 13 ⟨4, 7, false⟩ ⟨true, true, .acq, .slice, .swap, 14, 0⟩) ∧
  decodeWords (0x6A#7 ++ (64#7 ++ (8#6 ++ (9#6 ++ 10#6)))) 0#32 = .ok (.mma 64 8 9 10) ∧
  decodeWords (0x79#7 ++ (0#17 ++ 0x2A#8)) 0#32 = .ok (.trap 0x2A)

/-- Width and count of the sub-elements under each element type, each at its bits of the lane's 64, and together the lane
(R32, R61). -/
def Obligations.SubElementsDivideLanes : Prop :=
  (∀ t : ETy, 64 / tyWidth t * tyWidth t = 64 ∧ tyWidth t = match t with
    | .i64 | .n64 | .f64 => 64
    | .i32 | .n32 | .f32 => 32
    | .i16 | .n16 | .f16 | .bf16 => 16
    | .i8 | .n8 | .e4m3 | .e5m2 => 8
    | .e2m1 => 4) ∧
  (∀ (w s : Nat) (x : Word), subElem w s x = (x.extractLsb' (w * s) w).toNat) ∧
  ∀ (t : ETy) (x : Word), laneOfSubs (tyWidth t) ((List.range (64 / tyWidth t)).map fun i => subElem (tyWidth t) i x) = x

/-! ## Steps -/

/-- Where the act chosen is a flow's issue and the words at its PC decode to an instruction, the step is `exec` of it, at
the state with the tick advanced, the issuer named and the translation buffers as the fetch left them (R55, R56). Which act
is chosen is the model's free schedule (log 3 DESIGN CHOICE). -/
def Obligations.StepRunsDecoded : Prop :=
  ∀ s c v w0 w1 t i, s.ticked.chosen = some (.issue c) →
    ({ s.ticked with cur := some c } : State).viewOf c.team c.gid c.flow 0 = some v →
    { s.ticked with cur := some c }.instrAt v.core v.t.ctx v.back w0 w1 t → decodeWords w0 w1 = .ok i →
    Machine.step s = exec i t

/-- Where they do not decode, the step takes ILLOP at the instruction (R59). Which act is chosen is the model's free
schedule (log 3 DESIGN CHOICE). -/
def Obligations.IllegalWordsRaiseIllop : Prop :=
  ∀ s c v w0 w1 t e, s.ticked.chosen = some (.issue c) →
    ({ s.ticked with cur := some c } : State).viewOf c.team c.gid c.flow 0 = some v →
    { s.ticked with cur := some c }.instrAt v.core v.t.ctx v.back w0 w1 t → decodeWords w0 w1 = .error e →
    Machine.step s = { v with s := t }.trap 0 0x01 0

/-- Right after module reset: MEAS zero (R368), CYC zero (R47), LASTCORE 3 in every matrix engine (R266), boot at stage 0
(R367), and no cluster, matrix engine or store-die bank started (R374). The rest is the model's choice: that memory lists
nothing (DESIGN CHOICE, log 1), that no team, item or context stands (DESIGN CHOICE, log 43), and that the flash is empty
(DESIGN CHOICE, log 6), so that boot stops for recovery. -/
def Obligations.ResetState : Prop :=
  (∀ k, k < 13 → State.reset.meas[k]? = some 0) ∧ (∀ core, assocGet 0 State.reset.cyc core = 0) ∧
    (∀ c, (State.reset.matrix c).last = 3) ∧ State.reset.boot = .atStage 0 ∧ State.reset.started = Vector.replicate 8 ⟨0, 0, 0⟩ ∧
    State.reset.teams = [] ∧ State.reset.items = [] ∧ State.reset.contexts = [] ∧ State.reset.mem = [] ∧
    Machine.step State.reset = .next { State.reset with tick := 1, boot := .recovery }

/-- Every step keeps memory in its canonical form: addresses rise, and no byte that reads as unlisted is listed; and the
numbers of rewritten words stay below their count. The form is the model's (log 1 DESIGN CHOICE). -/
def Obligations.CanonicalMemoryKept : Prop :=
  ∀ s t, s.canonical = true → Machine.step s = .next t → t.canonical = true

/-- Memory has its canonical form after reset. The form is the model's (log 1 DESIGN CHOICE). -/
def Obligations.CanonicalMemoryAtReset : Prop := State.reset.canonical = true

/-! ## Instructions within a group -/

/-- Vector arithmetic completes with the results of its rules (R117 to R127, R130, R133). -/
def Obligations.VectorArithmeticRuns : Prop :=
  (∀ i F, vectorForms i = some F → F.Runs i) ∧ ∀ i F, unaryForms i = some F → F.Runs i

/-- VAND, VOR, VXOR, VSHL and VSHR combine and shift the bits of each sub-element, and set no STAT bit of their own (R121). -/
def Obligations.LogicAndShiftsRun : Prop :=
  ∀ d a b,
    (Form.vector3 d a b false arithType (ruleBitwise fun _ x y => x &&& y)).Runs (.vand d a b) ∧
    (Form.vector3 d a b false arithType (ruleBitwise fun _ x y => x ||| y)).Runs (.vor d a b) ∧
    (Form.vector3 d a b false arithType (ruleBitwise fun _ x y => x ^^^ y)).Runs (.vxor d a b) ∧
    (Form.vector3 d a b false arithType (ruleShl fun x w => x % w)).Runs (.vshl d a b) ∧
    (Form.vector3 d a b false arithType (ruleShr fun x w => x % w)).Runs (.vshr d a b) ∧
    ∀ (t : ETy) (rm : RMode) (sat : Bool) (x y z : Nat),
      (ruleShl (fun x w => x % w) t rm sat x y z).2 = 0 ∧ (ruleShr (fun x w => x % w) t rm sat x y z).2 = 0

/-- Divisions and special functions complete, with results that stand after their lookahead window (R64, R65, R98, R124,
R131). The bits of an inexact VSFU result are free (log 8 DESIGN CHOICE). -/
def Obligations.LongLatencyRuns : Prop := ∀ i F, laterForms i = some F → F.Runs i

/-- VDIV and VREM of integers: the quotient truncates toward zero, the remainder is A − q·B; a zero divisor gives every bit
set and the dividend; the smallest value over −1 gives itself and 0; no bit of STAT is set (R98). -/
def Obligations.IntegerDivision : Prop :=
  (∀ d a b n, (Form.later2 d a b n arithType ruleDiv).Runs (.vdiv d a b n) ∧
    (Form.later2 d a b n intType ruleRem).Runs (.vrem d a b n)) ∧
  ∀ (t : ETy) (rm : RMode) (sat : Bool) (x y z : Nat), intType t = true →
    x < 2 ^ tyWidth t → y < 2 ^ tyWidth t →
    (ruleDiv t rm sat x y z).2 = 0 ∧ (ruleRem t rm sat x y z).2 = 0 ∧
    (ruleVal t y = 0 → (ruleDiv t rm sat x y z).1 = 2 ^ tyWidth t - 1 ∧ (ruleRem t rm sat x y z).1 = x) ∧
    (tySigned t = true → ruleVal t x = ruleMin t → ruleVal t y = -1 →
      (ruleDiv t rm sat x y z).1 = x ∧ (ruleRem t rm sat x y z).1 = 0) ∧
    (ruleVal t y ≠ 0 → ¬(tySigned t = true ∧ ruleVal t x = ruleMin t ∧ ruleVal t y = -1) →
      ruleVal t (ruleDiv t rm sat x y z).1 = (ruleVal t x).tdiv (ruleVal t y) ∧
      ruleVal t (ruleRem t rm sat x y z).1 = ruleVal t x - (ruleVal t x).tdiv (ruleVal t y) * ruleVal t y)

/-- VSEL, VLDI, VCVT and VCMP complete (R123, R126, R128, R132). -/
def Obligations.SelectAndConvertRun : Prop := ∀ i F, selectForms i = some F → F.Runs i

/-- Scalar and mask instructions complete (R134 to R137, R145 to R147). -/
def Obligations.ScalarAndMaskRun : Prop :=
  (∀ i F, scalarForms i = some F → F.Runs i) ∧ ∀ i F, maskForms i = some F → F.Runs i

/-- Moves between lanes, reductions, scans and lane moves complete (R115, R116, R138 to R144). -/
def Obligations.CrossLaneRuns : Prop := ∀ i F, laneForms i = some F → F.Runs i

/-- Branches, calls and returns, SETMODE, special registers and hidden state complete (R47, R63, R148 to R151, R154, R156,
R180, R221, R222). A REPI above 63 is free (log 15 DESIGN CHOICE). -/
def Obligations.ControlRuns : Prop := ∀ i F, controlForms i = some F → F.Runs i

/-- XDRAIN with nothing outstanding, XQRY, MZERO, MFENCE.opr and MPRIO complete (R263, R264, R280 to R282). -/
def Obligations.EngineControlRuns : Prop := ∀ i F, engineForms i = some F → F.Runs i

/-- An enabled float flag raises FPX with the lanes, precise, and nothing is written (R107, R216). -/
def Obligations.FloatFlagsRaiseFpx : Prop :=
  (∀ i F, vectorForms i = some F → F.RaisesFpx i) ∧ (∀ i F, unaryForms i = some F → F.RaisesFpx i) ∧
    (∀ i F, laterForms i = some F → F.RaisesFpx i) ∧ (∀ i F, selectForms i = some F → F.RaisesFpx i) ∧
      ∀ i F, laneForms i = some F → F.RaisesFpx i

/-- What control instructions raise themselves: a divergent BRU with DIVU enabled, an illegal MODE, TRAPEN, KSP or hidden
value, and a RET to no instruction address (R47, R62, R63, R150, R151, R221). That the ALIGN and PROT of RET name no lane, so
that their HINFO is 0, is the model's reading (log 20 DEDUCED). -/
def Obligations.ControlFaults : Prop := ∀ i F, controlForms i = some F → F.Faults i

/-- What stops an instruction at issue, in the order of R376: for every instruction but the events, REP and the reserved opcodes,
which have statements of their own. MMA judges HRA and DEADRD of its accumulators later (R272; `CommandsPost` says how). That
a busy token makes an instruction of any kind wait is R24, and that an engine command of a KILL handler is a double fault with
cause 0x51 the model's (DESIGN CHOICE, log 25). -/
def Obligations.IssueStops : Prop :=
  (∀ i F, vectorForms i = some F → F.StopsAtIssue i) ∧ (∀ i F, unaryForms i = some F → F.StopsAtIssue i) ∧
    (∀ i F, laterForms i = some F → F.StopsAtIssue i) ∧ (∀ i F, selectForms i = some F → F.StopsAtIssue i) ∧
    (∀ i F, scalarForms i = some F → F.StopsAtIssue i) ∧ (∀ i F, maskForms i = some F → F.StopsAtIssue i) ∧
    (∀ i F, laneForms i = some F → F.StopsAtIssue i) ∧ (∀ i F, controlForms i = some F → F.StopsAtIssue i) ∧
    (∀ i F, engineForms i = some F → F.StopsAtIssue i) ∧ (∀ d, (cycForm d).StopsAtIssue (.srd d 9)) ∧
    (∀ i I, indirectForms i = some I → I.form.StopsAtIssue i) ∧ exitForm.StopsAtIssue .exit ∧
    (∀ i F, returnForms i = some F → F.StopsAtIssue i) ∧ (∀ i, isBare i = true → bareForm.StopsAtIssue i) ∧
    (∀ i R e, loadForms i = some (R, e) → R.form.StopsAtIssue i) ∧
    (∀ i R ws ks, storeForms i = some (R, ws, ks) → R.form.StopsAtIssue i) ∧
    (∀ i R, objectForms i = some R → R.form.StopsAtIssue i) ∧ (∀ i F, graphForms i = some F → F.StopsAtIssue i) ∧
    (∀ i D, dlaunchForms i = some D → D.form.StopsAtIssue i) ∧ (∀ i C, commandForms i = some C → C.first.StopsAtIssue i) ∧
    (∀ i C, rayForms i = some C → C.form.StopsAtIssue i) ∧
    (∀ d sa tok age filter short mm cm1 vc vp lp, (hldFaultCommand d sa tok age filter short mm cm1 vc vp lp).form.StopsAtIssue
      (.hld d sa tok age filter true short mm cm1 vc vp lp)) ∧
    ∀ d sa sb tok sp va lv s v,
      (cinitCommand d sa sb tok sp va lv (v.rdS sb.toNat)).form.StopsAt (.cinit d sa sb tok sp va lv) s v

/-- SRD of CYC writes the core's clock, the value last read and the cycles since (R47, R180; the cycles are free, DESIGN CHOICE, log 7). -/
def Obligations.SrdReadsCyc : Prop :=
  ∀ s v (d : BitVec 7), (cycForm d).CanIssue s v →
    ∃ t, exec (.srd d 9) s = .next t ∧
      v.Performs s t ((cycForm d).issued v) Group.Ordered (((cycForm d).issued v).metBits 0 [opSw d.toNat])
        { sw := [(d.toNat, assocGet 0 s.cyc v.core + BitVec.ofNat 64 (Config.cycles s.tick))] } ∧
      assocGet 0 t.cyc v.core = assocGet 0 s.cyc v.core + BitVec.ofNat 64 (Config.cycles s.tick) ∧
      (∀ c, c ≠ v.core → assocGet 0 t.cyc c = assocGet 0 s.cyc c) ∧ SameMemory s t

/-- ICINV completes with no engine item of its split and no RED or ATOM of its group outstanding; then the core's cache holds no
word that a later write replaced. Otherwise it waits (R184). Other splits' items do not hold it. An item is its split's whose
lanes, as it was issued, meet the issuing split's; that a RED or ATOM, which may store for any lane of the group, counts for
every split of it is the model's reading (log 45 DEDUCED). -/
def Obligations.IcinvEmptiesCache : Prop :=
  ∀ s v, bareForm.CanIssue s v →
    let w := bareForm.issued v
    let own (i : Item) : Prop := i.party.team = v.u ∧ i.party.gid = v.g.gid ∧ (i.flow = 4 ↔ v.fl = 4) ∧ i.lanes &&& v.members ≠ 0#32
    ((∀ i ∈ s.items, ¬own i) → w.redsOut = false → s.canonical = true →
      ∃ t, exec .icinv s = .next t ∧ v.Performs s t w Group.Ordered 0 {} ∧ SameMemory s t ∧
        t = { s with teams := t.teams, icMark := t.icMark } ∧
        ∀ pa, t.cachedWord v.core pa = BitVec.ofNat 32 (Memory.nat s.mem pa 4)) ∧
    ((∃ i ∈ s.items, own i) ∨ w.redsOut = true → exec .icinv s = .next w.s)

/-! ## Traps, handlers and returns -/

/-- A precise trap in service mode (R218): the group has waited for its long-latency results, the handler starts at its
entry under the cause, with HPC, HINFO and TRAPREC, the record resumes where the trap says, STAT holds what was met, and
registers, TRAPEN and memory stay. What the dead banked registers hold is the model's (log 5 DESIGN CHOICE). REDLOG also halts
the context, and its log is handed to the tenant, in the same step (R366; log 29 DEDUCED). -/
def Obligations.TrapEntersHandler : Prop :=
  (∀ (s : State) words (v : View) ops, s.issuer? words = some v → v.Current ∧ (v.readied ops).Current) ∧
  (∀ (v : View) resume st c h, v.Current → v.fl < 4 → v.g.handler = none → c ≠ 0x21 → c ≠ 0x50 → c ≠ 0x51 →
    ∃ t g, v.trapTo resume st c h = .next t ∧ OnlyGroup v.s t v.u v.g.gid g ∧ SameMemory v.s t ∧
      g.handler = some (ruleHandler v c h) ∧ g.stat = v.g.stat ||| st ∧
      (∀ k, k < 4 → g.record k = ruleFrozen (if k = v.fl then { v.g.record k with pc := resume } else v.g.record k)) ∧
      v.g.keepsRest { g with clk := v.g.clk } ∧ g.clk = v.g.wokenClk ∧
      v.g.keepsV g (fun _ _ => false) (fun _ _ => false) ∧ v.g.keepsS g (fun _ _ => false) ∧
      v.g.keepsM g (fun _ _ => false) ∧ g.pends = []) ∧
  ∀ (v : View) resume st h, v.Current → v.fl < 4 → v.g.handler = none →
    ∃ t g, v.trapTo resume st 0x21 h = .next t ∧ t.group? v.u v.g.gid = some g ∧
      g.handler = some (ruleHandler v 0x21 h) ∧ t.haltedCtx v.t.ctx ∧ SameMemory v.s t ∧
      ∀ c, v.s.context? v.t.ctx = some c → (∀ k, t.context? v.t.ctx = some k → k.logMarks = []) ∧
        t.reports = v.s.reports ++ [.redlog v.t.ctx (c.logMarks.map fun m => (m.n, m.bytes))]

/-- Faults in handler mode (R220): XLATE waits with a report; TRAP and BRK stop the group with a debug record, once the
handler's results are written (R67); every other cause is a double fault, which stops the group, sends a fault record and
halts the context. HANDLER_RESUME lets a stopped handler go on at the next instruction. Records name the core and the launch's
sequence number (R12, R202). -/
def Obligations.HandlerFaults : Prop :=
  (∀ (v : View) h st va m ls, v.Current → v.fl = 4 → v.g.handler = some h →
    ∃ t, v.xlate st va m ls = .next t ∧ t.reports = v.s.reports ++ [.xlate v.t.ctx va m (ruleOrigin v)] ∧
      OnlyGroup v.s { t with reports := v.s.reports, captures := v.s.captures } v.u v.g.gid
        { v.g with handler := some { h with sleep := .xlate va ls } }) ∧
  (∀ s v code i, bareForm.CanIssue s v → v.fl = 4 → i = .brk ∨ i = .trap code →
    let g := (bareForm.issued v).g.drainFlow 4
    ∃ t h, exec i s = .next t ∧ t.reports = s.reports ++ [.debug v.t.ctx v.u v.g.gid v.back (ruleOrigin v)] ∧
      g.handler = some h ∧ t.group? v.u v.g.gid = some { g with handler := some { h with pc := v.back + 4, stop := .debug } }) ∧
  (∀ s u gid g h, s.group? u gid = some g → g.handler = some h → h.stop = .debug →
    ∃ t, exec (.handlerResume u gid) s = .next t ∧ SameMemory s t ∧
      OnlyGroup s t u gid { g with handler := some { h with stop := .running } }) ∧
  ∀ (v : View) h st c x, v.Current → v.fl = 4 → v.g.handler = some h →
    ∃ t, v.trap st c x = .next t ∧ t.group? v.u v.g.gid = some { v.g with handler := some { h with stop := .dead } } ∧
      t.haltedCtx v.t.ctx ∧ t.reports = v.s.reports ++ [.fault v.t.ctx v.u v.g.gid c v.back x (ruleOrigin v)] ∧
      SameBeyondHalt v.s t ∧ SameMemory v.s t

/-- TRAP and BRK in service mode enter the handler and resume after the instruction (R156, R181, R216); a reserved opcode
raises ILLOP at itself (R59, R88). -/
def Obligations.TrapInstructionsEnter : Prop :=
  (∀ s v i c x, bareForm.CanIssue s v → v.fl < 4 →
    (i = .brk ∧ c = 0x40 ∧ x = 0) ∨ (∃ code : BitVec 8, i = .trap code ∧ c = 0x41 ∧ x = code.zeroExtend 64) →
    exec i s = (bareForm.issued v).trapTo (v.back + 4) 0 c x ∧
    ∃ t g, exec i s = .next t ∧ OnlyGroup s t v.u v.g.gid g ∧ g.handler = some (ruleHandler (bareForm.issued v) c x)) ∧
  ∀ s v w0 w1, s.issuer? (opWords (opcodeOf w0)) = some v → v.inTurn = true →
    exec (.reservedOpcode w0 w1) s = v.trapTo v.back 0 0x01 0 ∧
    (v.fl < 4 → ∃ t g, exec (.reservedOpcode w0 w1) s = .next t ∧ OnlyGroup s t v.u v.g.gid g ∧
      g.handler = some (ruleHandler v 0x01 0))

/-- TRET outside a KILL handler: the handler ends and the records resume as R219 makes them consistent: disjoint, EXEC within
MEMBERS, and merged where they meet; memory and the service registers stay. -/
def Obligations.TretResumes : Prop :=
  ∀ s v, ({ words := 1, early := handlerOnly } : Form).CanIssue s v → v.inKill = false →
    let w := ({ words := 1, early := handlerOnly } : Form).issued v
    ∃ t g, exec .tret s = .next t ∧ OnlyGroup s t v.u v.g.gid g ∧ SameMemory s t ∧ g.handler = none ∧
      g.recordsApart = true ∧
      (∀ k, k < 4 → (ruleResumed w.g k).members ≠ 0#32 → g.holdsSplit (ruleResumed w.g k)) ∧
      g.live = w.g.live &&& w.g.launched ∧ w.g.keepsRest g ∧
      (∀ r l, l < 32 → w.g.dueV r l = false → g.vAt r l = w.g.vAt r l ∧ g.vLiveAt r l = w.g.vLiveAt r l) ∧
      (∀ r, r < 64 → w.g.dueS false r = false → g.sReg false r = w.g.sReg false r ∧ g.sRegLive false r = w.g.sRegLive false r) ∧
      (∀ r, r < 16 → g.mReg false r = w.g.mReg false r) ∧ g.stat = w.g.stat

/-- TEXIT.done, and in a KILL handler every way out: each lane of the group exits (R182, R228). TEXIT.saved gives up the
core without retiring, and the team leaves when no group of it that has not retired is unsaved (R182). TEXIT waits for an
ATOM of its group to return (R170). That a KILL handler leaves only so is the model's reading (log 24 DEDUCED). -/
def Obligations.TexitLeaves : Prop :=
  (∀ s v i, ({ words := 1, early := handlerOnly } : Form).CanIssue s v →
    i = .texitDone ∨ (v.inKill = true ∧ (i = .tret ∨ i = .texitSaved)) → i = .tret ∨ s.atomsBack v.u v.g.gid →
    ∃ t g, exec i s = .next t ∧ t.group? v.u v.g.gid = some g ∧ g.handler = none ∧ g.live = 0#32 ∧ g.pending = none ∧
      g.preempt = false ∧ g.retired = v.g.retired ∧ SameMemory s t ∧ OthersStay s t v.u v.g.gid) ∧
  (∀ s v i, ({ words := 1, early := handlerOnly } : Form).CanIssue s v → i = .texitDone ∨ i = .texitSaved →
    ¬s.atomsBack v.u v.g.gid → exec i s = .next (({ words := 1, early := handlerOnly } : Form).issued v).s) ∧
  ∀ s v, ({ words := 1, early := handlerOnly } : Form).CanIssue s v → v.inKill = false → s.atomsBack v.u v.g.gid →
    ∃ t g x, exec .texitSaved s = .next t ∧ t.group? v.u v.g.gid = some g ∧ g.saved = true ∧ g.handler = none ∧
      g.recs = v.g.recs ∧ t.team? v.u = some x ∧
      (x.core = if v.t.groups.all fun y => y.gid == v.g.gid || y.retired || y.saved then none else v.t.core) ∧
      (∀ a, Memory.read t.mem a = Memory.read s.mem a) ∧
      ∀ u a, u ≠ v.u → Memory.read (t.sharedOf u) a = Memory.read (s.sharedOf u) a

/-- HBAR (R222): the flow arrives and sleeps; the arrival, as a release, comes after the group's REDs. When every group of the
gang (R45) that has not retired (R33) has arrived, each returns the number that arrived, and a new round begins; S0 takes
nothing (R46). -/
def Obligations.HbarRounds : Prop :=
  (∀ s v (sd : BitVec 6), ({ words := 1, early := handlerOnly, ops := fun _ => [opSw sd.toNat] } : Form).CanIssue s v →
    let w := ({ words := 1, early := handlerOnly, ops := fun _ => [opSw sd.toNat] } : Form).issued v
    (w.redsOut = true → exec (.hbar sd) s = .next w.s) ∧
    (w.redsOut = false →
      ∃ t g h, exec (.hbar sd) s = .next t ∧ OnlyGroup s t v.u v.g.gid g ∧ SameMemory s t ∧ w.g.handler = some h ∧
        (∃ c r, g = { w.g with hbarIn := true, handler := some { h with sleep := .hbar sd }, clk := c, rels := r, relMark := g.relMark }))) ∧
  ∀ s u t, s.team? u = some t → s.hbarFull t = true →
    ∃ t', exec (.hbarRelease u) s = .next t' ∧ SameMemory s t' ∧
      ∀ x xt gid g (sd : BitVec 6), s.team? x = some xt → xt.gang = t.gang → s.group? x gid = some g →
        g.sleepOf 4 = .hbar sd →
        ∃ g', t'.group? x gid = some g' ∧ g'.sleepOf 4 = .awake ∧ g'.hbarIn = false ∧ g'.pcOf 4 = g.pcOf 4 + 4 ∧
          g'.recs = g.recs ∧ g'.stat = g.stat ∧
          (sd ≠ 0 → g'.sReg (g.bankS 4 sd.toNat) sd.toNat = BitVec.ofNat 64
            ((s.teams.filter fun y => y.gang == t.gang).map fun y => (y.groups.filter fun z => z.hbarIn).length).sum)

/-- What HSW wrote, HSR reads (R221, R222). -/
def Obligations.HiddenStateReadsBack : Prop :=
  ∀ (v : View) (sel : BitVec 16) (x : Word), selWritable sel = true → hswFault sel.toNat x = none →
    v.svc = false → v.g.handler.isSome → ruleHidden { v with g := v.g.setHidden sel.toNat x } sel.toNat = ruleHsrAfter sel.toNat x

/-! ## Indirect branches, EXIT and REP -/

/-- JMPI and CALLI: one target moves the split; several divide it by R37, or it waits for a record (R38, R153). What the checks
of R152 raise, in their order, with the lanes that fail. That a new record's REPI is 0 is the model's (log 21 DEDUCED). -/
def Obligations.IndirectBranchesRun : Prop :=
  (∀ i I, indirectForms i = some I → I.Runs i) ∧
  ∀ i I, indirectForms i = some I → I.Refuses i

/-- EXIT (R34, R155): with no active lane nothing happens; otherwise the active lanes leave the record, unless the group's
last lanes wait for its REDs or find an unreported entry of their team (R173). -/
def Obligations.ExitEndsLanes : Prop :=
  ∀ s v, exitForm.CanIssue s v →
    let w := exitForm.issued v
    (w.split.exec = 0#32 → ∃ t, exec .exit s = .next t ∧ v.Performs s t w Eq 0 {} ∧ SameMemory s t) ∧
    (w.split.exec ≠ 0#32 →
      (ruleLast w = true → w.redsOut = true →
        ∃ t g, exec .exit s = .next t ∧ OnlyGroup s t v.u v.g.gid g ∧ w.g.Readied g v.fl ∧ g.recs = w.g.recs) ∧
      (ruleLast w = true → w.redsOut = false → ∀ n, w.s.ownEntry w.t = some n →
        exec .exit s = (w.withGroup (w.g.drainFlow w.fl)).trapTo v.back 0 0x21 (BitVec.ofNat 64 n)) ∧
      (ruleLast w = false ∨ (w.redsOut = false ∧ w.s.ownEntry w.t = none) → w.g.recordsApart = true →
        ∃ t g, exec .exit s = .next t ∧ t.group? v.u v.g.gid = some g ∧ g.live = w.g.live &&& ~~~w.split.exec ∧
          g.recordsApart = true ∧
          (v.members &&& ~~~w.split.exec ≠ 0#32 →
            g.holdsSplit { w.split with pc := v.back + 4, members := v.members &&& ~~~w.split.exec, exec := 0#32 }) ∧
          (∀ j, j < 4 → j ≠ v.fl → (w.g.record j).used = true → g.holdsSplit (w.g.record j)) ∧
          g.stat = w.g.stat ∧ SameMemory s t ∧ OthersStay s t v.u v.g.gid))

/-- REP (R68, R157, R158): with COUNT 0, or REPI at or above it, the PC moves past both words; otherwise iteration REPI runs
as the instruction with its fields advanced, and leaves REPI at the next or ends. Before any other word REP raises ILLOP.
One iteration a step is the model's grain (log 3 DESIGN CHOICE). -/
def Obligations.RepRepeats : Prop :=
  ∀ s v (count : BitVec 6) (ds as bs : BitVec 3) w0 t, s.issuer? 1 = some v → v.inTurn = true →
    v.s.codeAt v.core v.t.ctx (v.back + 4) w0 t →
    let r : Instr := .rep count ds as bs
    ((¬∃ i, repeats w0 ds as bs i) → exec r s = { v with s := t }.trapTo v.back 0 0x01 0) ∧
    ∀ i, repeats w0 ds as bs i →
      (count.toNat = 0 ∨ count.toNat ≤ v.repi.toNat →
        ∃ t' g, exec r s = .next t' ∧ OnlyGroup t t' v.u v.g.gid g ∧ SameMemory t t' ∧ v.g.Keeps g v.fl (fun _ _ => false)
          (fun _ _ => false) (fun _ _ => false) (fun _ _ => false) ∧ g.standsAt v.fl v.members (v.back + 8)) ∧
      (v.repi.toNat < count.toNat → ∀ i' F,
        advanced (v.repi.toNat * ds.toNat) (v.repi.toNat * as.toNat) (v.repi.toNat * bs.toNat) i = some i' →
        repeatedForm i' = some F →
        let x := v.iteration t count
        let y := F.issued x
        F.early x = none → x.canIssue (F.ill x) (F.reads x) (F.ops x) = true →
        F.Free y → y.fpxLanes (F.flags y) = 0#32 →
          ∃ t' g, exec r s = .next t' ∧ x.Completes t t' y (F.after x) (F.result y) g ∧
            (F.after x).Wrote (F.bits x) (F.result y) g)

/-! ## Memory -/

/-- Loads complete with what memory holds: LD, LDK and LDS (R160 to R166, R168). A load that races with writes may return what
stood there before some of them (R192); when an access is performed, and which writes a read misses, are the model's (log 19
DESIGN CHOICE). -/
def Obligations.LoadsComplete : Prop := ∀ i R e, loadForms i = some (R, e) → LoadRuns i R e

/-- Stores complete: their bytes hold the data and no other byte changes: ST, STK and STS (R160 to R165, R167, R168). That
a store is performed as it issues is the model's (log 19 DESIGN CHOICE). -/
def Obligations.StoresComplete : Prop := ∀ i R ws ks, storeForms i = some (R, ws, ks) → StoreRuns i R ws ks

/-- What stops an access, in the order of R165: for loads, stores, ATOM and SAPP; RED meets rows 1 and 2 alone (R171). -/
def Obligations.AccessesRefused : Prop :=
  (∀ i R e, loadForms i = some (R, e) → R.Refuses i) ∧ (∀ i R ws ks, storeForms i = some (R, ws, ks) → R.Refuses i) ∧
    (∀ d m x, (Reach.atom (some d) m x).Refuses (.atom d m x)) ∧
    (∀ sd sb sc off, (Reach.sapp sd sb sc off).Refuses (.sapp sd sb sc off)) ∧
    ∀ s v m x, (Reach.atom none m x).form.CanIssue s v → ∀ c,
      firstCause (((Reach.atom none m x).issued v).firstRows (Reach.atom none m x).req
        ((Reach.atom none m x).addrs ((Reach.atom none m x).issued v))) = some c →
      exec (.red m x) s = ((Reach.atom none m x).issued v).trap ((Reach.atom none m x).met v) c.1
        ((maskOf fun l => c.2.contains l).zeroExtend 64)

/-- ATOM (R170): it passes the rows of R165 and issues its lanes' operations; it goes on, or waits at the ATOM where a lane's line
has an uncorrectable error. Then the lanes are performed one by one at their homes, each whole, in ascending order and after
the group's older REDs and ATOMs: each gives the value its location held, and only that location's bytes change. A lane that
fails is kept for the ATOM's return, one whose page is absent waits for it, and one whose gang peer has left raises GANG (R283).
When a lane is performed is the model's free schedule, and so is the order of the group's REDs and ATOMs (log 19 DESIGN
CHOICE). -/
def Obligations.AtomsComplete : Prop :=
  (∀ s v d m x, let R := Reach.atom (some d) m x
    R.form.CanIssue s v →
      let w := R.issued v
      (w.eff true = 0#32 → ∃ t, exec (.atom d m x) s = .next t ∧ v.Performs s t w Eq (R.met v) {} ∧ SameMemory s t) ∧
      (w.eff true ≠ 0#32 → w.passes R.req (R.addrs w) →
        (R.waits w = true → exec (.atom d m x) s = .next (w.looked R.req (R.addrs w)).s) ∧
        (R.waits w = false → ∃ t r, exec (.atom d m x) s = .next t ∧ t.reds = s.reds ++ [r] ∧ RedAs w m x r ∧
          r.back = some (ruleBack w d) ∧ t.nextId = s.nextId + 1 ∧ t.items = s.items ∧ SameMemory s t ∧ SameBeyondItems s t ∧
          (badLanes R w = 0#32 → v.Performs s t w Group.Ordered (R.met v) { kills := atomKills m w }) ∧
          (badLanes R w ≠ 0#32 → t.sleepAt v.u v.g.gid v.fl = .atom (badLanes R w) ∧ OthersStay s t v.u v.g.gid)))) ∧
  ∀ s id r b x xs, s.memOk = true → s.redNow id r → r.back = some b → r.lanes = x :: xs →
    let n := if r.word.wide then 8 else 4
    let t := s.atomPerform id
    (∀ l s', redFate s r x = .at_ l s' →
      let old := numberAt s [] n l
      t.reds = redsAfter s id (fun b => { b with got := b.got ++ [(x.lane, old)] }) ∧
      Stored s t n [(l, ruleAtom r.word.op n (!r.sgn) old (x.data.toNat % 256 ^ n) (x.swap.toNat % 256 ^ n))]) ∧
    (∀ c s', redFate s r x = .fails c s' → SameMemory s t ∧
      t.reds = redsAfter s id (fun b => { b with bad := b.bad ||| maskOf fun l => decide (l = x.lane) })) ∧
    (redFate s r x = .gone → SameMemory s t ∧ t.reds = redsAfter s id fun b => b) ∧
    ∀ m s', redFate s r x = .waits m s' → SameMemory s t ∧
      t.reports = s.reports ++ [.xlate r.ctx x.addr.toNat m ⟨some r.core, some r.seq⟩] ∧
      t.reds = s.reds.map fun q => if q.id = r.id then { q with wait := some x.addr.toNat } else q

/-- RED issues its lanes' operations and goes on, unless its core has 512 requests outstanding (R1, R171). RED_PERFORM: the next
lane of the oldest RED of its group operates at its home; or it fails, and its context's log takes a mark, an entry of 32 bytes
and its count, unless 256 entries stand, which halts the context and hands its log to the tenant (R366); or it waits for its
page (R171, R172). That a group's REDs are performed in order is the model's (log 19 DESIGN CHOICE), and what becomes of an
entry that cannot be written (log 29 DEDUCED). -/
def Obligations.RedsPerform : Prop :=
  (∀ s v m x, let R := Reach.atom none m x
    R.form.CanIssue s v →
      let w := R.issued v
      (w.eff true = 0#32 → ∃ t, exec (.red m x) s = .next t ∧ v.Performs s t w Eq (R.met v) {} ∧ SameMemory s t) ∧
      (w.eff true ≠ 0#32 → firstCause (w.firstRows R.req (R.addrs w)) = none →
        (R.waits w = true → exec (.red m x) s = .next w.s) ∧
        (R.waits w = false → ∃ t r, exec (.red m x) s = .next t ∧
          v.Performs s t w Group.Ordered (R.met v) { kills := atomKills m w } ∧ t.reds = s.reds ++ [r] ∧ RedAs w m x r ∧
          r.back = none ∧ t.nextId = s.nextId + 1 ∧ t.items = s.items ∧ SameMemory s t ∧ SameBeyondItems s t))) ∧
  ∀ s id r x xs, s.memOk = true → s.redNow id r → r.back = none → r.lanes = x :: xs →
    let n := if r.word.wide then 8 else 4
    (∀ l s', redFate s r x = .at_ l s' → ∃ t, exec (.redPerform id) s = .next t ∧ t.reds = redsAfter s id (fun b => b) ∧
      Stored s t n [(l, ruleAtom r.word.op n (!r.sgn) (numberAt s [] n l) (x.data.toNat % 256 ^ n) 0)]) ∧
    (∀ c s' k, redFate s r x = .fails c s' → s.context? r.ctx = some k →
      ∃ t k', exec (.redPerform id) s = .next t ∧ t.reds = redsAfter s id (fun b => b) ∧ t.context? r.ctx = some k' ∧
        k'.logN = k.logN + 1 ∧
        let ws := ruleEntryWords r x c k.logN
        (k.logMarks.length < 256 →
          k'.logMarks = k.logMarks ++ [⟨k.logN, r.tidx, r.seq, ws.flatMap (leBytes 8)⟩] ∧ k'.halted = k.halted ∧
          ∀ e, s.walk k (k.logBase + 32 * (k.logN % 256)) = .ok e → Stored s t 8 (ws.zipIdx.map fun y =>
            (.at (e.pa (k.logBase + 32 * (k.logN % 256)) + 8 * y.2) 0 false, y.1))) ∧
        (256 ≤ k.logMarks.length → k'.logOvf = true ∧ k'.halted = true ∧ k'.logMarks = [] ∧ SameMemory s t ∧
          t.reports = s.reports ++ [.redlog r.ctx (k.logMarks.map fun m => (m.n, m.bytes))])) ∧
    (redFate s r x = .gone → ∃ t, exec (.redPerform id) s = .next t ∧ SameMemory s t ∧ t.reds = redsAfter s id fun b => b) ∧
    ∀ m s', redFate s r x = .waits m s' → ∃ t, exec (.redPerform id) s = .next t ∧ SameMemory s t ∧
      t.reports = s.reports ++ [.xlate r.ctx x.addr.toNat m ⟨some r.core, some r.seq⟩] ∧
      t.reds = s.reds.map fun q => if q.id = r.id then { q with wait := some x.addr.toNat } else q

/-- SAPP adds to one counter and answers what it held (R174). That it is performed as it issues, after its group's REDs and ATOMs,
is the model's (log 19 DESIGN CHOICE). -/
def Obligations.SappAppends : Prop :=
  ∀ s v sd sb sc off, let R := Reach.sapp sd sb sc off
    s.memOk = true → R.form.CanIssue s v → R.goes (R.issued v) →
      let w := R.issued v
      let old := numberAt s [] 8 (w.spot R)
      ∃ t, exec (.sapp sd sb sc off) s = .next t ∧
        v.Performs s t w Group.Ordered (R.met v) { sw := [(sd.toNat, BitVec.ofNat 64 old)] } ∧
        Stored s t 8 [(w.spot R, (old + (w.rdS sc.toNat).toNat) % 2 ^ 64)] ∧ SameBeyond s t

/-- QPUSH (R177, R178): the entry, TAIL and ALLOW; with no allowance the flow sleeps. QPOP (R178): the oldest entry goes to S[D],
HEAD and ALLOW advance; on an empty queue the flow sleeps, and an entry with an uncorrectable error is ECC (R165). For both a
malformed object is SHBOUND, and a gang peer's object under .team GANG. That the operation is performed whole in the step that
issues it is the model's (log 19 DESIGN CHOICE), and that S[D] is read after the windows close its reading (log 30 DEDUCED). -/
def Obligations.QueuesPushAndPop : Prop :=
  (∀ s v (sd sb : BitVec 6) gang off u o, let R := Reach.queue (opS sd.toNat) sb off true
    s.memOk = true → R.form.CanIssue s v → R.goes (R.issued v) → (R.issued v).objectAt R u o →
      let w := R.issued v
      let x := ({ w with g := w.g.drainFlow v.fl } : View).rdS sd.toNat
      (gang = false → u ≠ v.u → exec (.qpush sd sb gang off) s = w.trapTo v.back (R.met v) 0x14 0) ∧
      ((gang = true ∨ u = v.u) →
        (∀ ring logd head tail allow, QueueIs s u o ring logd head tail allow →
          (allow ≠ 0 → ∃ t, exec (.qpush sd sb gang off) s = .next t ∧
            v.Performs s t w (Group.Settled v.fl) (R.met v) {} ∧ Stored s t 8 (rulePush u o ring logd tail allow x) ∧
            SameBeyond s t) ∧
          (allow = 0 → ∃ t, exec (.qpush sd sb gang off) s = .next t ∧ SameMemory s t ∧
            t.sleepAt v.u v.g.gid v.fl = .queue u o (some x) sd gang false)) ∧
        ((¬∃ ring logd head tail allow, QueueIs s u o ring logd head tail allow) →
          exec (.qpush sd sb gang off) s = (w.withGroup (w.g.drainFlow v.fl)).trapTo v.back (R.met v) 0x15 0))) ∧
  ∀ s v (sd sb : BitVec 6) gang off u o, let R := Reach.queue (opSw sd.toNat) sb off false
    s.memOk = true → R.form.CanIssue s v → R.goes (R.issued v) → (R.issued v).objectAt R u o →
      let w := R.issued v
      let drained := w.withGroup (w.g.drainFlow v.fl)
      (gang = false → u ≠ v.u → exec (.qpop sd sb gang off) s = w.trapTo v.back (R.met v) 0x14 0) ∧
      ((gang = true ∨ u = v.u) →
        (∀ ring logd head tail allow, QueueIs s u o ring logd head tail allow →
          let e := ring + 8 * (head % 2 ^ logd)
          (tail ≠ head → s.badShared u e 8 = false → ∃ t, exec (.qpop sd sb gang off) s = .next t ∧
            v.Performs s t w (Group.Settled v.fl) (R.met v) { sw := [(sd.toNat, BitVec.ofNat 64 (s.shNat u e 8))] } ∧
            Stored s t 8 (rulePop u o head allow) ∧ SameBeyond s t) ∧
          (tail ≠ head → s.badShared u e 8 = true →
            exec (.qpop sd sb gang off) s = drained.trapTo v.back (R.met v) 0x60 (hinfoMem 0)) ∧
          (tail = head → ∃ t, exec (.qpop sd sb gang off) s = .next t ∧ SameMemory s t ∧
            t.sleepAt v.u v.g.gid v.fl = .queue u o none sd gang false)) ∧
        ((¬∃ ring logd head tail allow, QueueIs s u o ring logd head tail allow) →
          exec (.qpop sd sb gang off) s = drained.trapTo v.back (R.met v) 0x15 0))

/-- BARV.init, .arr, .tx and .arrtx, and the arrival of those that travelled to a gang peer's object, or find that the peer has
left its core, which raises GANG (R27, R175, R283); BWAIT returns where the phase differs, and sleeps where it does not (R176).
That an arrival is performed as it issues is the model's (log 19 DESIGN CHOICE), and that S[D] of BWAIT is read after the windows
close its reading (log 30 DEDUCED). -/
def Obligations.BarriersCount : Prop :=
  (∀ i A, arrivalForms i = some A → A.Runs i) ∧
  (∀ s id j a arrives bytes x, s.memOk = true → s.item? id = some j → j.work = .arrival a arrives bytes →
    s.team? j.party.team = some x →
      (∀ u o, s.shAddr x a 32 = .ok u o → ∃ t, exec (.barrierArrival id) s = .next t ∧
        t.items = s.items.filter (fun y => y.id != j.id) ∧ Stored s t 8 (ruleArrive s u o 0 arrives bytes.toNat).1) ∧
      ∀ v k, (∀ u o, s.shAddr x a 32 ≠ .ok u o) → j.flow < 4 → s.viewOf j.party.team j.party.gid k 0 = some v → k < 4 →
        (v.g.record k).members &&& j.lanes ≠ 0#32 → (∀ i, i < k → (v.g.record i).members &&& j.lanes = 0#32) →
        v.g.handler = none → ∃ t g, exec (.barrierArrival id) s = .next t ∧
          t.items = s.items.filter (fun y => y.id != j.id) ∧ SameMemory s t ∧
          t.group? j.party.team j.party.gid = some g ∧ g.handler = some (ruleHandler v 0x14 0)) ∧
  (∀ s v (sd sb : BitVec 6) off u o, let R := Reach.barrier [opS sd.toNat] sb off false false
    s.memOk = true → R.form.CanIssue s v → R.goes (R.issued v) → (R.issued v).objectAt R u o →
      let n := ((R.issued v).rdS sd.toNat).toNat
      (0 < n → n < 2 ^ 16 → ∃ t, exec (.barvInit sd sb off) s = .next t ∧
        v.Performs s t (R.issued v) Group.Ordered (R.met v) {} ∧
        Stored s t 8 [(.sh u o, n * 2 ^ 16 + n), (.sh u (o + 8), 0), (.sh u (o + 16), 0), (.sh u (o + 24), 0)] ∧ SameBeyond s t) ∧
      (n = 0 ∨ 2 ^ 16 ≤ n → exec (.barvInit sd sb off) s = (R.issued v).trapTo v.back (R.met v) 0x01 0)) ∧
  ∀ s v (sd sb : BitVec 6) off u o, let R := Reach.barrier [opS sd.toNat] sb off true false
    R.form.CanIssue s v → R.goes (R.issued v) → (R.issued v).objectAt R u o →
      let w := R.issued v
      let par := (({ w with g := w.g.drainFlow v.fl } : View).rdS sd.toNat).getLsbD 0
      (s.phaseOf u o ≠ par.toNat → ∃ t, exec (.bwait sd sb off) s = .next t ∧
        v.Performs s t w (Group.Settled v.fl) (R.met v) {} ∧ SameMemory s t ∧ SameBeyond s t) ∧
      (s.phaseOf u o = par.toNat → ∃ t, exec (.bwait sd sb off) s = .next t ∧ SameMemory s t ∧
        t.sleepAt v.u v.g.gid v.fl = .bwait u o par)

/-- FENCE (R173, R179): it waits for the group's REDs and ATOMs, traps on an unreported entry of its own team where its scope is
SLICE or SYS, and otherwise only orders: a releasing fence stands before its split's later writes at its scope. The clocks are
the model's (log 31 DEDUCED), and that a fence of any kind and scope waits so its reading (log 45 DEDUCED). -/
def Obligations.FencesOrder : Prop :=
  ∀ s v (kind : FKind) (sc : Scope), bareForm.CanIssue s v →
    let w := bareForm.issued v
    let wide : Prop := sc = .slice ∨ sc = .sys
    (w.redsOut = true → exec (.fence kind sc) s = .next w.s) ∧
    (w.redsOut = false →
      (wide → ∀ n, w.s.ownEntry w.t = some n → exec (.fence kind sc) s = w.trapTo v.back 0 0x21 (BitVec.ofNat 64 n)) ∧
      ((wide → w.s.ownEntry w.t = none) → ∃ t, exec (.fence kind sc) s = .next t ∧
        v.Performs s t w (fun g g' => (∃ c r m f, g' = ({ g with clk := c, rels := r, relMark := m } : Group).modOrd v.fl f) ∧
          (kind ≠ .acq → ∃ h ∈ (g'.ordOf v.fl).relFence, h.scope = sc ∧ h.party = ⟨w.t.slice, w.t.gang, w.u, w.g.gid⟩) ∧
          ∀ h ∈ (g.ordOf v.fl).relFence, h.scope ≠ sc → h ∈ (g'.ordOf v.fl).relFence) 0 {} ∧
        SameMemory s t ∧ t = { s with teams := t.teams, fenceClk := t.fenceClk }))

/-! ## Engine commands -/

/-- The commands of the copy engine, the matrix engine, the history unit, the layer unit and the ray unit post their item
(R23, R24, R250, R272, R299, R300, R316, R324, R325, R350, R351, R353), wait for a full queue, or raise what stops their issue
or what their addresses raise, an MMA's HRA and DEADRD after its addresses (R250, R265, R272, R351, R376). Where R376 leaves the
place of a check open, the order is the model's reading (log 32 DEDUCED). -/
def Obligations.CommandsPost : Prop :=
  (∀ i C s v, commandForms i = some C → C.RunsAt i s v ∧ C.StopsAt i s v) ∧
  (∀ d sa sb tok sp va lv s v, let C := cinitCommand d sa sb tok sp va lv (v.rdS sb.toNat)
    C.RunsAt (.cinit d sa sb tok sp va lv) s v ∧ C.StopsAt (.cinit d sa sb tok sp va lv) s v) ∧
  ∀ d sa sb tok, MmaJudges d sa sb tok

/-- HLD under policy FAULT posts its item, and the flow sleeps until the item ends (R299). RTRACE and RTLOAD bind a slot for each
of their rays, or wait in line for slots; a lane that holds a ray is SHBOUND, and records outside the allocation or misaligned
raise what R351 and R352 say (R339, R342). -/
def Obligations.SleepingCommandsPost : Prop :=
  (∀ d sa tok age filter short mm cm1 vc vp lp s v,
    let C := hldFaultCommand d sa tok age filter short mm cm1 vc vp lp
    C.form.StopsAt (.hld d sa tok age filter true short mm cm1 vc vp lp) s v ∧ (C.form.CanIssue s v →
      let w := C.form.issued v
      w.redsOut = false → ∃ t j, exec (.hld d sa tok age filter true short mm cm1 vc vp lp) s = .next t ∧
        t.items = s.items ++ [j] ∧ PostedAs (C.item w) j ∧ t.nextId = s.nextId + 1 ∧ t.reds = s.reds ∧
        t.sleepAt v.u v.g.gid v.fl = .hld s.nextId ∧ SameMemory s t ∧ SameBeyondItems s t ∧ OthersStay s t v.u v.g.gid)) ∧
  ∀ i C s v, rayForms i = some C → C.BindsAt i s v ∧ C.form.StopsAt i s v ∧
    (C.form.CanIssue s v → ∀ c h, C.fault (C.form.issued v) = some (c, h) →
      exec i s = (C.form.issued v).trapTo v.back ((C.form.issued v).metBits (C.form.reads v) (C.form.ops v)) c h)

/-- In a KILL handler every instruction of opcodes 0x68 to 0x77 is a double fault (R86, R228; the cause is the model's, DESIGN
CHOICE, log 25). -/
def Obligations.KillHandlersPostNothing : Prop :=
  ∀ i s v, s.issuer? 2 = some v → v.inTurn = true → v.inKill = true →
    (commandForms i).isSome ∨ (engineForms i).isSome ∨ (graphForms i).isSome ∨ (rayForms i).isSome ∨ (dlaunchForms i).isSome ∨
      (∃ d sa tok age filter short mm cm1 vc vp lp, i = .hld d sa tok age filter true short mm cm1 vc vp lp) ∨
      (∃ d sa sb tok sp va lv, i = .cinit d sa sb tok sp va lv) →
    exec i s = .next (v.s.doubleFault v.u v.g.gid 0x51 v.back 0)

/-! ## Work graphs and launches from a group -/

/-- WGALLOC (R236, R238): all its slots at once, each lane a free one, or a sleep; a request that no record node could ever
meet is SHBOUND, and a handle of no graph PROT. WGALLOC.try: as many slots as can be met now, for the lowest lanes; MF takes
the lanes without one. Which free slots are taken is free (log 11 DESIGN CHOICE). -/
def Obligations.AllocationsGrant : Prop :=
  (∀ s v (d : BitVec 7) (sa node : BitVec 6), let F := graphForm (opWr d.toNat) sa []
    F.CanIssue s v →
      let w := F.issued v
      let met := w.metBits (F.reads v) (F.ops v)
      let i : Instr := .wgalloc d sa node
      let lanes : Word := (w.eff false).zeroExtend 64
      (w.eff false = 0#32 → ∃ t, exec i s = .next t ∧ v.Performs s t w Eq met {} ∧ SameMemory s t) ∧
      (w.eff false ≠ 0#32 →
        (∀ c, namesFault w (w.rdS sa.toNat) node.toNat = some c → exec i s = w.trapTo v.back met c lanes) ∧
        ∀ x n, Names w (w.rdS sa.toNat) node.toNat x n →
          let k := (effLanes w).length
          (n.floor + x.nslots - x.floors < k → exec i s = w.trapTo v.back met 0x15 lanes) ∧
          (k ≤ n.floor + x.nslots - x.floors → x.canMeet node.toNat k = true → k ≤ x.freeSlots.length →
            ∃ t x' a js, exec i s = .next t ∧ v.Performs s t w (Group.Settled v.fl) met { vw := [(d.toNat, w.eff false, a)] } ∧
              Granted x x' node.toNat (effLanes w) a js ∧ SameBeyondGraph s t x' ∧ SameMemory s t) ∧
          (k ≤ n.floor + x.nslots - x.floors → x.canMeet node.toNat k = false →
            ∃ t, exec i s = .next t ∧ t.graphs = s.graphs ∧ SameMemory s t ∧
              t.sleepAt v.u v.g.gid v.fl = .wgalloc x.uid node.toNat d.toNat (w.eff false) s.nextId))) ∧
  ∀ s v (d : BitVec 7) (sa node : BitVec 6) (mf : BitVec 4),
    let F := graphForm (opWr d.toNat) sa (if mf = 0 then [] else [opMw mf.toNat])
    F.CanIssue s v →
      let w := F.issued v
      let met := w.metBits (F.reads v) (F.ops v)
      let i : Instr := .wgallocTry d sa mf node
      (w.eff false = 0#32 → ∃ t, exec i s = .next t ∧ v.Performs s t w Eq met {} ∧ SameMemory s t) ∧
      (w.eff false ≠ 0#32 →
        (∀ c, namesFault w (w.rdS sa.toNat) node.toNat = some c →
          exec i s = w.trapTo v.back met c ((w.eff false).zeroExtend 64)) ∧
        ∀ x n m, Names w (w.rdS sa.toNat) node.toNat x n → m ≤ (effLanes w).length → (m = 0 ∨ x.canMeet node.toNat m = true) →
          (∀ j, m < j → j ≤ (effLanes w).length → x.canMeet node.toNat j = false) → m ≤ x.freeSlots.length →
          let got := (effLanes w).take m
          ∃ t x' a js, exec i s = .next t ∧
            v.Performs s t w (Group.Settled v.fl) met
              { vw := if m = 0 then [] else [(d.toNat, maskOf fun l => got.contains l, a)]
                mw := if mf = 0 then [] else [(mf.toNat, w.eff false &&& ~~~(maskOf fun l => got.contains l))] } ∧
            Granted x x' node.toNat got a js ∧ SameBeyondGraph s t x' ∧ SameMemory s t)

/-- WGCOMMIT (R241, R242): the lanes' records join the node's queue in lane order, and full batches launch while it holds one;
a lane whose address is no allocated slot of the node, or another's too, is SHBOUND. That consumer grids take the slice's next
sequence numbers is the model's reading (log 23 DEDUCED). -/
def Obligations.CommitsLaunch : Prop :=
  ∀ s v (d : BitVec 7) (sa node : BitVec 6), let F := graphForm (opRd d.toNat) sa []
    F.CanIssue s v →
      let w := F.issued v
      let met := w.metBits (F.reads v) (F.ops v)
      let i : Instr := .wgcommit d sa node
      let a := w.rdV d.toNat
      let bad (x : Graph) : Mask := maskOf fun l => (w.eff false).getLsbD l && !commitGood x node.toNat a (effLanes w) l
      (w.eff false = 0#32 → ∃ t, exec i s = .next t ∧ v.Performs s t w Eq met {} ∧ SameMemory s t) ∧
      (w.eff false ≠ 0#32 →
        (∀ c, namesFault w (w.rdS sa.toNat) node.toNat = some c →
          exec i s = w.trapTo v.back met c ((w.eff false).zeroExtend 64)) ∧
        ∀ x n, Names w (w.rdS sa.toNat) node.toNat x n →
          (bad x ≠ 0#32 → exec i s = w.trapTo v.back met 0x15 ((bad x).zeroExtend 64)) ∧
          ∀ c, bad x = 0#32 → w.redsOut = false → s.graph? x.uid = some x → s.context? x.ctx = some c → n.queue.length < n.batch →
            1 ≤ n.batch → (∀ y ∈ s.grids, y.uid < s.nextId) →
            let q := n.queue ++ ruleSlots x a (effLanes w)
            ∃ t new x' n', exec i s = .next t ∧ v.Performs s t w Group.Ordered met {} ∧
              (c.halted = true ∨ (n.packet.getD 3 0).getLsbD 10 = false → SameMemory s t) ∧ t.grids = s.grids ++ new ∧ new.length = q.length / n.batch ∧
              (∀ (k : Nat) g, new[k]? = some g → g.batch.map (fun b => (b.1, b.2.1)) = some (x.uid, node.toNat) ∧ g.queue = none ∧
                g.seq = assocGet 0 s.seqs c.slice + BitVec.ofNat 32 k) ∧
              t.graph? x.uid = some x' ∧ x'.nodes[node.toNat]? = some n' ∧ n'.queue = q.drop (n.batch * (q.length / n.batch)))

/-- DLAUNCH and DLAUNCH.s copy and enqueue the packets in lane order, or wait for room, or raise ALIGN, PROT, KIND or ECC, or wait
for an absent page, and then enqueue nothing (R245). The order of its checks is the model's reading (log 36 DEDUCED). -/
def Obligations.DeviceLaunchesEnqueue : Prop := ∀ i D, dlaunchForms i = some D → D.Runs i ∧ D.Refuses i

/-! ## Events of groups -/

/-- LONG_LATENCY_RESULT and ATOM_RETURN (R65, R170): the outstanding results named are written, and no other register
changes; lanes of an ATOM that met an uncorrectable error raise ECC at it when it returns, in the record that holds them then
(log 45 DEDUCED). -/
def Obligations.ResultsReturn : Prop :=
  (∀ s u gid idx g p, s.group? u gid = some g → g.pends[idx]? = some p → p.win = 0 →
    (∀ (k : Nat) q, g.pends[k]? = some q → q = p → k = idx) →
    ∃ t g', exec (.longLatencyResult u gid idx) s = .next t ∧ OnlyGroup s t u gid g' ∧ SameMemory s t ∧
      g.Returned p.flow (fun q => decide (q = p)) g') ∧
  ∀ s v u gid fl r b, s.viewOf u gid fl 0 = some v → fl ≤ 4 → s.atomDue u gid fl r b →
    let o := exec (.atomReturn u gid fl) s
    let goes (t : State) : Prop :=
      t.reds = s.reds.filter (fun q => q.id != r.id) ∧ t.items = s.items ∧ SameMemory s t ∧ OthersStay s t u gid
    (b.bad = 0#32 → ∃ t g', o = .next t ∧ goes t ∧ t.group? u gid = some g' ∧ v.g.AtomWritten b g' ∧
      ((∃ m, v.g.sleepOf fl = .atom m) → v.g.pcOf fl = b.pc → g'.sleepOf fl = .awake ∧ g'.pcOf fl = b.pc + 8) ∧
      ((∀ m, v.g.sleepOf fl ≠ .atom m) ∨ v.g.pcOf fl ≠ b.pc → g'.recs = v.g.recs ∧ g'.handler = v.g.handler)) ∧
    (b.bad ≠ 0#32 → v.g.handler = none → ∀ k, k < 4 → (v.g.record k).members &&& b.bad ≠ 0#32 →
      (∀ i, i < k → (v.g.record i).members &&& b.bad = 0#32) →
        ∃ t g', o = .next t ∧ goes t ∧ t.group? u gid = some g' ∧ (v.g.pends = [] → v.g.AtomWritten b g') ∧
          g'.handler = some (ruleHandler { v with fl := k, back := b.pc } 0x60 (hinfoMem b.bad)) ∧ g'.stat = v.g.stat ∧
          g'.record k = { v.g.record k with sleep := .awake } ∧
          ∀ i, i < 4 → i ≠ k → g'.record i = ruleFrozen (v.g.record i))

/-- The sleeps of BWAIT, QPUSH and QPOP, JMPI and CALLI, YIELD, XDRAIN and ray commands end (R38, R176, R178, R210, R263,
R339): the instruction completes, or a JMPI or CALLI issues again. An object whose team has left its core raises GANG (R161,
R283), and one with an uncorrectable error ECC (R165). -/
def Obligations.SleepersWake : Prop :=
  ∀ s v u gid fl sl, s.sleeps v u gid fl sl →
    (∀ c, sl = .woken c → v.Returns s (exec (.bwaitWake u gid fl) s) {}) ∧
    (∀ x o par, sl = .bwait x o par →
      (s.onCore x → s.phaseOf x o ≠ (if par then 1 else 0) → v.Returns s (exec (.bwaitWake u gid fl) s) {}) ∧
      (¬s.onCore x → exec (.bwaitWake u gid fl) s = (v.withGroup (v.g.setSleep fl .awake)).trap 0 0x14 0)) ∧
    (∀ n, sl = .drain n → (∀ i ∈ s.items, i.party.team = u → n ≤ i.id) → (∀ r ∈ s.reds, r.party.team = u → n ≤ r.id) →
      v.Returns s (exec (.xdrainComplete u gid fl) s) {}) ∧
    (sl = .record → v.g.freeRecs ≠ [] →
      ∃ t g, exec (.recordFreeWaitEnd u gid fl) s = .next t ∧ OnlyGroup s t u gid g ∧ v.g.Wakes fl g) ∧
    (sl = .yield → ∃ t g, exec (.yieldExpiry u gid fl) s = .next t ∧ OnlyGroup s t u gid g ∧ v.g.Wakes fl g) ∧
    (∀ n i ks, sl = .slots n i ks → i.party.team = u → i.party.gid = gid → (∀ k ∈ s.slotWaiters v.core, n ≤ k) →
      s.slotNeed { i with id := s.nextId } ≤ s.freeSlots v.core → v.redsOut = false →
      (fl = 4 → v.g.handler.all (fun h => !h.dflt) = true) →
        let item : Item := { i with id := s.nextId }
        (v.namesBusy (tokField i.tok) = false → ∃ t f, exec (.raySlotBind u gid fl) s = .next t ∧
          v.Performs s t v (fun g g' => Group.PostsRays fl i.tok item ((g.modOrd fl f).setSleep fl .awake) g') 0 { kills := ks } ∧
          (∀ g', t.group? u gid = some g' → BoundRays item g') ∧ AddsItem s t item ∧ SameMemory s t ∧ SameBeyondItems s t) ∧
        (v.namesBusy (tokField i.tok) = true →
          ∃ f, exec (.raySlotBind u gid fl) s = (v.withGroup (v.g.modOrd fl f)).wait)) ∧
    ∀ x o y (sd : BitVec 6) gang, sl = .queue x o y sd gang true → s.memOk = true → v.redsBefore y.isNone = false →
      let e := exec (.queueRetest u gid fl) s
      let up := v.withGroup (v.g.setSleep fl .awake)
      (¬s.onCore x → e = up.trap 0 0x14 0) ∧
      (s.onCore x → s.badShared x o 64 = true → e = up.trap 0 0x60 (hinfoMem 0)) ∧
      (s.onCore x → s.badShared x o 64 = false →
        (∀ ring logd head tail allow, QueueIs s x o ring logd head tail allow →
          let stuck : Prop := if y.isSome then allow = 0 else tail = head
          let at_ := ring + 8 * (head % 2 ^ logd)
          let bad : Prop := y = none ∧ s.badShared x at_ 8 = true
          let sw : List (Nat × Word) := if y.isSome then [] else [(sd.toNat, BitVec.ofNat 64 (s.shNat x at_ 8))]
          (¬stuck → ¬bad → ∃ t, e = .next t ∧ v.Performs s t v (Group.Woken fl) 0 { sw := sw } ∧
            Stored s t 8 (match y with | some z => rulePush x o ring logd tail allow z | none => rulePop x o head allow) ∧
            SameBeyond s t) ∧
          (¬stuck → bad → e = up.trap 0 0x60 (hinfoMem 0)) ∧
          (stuck → ∃ t, e = .next t ∧ SameMemory s t ∧ t.sleepAt u gid fl = .queue x o y sd gang false)) ∧
        ((¬∃ ring logd head tail allow, QueueIs s x o ring logd head tail allow) → e = up.trap 0 0x15 0))

/-- TRAP_ENTRY: the group takes the trap it holds, or a pre-emption (R217, R218). PREEMPT strikes every group of a gang that
is in play, with save areas as R225 has them (R223). TEAM_RESTORE places a saved gang, whose groups enter their handlers
(R226). CONTEXT_KILL ends the context's items CANCELLED, puts every group under KILL and halts it, its graphs emptied (R228,
R244); CONTEXT_HALT only halts it (R366). How save areas are named, and the HINFO of a pre-emption that PENDING held, are the
model's (log 22 DESIGN CHOICE, log 5 DESIGN CHOICE). -/
def Obligations.HandlersStrike : Prop :=
  (∀ s v u gid fl, s.viewOf u gid fl 0 = some v → fl < 4 → v.g.inPlay → v.g.live ≠ 0#32 → v.g.handler = none →
    (∀ p, v.g.pending = some p → p.record = fl → p.cause ≠ 0x50 → p.cause ≠ 0x51 →
      ∃ t g, exec (.trapEntry u gid) s = .next t ∧ OnlyGroup s t u gid g ∧ SameMemory s t ∧ g.pending = none ∧
        g.preempt = v.g.preempt ∧ g.hbarIn = v.g.hbarIn ∧ v.g.Entered g (ruleHandler v p.cause p.hinfo)) ∧
    (v.g.pending = none → v.g.preempt = true →
      ∃ t g, exec (.trapEntry u gid) s = .next t ∧ OnlyGroup s t u gid g ∧ SameMemory s t ∧ g.preempt = false ∧
        g.hbarIn = false ∧ g.pendRest = 0 ∧
        v.g.Entered g (s.entryHandler v.t 0x50 (BitVec.ofNat 64 (v.g.pendRest.toNat % 2 ^ 32))))) ∧
  (∀ s u t0 areas, s.team? u = some t0 → (∀ x ∈ s.teams, x.gang = t0.gang → x.core ≠ none) → s.areasOk t0 areas = true →
    ∃ t, exec (.preempt u areas) s = .next t ∧ SameMemory s t ∧ ∀ w x gid g, s.team? w = some x → s.group? w gid = some g →
      ∃ g', t.group? w gid = some g' ∧
        (x.gang = t0.gang ∧ g.inPlay → g' = { g with
          preempt := true
          pendRest := 0
          saveArea := if g.inPreempt then g.saveArea
            else BitVec.ofNat 64 (assocGet 0 areas (64 * (x.uid - x.gang) + g.gid)) }) ∧
        (¬(x.gang = t0.gang ∧ g.inPlay) → g' = g)) ∧
  (∀ s u t0 cluster, s.team? u = some t0 → s.restoreDue t0 cluster = true →
    ∃ t, exec (.teamRestore u cluster) s = .next t ∧ (∀ a, Memory.read t.mem a = Memory.read s.mem a) ∧
      ∀ w x, s.team? w = some x →
        (x.gang ≠ t0.gang → t.team? w = some x) ∧
        (x.gang = t0.gang → (∃ x', t.team? w = some x' ∧ x'.core = some (4 * cluster + x.lastCore % 4) ∧ x'.shared = []) ∧
          ∀ gid g, s.group? w gid = some g → ∃ g', t.group? w gid = some g' ∧ (g.retired = true → g' = g) ∧
            (g.retired = false → g.launched ≠ 0#32 → RestoredFrom s x g g'))) ∧
  (∀ s ctx c, s.context? ctx = some c →
    ∃ t, exec (.contextKill ctx) s = .next t ∧ t.haltedCtx ctx ∧ (∀ k, t.context? ctx = some k → k.killed = true) ∧
      (∀ x ∈ t.graphs, x.ctx = ctx → x.slots = [] ∧ ∀ n ∈ x.nodes, n.queue = []) ∧
      (s.itemsApart → ItemsCancelled s t (fun i => decide (i.ctx = ctx)) false) ∧
      ((∀ i ∈ s.items, i.ctx ≠ ctx) → SameMemory s t) ∧
      ∀ u x gid g, s.team? u = some x → x.ctx = ctx → x.core ≠ none → s.group? u gid = some g → g.inPlay →
        ∃ g', t.group? u gid = some g' ∧ g'.handler = some (s.entryHandler x 0x51 0) ∧ g'.pending = none ∧
          g'.preempt = false ∧ (∀ l, l < 32 → vget g'.rays l none = none) ∧
          ((∀ i ∈ s.items, i.ctx ≠ ctx) → ∀ k, k < 4 → g'.record k = ruleFrozen (g.record k))) ∧
  ∀ s ctx c, s.context? ctx = some c →
    ∃ t, exec (.contextHalt ctx) s = .next t ∧ t.haltedCtx ctx ∧ t = { s with contexts := t.contexts, grids := t.grids }

/-! ## Events of launches, graphs and pages -/

/-- LAUNCH_ENQUEUE and DLAUNCH_ENQUEUE put packets on their queues (R202, R245). DISPATCH checks the packet of the launch
that is next, with the counts of memory where it is INDIRECT: its grid is eligible, or a launch fault completes it (R201,
R203, R204). TEAM_PLACEMENT starts the next teams of a grid (R44, R205 to R207, R214), a consumer grid's with its records
(R243). Contents of dead registers, the packet's copy at enqueue and a queue that is bound anew while a DLAUNCH waits are the
model's (log 5 DESIGN CHOICE, log 35 DEDUCED, log 36 DEDUCED). -/
def Obligations.LaunchesStart : Prop :=
  (∀ s ctx a image c p, s.context? ctx = some c → s.packetAt c a = some p → s.queueCtx c.slice (pktQueue p) = some ctx →
    s.queueLen c.slice (pktQueue p) < 1024 →
      ∃ t g, exec (.launchEnqueue ctx a image) s = .next t ∧ t.grids = s.grids ++ [g] ∧ g.image = image ∧
        EnqueuedAs s c [(0, BitVec.ofNat 64 a, p)] [g] ∧ t = { s with grids := t.grids, seqs := t.seqs, nextId := t.nextId }) ∧
  (∀ s v u gid fl as fs s' c, s.sleeps v u gid fl (.room as) → v.redsOut = false →
    v.s.packetFates v.core v.t.ctx as = (fs, s') → s'.roomFor v.t.slice (s'.packetsOf fs) = true →
    s'.context? v.t.ctx = some c → c.slice = v.t.slice →
      (PacketsGood v as fs s' →
        ∃ t gs, exec (.dlaunchEnqueue u gid fl) s = .next t ∧ v.Performs s t v (Group.Woken fl) 0 {} ∧ SameMemory s t ∧
          t.grids = s.grids ++ gs ∧ EnqueuedAs s c (s'.packetsOf fs) gs) ∧
      let lost := (s'.packetsOf fs).filter fun p => decide (s'.queueCtx v.t.slice (pktQueue p.2.2) ≠ some v.t.ctx)
      ((∀ f ∈ fs, ∃ ls, f.2.2 = .ok ls) → lost ≠ [] → exec (.dlaunchEnqueue u gid fl) s =
        ((v.onState s').withGroup (v.g.setSleep fl .awake)).trap 0 0x11
          ((maskOf fun l => lost.any fun p => p.1 == l).zeroExtend 64))) ∧
  (∀ s g c, s.isNext g → s.context? g.ctx = some c →
    ((g.packet.getD 3 0).getLsbD 9 = false → Dispatches s g g.dims.1 g.dims.2.1 g.dims.2.2) ∧
    ∀ a b d, (g.packet.getD 3 0).getLsbD 9 = true → s.countsAt c g [a, b, d] →
      let n (pa : Nat) : Nat := Memory.nat s.mem pa 4
      (n a < 65536 → n b < 65536 → n d < 65536 → Dispatches s g (n a) (n b) (n d)) ∧
      (65536 ≤ n a ∨ 65536 ≤ n b ∨ 65536 ≤ n d →
        ∃ t g', exec (.dispatch g.uid) s = .next t ∧ t.grid? g.uid = some g' ∧ g'.state = .complete ∧
          t.reports = s.reports ++ [.launch g.ctx g.seq] ∧ t.haltedCtx g.ctx)) ∧
  ∀ s g cores, PlacesOn s g cores →
    ∃ t ts g', exec (.teamPlacement g.uid cores) s = .next t ∧ t.teams = s.teams ++ ts ∧ ts.length = cores.length ∧
      t.grid? g.uid = some g' ∧ g'.placed = g.placed + cores.length ∧ (∀ a, Memory.read t.mem a = Memory.read s.mem a) ∧
      ∀ (k : Nat) x, ts[k]? = some x → x.uid = s.nextId + k ∧ x.gang = s.nextId ∧ x.grid = g.uid ∧ x.ctx = g.ctx ∧
        x.slice = g.slice ∧ x.tidx = g.placed + k ∧ x.core = cores[k]? ∧ x.shBytes = (g.packet.getD 2 0).toNat % 2 ^ 19 ∧
        x.groups.length = (pktGroupRoles g.packet).length ∧
        ∀ (j : Nat) y r, x.groups[j]? = some y → (pktGroupRoles g.packet)[j]? = some r → y.gid = j ∧ StartedAt g x y r ∧
          ∀ w n rs, g.batch = some (w.uid, n, rs) → s.graph? w.uid = some w → y.sReg false 1 = BitVec.ofNat 64 rs.length ∧
            ∀ (l i : Nat), l < 32 → y.launched.getLsbD l = true → rs[32 * j + l]? = some i →
              y.vAt 0 l = BitVec.ofNat 64 (w.pool + i * w.slotSize) ∧ y.vLiveAt 0 l = true

/-- GROUP_RETIRE: a group with no live lane, no handler, no item and no RED retires (R155); GROUP_REMOVE ends a group of a
killed context, or of an unloaded graph (R228, R244). GRID_COMPLETE: a grid whose teams have all ended is complete (R198). When the grid of a halted
context completes is the model's reading (log 35 DEDUCED). -/
def Obligations.GroupsRetire : Prop :=
  (∀ s u gid g, s.group? u gid = some g → g.retired = false → g.saved = false → g.live = 0#32 → g.handler = none →
    (∀ i ∈ s.items, ¬(i.party.team = u ∧ i.party.gid = gid)) → (∀ r ∈ s.reds, ¬(r.party.team = u ∧ r.party.gid = gid)) →
      ∃ t, exec (.groupRetire u gid) s = .next t ∧ Departs s t u gid ∧ (∀ a, Memory.read t.mem a = Memory.read s.mem a)) ∧
  (∀ s u gid x g, s.team? u = some x → s.group? u gid = some g →
    ((∃ c, s.context? x.ctx = some c ∧ c.killed = true) ∨
      ∃ r b, s.grid? x.grid = some r ∧ r.batch = some b ∧ s.graph? b.1 = none) → g.retired = false → (∀ i ∈ s.items, ¬(i.party.team = u ∧ i.party.gid = gid)) →
      ∃ t, exec (.groupRemove u gid) s = .next t ∧ Departs s t u gid ∧ (∀ a, Memory.read t.mem a = Memory.read s.mem a)) ∧
  ∀ s g c, s.grid? g.uid = some g → s.context? g.ctx = some c → g.state = .eligible →
    g.done = (if c.halted then g.placed else g.teamCount) →
      ∃ t g', exec (.gridComplete g.uid) s = .next t ∧ t.grid? g.uid = some g' ∧ g' = { g with state := .complete } ∧
        t.teams = s.teams ∧ t.captures.length = s.captures.length ∧ (g.capture = none → t = { s with grids := t.grids })

/-- BATCH_TIMEOUT and BATCH_DRAIN launch a batch that is not full (R242, R243). GRAPH_LOAD loads the graph that a descriptor in
memory gives where it passes the checks of R233 to R235, and no other; GRAPH_UNLOAD ends one, its sleepers issue again, and its
consumer teams end as a kill ends them (R228, R244). WGALLOC_GRANT serves the sleeper that came first among those that can be
met (R238). What a refused or repeated load does is the model's reading, and which slots are granted is free (log 23 DEDUCED,
log 11 DESIGN CHOICE). -/
def Obligations.GraphsGoOn : Prop :=
  (∀ s x n d c, s.graph? x.uid = some x → x.nodes[n]? = some d → s.context? x.ctx = some c → d.queue ≠ [] →
    (d.timeout ≠ 0 → LaunchesBatch s (exec (.batchTimeout x.uid n) s) x n (min d.queue.length d.batch)) ∧
    ((∀ e ∈ x.slots, e.2 ≠ .allocated n) → (∀ m e, x.nodes[m]? = some e → e.succ.getLsbD n = true → ¬ruleLive s x m e) →
      LaunchesBatch s (exec (.batchDrain x.uid n) s) x n (min d.queue.length d.batch))) ∧
  (∀ s ctx addr c, s.context? ctx = some c → s.graphOf ctx addr = none →
    (∀ x, GraphGood s c addr x →
      exec (.graphLoad ctx addr) s = .next { s with graphs := s.graphs ++ [x], nextId := s.nextId + 1 }) ∧
    ((¬∃ x, GraphGood s c addr x) → exec (.graphLoad ctx addr) s = .next s)) ∧
  (∀ s x, s.graph? x.uid = some x →
    let of (g : Grid) : Prop := ∃ n rs, g.batch = some (x.uid, n, rs)
    let hit (u : Nat) : Prop := ∃ y g, s.team? u = some y ∧ s.grid? y.grid = some g ∧ of g
    ∃ t, exec (.graphUnload x.uid) s = .next t ∧ t.graph? x.uid = none ∧ ((∀ i ∈ s.items, ¬hit i.party.team) → SameMemory s t) ∧
      (∀ y, y.uid ≠ x.uid → (y ∈ t.graphs ↔ y ∈ s.graphs)) ∧
      (∀ (k : Nat) g, s.grids[k]? = some g → ∃ g', t.grids[k]? = some g' ∧ (¬of g → g' = { g with fin := g'.fin }) ∧
        (of g → g.placed = 0 → g'.state = .complete)) ∧
      (∀ u gid k n d ls o, s.sleepAt u gid k = .wgalloc x.uid n d ls o → t.sleepAt u gid k = .awake) ∧
      (s.itemsApart → (∀ i ∈ t.items, i ∈ s.items ∧ ¬hit i.party.team) ∧
        ∀ i ∈ s.items, ¬hit i.party.team → i.inPass = false → i ∈ t.items) ∧
      ∀ u y gid g, s.team? u = some y → hit u → y.core ≠ none → s.group? u gid = some g → g.inPlay →
        ∃ g', t.group? u gid = some g' ∧ g'.handler = some (s.entryHandler y 0x51 0) ∧ g'.pending = none ∧
          g'.preempt = false ∧ ∀ l, l < 32 → vget g'.rays l none = none) ∧
  ∀ s v u gid fl x n d lanes order, s.sleeps v u gid fl (.wgalloc x.uid n d lanes order) → s.graph? x.uid = some x →
    lanes ≠ 0#32 → x.canMeet n (lanesOf lanes).length = true → (lanesOf lanes).length ≤ x.freeSlots.length →
    (∀ e ∈ s.allocSleepers, s.sleeperMet e = true → e.1 = ⟨u, gid, fl⟩ ∨ order < e.2.2.2.2) →
      ∃ t x' a js, exec (.wgallocGrant u gid fl) s = .next t ∧
        v.Performs s t v (Group.Woken fl) 0 { vw := [(d, lanes, a)] } ∧ Granted x x' n (lanesOf lanes) a js ∧
        SameBeyondGraph s t x' ∧ SameMemory s t

/-- PAGE_PRESENT: the entries stand, and whatever waits for a page that is mapped now goes on; a page that is refused raises
PROT where an instruction waits for it (R22, R216). PAGE_MIGRATE begins by withdrawing the page and ends with its bytes at
the new frame. An invalidation drops the translations (R20). A soft error stands in its word; a correctable one is logged and
counted in its block (R375). How each waiter on a refused page ends, and where errors stand, are the model's reading (log 37 DEDUCED,
log 42 DEDUCED), and the blocks its choice (log 47 DESIGN CHOICE). -/
def Obligations.PagesArrive : Prop :=
  (∀ s ctx va es c, s.context? ctx = some c → s.memOk = true → (∀ e ∈ es, e.1 % 8 = 0 ∧ e.1 + 8 ≤ 2 ^ 56) →
    ∃ t, exec (.pagePresent ctx va (some es)) s = .next t ∧ Stored s t 8 (es.map fun e => (.at e.1 0 false, e.2.toNat)) ∧
      (∀ u x gid k a ls, s.team? u = some x → x.ctx = ctx → s.sleepAt u gid k = .xlate a ls →
        (t.absentAt c a → t.sleepAt u gid k = .xlate a ls) ∧ (¬t.absentAt c a → t.sleepAt u gid k = .awake)) ∧
      (∀ (k : Nat) i, s.items[k]? = some i → i.ctx = ctx → ∃ j, t.items[k]? = some j ∧
        j = { i with waits := j.waits } ∧ ∀ w, w ∈ j.waits ↔ w ∈ i.waits ∧ t.absentAt c w.2) ∧
      ∀ (k : Nat) r a, s.reds[k]? = some r → r.ctx = ctx → r.wait = some a →
        ∃ q, t.reds[k]? = some q ∧ q = { r with wait := q.wait } ∧ (q.wait = none ↔ ¬t.absentAt c a)) ∧
  (∀ s ctx va c, s.context? ctx = some c → s.absentAt c va →
    ∃ t, exec (.pagePresent ctx va none) s = .next t ∧
      ∀ u gid fl v ls a, s.sleeps v u gid fl (.xlate a ls) → a / 8192 = va / 8192 → v.t.ctx = ctx → fl < 4 → v.g.handler = none →
        (∀ k, k < fl → ¬(s.sleepAt u gid k).waitsPage (va / 8192)) →
          ∃ g h, t.group? u gid = some g ∧ g.handler = some h ∧
            h = { ruleHandler v 0x11 (ls.zeroExtend 64 ||| BitVec.ofNat 64 (2 ^ 63)) with stop := h.stop }) ∧
  (∀ s ctx va frame kind c e, s.context? ctx = some c → s.memOk = true → s.walk c va = .ok e →
    e.kind = (if kind = 0 then .main else .scratch) → kind < 2 → s.frameFits c.slice kind frame e.size = true →
    (∀ r ∈ s.reds, r.ctx = c.id → r.word.sp = true → r.back ≠ none → ∀ x ∈ r.lanes,
      x.addr.toNat + 8 ≤ e.base ∨ e.base + 2 ^ e.size ≤ x.addr.toNat) →
      let slot := leafSlot s.mem va 4 c.root
      let n := pageCopies e.size
      let first := slot / (8 * n) * (8 * n)
      let pte := Memory.word s.mem slot
      ∃ t, exec (.pageMigrate ctx va frame kind false) s = .next t ∧
        Stored s t 8 ((List.range n).map fun k => (.at (first + 8 * k) 0 false, (pte &&& ~~~1#64).toNat)) ∧
        t.migrating = s.migrating ++ [⟨c.id, e.base, first, n, e.size, e.frame, pte⟩] ∧
        (∀ x ∈ t.tlb1, x.2.covers c.id va = false) ∧ ∀ x ∈ t.tlb2, x.2.covers c.id va = false) ∧
  (∀ s ctx va frame kind c m, s.context? ctx = some c → s.memOk = true →
    s.migrating.find? (fun m => m.ctx == c.id && decide (m.va ≤ va) && decide (va < m.va + 2 ^ m.size)) = some m → kind < 2 →
    s.frameFits c.slice kind frame m.size = true → m.entry + 8 * m.copies ≤ frame ∨ frame + 2 ^ m.size ≤ m.entry →
      ∃ t, exec (.pageMigrate ctx va frame kind true) s = .next t ∧ m ∉ t.migrating ∧
        (∀ o, o < 2 ^ m.size → Memory.read t.mem (frame + o) = Memory.read s.mem (m.old + o)) ∧
        ∀ k, k < m.copies → Memory.word t.mem (m.entry + 8 * k) = pteMoved m.pte kind frame) ∧
  (∀ s ctx va, ∃ t, exec (.translationBufferInvalidation ctx va) s = .next t ∧ t = { s with tlb1 := t.tlb1, tlb2 := t.tlb2 } ∧
    let gone (e : TlbEntry) : Prop := match va with | none => e.ctx = ctx | some a => e.covers ctx a = true
    (∀ x, x ∈ t.tlb1 ↔ x ∈ s.tlb1 ∧ ¬gone x.2) ∧ ∀ x, x ∈ t.tlb2 ↔ x ∈ s.tlb2 ∧ ¬gone x.2) ∧
  ∀ s site,
    (∃ t, exec (.softError site true) s = .next t ∧
      t = { s with reports := s.reports ++ [.corrected site], corrected := t.corrected } ∧
      ∀ b, t.correctedIn b = s.correctedIn b + if s.errBlock site = some b then 1 else 0) ∧
    ∃ t, exec (.softError site false) s = .next t ∧ ((∀ k, site ≠ .millers k) → SameMemory s t) ∧
      match site with
      | .memory pa => pa < 2 ^ 56 → ∀ n, 0 < n → t.badMem pa n = true
      | .shared u off => (∃ x, s.team? u = some x ∧ off < x.shBytes) → ∀ n, 0 < n → t.badShared u off n = true
      | .vreg u gid r l => r < 128 → l < 32 → ∀ g, s.group? u gid = some g →
          t.group? u gid = some { g with eccV := addOnce (r, l) g.eccV }
      | .sreg u gid r => 0 < r → r < 64 → ∀ g, s.group? u gid = some g →
          t.group? u gid = some { g with eccS := addOnce r g.eccS }
      | .mreg u gid r => 0 < r → r < 16 → ∀ g, s.group? u gid = some g →
          t.group? u gid = some { g with eccM := addOnce r g.eccM }
      | .operandA c k => (s.mmaTable c).any Item.inPass = true → k ∈ (t.matrix c).errA
      | .operandB c => (s.mmaTable c).any Item.inPass = true → (t.matrix c).errB = true
      | .array c => (s.mmaTable c).any Item.inPass = true → (t.matrix c).errArray = true
      | .icache _ => t = s
      | .millers _ => exec .millerUncorrectable s = .next t

/-! ## Events of engines -/

/-- COPY_ITEM_COMPLETE: an item of an XCP command starts in its turn, its descriptor read once, and ends, or waits for a page; a
LINEAR one moves its bytes (R250 to R261). MATRIX_GRANT starts a pass with the request that comes first and those that are fused
with it, and MMA_COMPLETE ends each request of the pass, whole or failing, with the products of those that are DONE (R266 to
R278). ENGINE_RESET ends the items of its engine CANCELLED, and no other (R228, R262, R279); LASTCORE is 3 again, and an RTU's
slots are free (R266, R356). That an item reads before it writes, and fails before it waits, is the model's, and so is which
requests of a pass end DONE at a reset (log 26 DESIGN CHOICE, log 13 DESIGN CHOICE). -/
def Obligations.CopyAndMatrixItemsEnd : Prop :=
  (∀ s i (x : Xcp) k, s.item? i.id = some i → i.work = x.work → (∀ w ∈ i.waits, w.1 ≠ k) →
    let o := exec (.copyItemComplete i.id k) s
    (CopyTurn s i x k →
      (∀ u a, s.itemAddr i (x.desc + BitVec.ofNat 64 (64 * k)) 64 = .ok (u, a) →
        (s.badShared u a 64 = true → CopyEnds s o i x k (.failed 0x60) 0) ∧
        (s.badShared u a 64 = false → s.missable (i.readsBy i.clk) (sharedKey u a) 64 = [] →
          let ws := (List.range 8).map fun j => Memory.word (s.sharedOf u) (a + 8 * j)
          ∃ s1, s1 = { s with items := s1.items } ∧ o = exec (.copyItemComplete i.id k) s1 ∧
            s1.item? i.id = some { i with work := ({ x with items := x.items.set k (.running ws []) } : Xcp).work })) ∧
      ∀ c, s.itemAddr i (x.desc + BitVec.ofNat 64 (64 * k)) 64 = .error c → CopyEnds s o i x k (.failed c) 0) ∧
    ∀ ws moved, x.items[k]? = some (.running ws moved) →
      (∀ c, (s.copyPlan i ws).1 = .inl c → CopyEnds s o i x k (.failed c) 0) ∧
      (∀ d fs, (s.copyPlan i ws).1 = .inr (d, fs) →
        (∀ ls, joinFates (fs.map UnitFate.fate) = .ok ls → CopyEnds s o i x k .done d.dbytes) ∧
        (∀ c, joinFates (fs.map UnitFate.fate) = .fail c → CopyEnds s o i x k (.failed c) d.dbytes) ∧
        ∀ va m, joinFates (fs.map UnitFate.fate) = .wait va m → ItemWaits s o i k va m) ∧
      ∀ y n src dst, s.memOk = true → s.team? i.party.team = some y → s.linearCopy i y ws n src dst →
        (∀ b, x.bar = some b → ∃ j c, j ≠ k ∧ x.items[j]? = some c ∧ c.isFinal = false) → x.sts = none →
          CopyEnds s o i x k .done n ∧ ∃ t, o = .next t ∧
            Stored s t 1 ((List.range n).map fun j => (dst.plus j, numberAt s [] 1 (src.plus j)))) ∧
  (∀ s cluster, let ws := s.mmaWaiting cluster
    ws ≠ [] →
      ∃ t x ys, exec (.matrixGrant cluster) s = .next t ∧ x ∈ ws ∧ (∀ y ∈ ws, notAfter (s.matrix cluster).last x y) ∧
        let ids := x.id :: ys.map Item.id
        let fits (y : Item) : Prop := y ∈ ws ∧ y.id ≠ x.id ∧ y.mmaKey = x.mmaKey ∧ y.mmaKey.isSome = true
        (x.party.slice ∈ s.det → ys = []) ∧ ys.length ≤ 3 ∧ (∀ y ∈ ys, fits y) ∧
        (x.party.slice ∉ s.det → ∀ z, fits z → z.id ∉ ids → ys.length = 3 ∧ ∀ y ∈ ys, notAfter (x.core % 4) y z) ∧
        t = { s with items := t.items, matrices := t.matrices } ∧ (t.matrix cluster).last = x.core % 4 ∧
        t.items = s.items.map fun i => if ids.contains i.id then i.intoPass else i) ∧
  (∀ s cluster, let pass := s.passOf cluster
    pass ≠ [] → (∀ i ∈ pass, s.item? i.id = some i) → (pass.map Item.id).Nodup →
      ∃ t m, exec (.mmaComplete cluster) s = .next t ∧ m = t.matrix cluster ∧ m.errA = [] ∧ m.errB = false ∧
        m.errArray = false ∧ m.last = (s.matrix cluster).last ∧ PassWrites s t (ruleDone s cluster) ∧
        (∀ (k : Nat) i, pass[k]? = some i → i.tokenAlone pass →
          EndsItem s t i (ruleToken (ruleMmaEnd s cluster pass k i) pass.length)) ∧
        ∀ i ∈ ruleDone s cluster, ∀ q f a b x g ua oa ub ob, i.mma? = some q → mmaBlock q.block = some (f, a, b) → f = .int8 →
          s.team? i.party.team = some x → s.group? i.party.team i.party.gid = some g →
          s.operandAt i q.opr x a ua oa → s.operandAt i q.opr x b ub ob →
            ∀ r l, r < 64 → r < i.vs.length → l < 32 → g.launched.getLsbD l = true →
              let c := lane (i.vs.getD r (LaneVec.splat 0)) l
              lane ((s.mmaValues i g.launched).getD r (LaneVec.splat 0)) l =
                ruleInt8 s a b ua oa ub ob r (2 * l + 1) (c.extractLsb' 32 32) ++
                  ruleInt8 s a b ua oa ub ob r (2 * l) (c.extractLsb' 0 32)) ∧
  ∀ s e, ∃ t, exec (.engineReset e) s = .next t ∧
    (s.itemsApart → ItemsCancelled s t (fun i => i.of e) true) ∧
    match e with
    | .matrix c => (t.matrix c).last = 3
    | .rtu c => ∀ x ∈ t.teams, x.core = some c → ∀ g ∈ x.groups, ∀ l, l < 32 → vget g.rays l none = none
    | _ => True

/-- HTU_ITEM_COMPLETE: an HLD ends with what its lanes met, or under FAULT raises DISOCC with the lanes that missed (R299).
HCTL_COMPLETE performs a function's writes and ends it (R301 to R307). SCRUB poisons and reports a sealed page whose CRC
differs, and leaves one whose CRC agrees alone (R298). That functions of other splits and groups take their turns in any order
is the model's reading (log 28 DEDUCED). -/
def Obligations.HistoryItemsEnd : Prop :=
  (∀ s i age filter fault short mm c vc kills, s.item? i.id = some i → i.work = .hld age filter fault short mm c vc kills →
    (∀ w ∈ i.waits, w.1 ≠ 0) →
    let o := exec (.htuItemComplete i.id) s
    let r := ((hldRun i age filter short c).attempt i s).1
    (∀ va m, r = .error (.wait va m) → ItemWaits s o i 0 va m) ∧
    (∀ e, r = .error (.fail e) → ∃ t, o = .next t ∧ SameMemory s t ∧ EndsItem s t i (ruleToken (.failed e) 0)) ∧
    ∀ xs fb, r = .ok (xs, fb) →
      let miss := missMask xs
      (fault = false ∨ miss = 0#32 → ∃ t, o = .next t ∧ SameMemory s t ∧ EndsItem s t i (ruleToken .done (lanesOf miss).length) ∧
        WritesRegs s t i i.eff (ruleHldReg i c vc fb xs) ∧
        (mm ≠ 0 → mm < 14 → i.dropM = false → ∀ g, s.group? i.party.team i.party.gid = some g →
          ∃ g', t.group? i.party.team i.party.gid = some g' ∧
            g'.mReg false mm = (if i.eff = 0#32 then g.mReg false mm else (g.mReg false mm &&& ~~~i.eff) ||| miss))) ∧
      (fault = true → miss ≠ 0#32 → s.hldSleeper i → ∀ v, s.viewOf i.party.team i.party.gid i.flow 2 = some v → i.flow < 4 →
        v.g.handler = none → ∃ t g, o = .next t ∧ SameMemory s t ∧ t.item? i.id = none ∧
          t.group? i.party.team i.party.gid = some g ∧ g.handler = some (ruleHandler v 0x30 (miss.zeroExtend 64)) ∧
          (i.tok ≠ 0 → g.tokenBusy i = false) ∧ v.g.keepsV g (fun _ _ => false) (fun _ _ => false) ∧
          v.g.keepsS g (fun _ _ => false))) ∧
  (∀ s i, s.memOk = true → s.item? i.id = some i → i.isHctl = true → (∀ w ∈ i.waits, w.1 ≠ 0) → HctlTurn s i →
    let o := exec (.hctlComplete i.id) s
    let r := ((hctlRun i).attempt i s).1
    (∀ va m, r = .error (.wait va m) → ItemWaits s o i 0 va m) ∧
    (∀ e, r = .error (.fail e) → ∃ t, o = .next t ∧ SameMemory s t ∧ EndsItem s t i (ruleToken (.failed e) 0)) ∧
    ∀ e, r = .ok e → ∃ t, o = .next t ∧ EngineWrote s t e.writes ∧ EndsItem s t i (ruleToken e.status e.result)) ∧
  ∀ s ctx space page c q w bytes, s.memOk = true → s.context? ctx = some c → Scrubbed s c space page q w bytes →
    (crc32c bytes = w % 2 ^ 32 → exec (.scrub ctx space page) s = .next s) ∧
    (crc32c bytes ≠ w % 2 ^ 32 → ∀ pa,
      s.ctlLocs c (fun e => e.w) (q.pages + BitVec.ofNat 64 (8 * page)).toNat 8 = some [(pa, 8)] →
        ∃ t, exec (.scrub ctx space page) s = .next t ∧
          Stored s t 8 [(.at pa 0 false, if w / 2 ^ 33 % 2 = 1 then w else w + 2 ^ 33)] ∧
          t.reports = s.reports ++ [.poison ctx space page])

/-- LCU_OPERATION performs the next lane of a layer item, whole or not at all, and LCU_ITEM_COMPLETE ends it (R317 to R331).
TRAVERSAL_STEP takes a ray one step on (R343, R344, R349, R350, R356), and RAY_ITEM_COMPLETE ends a ray item with its lanes'
reports, writes the records of RTSAVE and reads those of RTLOAD (R348, R351 to R353). Which items may run in another order, and
the grain of a ray step, are the model's reading (log 28 DEDUCED, log 34 DEDUCED). -/
def Obligations.LayerAndRayItemsEnd : Prop :=
  (∀ s i w l, s.memOk = true → s.item? i.id = some i → i.lcu? = some w → w.fail = none → (lanesOf i.eff)[w.next]? = some l →
    (∀ y ∈ i.waits, y.1 ≠ 0) → s.lcuBlocked i w = false →
    let o := exec (.lcuOperation i.id) s
    let r := ((lcuLane i w l).attempt i s).1
    (∀ va m, r = .error (.wait va m) → ItemWaits s o i 0 va m) ∧
    (∀ c, r = .error (.fail c) → ∃ t j, o = .next t ∧ SameMemory s t ∧ t.item? i.id = some j ∧
      j = { i with work := j.work } ∧ j.lcu? = some { w with fail := some c }) ∧
    ∀ x, r = .ok x → ∃ t j, o = .next t ∧ EngineWrote s t x.writes ∧ t.item? i.id = some j ∧
      j = { i with work := j.work, outs := j.outs } ∧
      j.lcu? = some { w with
        next := w.next + 1, count := w.count + x.count
        told := if x.flag then w.told ||| (maskOf fun k => decide (k = l)) else w.told } ∧
      ∀ (k : Nat) y, x.outs[k]? = some y → lane (j.outs.getD k (LaneVec.splat 0)) l = y) ∧
  (∀ s i w, s.item? i.id = some i → i.lcu? = some w → (w.fail ≠ none ∨ (lanesOf i.eff)[w.next]? = none) →
    ∃ t, exec (.lcuItemComplete i.id) s = .next t ∧ SameMemory s t ∧
      EndsItem s t i (ruleToken (ruleLcuEnd w).1 (ruleLcuEnd w).2) ∧
      WritesRegs s t i i.eff (fun r => if (ruleLcuEnd w).1 = .done ∧ i.d ≤ r ∧ r < i.d + i.outs.length then
        some fun l => lane (i.outs.getD (r - i.d) (LaneVec.splat 0)) l else none)) ∧
  (∀ s u gid l i w, (s.rayItems u gid l).head? = some i → s.item? i.id = some i → l < 32 → i.ray? = some w → w.traverses = true →
    w.out l = none →
    let o := exec (.traversalStep u gid l) s
    (i.waiting l = false ∨ w.suspend = true → s.rayOf i l = none → ∃ t, o = .next t ∧ SameMemory s t ∧
      t.reported i.id l = some (RayOut.plain (if w.fn = .trace then 6 else 7) 0)) ∧
    ∀ r g, s.rayOf i l = some r → s.group? u gid = some g →
      let q := { r with owner := i.id }
      let traverses : Prop := q.worldRay.invalid = false ∧ q.worldRay.empty = false
      (w.suspend = true → traverses → r.held = 0 → ∃ t g', o = .next t ∧ SameMemory s t ∧
        t.reported i.id l = some (q.out 4) ∧ t.group? u gid = some g' ∧ g'.ray l = some { q with held := 4 }) ∧
      (i.waiting l = false ∨ w.suspend = true → r.held ≠ 0 → w.accept.getLsbD l = false ∨ r.held ≠ 2 →
        ∃ t g', o = .next t ∧ SameMemory s t ∧ t.group? u gid = some g' ∧
          g'.ray l = some (if r.held = 2 then { q with cand := noCand, held := 0 } else { q with held := 0 })) ∧
      (i.waiting l = false ∨ w.suspend = true → r.held = 2 → w.accept.getLsbD l = true →
        let y := Ray.commit { q with cand := noCand, held := 0 } r.cand
        ∃ t g', o = .next t ∧ SameMemory s t ∧ t.group? u gid = some g' ∧
          (y.first = true → t.reported i.id l = some (y.out 0) ∧ g'.ray l = none) ∧ (y.first = false → g'.ray l = some y)) ∧
      (i.waiting l = false ∨ w.suspend = true → ¬(w.suspend = true ∧ traverses) → r.held = 0 →
        (∀ y, ((rayStep i q).attempt i s).1 = .ok (.go y) →
          ∃ t g', o = .next t ∧ SameMemory s t ∧ t.group? u gid = some g' ∧ g'.ray l = some y) ∧
        (∀ y st, ((rayStep i q).attempt i s).1 = .ok (.stop y st) →
          ∃ t g', o = .next t ∧ SameMemory s t ∧ t.reported i.id l = some (y.out st) ∧ t.group? u gid = some g' ∧
            g'.ray l = if st = 2 then some { y with held := 2 } else none) ∧
        (∀ va m, ((rayStep i q).attempt i s).1 = .error (.wait va m) → ItemWaits s o i l va m) ∧
        ∀ c, ((rayStep i q).attempt i s).1 = .error (.fail c) →
          ∃ t g', o = .next t ∧ SameMemory s t ∧ t.reported i.id l = some (RayOut.plain 5 c) ∧
            t.group? u gid = some g' ∧ g'.ray l = none)) ∧
  ∀ s i w, s.item? i.id = some i → i.ray? = some w →
    let o := exec (.rayItemComplete i.id) s
    let has : Mask := maskOf fun l => i.eff.getLsbD l && (s.rayOf i l).isSome
    (w.traverses = true → (∀ l ∈ lanesOf i.eff, (w.out l).isSome) →
      RaysReport s o i fun l => (w.out l).getD (RayOut.plain 0 0)) ∧
    (w.fn = .load → s.rayTurn i w →
      (∀ l ∈ lanesOf i.eff, w.out l = none → (∃ r, s.rayOf i l = some r ∧ r.owner = i.id) ∨ ∀ r, s.loadRecord i l ≠ .ray r) →
        RaysReport s o i fun l =>
          match w.out l, s.loadRecord i l with
          | some x, _ => x
          | none, .ray r => r.out r.held
          | none, .noRay => RayOut.plain 7 0
          | none, .fault c => RayOut.plain 5 c) ∧
    (w.fn = .save → s.memOk = true → s.rayTurn i w →
      let place (l : Nat) : Except Nat (Nat × Nat) := s.itemAddr i (lane (i.vs.headD (LaneVec.splat 0)) l) 192
      let left : List Nat := (lanesOf i.eff).filter fun l => (w.out l).isNone
      let n := ((lanesOf i.eff).filter fun l =>
        match w.out l with | some x => x.status == 0 | none => (s.rayOf i l).isSome).length
      ∃ t, o = .next t ∧ EndsItem s t i (ruleToken .done n) ∧
        (∀ g, t.group? i.party.team i.party.gid = some g → ∀ l ∈ left, (s.rayOf i l).isSome → g.ray l = none) ∧
        ∀ l ∈ left, ∀ u a, place l = .ok (u, a) →
          (∀ k ∈ left, k ≠ l → ∀ b, place k = .ok (u, b) → b + 192 ≤ a ∨ a + 192 ≤ b) →
            ∀ b, b < 192 → Memory.read (t.sharedOf u) (a + b) =
              (((s.rayOf i l).map Ray.bytes).getD noRayBytes).getD b 0) ∧
    (w.fn = .abort → s.rayTurn i w → ∃ t, o = .next t ∧ SameMemory s t ∧
      EndsItem s t i (ruleToken .done (lanesOf has).length) ∧
      (∀ g, t.group? i.party.team i.party.gid = some g → ∀ l, l < 32 → has.getLsbD l = true → g.ray l = none) ∧
      ∀ x y l, s.item? x.id = some x → x.party = i.party → x.id < i.id → x.ray? = some y → y.traverses = true → l < 32 →
        has.getLsbD l = true → x.eff.getLsbD l = true → (y.out l = none ∨ ∃ z, y.out l = some z ∧ (z.status = 2 ∨ z.status = 4)) →
          t.reported x.id l = some (RayOut.plain 6 0))

/-! ## Slices, displays, streams and captures -/

/-- SLICE_CUT_CHANGE and DETERMINISTIC_MODE_SET, with no team resident (R213, R359, R368): a change of the cut finishes the frame
that a head reads, cancels the frames that await encode, and leaves no translation of the old cut; that contexts, queue bindings
and launches stay is the model's (log 47 DESIGN CHOICE). HEAD_CONFIGURE and ENCODE_CONFIGURE accept what R361 and R364 allow,
and refuse the rest. FRAME_LATCH takes the descriptors, and FRAME_DONE writes FRAME (R362, R363). ACCESS_UNIT_WRITE writes a
unit's entry, or skips a frame; RING_RETURN frees what the tenant's words say it has read (R371). REPLAY puts a launch on its
queue again (R370). Lengths are free values (DESIGN CHOICE, log 17). The digests measured, the numbering of ring indices, what
the tenant's words hold at first and the form of a capture are the model's (log 17 DESIGN CHOICE, log 18 DESIGN CHOICE, log 38
DESIGN CHOICE). -/
def Obligations.DisplaysAndSlices : Prop :=
  (∀ s slices, s.boot = .running → slices ∈ [1, 2, 4, 8] → (∀ x ∈ s.teams, x.core = none) →
    ∃ t, exec (.sliceCutChange slices) s = .next t ∧ t.cut = slices ∧ t.heads = [] ∧ t.streams = [] ∧ t.tlb1 = [] ∧ t.tlb2 = [] ∧
      t.contexts = s.contexts ∧ t.queues = s.queues ∧ t.grids = s.grids ∧ SlicesMeasured s.measAt t ∧
      ((∀ h ∈ s.heads, h.latched = none) → SameMemory s t) ∧
      (∀ h c ps pa, s.heads = [h] → h.latched = some ps → s.context? h.cfg.ctx = some c → s.memOk = true →
        h.cfg.toEncoder = true → s.ctlLocs c scratchPage h.cfg.status 8 = some [(pa, 8)] →
          Stored s t 8 [(.at pa 0 false, h.frame + 1)]) ∧
      ∀ x ∈ s.streams, ∀ h, s.head? (x.cfg.head / 4) (x.cfg.head % 4) = some h → x.nextFrame < h.frame →
        .cancelled x.engine x.stream true ∈ t.reports) ∧
  (∀ s slice on, slice < s.cut → (∀ x ∈ s.teams, x.slice = slice → x.core = none) →
    ∃ t, exec (.deterministicModeSet slice on) s = .next t ∧ t = { s with det := t.det } ∧
      (slice ∈ t.det ↔ on = true) ∧ ∀ k, k ≠ slice → (k ∈ t.det ↔ k ∈ s.det)) ∧
  (∀ s engine head cfg, s.boot = .running →
    (HeadAllowed s engine head cfg → ∃ t h, exec (.headConfigure engine head cfg) s = .next t ∧
      t = { s with
        heads := t.heads
        streams := s.streams.map fun x => if x.cfg.head = 4 * engine + head then { x with nextFrame := 0 } else x } ∧
      t.head? engine head = some h ∧ h = ⟨engine, head, cfg, 0, [], none⟩ ∧
      ∀ e k, (e ≠ engine ∨ k ≠ head) → t.head? e k = s.head? e k) ∧
    (¬HeadAllowed s engine head cfg → exec (.headConfigure engine head cfg) s =
      .next { s with responses := s.responses ++ [(.vf (s.engineSlice engine), .refusedConfig)] })) ∧
  (∀ s engine head h c, s.head? engine head = some h → s.context? h.cfg.ctx = some c → h.latched = none →
    ∃ t h' ps, exec (.frameLatch engine head) s = .next t ∧ t.head? engine head = some h' ∧
      h' = { h with latched := some ps, clk := h'.clk } ∧ ps.length = h.cfg.planes.length ∧ SameMemory s t ∧
      ∀ (k : Nat) a, h.cfg.planes[k]? = some a →
        (∀ pa p, UnitReads s c (fun e => scratchPage e && e.rd) h.unit h.clk a 4 pa →
          rulePlane (fun j => (Memory.word s.mem (pa + 8 * j)).toNat) p → ps[k]? = some p) ∧
        ((s.ctlBytes c (fun e => scratchPage e && e.rd) a 32 = none ∨ ∃ pa,
            UnitReads s c (fun e => scratchPage e && e.rd) h.unit h.clk a 4 pa ∧
            ∀ p, ¬rulePlane (fun j => (Memory.word s.mem (pa + 8 * j)).toNat) p) →
          ps[k]? = some none ∧ .plane h.engine h.head k ∈ t.reports)) ∧
  (∀ s engine head h c ps, s.head? engine head = some h → s.context? h.cfg.ctx = some c → h.latched = some ps →
    ∃ t h', exec (.frameDone engine head) s = .next t ∧ t.head? engine head = some h' ∧
      h' = { h with frame := h.frame + 1, latched := none } ∧
      (s.memOk = true → h.cfg.toEncoder = true → ∀ pa, s.ctlLocs c scratchPage h.cfg.status 8 = some [(pa, 8)] →
        Stored s t 8 [(.at pa 0 false, h.frame + 1)]) ∧
      ∀ (k : Nat) p, ps[k]? = some (some p) →
        (∃ r ∈ p.runs h.cfg.width h.cfg.height, s.ctlBytes c (fun e => surfacePage e && e.rd) r.1 r.2 = none) →
          .plane engine head k ∈ t.reports) ∧
  (∀ s engine stream cfg, s.boot = .running →
    (∀ h, StreamAllowed s engine stream cfg h → ∃ t x, exec (.encodeConfigure engine stream cfg) s = .next t ∧
      t.stream? engine stream = some x ∧ x = ⟨engine, stream, cfg, 0, [], 0, 0, true, h.frame, [], []⟩ ∧
      (∀ e k, (e ≠ engine ∨ k ≠ stream) → t.stream? e k = s.stream? e k) ∧ t.heads = s.heads ∧ t.responses = s.responses ∧
      ∀ c pa, s.context? cfg.ctx = some c → s.memOk = true → s.ctlLocs c surfacePage cfg.auWord 8 = some [(pa, 8)] →
        Memory.word t.mem pa = BitVec.allOnes 64) ∧
    ((¬∃ h, StreamAllowed s engine stream cfg h) → exec (.encodeConfigure engine stream cfg) s =
      .next { s with responses := s.responses ++ [(.vf (s.engineSlice engine), .refusedConfig)] })) ∧
  (∀ s engine stream x c h, s.stream? engine stream = some x → s.context? x.cfg.ctx = some c →
    s.head? (x.cfg.head / 4) (x.cfg.head % 4) = some h → x.nextFrame < h.frame →
    let n := Config.unitLength s.tick % 2 ^ 36
    let room : Prop := x.written - x.taken < x.cfg.ceEntries ∧ x.lengths.sum + n ≤ x.cfg.auBytes
    ∃ t y, exec (.accessUnitWrite engine stream) s = .next t ∧ t.stream? engine stream = some y ∧
      y.nextFrame = x.nextFrame + 1 ∧ y.cfg = x.cfg ∧ y.taken = x.taken ∧
      (¬room → y = { x with nextKey := true, nextFrame := x.nextFrame + 1 } ∧ SameMemory s t) ∧
      (room → y.written = x.written + 1 ∧ y.lengths = x.lengths ++ [n] ∧ y.auPos = (x.auPos + n) % x.cfg.auBytes ∧
        y.nextKey = false ∧
        ∀ pa, s.memOk = true → ((s.hints c x h).2.2.writeUnit c x n).ctlLocs c surfacePage
            (x.cfg.ceRing + 16 * (x.written % x.cfg.ceEntries)) 16 = some [(pa, 16)] →
          Memory.word t.mem pa = BitVec.ofNat 64 (x.cfg.auRing + x.auPos) ∧ ∃ key : Bool, (x.nextKey = true → key = true) ∧
            Memory.word t.mem (pa + 8) = BitVec.ofNat 64 (x.nextFrame % 2 ^ 24 * 2 ^ 40 + x.stream * 2 ^ 38 +
              (s.hints c x h).1.isSome.toNat * 2 ^ 37 + key.toNat * 2 ^ 36 + n))) ∧
  (∀ s engine stream x c pa pb au ce, s.stream? engine stream = some x → s.context? x.cfg.ctx = some c →
    UnitReads s c surfacePage x.unit x.clk x.cfg.auWord 1 pa → UnitReads s c surfacePage x.unit x.clk x.cfg.ceWord 1 pb →
    (Memory.word s.mem pa).toNat = au → (Memory.word s.mem pb).toNat = ce →
    au < x.written → ce < x.written → x.taken ≤ ce + 1 →
    ∃ t y, exec (.ringReturn engine stream au ce) s = .next t ∧ t.stream? engine stream = some y ∧ SameMemory s t ∧
      y = { x with
        taken := ce + 1, lengths := x.lengths.drop (au + 1 - (x.written - x.lengths.length)), clk := y.clk }) ∧
  ∀ s cap c q u, s.captures.find? (fun x => x.id == cap.id) = some cap → s.context? cap.ctx = some c →
    s.replayQueue c cap.packet = some q → s.writeInputs c cap.inputs = some u → cap.incomplete = false → 3 < cap.packet.length →
    (∀ x ∈ s.teams, x.slice = c.slice → x.core = none) → s.queueLen c.slice q < 1024 → q < 64 →
      ∃ t g, exec (.replay cap.id) s = .next t ∧ t.grids = s.grids ++ [g] ∧ c.slice ∈ t.det ∧ t.mem = u.mem ∧
        g.queue = some q ∧ g.ctx = c.id ∧ g.slice = c.slice ∧ g.seq = assocGet 0 s.seqs c.slice ∧
        ∀ k, k ≠ 3 → g.packet.getD k 0 = cap.packet.getD k 0

/-! ## The module -/

/-- MODULE_RESET leaves the state right after reset, but for the fuses, the flash, the request for the next boot and what is
outside. BOOT_STAGE verifies, measures and runs the next image, or only recovery remains (R367 to R369). SPDM answers the
functions of the host link (R368). Windows reach MAIN memory of their slice, and the control cores' debug windows shared memory
and every page of a context (R15, R31, R372). Links, clocks, clusters, contexts and queues change as R30, R202, R372 to R374
say; an error in the Millers' own state stops every slice, each context reported as killed (R375).
Keys, certificates and digests are free values, and what reset keeps and how requests are refused are the model's (log 6
DESIGN CHOICE, log 18 DESIGN CHOICE, log 39 DEDUCED). -/
def Obligations.ModuleEvents : Prop :=
  (∀ s, ∃ t, exec .moduleReset s = .next t ∧ t = { State.reset with
      tick := s.tick, inputs := s.inputs, flash := s.flash, fuses := s.fuses, rollback := s.rollback,
      linksDown := s.linksDown } ∧ ∀ k, k < 13 → t.measAt k = 0) ∧
  (∀ s k, s.boot = .atStage k →
    (∀ i, s.flash[k]? = some i → i.secVer ≤ 64 → s.fuses ≤ i.secVer → k < 3 →
      if ruleVerified k i then
        ∃ t m, exec .bootStage s = .next t ∧ m = { t with meas := s.meas } ∧
          m = { s with
            fuses := if k = 1 then max s.fuses (match s.rollback with | some r => min r i.secVer | none => 0) else s.fuses
            rollback := if k = 1 then none else s.rollback
            boot := if k = 2 then .running else .atStage (k + 1) } ∧
          t.measAt (k + 1) = ruleExtended (s.measAt (k + 1)) (sha256 i.payload) ∧
          (k = 0 → t.measAt 0 = ruleExtended (s.measAt 0) Config.romDigest) ∧
          (k ≠ 2 → ∀ j, j < 13 → j ≠ k + 1 → (k ≠ 0 ∨ j ≠ 0) → t.measAt j = s.measAt j) ∧
          (k = 2 → ∃ old : Nat → BitVec 256, SlicesMeasured old t ∧ ∀ j, j ≠ 3 → old j = s.measAt j)
      else exec .bootStage s = .next { s with boot := .recovery }) ∧
    ((s.flash[k]? = none ∨ ∃ i, s.flash[k]? = some i ∧ (64 < i.secVer ∨ i.secVer < s.fuses)) →
      exec .bootStage s = .next { s with boot := .recovery })) ∧
  (∀ s images, s.boot = .recovery → (images.map fun i => i.payload.length).sum ≤ 2 ^ 30 → exec (.recoveryFlashImage images) s = .next { s with flash := images }) ∧
  (∀ s who n, s.boot = .running →
    (who = .pf → exec (.rollbackRequest who n) s = .next { s with rollback := some n }) ∧
    (who ≠ .pf → exec (.rollbackRequest who n) s = .next { s with responses := s.responses ++ [(who, .unsupported)] })) ∧
  (∀ s who slot nonce,
    let got (r : Response) : Response := if who ∈ s.spdmAlgs then r else .unsupported
    let ms := (match who with | .pf => List.range 13 | .vf k => [0, 1, 2, 3, 4, 5 + k] | _ => []).map
      fun k => (k, s.measAt k)
    SpdmAnswers s who (exec (.getVersion who) s) (.version Config.spdmVersion) ∧
    SpdmAnswers s who (exec (.getCapabilities who) s) (.capabilities Config.spdmCapabilities) ∧
    SpdmAnswers s who (exec (.getDigests who) s) (got (.digest (sha256 Config.certChain))) ∧
    SpdmAnswers s who (exec (.getCertificate who slot) s) (if slot = 0 then got (.certificate Config.certChain) else .unsupported) ∧
    SpdmAnswers s who (exec (.challenge who slot nonce) s) (if slot = 0 then got (.auth nonce
      (Config.identitySign (beBytes 32 (sha256 Config.certChain).toNat ++ beBytes 32 nonce.toNat))) else .unsupported) ∧
    SpdmAnswers s who (exec (.getMeasurements who nonce) s) (got (.measurements nonce ms
      (Config.identitySign ((ms.flatMap fun m => BitVec.ofNat 8 m.1 :: beBytes 32 m.2.toNat) ++ beBytes 32 nonce.toNat))))) ∧
  (∀ s who a, s.boot = .running → Link.host ∉ s.linksDown → (who = .pf ∨ ∃ k, who = .vf k ∧ k < s.cut) →
    (a.rsassa3072 = true ∧ a.sha256 = true → ∃ t, exec (.negotiateAlgorithms who a) s = .next t ∧
      t = { s with spdmAlgs := t.spdmAlgs, responses := s.responses ++ [(who, .algorithms)] } ∧
      ∀ x, x ∈ t.spdmAlgs ↔ x = who ∨ x ∈ s.spdmAlgs) ∧
    (¬(a.rsassa3072 = true ∧ a.sha256 = true) →
      exec (.negotiateAlgorithms who a) s = .next { s with responses := s.responses ++ [(who, .unsupported)] })) ∧
  (∀ s link, (∀ p, link = .mukai p → p < 16) → (∃ t, exec (.linkDown link) s = .next t ∧ t = { s with linksDown := t.linksDown } ∧
      ∀ l, l ∈ t.linksDown ↔ l = link ∨ l ∈ s.linksDown) ∧
    ∃ t, exec (.linkUp link) s = .next t ∧ t = { s with linksDown := t.linksDown } ∧
      ∀ l, l ∈ t.linksDown ↔ l ≠ link ∧ l ∈ s.linksDown) ∧
  (∀ s who addr w len,
    let n := match w with | some bs => bs.length | none => len
    let o := exec (.hostPeerWindowAccess who addr w len) s
    let up : Prop := s.boot = .running ∧ (match who with | .peer p => Link.mukai p | _ => Link.host) ∉ s.linksDown
    (∀ u, who ≠ .debugShared u) → (∀ u, who ≠ .debugPages u) →
    (∀ k, s.windowSlice who = some k → up → inMain s.cut k addr n = true →
      (∀ bs, w = some bs → s.memOk = true → ∃ t, o = .next t ∧ t.responses = s.responses ++ [(who, .windowWritten)] ∧
        Stored s t 1 ((List.range bs.length).map fun j => (.at (addr + j) 0 false, (bs.getD j 0).toNat))) ∧
      (w = none → s.badMem addr n = false →
        o = .next { s with responses := s.responses ++ [(who, .windowData (Memory.bytes s.mem addr n))] }) ∧
      (w = none → s.badMem addr n = true → o = .next { s with responses := s.responses ++ [(who, .linkError)] })) ∧
    (¬(up ∧ ∃ k, s.windowSlice who = some k ∧ inMain s.cut k addr n = true) →
      o = .next { s with responses := s.responses ++ [(who, .linkError)] })) ∧
  (∀ s u a w len,
    let who : Requester := .debugShared u
    let n := match w with | some bs => bs.length | none => len
    let o := exec (.hostPeerWindowAccess who a w len) s
    let fits : Prop := s.boot = .running ∧ ∃ x, s.team? u = some x ∧ x.core.isSome = true ∧ a + n ≤ x.shBytes
    (fits →
      (∀ bs, w = some bs → s.memOk = true → ∃ t, o = .next t ∧ t.responses = s.responses ++ [(who, .windowWritten)] ∧
        Stored s t 1 ((List.range bs.length).map fun j => (.sh u (a + j), (bs.getD j 0).toNat))) ∧
      (w = none → o = .next { s with responses := s.responses ++
        [(who, if s.badShared u a n then .linkError else .windowData (Memory.bytes (s.sharedOf u) a n))] })) ∧
    (¬fits → o = .next { s with responses := s.responses ++ [(who, .linkError)] })) ∧
  (∀ s k c a w len, s.boot = .running → s.context? k = some c →
    let who : Requester := .debugPages k
    let o := exec (.hostPeerWindowAccess who a w len) s
    let ok (e : TlbEntry) : Bool := (s.farCause e e.frame).isNone
    (∀ bs pa, w = some bs → s.memOk = true → s.ctlLocs c ok a bs.length = some [(pa, bs.length)] →
      ∃ t, o = .next t ∧ t.responses = s.responses ++ [(who, .windowWritten)] ∧
        Stored s t 1 ((List.range bs.length).map fun j => (.at (pa + j) 0 false, (bs.getD j 0).toNat))) ∧
    (w = none → o = .next { s with responses := s.responses ++
      [(who, match s.ctlBytes c ok a len with | some bs => .windowData bs | none => .linkError)] }) ∧
    (∀ bs, w = some bs → s.ctlLocs c ok a bs.length = none →
      o = .next { s with responses := s.responses ++ [(who, .linkError)] })) ∧
  (∀ s b, hasBlock b = true → (4 < s.clockOf b → ∃ t, exec (.clockLower b) s = .next t ∧ t = { s with clocks := t.clocks } ∧
      t.clockOf b = s.clockOf b - 1 ∧ ∀ x, x ≠ b → t.clockOf x = s.clockOf x) ∧
    (s.clockOf b < 16 → ∃ t, exec (.clockRaise b) s = .next t ∧ t = { s with clocks := t.clocks } ∧
      t.clockOf b = s.clockOf b + 1 ∧ ∀ x, x ≠ b → t.clockOf x = s.clockOf x)) ∧
  (∀ s n, s.boot = .running → s.cut ∈ [1, 2, 4, 8] → NextCluster s n →
    ∃ t, exec (.clusterStart n) s = .next t ∧ t = { s with started := t.started } ∧ t.hasStarted .cluster n = true ∧
      ∀ m, m < 128 → m ≠ n → t.hasStarted .cluster m = s.hasStarted .cluster m) ∧
  (∀ s, ∃ t, exec .millerUncorrectable s = .next t ∧ t.boot = .halted ∧
    ∀ c ∈ s.contexts, .killed c.id ∈ t.reports ∧ ∀ k, t.context? c.id = some k → k.halted = true ∧ k.killed = true) ∧
  (∀ s slice q ctx c, s.context? ctx = some c → c.slice = slice → q < 64 → ∃ t, exec (.queueBind slice q ctx) s = .next t ∧
    t = { s with queues := t.queues } ∧ t.queueCtx slice q = some ctx ∧
    ∀ k r, (k ≠ slice ∨ r ≠ q) → t.queueCtx k r = s.queueCtx k r) ∧
  ∀ s ctx slice root logBase handler capBase capBytes, s.boot = .running → slice < s.cut → s.context? ctx = none →
    (s.contexts.filter fun c => c.slice == slice).length < 64 →
      ∃ t, exec (.contextCreate ctx slice root logBase handler capBase capBytes) s = .next t ∧
        t = { s with contexts := t.contexts } ∧
        t.context? ctx = some ⟨ctx, slice, root, BitVec.ofNat 64 handler, logBase, 0, [], false, false, false, capBase, capBytes, 0⟩ ∧
        ∀ k, k ≠ ctx → t.context? k = s.context? k
end

