-- ==== Sys2Proof/Laws/State.lean ====
section
/-!
SUPPORT. What each shared update of the state and of a group leaves as it was: one lemma for each field that an update
does not touch, true by unfolding the update once.
-/
namespace Sys2Proof.Machine

/-! ## One team -/

@[simp] theorem State.modTeam_tick (s : State) (u : Nat) (f : Team → Team) : (s.modTeam u f).tick = s.tick := rfl
@[simp] theorem State.modTeam_cur (s : State) (u : Nat) (f : Team → Team) : (s.modTeam u f).cur = s.cur := rfl
@[simp] theorem State.modTeam_inputs (s : State) (u : Nat) (f : Team → Team) : (s.modTeam u f).inputs = s.inputs := rfl
@[simp] theorem State.modTeam_nextId (s : State) (u : Nat) (f : Team → Team) : (s.modTeam u f).nextId = s.nextId := rfl
@[simp] theorem State.modTeam_mem (s : State) (u : Nat) (f : Team → Team) : (s.modTeam u f).mem = s.mem := rfl
@[simp] theorem State.modTeam_eccMem (s : State) (u : Nat) (f : Team → Team) : (s.modTeam u f).eccMem = s.eccMem := rfl
@[simp] theorem State.modTeam_eccShared (s : State) (u : Nat) (f : Team → Team) : (s.modTeam u f).eccShared = s.eccShared := rfl
@[simp] theorem State.modTeam_cut (s : State) (u : Nat) (f : Team → Team) : (s.modTeam u f).cut = s.cut := rfl
@[simp] theorem State.modTeam_det (s : State) (u : Nat) (f : Team → Team) : (s.modTeam u f).det = s.det := rfl
@[simp] theorem State.modTeam_contexts (s : State) (u : Nat) (f : Team → Team) : (s.modTeam u f).contexts = s.contexts := rfl
@[simp] theorem State.modTeam_queues (s : State) (u : Nat) (f : Team → Team) : (s.modTeam u f).queues = s.queues := rfl
@[simp] theorem State.modTeam_seqs (s : State) (u : Nat) (f : Team → Team) : (s.modTeam u f).seqs = s.seqs := rfl
@[simp] theorem State.modTeam_grids (s : State) (u : Nat) (f : Team → Team) : (s.modTeam u f).grids = s.grids := rfl
@[simp] theorem State.modTeam_graphs (s : State) (u : Nat) (f : Team → Team) : (s.modTeam u f).graphs = s.graphs := rfl
@[simp] theorem State.modTeam_items (s : State) (u : Nat) (f : Team → Team) : (s.modTeam u f).items = s.items := rfl
@[simp] theorem State.modTeam_reds (s : State) (u : Nat) (f : Team → Team) : (s.modTeam u f).reds = s.reds := rfl
@[simp] theorem State.modTeam_matrices (s : State) (u : Nat) (f : Team → Team) : (s.modTeam u f).matrices = s.matrices := rfl
@[simp] theorem State.modTeam_tlb1 (s : State) (u : Nat) (f : Team → Team) : (s.modTeam u f).tlb1 = s.tlb1 := rfl
@[simp] theorem State.modTeam_tlb2 (s : State) (u : Nat) (f : Team → Team) : (s.modTeam u f).tlb2 = s.tlb2 := rfl
@[simp] theorem State.modTeam_migrating (s : State) (u : Nat) (f : Team → Team) : (s.modTeam u f).migrating = s.migrating := rfl
@[simp] theorem State.modTeam_refused (s : State) (u : Nat) (f : Team → Team) : (s.modTeam u f).refused = s.refused := rfl
@[simp] theorem State.modTeam_reports (s : State) (u : Nat) (f : Team → Team) : (s.modTeam u f).reports = s.reports := rfl
@[simp] theorem State.modTeam_wlog (s : State) (u : Nat) (f : Team → Team) : (s.modTeam u f).wlog = s.wlog := rfl
@[simp] theorem State.modTeam_icMark (s : State) (u : Nat) (f : Team → Team) : (s.modTeam u f).icMark = s.icMark := rfl
@[simp] theorem State.modTeam_cyc (s : State) (u : Nat) (f : Team → Team) : (s.modTeam u f).cyc = s.cyc := rfl
@[simp] theorem State.modTeam_locs (s : State) (u : Nat) (f : Team → Team) : (s.modTeam u f).locs = s.locs := rfl
@[simp] theorem State.modTeam_hist (s : State) (u : Nat) (f : Team → Team) : (s.modTeam u f).hist = s.hist := rfl
@[simp] theorem State.modTeam_flips (s : State) (u : Nat) (f : Team → Team) : (s.modTeam u f).flips = s.flips := rfl
@[simp] theorem State.modTeam_endRels (s : State) (u : Nat) (f : Team → Team) : (s.modTeam u f).endRels = s.endRels := rfl
@[simp] theorem State.modTeam_lines (s : State) (u : Nat) (f : Team → Team) : (s.modTeam u f).lines = s.lines := rfl
@[simp] theorem State.modTeam_fenceClk (s : State) (u : Nat) (f : Team → Team) : (s.modTeam u f).fenceClk = s.fenceClk := rfl
@[simp] theorem State.modTeam_captures (s : State) (u : Nat) (f : Team → Team) : (s.modTeam u f).captures = s.captures := rfl
@[simp] theorem State.modTeam_heads (s : State) (u : Nat) (f : Team → Team) : (s.modTeam u f).heads = s.heads := rfl
@[simp] theorem State.modTeam_streams (s : State) (u : Nat) (f : Team → Team) : (s.modTeam u f).streams = s.streams := rfl
@[simp] theorem State.modTeam_boot (s : State) (u : Nat) (f : Team → Team) : (s.modTeam u f).boot = s.boot := rfl
@[simp] theorem State.modTeam_flash (s : State) (u : Nat) (f : Team → Team) : (s.modTeam u f).flash = s.flash := rfl
@[simp] theorem State.modTeam_meas (s : State) (u : Nat) (f : Team → Team) : (s.modTeam u f).meas = s.meas := rfl
@[simp] theorem State.modTeam_fuses (s : State) (u : Nat) (f : Team → Team) : (s.modTeam u f).fuses = s.fuses := rfl
@[simp] theorem State.modTeam_rollback (s : State) (u : Nat) (f : Team → Team) : (s.modTeam u f).rollback = s.rollback := rfl
@[simp] theorem State.modTeam_spdmAlgs (s : State) (u : Nat) (f : Team → Team) : (s.modTeam u f).spdmAlgs = s.spdmAlgs := rfl
@[simp] theorem State.modTeam_responses (s : State) (u : Nat) (f : Team → Team) : (s.modTeam u f).responses = s.responses := rfl
@[simp] theorem State.modTeam_linksDown (s : State) (u : Nat) (f : Team → Team) : (s.modTeam u f).linksDown = s.linksDown := rfl
@[simp] theorem State.modTeam_clocks (s : State) (u : Nat) (f : Team → Team) : (s.modTeam u f).clocks = s.clocks := rfl
@[simp] theorem State.modTeam_started (s : State) (u : Nat) (f : Team → Team) : (s.modTeam u f).started = s.started := rfl
@[simp] theorem State.modTeam_corrected (s : State) (u : Nat) (f : Team → Team) : (s.modTeam u f).corrected = s.corrected := rfl

/-! ## One group -/

@[simp] theorem State.modGroup_tick (s : State) (u g : Nat) (f : Group → Group) : (s.modGroup u g f).tick = s.tick := rfl
@[simp] theorem State.modGroup_cur (s : State) (u g : Nat) (f : Group → Group) : (s.modGroup u g f).cur = s.cur := rfl
@[simp] theorem State.modGroup_inputs (s : State) (u g : Nat) (f : Group → Group) : (s.modGroup u g f).inputs = s.inputs := rfl
@[simp] theorem State.modGroup_nextId (s : State) (u g : Nat) (f : Group → Group) : (s.modGroup u g f).nextId = s.nextId := rfl
@[simp] theorem State.modGroup_mem (s : State) (u g : Nat) (f : Group → Group) : (s.modGroup u g f).mem = s.mem := rfl
@[simp] theorem State.modGroup_eccMem (s : State) (u g : Nat) (f : Group → Group) : (s.modGroup u g f).eccMem = s.eccMem := rfl
@[simp] theorem State.modGroup_eccShared (s : State) (u g : Nat) (f : Group → Group) : (s.modGroup u g f).eccShared = s.eccShared := rfl
@[simp] theorem State.modGroup_cut (s : State) (u g : Nat) (f : Group → Group) : (s.modGroup u g f).cut = s.cut := rfl
@[simp] theorem State.modGroup_det (s : State) (u g : Nat) (f : Group → Group) : (s.modGroup u g f).det = s.det := rfl
@[simp] theorem State.modGroup_contexts (s : State) (u g : Nat) (f : Group → Group) : (s.modGroup u g f).contexts = s.contexts := rfl
@[simp] theorem State.modGroup_queues (s : State) (u g : Nat) (f : Group → Group) : (s.modGroup u g f).queues = s.queues := rfl
@[simp] theorem State.modGroup_seqs (s : State) (u g : Nat) (f : Group → Group) : (s.modGroup u g f).seqs = s.seqs := rfl
@[simp] theorem State.modGroup_grids (s : State) (u g : Nat) (f : Group → Group) : (s.modGroup u g f).grids = s.grids := rfl
@[simp] theorem State.modGroup_graphs (s : State) (u g : Nat) (f : Group → Group) : (s.modGroup u g f).graphs = s.graphs := rfl
@[simp] theorem State.modGroup_items (s : State) (u g : Nat) (f : Group → Group) : (s.modGroup u g f).items = s.items := rfl
@[simp] theorem State.modGroup_reds (s : State) (u g : Nat) (f : Group → Group) : (s.modGroup u g f).reds = s.reds := rfl
@[simp] theorem State.modGroup_matrices (s : State) (u g : Nat) (f : Group → Group) : (s.modGroup u g f).matrices = s.matrices := rfl
@[simp] theorem State.modGroup_tlb1 (s : State) (u g : Nat) (f : Group → Group) : (s.modGroup u g f).tlb1 = s.tlb1 := rfl
@[simp] theorem State.modGroup_tlb2 (s : State) (u g : Nat) (f : Group → Group) : (s.modGroup u g f).tlb2 = s.tlb2 := rfl
@[simp] theorem State.modGroup_migrating (s : State) (u g : Nat) (f : Group → Group) : (s.modGroup u g f).migrating = s.migrating := rfl
@[simp] theorem State.modGroup_refused (s : State) (u g : Nat) (f : Group → Group) : (s.modGroup u g f).refused = s.refused := rfl
@[simp] theorem State.modGroup_reports (s : State) (u g : Nat) (f : Group → Group) : (s.modGroup u g f).reports = s.reports := rfl
@[simp] theorem State.modGroup_wlog (s : State) (u g : Nat) (f : Group → Group) : (s.modGroup u g f).wlog = s.wlog := rfl
@[simp] theorem State.modGroup_icMark (s : State) (u g : Nat) (f : Group → Group) : (s.modGroup u g f).icMark = s.icMark := rfl
@[simp] theorem State.modGroup_cyc (s : State) (u g : Nat) (f : Group → Group) : (s.modGroup u g f).cyc = s.cyc := rfl
@[simp] theorem State.modGroup_locs (s : State) (u g : Nat) (f : Group → Group) : (s.modGroup u g f).locs = s.locs := rfl
@[simp] theorem State.modGroup_hist (s : State) (u g : Nat) (f : Group → Group) : (s.modGroup u g f).hist = s.hist := rfl
@[simp] theorem State.modGroup_flips (s : State) (u g : Nat) (f : Group → Group) : (s.modGroup u g f).flips = s.flips := rfl
@[simp] theorem State.modGroup_endRels (s : State) (u g : Nat) (f : Group → Group) : (s.modGroup u g f).endRels = s.endRels := rfl
@[simp] theorem State.modGroup_lines (s : State) (u g : Nat) (f : Group → Group) : (s.modGroup u g f).lines = s.lines := rfl
@[simp] theorem State.modGroup_fenceClk (s : State) (u g : Nat) (f : Group → Group) : (s.modGroup u g f).fenceClk = s.fenceClk := rfl
@[simp] theorem State.modGroup_captures (s : State) (u g : Nat) (f : Group → Group) : (s.modGroup u g f).captures = s.captures := rfl
@[simp] theorem State.modGroup_heads (s : State) (u g : Nat) (f : Group → Group) : (s.modGroup u g f).heads = s.heads := rfl
@[simp] theorem State.modGroup_streams (s : State) (u g : Nat) (f : Group → Group) : (s.modGroup u g f).streams = s.streams := rfl
@[simp] theorem State.modGroup_boot (s : State) (u g : Nat) (f : Group → Group) : (s.modGroup u g f).boot = s.boot := rfl
@[simp] theorem State.modGroup_flash (s : State) (u g : Nat) (f : Group → Group) : (s.modGroup u g f).flash = s.flash := rfl
@[simp] theorem State.modGroup_meas (s : State) (u g : Nat) (f : Group → Group) : (s.modGroup u g f).meas = s.meas := rfl
@[simp] theorem State.modGroup_fuses (s : State) (u g : Nat) (f : Group → Group) : (s.modGroup u g f).fuses = s.fuses := rfl
@[simp] theorem State.modGroup_rollback (s : State) (u g : Nat) (f : Group → Group) : (s.modGroup u g f).rollback = s.rollback := rfl
@[simp] theorem State.modGroup_spdmAlgs (s : State) (u g : Nat) (f : Group → Group) : (s.modGroup u g f).spdmAlgs = s.spdmAlgs := rfl
@[simp] theorem State.modGroup_responses (s : State) (u g : Nat) (f : Group → Group) : (s.modGroup u g f).responses = s.responses := rfl
@[simp] theorem State.modGroup_linksDown (s : State) (u g : Nat) (f : Group → Group) : (s.modGroup u g f).linksDown = s.linksDown := rfl
@[simp] theorem State.modGroup_clocks (s : State) (u g : Nat) (f : Group → Group) : (s.modGroup u g f).clocks = s.clocks := rfl
@[simp] theorem State.modGroup_started (s : State) (u g : Nat) (f : Group → Group) : (s.modGroup u g f).started = s.started := rfl
@[simp] theorem State.modGroup_corrected (s : State) (u g : Nat) (f : Group → Group) : (s.modGroup u g f).corrected = s.corrected := rfl

/-! ## One context -/

@[simp] theorem State.modContext_tick (s : State) (c : Nat) (f : Context → Context) : (s.modContext c f).tick = s.tick := rfl
@[simp] theorem State.modContext_cur (s : State) (c : Nat) (f : Context → Context) : (s.modContext c f).cur = s.cur := rfl
@[simp] theorem State.modContext_inputs (s : State) (c : Nat) (f : Context → Context) : (s.modContext c f).inputs = s.inputs := rfl
@[simp] theorem State.modContext_nextId (s : State) (c : Nat) (f : Context → Context) : (s.modContext c f).nextId = s.nextId := rfl
@[simp] theorem State.modContext_mem (s : State) (c : Nat) (f : Context → Context) : (s.modContext c f).mem = s.mem := rfl
@[simp] theorem State.modContext_eccMem (s : State) (c : Nat) (f : Context → Context) : (s.modContext c f).eccMem = s.eccMem := rfl
@[simp] theorem State.modContext_eccShared (s : State) (c : Nat) (f : Context → Context) : (s.modContext c f).eccShared = s.eccShared := rfl
@[simp] theorem State.modContext_cut (s : State) (c : Nat) (f : Context → Context) : (s.modContext c f).cut = s.cut := rfl
@[simp] theorem State.modContext_det (s : State) (c : Nat) (f : Context → Context) : (s.modContext c f).det = s.det := rfl
@[simp] theorem State.modContext_queues (s : State) (c : Nat) (f : Context → Context) : (s.modContext c f).queues = s.queues := rfl
@[simp] theorem State.modContext_seqs (s : State) (c : Nat) (f : Context → Context) : (s.modContext c f).seqs = s.seqs := rfl
@[simp] theorem State.modContext_grids (s : State) (c : Nat) (f : Context → Context) : (s.modContext c f).grids = s.grids := rfl
@[simp] theorem State.modContext_teams (s : State) (c : Nat) (f : Context → Context) : (s.modContext c f).teams = s.teams := rfl
@[simp] theorem State.modContext_graphs (s : State) (c : Nat) (f : Context → Context) : (s.modContext c f).graphs = s.graphs := rfl
@[simp] theorem State.modContext_items (s : State) (c : Nat) (f : Context → Context) : (s.modContext c f).items = s.items := rfl
@[simp] theorem State.modContext_reds (s : State) (c : Nat) (f : Context → Context) : (s.modContext c f).reds = s.reds := rfl
@[simp] theorem State.modContext_matrices (s : State) (c : Nat) (f : Context → Context) : (s.modContext c f).matrices = s.matrices := rfl
@[simp] theorem State.modContext_tlb1 (s : State) (c : Nat) (f : Context → Context) : (s.modContext c f).tlb1 = s.tlb1 := rfl
@[simp] theorem State.modContext_tlb2 (s : State) (c : Nat) (f : Context → Context) : (s.modContext c f).tlb2 = s.tlb2 := rfl
@[simp] theorem State.modContext_migrating (s : State) (c : Nat) (f : Context → Context) : (s.modContext c f).migrating = s.migrating := rfl
@[simp] theorem State.modContext_refused (s : State) (c : Nat) (f : Context → Context) : (s.modContext c f).refused = s.refused := rfl
@[simp] theorem State.modContext_reports (s : State) (c : Nat) (f : Context → Context) : (s.modContext c f).reports = s.reports := rfl
@[simp] theorem State.modContext_wlog (s : State) (c : Nat) (f : Context → Context) : (s.modContext c f).wlog = s.wlog := rfl
@[simp] theorem State.modContext_icMark (s : State) (c : Nat) (f : Context → Context) : (s.modContext c f).icMark = s.icMark := rfl
@[simp] theorem State.modContext_cyc (s : State) (c : Nat) (f : Context → Context) : (s.modContext c f).cyc = s.cyc := rfl
@[simp] theorem State.modContext_locs (s : State) (c : Nat) (f : Context → Context) : (s.modContext c f).locs = s.locs := rfl
@[simp] theorem State.modContext_hist (s : State) (c : Nat) (f : Context → Context) : (s.modContext c f).hist = s.hist := rfl
@[simp] theorem State.modContext_flips (s : State) (c : Nat) (f : Context → Context) : (s.modContext c f).flips = s.flips := rfl
@[simp] theorem State.modContext_endRels (s : State) (c : Nat) (f : Context → Context) : (s.modContext c f).endRels = s.endRels := rfl
@[simp] theorem State.modContext_lines (s : State) (c : Nat) (f : Context → Context) : (s.modContext c f).lines = s.lines := rfl
@[simp] theorem State.modContext_fenceClk (s : State) (c : Nat) (f : Context → Context) : (s.modContext c f).fenceClk = s.fenceClk := rfl
@[simp] theorem State.modContext_captures (s : State) (c : Nat) (f : Context → Context) : (s.modContext c f).captures = s.captures := rfl
@[simp] theorem State.modContext_heads (s : State) (c : Nat) (f : Context → Context) : (s.modContext c f).heads = s.heads := rfl
@[simp] theorem State.modContext_streams (s : State) (c : Nat) (f : Context → Context) : (s.modContext c f).streams = s.streams := rfl
@[simp] theorem State.modContext_boot (s : State) (c : Nat) (f : Context → Context) : (s.modContext c f).boot = s.boot := rfl
@[simp] theorem State.modContext_flash (s : State) (c : Nat) (f : Context → Context) : (s.modContext c f).flash = s.flash := rfl
@[simp] theorem State.modContext_meas (s : State) (c : Nat) (f : Context → Context) : (s.modContext c f).meas = s.meas := rfl
@[simp] theorem State.modContext_fuses (s : State) (c : Nat) (f : Context → Context) : (s.modContext c f).fuses = s.fuses := rfl
@[simp] theorem State.modContext_rollback (s : State) (c : Nat) (f : Context → Context) : (s.modContext c f).rollback = s.rollback := rfl
@[simp] theorem State.modContext_spdmAlgs (s : State) (c : Nat) (f : Context → Context) : (s.modContext c f).spdmAlgs = s.spdmAlgs := rfl
@[simp] theorem State.modContext_responses (s : State) (c : Nat) (f : Context → Context) : (s.modContext c f).responses = s.responses := rfl
@[simp] theorem State.modContext_linksDown (s : State) (c : Nat) (f : Context → Context) : (s.modContext c f).linksDown = s.linksDown := rfl
@[simp] theorem State.modContext_clocks (s : State) (c : Nat) (f : Context → Context) : (s.modContext c f).clocks = s.clocks := rfl
@[simp] theorem State.modContext_started (s : State) (c : Nat) (f : Context → Context) : (s.modContext c f).started = s.started := rfl
@[simp] theorem State.modContext_corrected (s : State) (c : Nat) (f : Context → Context) : (s.modContext c f).corrected = s.corrected := rfl

/-! ## One grid -/

@[simp] theorem State.modGrid_tick (s : State) (u : Nat) (f : Grid → Grid) : (s.modGrid u f).tick = s.tick := rfl
@[simp] theorem State.modGrid_cur (s : State) (u : Nat) (f : Grid → Grid) : (s.modGrid u f).cur = s.cur := rfl
@[simp] theorem State.modGrid_inputs (s : State) (u : Nat) (f : Grid → Grid) : (s.modGrid u f).inputs = s.inputs := rfl
@[simp] theorem State.modGrid_nextId (s : State) (u : Nat) (f : Grid → Grid) : (s.modGrid u f).nextId = s.nextId := rfl
@[simp] theorem State.modGrid_mem (s : State) (u : Nat) (f : Grid → Grid) : (s.modGrid u f).mem = s.mem := rfl
@[simp] theorem State.modGrid_eccMem (s : State) (u : Nat) (f : Grid → Grid) : (s.modGrid u f).eccMem = s.eccMem := rfl
@[simp] theorem State.modGrid_eccShared (s : State) (u : Nat) (f : Grid → Grid) : (s.modGrid u f).eccShared = s.eccShared := rfl
@[simp] theorem State.modGrid_cut (s : State) (u : Nat) (f : Grid → Grid) : (s.modGrid u f).cut = s.cut := rfl
@[simp] theorem State.modGrid_det (s : State) (u : Nat) (f : Grid → Grid) : (s.modGrid u f).det = s.det := rfl
@[simp] theorem State.modGrid_contexts (s : State) (u : Nat) (f : Grid → Grid) : (s.modGrid u f).contexts = s.contexts := rfl
@[simp] theorem State.modGrid_queues (s : State) (u : Nat) (f : Grid → Grid) : (s.modGrid u f).queues = s.queues := rfl
@[simp] theorem State.modGrid_seqs (s : State) (u : Nat) (f : Grid → Grid) : (s.modGrid u f).seqs = s.seqs := rfl
@[simp] theorem State.modGrid_teams (s : State) (u : Nat) (f : Grid → Grid) : (s.modGrid u f).teams = s.teams := rfl
@[simp] theorem State.modGrid_graphs (s : State) (u : Nat) (f : Grid → Grid) : (s.modGrid u f).graphs = s.graphs := rfl
@[simp] theorem State.modGrid_items (s : State) (u : Nat) (f : Grid → Grid) : (s.modGrid u f).items = s.items := rfl
@[simp] theorem State.modGrid_reds (s : State) (u : Nat) (f : Grid → Grid) : (s.modGrid u f).reds = s.reds := rfl
@[simp] theorem State.modGrid_matrices (s : State) (u : Nat) (f : Grid → Grid) : (s.modGrid u f).matrices = s.matrices := rfl
@[simp] theorem State.modGrid_tlb1 (s : State) (u : Nat) (f : Grid → Grid) : (s.modGrid u f).tlb1 = s.tlb1 := rfl
@[simp] theorem State.modGrid_tlb2 (s : State) (u : Nat) (f : Grid → Grid) : (s.modGrid u f).tlb2 = s.tlb2 := rfl
@[simp] theorem State.modGrid_migrating (s : State) (u : Nat) (f : Grid → Grid) : (s.modGrid u f).migrating = s.migrating := rfl
@[simp] theorem State.modGrid_refused (s : State) (u : Nat) (f : Grid → Grid) : (s.modGrid u f).refused = s.refused := rfl
@[simp] theorem State.modGrid_reports (s : State) (u : Nat) (f : Grid → Grid) : (s.modGrid u f).reports = s.reports := rfl
@[simp] theorem State.modGrid_wlog (s : State) (u : Nat) (f : Grid → Grid) : (s.modGrid u f).wlog = s.wlog := rfl
@[simp] theorem State.modGrid_icMark (s : State) (u : Nat) (f : Grid → Grid) : (s.modGrid u f).icMark = s.icMark := rfl
@[simp] theorem State.modGrid_cyc (s : State) (u : Nat) (f : Grid → Grid) : (s.modGrid u f).cyc = s.cyc := rfl
@[simp] theorem State.modGrid_locs (s : State) (u : Nat) (f : Grid → Grid) : (s.modGrid u f).locs = s.locs := rfl
@[simp] theorem State.modGrid_hist (s : State) (u : Nat) (f : Grid → Grid) : (s.modGrid u f).hist = s.hist := rfl
@[simp] theorem State.modGrid_flips (s : State) (u : Nat) (f : Grid → Grid) : (s.modGrid u f).flips = s.flips := rfl
@[simp] theorem State.modGrid_endRels (s : State) (u : Nat) (f : Grid → Grid) : (s.modGrid u f).endRels = s.endRels := rfl
@[simp] theorem State.modGrid_lines (s : State) (u : Nat) (f : Grid → Grid) : (s.modGrid u f).lines = s.lines := rfl
@[simp] theorem State.modGrid_fenceClk (s : State) (u : Nat) (f : Grid → Grid) : (s.modGrid u f).fenceClk = s.fenceClk := rfl
@[simp] theorem State.modGrid_captures (s : State) (u : Nat) (f : Grid → Grid) : (s.modGrid u f).captures = s.captures := rfl
@[simp] theorem State.modGrid_heads (s : State) (u : Nat) (f : Grid → Grid) : (s.modGrid u f).heads = s.heads := rfl
@[simp] theorem State.modGrid_streams (s : State) (u : Nat) (f : Grid → Grid) : (s.modGrid u f).streams = s.streams := rfl
@[simp] theorem State.modGrid_boot (s : State) (u : Nat) (f : Grid → Grid) : (s.modGrid u f).boot = s.boot := rfl
@[simp] theorem State.modGrid_flash (s : State) (u : Nat) (f : Grid → Grid) : (s.modGrid u f).flash = s.flash := rfl
@[simp] theorem State.modGrid_meas (s : State) (u : Nat) (f : Grid → Grid) : (s.modGrid u f).meas = s.meas := rfl
@[simp] theorem State.modGrid_fuses (s : State) (u : Nat) (f : Grid → Grid) : (s.modGrid u f).fuses = s.fuses := rfl
@[simp] theorem State.modGrid_rollback (s : State) (u : Nat) (f : Grid → Grid) : (s.modGrid u f).rollback = s.rollback := rfl
@[simp] theorem State.modGrid_spdmAlgs (s : State) (u : Nat) (f : Grid → Grid) : (s.modGrid u f).spdmAlgs = s.spdmAlgs := rfl
@[simp] theorem State.modGrid_responses (s : State) (u : Nat) (f : Grid → Grid) : (s.modGrid u f).responses = s.responses := rfl
@[simp] theorem State.modGrid_linksDown (s : State) (u : Nat) (f : Grid → Grid) : (s.modGrid u f).linksDown = s.linksDown := rfl
@[simp] theorem State.modGrid_clocks (s : State) (u : Nat) (f : Grid → Grid) : (s.modGrid u f).clocks = s.clocks := rfl
@[simp] theorem State.modGrid_started (s : State) (u : Nat) (f : Grid → Grid) : (s.modGrid u f).started = s.started := rfl
@[simp] theorem State.modGrid_corrected (s : State) (u : Nat) (f : Grid → Grid) : (s.modGrid u f).corrected = s.corrected := rfl

/-! ## One item -/

@[simp] theorem State.modItem_tick (s : State) (i : Nat) (f : Item → Item) : (s.modItem i f).tick = s.tick := rfl
@[simp] theorem State.modItem_cur (s : State) (i : Nat) (f : Item → Item) : (s.modItem i f).cur = s.cur := rfl
@[simp] theorem State.modItem_inputs (s : State) (i : Nat) (f : Item → Item) : (s.modItem i f).inputs = s.inputs := rfl
@[simp] theorem State.modItem_nextId (s : State) (i : Nat) (f : Item → Item) : (s.modItem i f).nextId = s.nextId := rfl
@[simp] theorem State.modItem_mem (s : State) (i : Nat) (f : Item → Item) : (s.modItem i f).mem = s.mem := rfl
@[simp] theorem State.modItem_eccMem (s : State) (i : Nat) (f : Item → Item) : (s.modItem i f).eccMem = s.eccMem := rfl
@[simp] theorem State.modItem_eccShared (s : State) (i : Nat) (f : Item → Item) : (s.modItem i f).eccShared = s.eccShared := rfl
@[simp] theorem State.modItem_cut (s : State) (i : Nat) (f : Item → Item) : (s.modItem i f).cut = s.cut := rfl
@[simp] theorem State.modItem_det (s : State) (i : Nat) (f : Item → Item) : (s.modItem i f).det = s.det := rfl
@[simp] theorem State.modItem_contexts (s : State) (i : Nat) (f : Item → Item) : (s.modItem i f).contexts = s.contexts := rfl
@[simp] theorem State.modItem_queues (s : State) (i : Nat) (f : Item → Item) : (s.modItem i f).queues = s.queues := rfl
@[simp] theorem State.modItem_seqs (s : State) (i : Nat) (f : Item → Item) : (s.modItem i f).seqs = s.seqs := rfl
@[simp] theorem State.modItem_grids (s : State) (i : Nat) (f : Item → Item) : (s.modItem i f).grids = s.grids := rfl
@[simp] theorem State.modItem_teams (s : State) (i : Nat) (f : Item → Item) : (s.modItem i f).teams = s.teams := rfl
@[simp] theorem State.modItem_graphs (s : State) (i : Nat) (f : Item → Item) : (s.modItem i f).graphs = s.graphs := rfl
@[simp] theorem State.modItem_reds (s : State) (i : Nat) (f : Item → Item) : (s.modItem i f).reds = s.reds := rfl
@[simp] theorem State.modItem_matrices (s : State) (i : Nat) (f : Item → Item) : (s.modItem i f).matrices = s.matrices := rfl
@[simp] theorem State.modItem_tlb1 (s : State) (i : Nat) (f : Item → Item) : (s.modItem i f).tlb1 = s.tlb1 := rfl
@[simp] theorem State.modItem_tlb2 (s : State) (i : Nat) (f : Item → Item) : (s.modItem i f).tlb2 = s.tlb2 := rfl
@[simp] theorem State.modItem_migrating (s : State) (i : Nat) (f : Item → Item) : (s.modItem i f).migrating = s.migrating := rfl
@[simp] theorem State.modItem_refused (s : State) (i : Nat) (f : Item → Item) : (s.modItem i f).refused = s.refused := rfl
@[simp] theorem State.modItem_reports (s : State) (i : Nat) (f : Item → Item) : (s.modItem i f).reports = s.reports := rfl
@[simp] theorem State.modItem_wlog (s : State) (i : Nat) (f : Item → Item) : (s.modItem i f).wlog = s.wlog := rfl
@[simp] theorem State.modItem_icMark (s : State) (i : Nat) (f : Item → Item) : (s.modItem i f).icMark = s.icMark := rfl
@[simp] theorem State.modItem_cyc (s : State) (i : Nat) (f : Item → Item) : (s.modItem i f).cyc = s.cyc := rfl
@[simp] theorem State.modItem_locs (s : State) (i : Nat) (f : Item → Item) : (s.modItem i f).locs = s.locs := rfl
@[simp] theorem State.modItem_hist (s : State) (i : Nat) (f : Item → Item) : (s.modItem i f).hist = s.hist := rfl
@[simp] theorem State.modItem_flips (s : State) (i : Nat) (f : Item → Item) : (s.modItem i f).flips = s.flips := rfl
@[simp] theorem State.modItem_endRels (s : State) (i : Nat) (f : Item → Item) : (s.modItem i f).endRels = s.endRels := rfl
@[simp] theorem State.modItem_lines (s : State) (i : Nat) (f : Item → Item) : (s.modItem i f).lines = s.lines := rfl
@[simp] theorem State.modItem_fenceClk (s : State) (i : Nat) (f : Item → Item) : (s.modItem i f).fenceClk = s.fenceClk := rfl
@[simp] theorem State.modItem_captures (s : State) (i : Nat) (f : Item → Item) : (s.modItem i f).captures = s.captures := rfl
@[simp] theorem State.modItem_heads (s : State) (i : Nat) (f : Item → Item) : (s.modItem i f).heads = s.heads := rfl
@[simp] theorem State.modItem_streams (s : State) (i : Nat) (f : Item → Item) : (s.modItem i f).streams = s.streams := rfl
@[simp] theorem State.modItem_boot (s : State) (i : Nat) (f : Item → Item) : (s.modItem i f).boot = s.boot := rfl
@[simp] theorem State.modItem_flash (s : State) (i : Nat) (f : Item → Item) : (s.modItem i f).flash = s.flash := rfl
@[simp] theorem State.modItem_meas (s : State) (i : Nat) (f : Item → Item) : (s.modItem i f).meas = s.meas := rfl
@[simp] theorem State.modItem_fuses (s : State) (i : Nat) (f : Item → Item) : (s.modItem i f).fuses = s.fuses := rfl
@[simp] theorem State.modItem_rollback (s : State) (i : Nat) (f : Item → Item) : (s.modItem i f).rollback = s.rollback := rfl
@[simp] theorem State.modItem_spdmAlgs (s : State) (i : Nat) (f : Item → Item) : (s.modItem i f).spdmAlgs = s.spdmAlgs := rfl
@[simp] theorem State.modItem_responses (s : State) (i : Nat) (f : Item → Item) : (s.modItem i f).responses = s.responses := rfl
@[simp] theorem State.modItem_linksDown (s : State) (i : Nat) (f : Item → Item) : (s.modItem i f).linksDown = s.linksDown := rfl
@[simp] theorem State.modItem_clocks (s : State) (i : Nat) (f : Item → Item) : (s.modItem i f).clocks = s.clocks := rfl
@[simp] theorem State.modItem_started (s : State) (i : Nat) (f : Item → Item) : (s.modItem i f).started = s.started := rfl
@[simp] theorem State.modItem_corrected (s : State) (i : Nat) (f : Item → Item) : (s.modItem i f).corrected = s.corrected := rfl

/-! ## An item gone -/

@[simp] theorem State.dropItem_tick (s : State) (i : Nat) : (s.dropItem i).tick = s.tick := rfl
@[simp] theorem State.dropItem_cur (s : State) (i : Nat) : (s.dropItem i).cur = s.cur := rfl
@[simp] theorem State.dropItem_inputs (s : State) (i : Nat) : (s.dropItem i).inputs = s.inputs := rfl
@[simp] theorem State.dropItem_nextId (s : State) (i : Nat) : (s.dropItem i).nextId = s.nextId := rfl
@[simp] theorem State.dropItem_mem (s : State) (i : Nat) : (s.dropItem i).mem = s.mem := rfl
@[simp] theorem State.dropItem_eccMem (s : State) (i : Nat) : (s.dropItem i).eccMem = s.eccMem := rfl
@[simp] theorem State.dropItem_eccShared (s : State) (i : Nat) : (s.dropItem i).eccShared = s.eccShared := rfl
@[simp] theorem State.dropItem_cut (s : State) (i : Nat) : (s.dropItem i).cut = s.cut := rfl
@[simp] theorem State.dropItem_det (s : State) (i : Nat) : (s.dropItem i).det = s.det := rfl
@[simp] theorem State.dropItem_contexts (s : State) (i : Nat) : (s.dropItem i).contexts = s.contexts := rfl
@[simp] theorem State.dropItem_queues (s : State) (i : Nat) : (s.dropItem i).queues = s.queues := rfl
@[simp] theorem State.dropItem_seqs (s : State) (i : Nat) : (s.dropItem i).seqs = s.seqs := rfl
@[simp] theorem State.dropItem_grids (s : State) (i : Nat) : (s.dropItem i).grids = s.grids := rfl
@[simp] theorem State.dropItem_teams (s : State) (i : Nat) : (s.dropItem i).teams = s.teams := rfl
@[simp] theorem State.dropItem_graphs (s : State) (i : Nat) : (s.dropItem i).graphs = s.graphs := rfl
@[simp] theorem State.dropItem_reds (s : State) (i : Nat) : (s.dropItem i).reds = s.reds := rfl
@[simp] theorem State.dropItem_matrices (s : State) (i : Nat) : (s.dropItem i).matrices = s.matrices := rfl
@[simp] theorem State.dropItem_tlb1 (s : State) (i : Nat) : (s.dropItem i).tlb1 = s.tlb1 := rfl
@[simp] theorem State.dropItem_tlb2 (s : State) (i : Nat) : (s.dropItem i).tlb2 = s.tlb2 := rfl
@[simp] theorem State.dropItem_migrating (s : State) (i : Nat) : (s.dropItem i).migrating = s.migrating := rfl
@[simp] theorem State.dropItem_refused (s : State) (i : Nat) : (s.dropItem i).refused = s.refused := rfl
@[simp] theorem State.dropItem_reports (s : State) (i : Nat) : (s.dropItem i).reports = s.reports := rfl
@[simp] theorem State.dropItem_wlog (s : State) (i : Nat) : (s.dropItem i).wlog = s.wlog := rfl
@[simp] theorem State.dropItem_icMark (s : State) (i : Nat) : (s.dropItem i).icMark = s.icMark := rfl
@[simp] theorem State.dropItem_cyc (s : State) (i : Nat) : (s.dropItem i).cyc = s.cyc := rfl
@[simp] theorem State.dropItem_locs (s : State) (i : Nat) : (s.dropItem i).locs = s.locs := rfl
@[simp] theorem State.dropItem_hist (s : State) (i : Nat) : (s.dropItem i).hist = s.hist := rfl
@[simp] theorem State.dropItem_flips (s : State) (i : Nat) : (s.dropItem i).flips = s.flips := rfl
@[simp] theorem State.dropItem_endRels (s : State) (i : Nat) : (s.dropItem i).endRels = s.endRels := rfl
@[simp] theorem State.dropItem_lines (s : State) (i : Nat) : (s.dropItem i).lines = s.lines := rfl
@[simp] theorem State.dropItem_fenceClk (s : State) (i : Nat) : (s.dropItem i).fenceClk = s.fenceClk := rfl
@[simp] theorem State.dropItem_captures (s : State) (i : Nat) : (s.dropItem i).captures = s.captures := rfl
@[simp] theorem State.dropItem_heads (s : State) (i : Nat) : (s.dropItem i).heads = s.heads := rfl
@[simp] theorem State.dropItem_streams (s : State) (i : Nat) : (s.dropItem i).streams = s.streams := rfl
@[simp] theorem State.dropItem_boot (s : State) (i : Nat) : (s.dropItem i).boot = s.boot := rfl
@[simp] theorem State.dropItem_flash (s : State) (i : Nat) : (s.dropItem i).flash = s.flash := rfl
@[simp] theorem State.dropItem_meas (s : State) (i : Nat) : (s.dropItem i).meas = s.meas := rfl
@[simp] theorem State.dropItem_fuses (s : State) (i : Nat) : (s.dropItem i).fuses = s.fuses := rfl
@[simp] theorem State.dropItem_rollback (s : State) (i : Nat) : (s.dropItem i).rollback = s.rollback := rfl
@[simp] theorem State.dropItem_spdmAlgs (s : State) (i : Nat) : (s.dropItem i).spdmAlgs = s.spdmAlgs := rfl
@[simp] theorem State.dropItem_responses (s : State) (i : Nat) : (s.dropItem i).responses = s.responses := rfl
@[simp] theorem State.dropItem_linksDown (s : State) (i : Nat) : (s.dropItem i).linksDown = s.linksDown := rfl
@[simp] theorem State.dropItem_clocks (s : State) (i : Nat) : (s.dropItem i).clocks = s.clocks := rfl
@[simp] theorem State.dropItem_started (s : State) (i : Nat) : (s.dropItem i).started = s.started := rfl
@[simp] theorem State.dropItem_corrected (s : State) (i : Nat) : (s.dropItem i).corrected = s.corrected := rfl

/-! ## A report -/

@[simp] theorem State.report_tick (s : State) (r : Report) : (s.report r).tick = s.tick := rfl
@[simp] theorem State.report_cur (s : State) (r : Report) : (s.report r).cur = s.cur := rfl
@[simp] theorem State.report_inputs (s : State) (r : Report) : (s.report r).inputs = s.inputs := rfl
@[simp] theorem State.report_nextId (s : State) (r : Report) : (s.report r).nextId = s.nextId := rfl
@[simp] theorem State.report_mem (s : State) (r : Report) : (s.report r).mem = s.mem := rfl
@[simp] theorem State.report_eccMem (s : State) (r : Report) : (s.report r).eccMem = s.eccMem := rfl
@[simp] theorem State.report_eccShared (s : State) (r : Report) : (s.report r).eccShared = s.eccShared := rfl
@[simp] theorem State.report_cut (s : State) (r : Report) : (s.report r).cut = s.cut := rfl
@[simp] theorem State.report_det (s : State) (r : Report) : (s.report r).det = s.det := rfl
@[simp] theorem State.report_contexts (s : State) (r : Report) : (s.report r).contexts = s.contexts := rfl
@[simp] theorem State.report_queues (s : State) (r : Report) : (s.report r).queues = s.queues := rfl
@[simp] theorem State.report_seqs (s : State) (r : Report) : (s.report r).seqs = s.seqs := rfl
@[simp] theorem State.report_grids (s : State) (r : Report) : (s.report r).grids = s.grids := rfl
@[simp] theorem State.report_teams (s : State) (r : Report) : (s.report r).teams = s.teams := rfl
@[simp] theorem State.report_graphs (s : State) (r : Report) : (s.report r).graphs = s.graphs := rfl
@[simp] theorem State.report_items (s : State) (r : Report) : (s.report r).items = s.items := rfl
@[simp] theorem State.report_reds (s : State) (r : Report) : (s.report r).reds = s.reds := rfl
@[simp] theorem State.report_matrices (s : State) (r : Report) : (s.report r).matrices = s.matrices := rfl
@[simp] theorem State.report_tlb1 (s : State) (r : Report) : (s.report r).tlb1 = s.tlb1 := rfl
@[simp] theorem State.report_tlb2 (s : State) (r : Report) : (s.report r).tlb2 = s.tlb2 := rfl
@[simp] theorem State.report_migrating (s : State) (r : Report) : (s.report r).migrating = s.migrating := rfl
@[simp] theorem State.report_refused (s : State) (r : Report) : (s.report r).refused = s.refused := rfl
@[simp] theorem State.report_wlog (s : State) (r : Report) : (s.report r).wlog = s.wlog := rfl
@[simp] theorem State.report_icMark (s : State) (r : Report) : (s.report r).icMark = s.icMark := rfl
@[simp] theorem State.report_cyc (s : State) (r : Report) : (s.report r).cyc = s.cyc := rfl
@[simp] theorem State.report_locs (s : State) (r : Report) : (s.report r).locs = s.locs := rfl
@[simp] theorem State.report_hist (s : State) (r : Report) : (s.report r).hist = s.hist := rfl
@[simp] theorem State.report_flips (s : State) (r : Report) : (s.report r).flips = s.flips := rfl
@[simp] theorem State.report_endRels (s : State) (r : Report) : (s.report r).endRels = s.endRels := rfl
@[simp] theorem State.report_lines (s : State) (r : Report) : (s.report r).lines = s.lines := rfl
@[simp] theorem State.report_fenceClk (s : State) (r : Report) : (s.report r).fenceClk = s.fenceClk := rfl
@[simp] theorem State.report_captures (s : State) (r : Report) : (s.report r).captures = s.captures := rfl
@[simp] theorem State.report_heads (s : State) (r : Report) : (s.report r).heads = s.heads := rfl
@[simp] theorem State.report_streams (s : State) (r : Report) : (s.report r).streams = s.streams := rfl
@[simp] theorem State.report_boot (s : State) (r : Report) : (s.report r).boot = s.boot := rfl
@[simp] theorem State.report_flash (s : State) (r : Report) : (s.report r).flash = s.flash := rfl
@[simp] theorem State.report_meas (s : State) (r : Report) : (s.report r).meas = s.meas := rfl
@[simp] theorem State.report_fuses (s : State) (r : Report) : (s.report r).fuses = s.fuses := rfl
@[simp] theorem State.report_rollback (s : State) (r : Report) : (s.report r).rollback = s.rollback := rfl
@[simp] theorem State.report_spdmAlgs (s : State) (r : Report) : (s.report r).spdmAlgs = s.spdmAlgs := rfl
@[simp] theorem State.report_responses (s : State) (r : Report) : (s.report r).responses = s.responses := rfl
@[simp] theorem State.report_linksDown (s : State) (r : Report) : (s.report r).linksDown = s.linksDown := rfl
@[simp] theorem State.report_clocks (s : State) (r : Report) : (s.report r).clocks = s.clocks := rfl
@[simp] theorem State.report_started (s : State) (r : Report) : (s.report r).started = s.started := rfl
@[simp] theorem State.report_corrected (s : State) (r : Report) : (s.report r).corrected = s.corrected := rfl

/-! ## A halted context -/

@[simp] theorem State.haltContext_tick (s : State) (c : Nat) : (s.haltContext c).tick = s.tick := rfl
@[simp] theorem State.haltContext_cur (s : State) (c : Nat) : (s.haltContext c).cur = s.cur := rfl
@[simp] theorem State.haltContext_inputs (s : State) (c : Nat) : (s.haltContext c).inputs = s.inputs := rfl
@[simp] theorem State.haltContext_nextId (s : State) (c : Nat) : (s.haltContext c).nextId = s.nextId := rfl
@[simp] theorem State.haltContext_mem (s : State) (c : Nat) : (s.haltContext c).mem = s.mem := rfl
@[simp] theorem State.haltContext_eccMem (s : State) (c : Nat) : (s.haltContext c).eccMem = s.eccMem := rfl
@[simp] theorem State.haltContext_eccShared (s : State) (c : Nat) : (s.haltContext c).eccShared = s.eccShared := rfl
@[simp] theorem State.haltContext_cut (s : State) (c : Nat) : (s.haltContext c).cut = s.cut := rfl
@[simp] theorem State.haltContext_det (s : State) (c : Nat) : (s.haltContext c).det = s.det := rfl
@[simp] theorem State.haltContext_queues (s : State) (c : Nat) : (s.haltContext c).queues = s.queues := rfl
@[simp] theorem State.haltContext_seqs (s : State) (c : Nat) : (s.haltContext c).seqs = s.seqs := rfl
@[simp] theorem State.haltContext_teams (s : State) (c : Nat) : (s.haltContext c).teams = s.teams := rfl
@[simp] theorem State.haltContext_graphs (s : State) (c : Nat) : (s.haltContext c).graphs = s.graphs := rfl
@[simp] theorem State.haltContext_items (s : State) (c : Nat) : (s.haltContext c).items = s.items := rfl
@[simp] theorem State.haltContext_reds (s : State) (c : Nat) : (s.haltContext c).reds = s.reds := rfl
@[simp] theorem State.haltContext_matrices (s : State) (c : Nat) : (s.haltContext c).matrices = s.matrices := rfl
@[simp] theorem State.haltContext_tlb1 (s : State) (c : Nat) : (s.haltContext c).tlb1 = s.tlb1 := rfl
@[simp] theorem State.haltContext_tlb2 (s : State) (c : Nat) : (s.haltContext c).tlb2 = s.tlb2 := rfl
@[simp] theorem State.haltContext_migrating (s : State) (c : Nat) : (s.haltContext c).migrating = s.migrating := rfl
@[simp] theorem State.haltContext_refused (s : State) (c : Nat) : (s.haltContext c).refused = s.refused := rfl
@[simp] theorem State.haltContext_reports (s : State) (c : Nat) : (s.haltContext c).reports = s.reports := rfl
@[simp] theorem State.haltContext_wlog (s : State) (c : Nat) : (s.haltContext c).wlog = s.wlog := rfl
@[simp] theorem State.haltContext_icMark (s : State) (c : Nat) : (s.haltContext c).icMark = s.icMark := rfl
@[simp] theorem State.haltContext_cyc (s : State) (c : Nat) : (s.haltContext c).cyc = s.cyc := rfl
@[simp] theorem State.haltContext_locs (s : State) (c : Nat) : (s.haltContext c).locs = s.locs := rfl
@[simp] theorem State.haltContext_hist (s : State) (c : Nat) : (s.haltContext c).hist = s.hist := rfl
@[simp] theorem State.haltContext_flips (s : State) (c : Nat) : (s.haltContext c).flips = s.flips := rfl
@[simp] theorem State.haltContext_endRels (s : State) (c : Nat) : (s.haltContext c).endRels = s.endRels := rfl
@[simp] theorem State.haltContext_lines (s : State) (c : Nat) : (s.haltContext c).lines = s.lines := rfl
@[simp] theorem State.haltContext_fenceClk (s : State) (c : Nat) : (s.haltContext c).fenceClk = s.fenceClk := rfl
@[simp] theorem State.haltContext_captures (s : State) (c : Nat) : (s.haltContext c).captures = s.captures := rfl
@[simp] theorem State.haltContext_heads (s : State) (c : Nat) : (s.haltContext c).heads = s.heads := rfl
@[simp] theorem State.haltContext_streams (s : State) (c : Nat) : (s.haltContext c).streams = s.streams := rfl
@[simp] theorem State.haltContext_boot (s : State) (c : Nat) : (s.haltContext c).boot = s.boot := rfl
@[simp] theorem State.haltContext_flash (s : State) (c : Nat) : (s.haltContext c).flash = s.flash := rfl
@[simp] theorem State.haltContext_meas (s : State) (c : Nat) : (s.haltContext c).meas = s.meas := rfl
@[simp] theorem State.haltContext_fuses (s : State) (c : Nat) : (s.haltContext c).fuses = s.fuses := rfl
@[simp] theorem State.haltContext_rollback (s : State) (c : Nat) : (s.haltContext c).rollback = s.rollback := rfl
@[simp] theorem State.haltContext_spdmAlgs (s : State) (c : Nat) : (s.haltContext c).spdmAlgs = s.spdmAlgs := rfl
@[simp] theorem State.haltContext_responses (s : State) (c : Nat) : (s.haltContext c).responses = s.responses := rfl
@[simp] theorem State.haltContext_linksDown (s : State) (c : Nat) : (s.haltContext c).linksDown = s.linksDown := rfl
@[simp] theorem State.haltContext_clocks (s : State) (c : Nat) : (s.haltContext c).clocks = s.clocks := rfl
@[simp] theorem State.haltContext_started (s : State) (c : Nat) : (s.haltContext c).started = s.started := rfl
@[simp] theorem State.haltContext_corrected (s : State) (c : Nat) : (s.haltContext c).corrected = s.corrected := rfl

/-! ## Bytes of physical memory -/

@[simp] theorem State.poke_tick (s : State) (pa : Nat) (bs : List Byte) : (s.poke pa bs).tick = s.tick := rfl
@[simp] theorem State.poke_cur (s : State) (pa : Nat) (bs : List Byte) : (s.poke pa bs).cur = s.cur := rfl
@[simp] theorem State.poke_inputs (s : State) (pa : Nat) (bs : List Byte) : (s.poke pa bs).inputs = s.inputs := rfl
@[simp] theorem State.poke_nextId (s : State) (pa : Nat) (bs : List Byte) : (s.poke pa bs).nextId = s.nextId := rfl
@[simp] theorem State.poke_eccShared (s : State) (pa : Nat) (bs : List Byte) : (s.poke pa bs).eccShared = s.eccShared := rfl
@[simp] theorem State.poke_cut (s : State) (pa : Nat) (bs : List Byte) : (s.poke pa bs).cut = s.cut := rfl
@[simp] theorem State.poke_det (s : State) (pa : Nat) (bs : List Byte) : (s.poke pa bs).det = s.det := rfl
@[simp] theorem State.poke_contexts (s : State) (pa : Nat) (bs : List Byte) : (s.poke pa bs).contexts = s.contexts := rfl
@[simp] theorem State.poke_queues (s : State) (pa : Nat) (bs : List Byte) : (s.poke pa bs).queues = s.queues := rfl
@[simp] theorem State.poke_seqs (s : State) (pa : Nat) (bs : List Byte) : (s.poke pa bs).seqs = s.seqs := rfl
@[simp] theorem State.poke_grids (s : State) (pa : Nat) (bs : List Byte) : (s.poke pa bs).grids = s.grids := rfl
@[simp] theorem State.poke_teams (s : State) (pa : Nat) (bs : List Byte) : (s.poke pa bs).teams = s.teams := rfl
@[simp] theorem State.poke_graphs (s : State) (pa : Nat) (bs : List Byte) : (s.poke pa bs).graphs = s.graphs := rfl
@[simp] theorem State.poke_items (s : State) (pa : Nat) (bs : List Byte) : (s.poke pa bs).items = s.items := rfl
@[simp] theorem State.poke_reds (s : State) (pa : Nat) (bs : List Byte) : (s.poke pa bs).reds = s.reds := rfl
@[simp] theorem State.poke_matrices (s : State) (pa : Nat) (bs : List Byte) : (s.poke pa bs).matrices = s.matrices := rfl
@[simp] theorem State.poke_tlb1 (s : State) (pa : Nat) (bs : List Byte) : (s.poke pa bs).tlb1 = s.tlb1 := rfl
@[simp] theorem State.poke_tlb2 (s : State) (pa : Nat) (bs : List Byte) : (s.poke pa bs).tlb2 = s.tlb2 := rfl
@[simp] theorem State.poke_migrating (s : State) (pa : Nat) (bs : List Byte) : (s.poke pa bs).migrating = s.migrating := rfl
@[simp] theorem State.poke_refused (s : State) (pa : Nat) (bs : List Byte) : (s.poke pa bs).refused = s.refused := rfl
@[simp] theorem State.poke_reports (s : State) (pa : Nat) (bs : List Byte) : (s.poke pa bs).reports = s.reports := rfl
@[simp] theorem State.poke_icMark (s : State) (pa : Nat) (bs : List Byte) : (s.poke pa bs).icMark = s.icMark := rfl
@[simp] theorem State.poke_cyc (s : State) (pa : Nat) (bs : List Byte) : (s.poke pa bs).cyc = s.cyc := rfl
@[simp] theorem State.poke_locs (s : State) (pa : Nat) (bs : List Byte) : (s.poke pa bs).locs = s.locs := rfl
@[simp] theorem State.poke_hist (s : State) (pa : Nat) (bs : List Byte) : (s.poke pa bs).hist = s.hist := rfl
@[simp] theorem State.poke_flips (s : State) (pa : Nat) (bs : List Byte) : (s.poke pa bs).flips = s.flips := rfl
@[simp] theorem State.poke_endRels (s : State) (pa : Nat) (bs : List Byte) : (s.poke pa bs).endRels = s.endRels := rfl
@[simp] theorem State.poke_lines (s : State) (pa : Nat) (bs : List Byte) : (s.poke pa bs).lines = s.lines := rfl
@[simp] theorem State.poke_fenceClk (s : State) (pa : Nat) (bs : List Byte) : (s.poke pa bs).fenceClk = s.fenceClk := rfl
@[simp] theorem State.poke_captures (s : State) (pa : Nat) (bs : List Byte) : (s.poke pa bs).captures = s.captures := rfl
@[simp] theorem State.poke_heads (s : State) (pa : Nat) (bs : List Byte) : (s.poke pa bs).heads = s.heads := rfl
@[simp] theorem State.poke_streams (s : State) (pa : Nat) (bs : List Byte) : (s.poke pa bs).streams = s.streams := rfl
@[simp] theorem State.poke_boot (s : State) (pa : Nat) (bs : List Byte) : (s.poke pa bs).boot = s.boot := rfl
@[simp] theorem State.poke_flash (s : State) (pa : Nat) (bs : List Byte) : (s.poke pa bs).flash = s.flash := rfl
@[simp] theorem State.poke_meas (s : State) (pa : Nat) (bs : List Byte) : (s.poke pa bs).meas = s.meas := rfl
@[simp] theorem State.poke_fuses (s : State) (pa : Nat) (bs : List Byte) : (s.poke pa bs).fuses = s.fuses := rfl
@[simp] theorem State.poke_rollback (s : State) (pa : Nat) (bs : List Byte) : (s.poke pa bs).rollback = s.rollback := rfl
@[simp] theorem State.poke_spdmAlgs (s : State) (pa : Nat) (bs : List Byte) : (s.poke pa bs).spdmAlgs = s.spdmAlgs := rfl
@[simp] theorem State.poke_responses (s : State) (pa : Nat) (bs : List Byte) : (s.poke pa bs).responses = s.responses := rfl
@[simp] theorem State.poke_linksDown (s : State) (pa : Nat) (bs : List Byte) : (s.poke pa bs).linksDown = s.linksDown := rfl
@[simp] theorem State.poke_clocks (s : State) (pa : Nat) (bs : List Byte) : (s.poke pa bs).clocks = s.clocks := rfl
@[simp] theorem State.poke_started (s : State) (pa : Nat) (bs : List Byte) : (s.poke pa bs).started = s.started := rfl
@[simp] theorem State.poke_corrected (s : State) (pa : Nat) (bs : List Byte) : (s.poke pa bs).corrected = s.corrected := rfl

/-! ## Bytes of shared memory -/

@[simp] theorem State.pokeShared_tick (s : State) (u off : Nat) (bs : List Byte) : (s.pokeShared u off bs).tick = s.tick := rfl
@[simp] theorem State.pokeShared_cur (s : State) (u off : Nat) (bs : List Byte) : (s.pokeShared u off bs).cur = s.cur := rfl
@[simp] theorem State.pokeShared_inputs (s : State) (u off : Nat) (bs : List Byte) : (s.pokeShared u off bs).inputs = s.inputs := rfl
@[simp] theorem State.pokeShared_nextId (s : State) (u off : Nat) (bs : List Byte) : (s.pokeShared u off bs).nextId = s.nextId := rfl
@[simp] theorem State.pokeShared_mem (s : State) (u off : Nat) (bs : List Byte) : (s.pokeShared u off bs).mem = s.mem := rfl
@[simp] theorem State.pokeShared_eccMem (s : State) (u off : Nat) (bs : List Byte) : (s.pokeShared u off bs).eccMem = s.eccMem := rfl
@[simp] theorem State.pokeShared_cut (s : State) (u off : Nat) (bs : List Byte) : (s.pokeShared u off bs).cut = s.cut := rfl
@[simp] theorem State.pokeShared_det (s : State) (u off : Nat) (bs : List Byte) : (s.pokeShared u off bs).det = s.det := rfl
@[simp] theorem State.pokeShared_contexts (s : State) (u off : Nat) (bs : List Byte) : (s.pokeShared u off bs).contexts = s.contexts := rfl
@[simp] theorem State.pokeShared_queues (s : State) (u off : Nat) (bs : List Byte) : (s.pokeShared u off bs).queues = s.queues := rfl
@[simp] theorem State.pokeShared_seqs (s : State) (u off : Nat) (bs : List Byte) : (s.pokeShared u off bs).seqs = s.seqs := rfl
@[simp] theorem State.pokeShared_grids (s : State) (u off : Nat) (bs : List Byte) : (s.pokeShared u off bs).grids = s.grids := rfl
@[simp] theorem State.pokeShared_graphs (s : State) (u off : Nat) (bs : List Byte) : (s.pokeShared u off bs).graphs = s.graphs := rfl
@[simp] theorem State.pokeShared_items (s : State) (u off : Nat) (bs : List Byte) : (s.pokeShared u off bs).items = s.items := rfl
@[simp] theorem State.pokeShared_reds (s : State) (u off : Nat) (bs : List Byte) : (s.pokeShared u off bs).reds = s.reds := rfl
@[simp] theorem State.pokeShared_matrices (s : State) (u off : Nat) (bs : List Byte) : (s.pokeShared u off bs).matrices = s.matrices := rfl
@[simp] theorem State.pokeShared_tlb1 (s : State) (u off : Nat) (bs : List Byte) : (s.pokeShared u off bs).tlb1 = s.tlb1 := rfl
@[simp] theorem State.pokeShared_tlb2 (s : State) (u off : Nat) (bs : List Byte) : (s.pokeShared u off bs).tlb2 = s.tlb2 := rfl
@[simp] theorem State.pokeShared_migrating (s : State) (u off : Nat) (bs : List Byte) : (s.pokeShared u off bs).migrating = s.migrating := rfl
@[simp] theorem State.pokeShared_refused (s : State) (u off : Nat) (bs : List Byte) : (s.pokeShared u off bs).refused = s.refused := rfl
@[simp] theorem State.pokeShared_reports (s : State) (u off : Nat) (bs : List Byte) : (s.pokeShared u off bs).reports = s.reports := rfl
@[simp] theorem State.pokeShared_wlog (s : State) (u off : Nat) (bs : List Byte) : (s.pokeShared u off bs).wlog = s.wlog := rfl
@[simp] theorem State.pokeShared_icMark (s : State) (u off : Nat) (bs : List Byte) : (s.pokeShared u off bs).icMark = s.icMark := rfl
@[simp] theorem State.pokeShared_cyc (s : State) (u off : Nat) (bs : List Byte) : (s.pokeShared u off bs).cyc = s.cyc := rfl
@[simp] theorem State.pokeShared_locs (s : State) (u off : Nat) (bs : List Byte) : (s.pokeShared u off bs).locs = s.locs := rfl
@[simp] theorem State.pokeShared_hist (s : State) (u off : Nat) (bs : List Byte) : (s.pokeShared u off bs).hist = s.hist := rfl
@[simp] theorem State.pokeShared_flips (s : State) (u off : Nat) (bs : List Byte) : (s.pokeShared u off bs).flips = s.flips := rfl
@[simp] theorem State.pokeShared_endRels (s : State) (u off : Nat) (bs : List Byte) : (s.pokeShared u off bs).endRels = s.endRels := rfl
@[simp] theorem State.pokeShared_lines (s : State) (u off : Nat) (bs : List Byte) : (s.pokeShared u off bs).lines = s.lines := rfl
@[simp] theorem State.pokeShared_fenceClk (s : State) (u off : Nat) (bs : List Byte) : (s.pokeShared u off bs).fenceClk = s.fenceClk := rfl
@[simp] theorem State.pokeShared_captures (s : State) (u off : Nat) (bs : List Byte) : (s.pokeShared u off bs).captures = s.captures := rfl
@[simp] theorem State.pokeShared_heads (s : State) (u off : Nat) (bs : List Byte) : (s.pokeShared u off bs).heads = s.heads := rfl
@[simp] theorem State.pokeShared_streams (s : State) (u off : Nat) (bs : List Byte) : (s.pokeShared u off bs).streams = s.streams := rfl
@[simp] theorem State.pokeShared_boot (s : State) (u off : Nat) (bs : List Byte) : (s.pokeShared u off bs).boot = s.boot := rfl
@[simp] theorem State.pokeShared_flash (s : State) (u off : Nat) (bs : List Byte) : (s.pokeShared u off bs).flash = s.flash := rfl
@[simp] theorem State.pokeShared_meas (s : State) (u off : Nat) (bs : List Byte) : (s.pokeShared u off bs).meas = s.meas := rfl
@[simp] theorem State.pokeShared_fuses (s : State) (u off : Nat) (bs : List Byte) : (s.pokeShared u off bs).fuses = s.fuses := rfl
@[simp] theorem State.pokeShared_rollback (s : State) (u off : Nat) (bs : List Byte) : (s.pokeShared u off bs).rollback = s.rollback := rfl
@[simp] theorem State.pokeShared_spdmAlgs (s : State) (u off : Nat) (bs : List Byte) : (s.pokeShared u off bs).spdmAlgs = s.spdmAlgs := rfl
@[simp] theorem State.pokeShared_responses (s : State) (u off : Nat) (bs : List Byte) : (s.pokeShared u off bs).responses = s.responses := rfl
@[simp] theorem State.pokeShared_linksDown (s : State) (u off : Nat) (bs : List Byte) : (s.pokeShared u off bs).linksDown = s.linksDown := rfl
@[simp] theorem State.pokeShared_clocks (s : State) (u off : Nat) (bs : List Byte) : (s.pokeShared u off bs).clocks = s.clocks := rfl
@[simp] theorem State.pokeShared_started (s : State) (u off : Nat) (bs : List Byte) : (s.pokeShared u off bs).started = s.started := rfl
@[simp] theorem State.pokeShared_corrected (s : State) (u off : Nat) (bs : List Byte) : (s.pokeShared u off bs).corrected = s.corrected := rfl

/-! ## Results whose windows closed -/

@[simp] theorem State.closeWindows_tick (s : State) (u g fl : Nat) : (s.closeWindows u g fl).tick = s.tick := rfl
@[simp] theorem State.closeWindows_cur (s : State) (u g fl : Nat) : (s.closeWindows u g fl).cur = s.cur := rfl
@[simp] theorem State.closeWindows_inputs (s : State) (u g fl : Nat) : (s.closeWindows u g fl).inputs = s.inputs := rfl
@[simp] theorem State.closeWindows_nextId (s : State) (u g fl : Nat) : (s.closeWindows u g fl).nextId = s.nextId := rfl
@[simp] theorem State.closeWindows_mem (s : State) (u g fl : Nat) : (s.closeWindows u g fl).mem = s.mem := rfl
@[simp] theorem State.closeWindows_eccMem (s : State) (u g fl : Nat) : (s.closeWindows u g fl).eccMem = s.eccMem := rfl
@[simp] theorem State.closeWindows_eccShared (s : State) (u g fl : Nat) : (s.closeWindows u g fl).eccShared = s.eccShared := rfl
@[simp] theorem State.closeWindows_cut (s : State) (u g fl : Nat) : (s.closeWindows u g fl).cut = s.cut := rfl
@[simp] theorem State.closeWindows_det (s : State) (u g fl : Nat) : (s.closeWindows u g fl).det = s.det := rfl
@[simp] theorem State.closeWindows_contexts (s : State) (u g fl : Nat) : (s.closeWindows u g fl).contexts = s.contexts := rfl
@[simp] theorem State.closeWindows_queues (s : State) (u g fl : Nat) : (s.closeWindows u g fl).queues = s.queues := rfl
@[simp] theorem State.closeWindows_seqs (s : State) (u g fl : Nat) : (s.closeWindows u g fl).seqs = s.seqs := rfl
@[simp] theorem State.closeWindows_grids (s : State) (u g fl : Nat) : (s.closeWindows u g fl).grids = s.grids := rfl
@[simp] theorem State.closeWindows_graphs (s : State) (u g fl : Nat) : (s.closeWindows u g fl).graphs = s.graphs := rfl
@[simp] theorem State.closeWindows_items (s : State) (u g fl : Nat) : (s.closeWindows u g fl).items = s.items := rfl
@[simp] theorem State.closeWindows_reds (s : State) (u g fl : Nat) : (s.closeWindows u g fl).reds = s.reds := rfl
@[simp] theorem State.closeWindows_matrices (s : State) (u g fl : Nat) : (s.closeWindows u g fl).matrices = s.matrices := rfl
@[simp] theorem State.closeWindows_tlb1 (s : State) (u g fl : Nat) : (s.closeWindows u g fl).tlb1 = s.tlb1 := rfl
@[simp] theorem State.closeWindows_tlb2 (s : State) (u g fl : Nat) : (s.closeWindows u g fl).tlb2 = s.tlb2 := rfl
@[simp] theorem State.closeWindows_migrating (s : State) (u g fl : Nat) : (s.closeWindows u g fl).migrating = s.migrating := rfl
@[simp] theorem State.closeWindows_refused (s : State) (u g fl : Nat) : (s.closeWindows u g fl).refused = s.refused := rfl
@[simp] theorem State.closeWindows_reports (s : State) (u g fl : Nat) : (s.closeWindows u g fl).reports = s.reports := rfl
@[simp] theorem State.closeWindows_wlog (s : State) (u g fl : Nat) : (s.closeWindows u g fl).wlog = s.wlog := rfl
@[simp] theorem State.closeWindows_icMark (s : State) (u g fl : Nat) : (s.closeWindows u g fl).icMark = s.icMark := rfl
@[simp] theorem State.closeWindows_cyc (s : State) (u g fl : Nat) : (s.closeWindows u g fl).cyc = s.cyc := rfl
@[simp] theorem State.closeWindows_locs (s : State) (u g fl : Nat) : (s.closeWindows u g fl).locs = s.locs := rfl
@[simp] theorem State.closeWindows_hist (s : State) (u g fl : Nat) : (s.closeWindows u g fl).hist = s.hist := rfl
@[simp] theorem State.closeWindows_flips (s : State) (u g fl : Nat) : (s.closeWindows u g fl).flips = s.flips := rfl
@[simp] theorem State.closeWindows_endRels (s : State) (u g fl : Nat) : (s.closeWindows u g fl).endRels = s.endRels := rfl
@[simp] theorem State.closeWindows_lines (s : State) (u g fl : Nat) : (s.closeWindows u g fl).lines = s.lines := rfl
@[simp] theorem State.closeWindows_fenceClk (s : State) (u g fl : Nat) : (s.closeWindows u g fl).fenceClk = s.fenceClk := rfl
@[simp] theorem State.closeWindows_captures (s : State) (u g fl : Nat) : (s.closeWindows u g fl).captures = s.captures := rfl
@[simp] theorem State.closeWindows_heads (s : State) (u g fl : Nat) : (s.closeWindows u g fl).heads = s.heads := rfl
@[simp] theorem State.closeWindows_streams (s : State) (u g fl : Nat) : (s.closeWindows u g fl).streams = s.streams := rfl
@[simp] theorem State.closeWindows_boot (s : State) (u g fl : Nat) : (s.closeWindows u g fl).boot = s.boot := rfl
@[simp] theorem State.closeWindows_flash (s : State) (u g fl : Nat) : (s.closeWindows u g fl).flash = s.flash := rfl
@[simp] theorem State.closeWindows_meas (s : State) (u g fl : Nat) : (s.closeWindows u g fl).meas = s.meas := rfl
@[simp] theorem State.closeWindows_fuses (s : State) (u g fl : Nat) : (s.closeWindows u g fl).fuses = s.fuses := rfl
@[simp] theorem State.closeWindows_rollback (s : State) (u g fl : Nat) : (s.closeWindows u g fl).rollback = s.rollback := rfl
@[simp] theorem State.closeWindows_spdmAlgs (s : State) (u g fl : Nat) : (s.closeWindows u g fl).spdmAlgs = s.spdmAlgs := rfl
@[simp] theorem State.closeWindows_responses (s : State) (u g fl : Nat) : (s.closeWindows u g fl).responses = s.responses := rfl
@[simp] theorem State.closeWindows_linksDown (s : State) (u g fl : Nat) : (s.closeWindows u g fl).linksDown = s.linksDown := rfl
@[simp] theorem State.closeWindows_clocks (s : State) (u g fl : Nat) : (s.closeWindows u g fl).clocks = s.clocks := rfl
@[simp] theorem State.closeWindows_started (s : State) (u g fl : Nat) : (s.closeWindows u g fl).started = s.started := rfl
@[simp] theorem State.closeWindows_corrected (s : State) (u g fl : Nat) : (s.closeWindows u g fl).corrected = s.corrected := rfl

/-! ## A split record -/

@[simp] theorem Group.setRec_gid (g : Group) (k : Nat) (r : Split) : (g.setRec k r).gid = g.gid := rfl
@[simp] theorem Group.setRec_role (g : Group) (k : Nat) (r : Split) : (g.setRec k r).role = g.role := rfl
@[simp] theorem Group.setRec_budget (g : Group) (k : Nat) (r : Split) : (g.setRec k r).budget = g.budget := rfl
@[simp] theorem Group.setRec_slot (g : Group) (k : Nat) (r : Split) : (g.setRec k r).slot = g.slot := rfl
@[simp] theorem Group.setRec_resid (g : Group) (k : Nat) (r : Split) : (g.setRec k r).resid = g.resid := rfl
@[simp] theorem Group.setRec_launched (g : Group) (k : Nat) (r : Split) : (g.setRec k r).launched = g.launched := rfl
@[simp] theorem Group.setRec_v (g : Group) (k : Nat) (r : Split) : (g.setRec k r).v = g.v := rfl
@[simp] theorem Group.setRec_vlive (g : Group) (k : Nat) (r : Split) : (g.setRec k r).vlive = g.vlive := rfl
@[simp] theorem Group.setRec_s (g : Group) (k : Nat) (r : Split) : (g.setRec k r).s = g.s := rfl
@[simp] theorem Group.setRec_slive (g : Group) (k : Nat) (r : Split) : (g.setRec k r).slive = g.slive := rfl
@[simp] theorem Group.setRec_m (g : Group) (k : Nat) (r : Split) : (g.setRec k r).m = g.m := rfl
@[simp] theorem Group.setRec_stat (g : Group) (k : Nat) (r : Split) : (g.setRec k r).stat = g.stat := rfl
@[simp] theorem Group.setRec_trapen (g : Group) (k : Nat) (r : Split) : (g.setRec k r).trapen = g.trapen := rfl
@[simp] theorem Group.setRec_ksp (g : Group) (k : Nat) (r : Split) : (g.setRec k r).ksp = g.ksp := rfl
@[simp] theorem Group.setRec_kwin (g : Group) (k : Nat) (r : Split) : (g.setRec k r).kwin = g.kwin := rfl
@[simp] theorem Group.setRec_handler (g : Group) (k : Nat) (r : Split) : (g.setRec k r).handler = g.handler := rfl
@[simp] theorem Group.setRec_pending (g : Group) (k : Nat) (r : Split) : (g.setRec k r).pending = g.pending := rfl
@[simp] theorem Group.setRec_preempt (g : Group) (k : Nat) (r : Split) : (g.setRec k r).preempt = g.preempt := rfl
@[simp] theorem Group.setRec_pendRest (g : Group) (k : Nat) (r : Split) : (g.setRec k r).pendRest = g.pendRest := rfl
@[simp] theorem Group.setRec_pends (g : Group) (k : Nat) (r : Split) : (g.setRec k r).pends = g.pends := rfl
@[simp] theorem Group.setRec_tokBusy (g : Group) (k : Nat) (r : Split) : (g.setRec k r).tokBusy = g.tokBusy := rfl
@[simp] theorem Group.setRec_tokClk (g : Group) (k : Nat) (r : Split) : (g.setRec k r).tokClk = g.tokClk := rfl
@[simp] theorem Group.setRec_mprio (g : Group) (k : Nat) (r : Split) : (g.setRec k r).mprio = g.mprio := rfl
@[simp] theorem Group.setRec_rays (g : Group) (k : Nat) (r : Split) : (g.setRec k r).rays = g.rays := rfl
@[simp] theorem Group.setRec_saveArea (g : Group) (k : Nat) (r : Split) : (g.setRec k r).saveArea = g.saveArea := rfl
@[simp] theorem Group.setRec_hbarIn (g : Group) (k : Nat) (r : Split) : (g.setRec k r).hbarIn = g.hbarIn := rfl
@[simp] theorem Group.setRec_retired (g : Group) (k : Nat) (r : Split) : (g.setRec k r).retired = g.retired := rfl
@[simp] theorem Group.setRec_saved (g : Group) (k : Nat) (r : Split) : (g.setRec k r).saved = g.saved := rfl
@[simp] theorem Group.setRec_eccV (g : Group) (k : Nat) (r : Split) : (g.setRec k r).eccV = g.eccV := rfl
@[simp] theorem Group.setRec_eccS (g : Group) (k : Nat) (r : Split) : (g.setRec k r).eccS = g.eccS := rfl
@[simp] theorem Group.setRec_eccM (g : Group) (k : Nat) (r : Split) : (g.setRec k r).eccM = g.eccM := rfl
@[simp] theorem Group.setRec_clk (g : Group) (k : Nat) (r : Split) : (g.setRec k r).clk = g.clk := rfl
@[simp] theorem Group.setRec_rels (g : Group) (k : Nat) (r : Split) : (g.setRec k r).rels = g.rels := rfl
@[simp] theorem Group.setRec_relMark (g : Group) (k : Nat) (r : Split) : (g.setRec k r).relMark = g.relMark := rfl
@[simp] theorem Group.setRec_oprClk (g : Group) (k : Nat) (r : Split) : (g.setRec k r).oprClk = g.oprClk := rfl

/-! ## A vector register -/

@[simp] theorem Group.writeV_gid (g : Group) (r : Nat) (m : Mask) (x : LaneVec) : (g.writeV r m x).gid = g.gid := rfl
@[simp] theorem Group.writeV_role (g : Group) (r : Nat) (m : Mask) (x : LaneVec) : (g.writeV r m x).role = g.role := rfl
@[simp] theorem Group.writeV_budget (g : Group) (r : Nat) (m : Mask) (x : LaneVec) : (g.writeV r m x).budget = g.budget := rfl
@[simp] theorem Group.writeV_slot (g : Group) (r : Nat) (m : Mask) (x : LaneVec) : (g.writeV r m x).slot = g.slot := rfl
@[simp] theorem Group.writeV_resid (g : Group) (r : Nat) (m : Mask) (x : LaneVec) : (g.writeV r m x).resid = g.resid := rfl
@[simp] theorem Group.writeV_launched (g : Group) (r : Nat) (m : Mask) (x : LaneVec) : (g.writeV r m x).launched = g.launched := rfl
@[simp] theorem Group.writeV_s (g : Group) (r : Nat) (m : Mask) (x : LaneVec) : (g.writeV r m x).s = g.s := rfl
@[simp] theorem Group.writeV_slive (g : Group) (r : Nat) (m : Mask) (x : LaneVec) : (g.writeV r m x).slive = g.slive := rfl
@[simp] theorem Group.writeV_m (g : Group) (r : Nat) (m : Mask) (x : LaneVec) : (g.writeV r m x).m = g.m := rfl
@[simp] theorem Group.writeV_stat (g : Group) (r : Nat) (m : Mask) (x : LaneVec) : (g.writeV r m x).stat = g.stat := rfl
@[simp] theorem Group.writeV_trapen (g : Group) (r : Nat) (m : Mask) (x : LaneVec) : (g.writeV r m x).trapen = g.trapen := rfl
@[simp] theorem Group.writeV_ksp (g : Group) (r : Nat) (m : Mask) (x : LaneVec) : (g.writeV r m x).ksp = g.ksp := rfl
@[simp] theorem Group.writeV_kwin (g : Group) (r : Nat) (m : Mask) (x : LaneVec) : (g.writeV r m x).kwin = g.kwin := rfl
@[simp] theorem Group.writeV_recs (g : Group) (r : Nat) (m : Mask) (x : LaneVec) : (g.writeV r m x).recs = g.recs := rfl
@[simp] theorem Group.writeV_handler (g : Group) (r : Nat) (m : Mask) (x : LaneVec) : (g.writeV r m x).handler = g.handler := rfl
@[simp] theorem Group.writeV_pending (g : Group) (r : Nat) (m : Mask) (x : LaneVec) : (g.writeV r m x).pending = g.pending := rfl
@[simp] theorem Group.writeV_preempt (g : Group) (r : Nat) (m : Mask) (x : LaneVec) : (g.writeV r m x).preempt = g.preempt := rfl
@[simp] theorem Group.writeV_pendRest (g : Group) (r : Nat) (m : Mask) (x : LaneVec) : (g.writeV r m x).pendRest = g.pendRest := rfl
@[simp] theorem Group.writeV_pends (g : Group) (r : Nat) (m : Mask) (x : LaneVec) : (g.writeV r m x).pends = g.pends := rfl
@[simp] theorem Group.writeV_tokBusy (g : Group) (r : Nat) (m : Mask) (x : LaneVec) : (g.writeV r m x).tokBusy = g.tokBusy := rfl
@[simp] theorem Group.writeV_tokClk (g : Group) (r : Nat) (m : Mask) (x : LaneVec) : (g.writeV r m x).tokClk = g.tokClk := rfl
@[simp] theorem Group.writeV_mprio (g : Group) (r : Nat) (m : Mask) (x : LaneVec) : (g.writeV r m x).mprio = g.mprio := rfl
@[simp] theorem Group.writeV_rays (g : Group) (r : Nat) (m : Mask) (x : LaneVec) : (g.writeV r m x).rays = g.rays := rfl
@[simp] theorem Group.writeV_saveArea (g : Group) (r : Nat) (m : Mask) (x : LaneVec) : (g.writeV r m x).saveArea = g.saveArea := rfl
@[simp] theorem Group.writeV_hbarIn (g : Group) (r : Nat) (m : Mask) (x : LaneVec) : (g.writeV r m x).hbarIn = g.hbarIn := rfl
@[simp] theorem Group.writeV_retired (g : Group) (r : Nat) (m : Mask) (x : LaneVec) : (g.writeV r m x).retired = g.retired := rfl
@[simp] theorem Group.writeV_saved (g : Group) (r : Nat) (m : Mask) (x : LaneVec) : (g.writeV r m x).saved = g.saved := rfl
@[simp] theorem Group.writeV_eccS (g : Group) (r : Nat) (m : Mask) (x : LaneVec) : (g.writeV r m x).eccS = g.eccS := rfl
@[simp] theorem Group.writeV_eccM (g : Group) (r : Nat) (m : Mask) (x : LaneVec) : (g.writeV r m x).eccM = g.eccM := rfl
@[simp] theorem Group.writeV_clk (g : Group) (r : Nat) (m : Mask) (x : LaneVec) : (g.writeV r m x).clk = g.clk := rfl
@[simp] theorem Group.writeV_rels (g : Group) (r : Nat) (m : Mask) (x : LaneVec) : (g.writeV r m x).rels = g.rels := rfl
@[simp] theorem Group.writeV_relMark (g : Group) (r : Nat) (m : Mask) (x : LaneVec) : (g.writeV r m x).relMark = g.relMark := rfl
@[simp] theorem Group.writeV_oprClk (g : Group) (r : Nat) (m : Mask) (x : LaneVec) : (g.writeV r m x).oprClk = g.oprClk := rfl

/-! ## Killed lanes -/

@[simp] theorem Group.killV_gid (g : Group) (r : Nat) (m : Mask) : (g.killV r m).gid = g.gid := rfl
@[simp] theorem Group.killV_role (g : Group) (r : Nat) (m : Mask) : (g.killV r m).role = g.role := rfl
@[simp] theorem Group.killV_budget (g : Group) (r : Nat) (m : Mask) : (g.killV r m).budget = g.budget := rfl
@[simp] theorem Group.killV_slot (g : Group) (r : Nat) (m : Mask) : (g.killV r m).slot = g.slot := rfl
@[simp] theorem Group.killV_resid (g : Group) (r : Nat) (m : Mask) : (g.killV r m).resid = g.resid := rfl
@[simp] theorem Group.killV_launched (g : Group) (r : Nat) (m : Mask) : (g.killV r m).launched = g.launched := rfl
@[simp] theorem Group.killV_v (g : Group) (r : Nat) (m : Mask) : (g.killV r m).v = g.v := rfl
@[simp] theorem Group.killV_s (g : Group) (r : Nat) (m : Mask) : (g.killV r m).s = g.s := rfl
@[simp] theorem Group.killV_slive (g : Group) (r : Nat) (m : Mask) : (g.killV r m).slive = g.slive := rfl
@[simp] theorem Group.killV_m (g : Group) (r : Nat) (m : Mask) : (g.killV r m).m = g.m := rfl
@[simp] theorem Group.killV_stat (g : Group) (r : Nat) (m : Mask) : (g.killV r m).stat = g.stat := rfl
@[simp] theorem Group.killV_trapen (g : Group) (r : Nat) (m : Mask) : (g.killV r m).trapen = g.trapen := rfl
@[simp] theorem Group.killV_ksp (g : Group) (r : Nat) (m : Mask) : (g.killV r m).ksp = g.ksp := rfl
@[simp] theorem Group.killV_kwin (g : Group) (r : Nat) (m : Mask) : (g.killV r m).kwin = g.kwin := rfl
@[simp] theorem Group.killV_recs (g : Group) (r : Nat) (m : Mask) : (g.killV r m).recs = g.recs := rfl
@[simp] theorem Group.killV_handler (g : Group) (r : Nat) (m : Mask) : (g.killV r m).handler = g.handler := rfl
@[simp] theorem Group.killV_pending (g : Group) (r : Nat) (m : Mask) : (g.killV r m).pending = g.pending := rfl
@[simp] theorem Group.killV_preempt (g : Group) (r : Nat) (m : Mask) : (g.killV r m).preempt = g.preempt := rfl
@[simp] theorem Group.killV_pendRest (g : Group) (r : Nat) (m : Mask) : (g.killV r m).pendRest = g.pendRest := rfl
@[simp] theorem Group.killV_pends (g : Group) (r : Nat) (m : Mask) : (g.killV r m).pends = g.pends := rfl
@[simp] theorem Group.killV_tokBusy (g : Group) (r : Nat) (m : Mask) : (g.killV r m).tokBusy = g.tokBusy := rfl
@[simp] theorem Group.killV_tokClk (g : Group) (r : Nat) (m : Mask) : (g.killV r m).tokClk = g.tokClk := rfl
@[simp] theorem Group.killV_mprio (g : Group) (r : Nat) (m : Mask) : (g.killV r m).mprio = g.mprio := rfl
@[simp] theorem Group.killV_rays (g : Group) (r : Nat) (m : Mask) : (g.killV r m).rays = g.rays := rfl
@[simp] theorem Group.killV_saveArea (g : Group) (r : Nat) (m : Mask) : (g.killV r m).saveArea = g.saveArea := rfl
@[simp] theorem Group.killV_hbarIn (g : Group) (r : Nat) (m : Mask) : (g.killV r m).hbarIn = g.hbarIn := rfl
@[simp] theorem Group.killV_retired (g : Group) (r : Nat) (m : Mask) : (g.killV r m).retired = g.retired := rfl
@[simp] theorem Group.killV_saved (g : Group) (r : Nat) (m : Mask) : (g.killV r m).saved = g.saved := rfl
@[simp] theorem Group.killV_eccV (g : Group) (r : Nat) (m : Mask) : (g.killV r m).eccV = g.eccV := rfl
@[simp] theorem Group.killV_eccS (g : Group) (r : Nat) (m : Mask) : (g.killV r m).eccS = g.eccS := rfl
@[simp] theorem Group.killV_eccM (g : Group) (r : Nat) (m : Mask) : (g.killV r m).eccM = g.eccM := rfl
@[simp] theorem Group.killV_clk (g : Group) (r : Nat) (m : Mask) : (g.killV r m).clk = g.clk := rfl
@[simp] theorem Group.killV_rels (g : Group) (r : Nat) (m : Mask) : (g.killV r m).rels = g.rels := rfl
@[simp] theorem Group.killV_relMark (g : Group) (r : Nat) (m : Mask) : (g.killV r m).relMark = g.relMark := rfl
@[simp] theorem Group.killV_oprClk (g : Group) (r : Nat) (m : Mask) : (g.killV r m).oprClk = g.oprClk := rfl

/-! ## Windows -/

@[simp] theorem Group.countWindow_gid (g : Group) (fl : Nat) : (g.countWindow fl).gid = g.gid := rfl
@[simp] theorem Group.countWindow_role (g : Group) (fl : Nat) : (g.countWindow fl).role = g.role := rfl
@[simp] theorem Group.countWindow_budget (g : Group) (fl : Nat) : (g.countWindow fl).budget = g.budget := rfl
@[simp] theorem Group.countWindow_slot (g : Group) (fl : Nat) : (g.countWindow fl).slot = g.slot := rfl
@[simp] theorem Group.countWindow_resid (g : Group) (fl : Nat) : (g.countWindow fl).resid = g.resid := rfl
@[simp] theorem Group.countWindow_launched (g : Group) (fl : Nat) : (g.countWindow fl).launched = g.launched := rfl
@[simp] theorem Group.countWindow_v (g : Group) (fl : Nat) : (g.countWindow fl).v = g.v := rfl
@[simp] theorem Group.countWindow_vlive (g : Group) (fl : Nat) : (g.countWindow fl).vlive = g.vlive := rfl
@[simp] theorem Group.countWindow_s (g : Group) (fl : Nat) : (g.countWindow fl).s = g.s := rfl
@[simp] theorem Group.countWindow_slive (g : Group) (fl : Nat) : (g.countWindow fl).slive = g.slive := rfl
@[simp] theorem Group.countWindow_m (g : Group) (fl : Nat) : (g.countWindow fl).m = g.m := rfl
@[simp] theorem Group.countWindow_stat (g : Group) (fl : Nat) : (g.countWindow fl).stat = g.stat := rfl
@[simp] theorem Group.countWindow_trapen (g : Group) (fl : Nat) : (g.countWindow fl).trapen = g.trapen := rfl
@[simp] theorem Group.countWindow_ksp (g : Group) (fl : Nat) : (g.countWindow fl).ksp = g.ksp := rfl
@[simp] theorem Group.countWindow_kwin (g : Group) (fl : Nat) : (g.countWindow fl).kwin = g.kwin := rfl
@[simp] theorem Group.countWindow_recs (g : Group) (fl : Nat) : (g.countWindow fl).recs = g.recs := rfl
@[simp] theorem Group.countWindow_handler (g : Group) (fl : Nat) : (g.countWindow fl).handler = g.handler := rfl
@[simp] theorem Group.countWindow_pending (g : Group) (fl : Nat) : (g.countWindow fl).pending = g.pending := rfl
@[simp] theorem Group.countWindow_preempt (g : Group) (fl : Nat) : (g.countWindow fl).preempt = g.preempt := rfl
@[simp] theorem Group.countWindow_pendRest (g : Group) (fl : Nat) : (g.countWindow fl).pendRest = g.pendRest := rfl
@[simp] theorem Group.countWindow_tokBusy (g : Group) (fl : Nat) : (g.countWindow fl).tokBusy = g.tokBusy := rfl
@[simp] theorem Group.countWindow_tokClk (g : Group) (fl : Nat) : (g.countWindow fl).tokClk = g.tokClk := rfl
@[simp] theorem Group.countWindow_mprio (g : Group) (fl : Nat) : (g.countWindow fl).mprio = g.mprio := rfl
@[simp] theorem Group.countWindow_rays (g : Group) (fl : Nat) : (g.countWindow fl).rays = g.rays := rfl
@[simp] theorem Group.countWindow_saveArea (g : Group) (fl : Nat) : (g.countWindow fl).saveArea = g.saveArea := rfl
@[simp] theorem Group.countWindow_hbarIn (g : Group) (fl : Nat) : (g.countWindow fl).hbarIn = g.hbarIn := rfl
@[simp] theorem Group.countWindow_retired (g : Group) (fl : Nat) : (g.countWindow fl).retired = g.retired := rfl
@[simp] theorem Group.countWindow_saved (g : Group) (fl : Nat) : (g.countWindow fl).saved = g.saved := rfl
@[simp] theorem Group.countWindow_eccV (g : Group) (fl : Nat) : (g.countWindow fl).eccV = g.eccV := rfl
@[simp] theorem Group.countWindow_eccS (g : Group) (fl : Nat) : (g.countWindow fl).eccS = g.eccS := rfl
@[simp] theorem Group.countWindow_eccM (g : Group) (fl : Nat) : (g.countWindow fl).eccM = g.eccM := rfl
@[simp] theorem Group.countWindow_clk (g : Group) (fl : Nat) : (g.countWindow fl).clk = g.clk := rfl
@[simp] theorem Group.countWindow_rels (g : Group) (fl : Nat) : (g.countWindow fl).rels = g.rels := rfl
@[simp] theorem Group.countWindow_relMark (g : Group) (fl : Nat) : (g.countWindow fl).relMark = g.relMark := rfl
@[simp] theorem Group.countWindow_oprClk (g : Group) (fl : Nat) : (g.countWindow fl).oprClk = g.oprClk := rfl

end Sys2Proof.Machine
end

