-- ==== Sys2Proof/Laws/Memory.lean ====
section
/-!
SUPPORT. Memory: a read after a write, the canonical form and that every memory operation keeps it, and that two canonical
memories which read alike are equal.
-/
namespace Sys2Proof.Machine

/-! ## The canonical form -/

/-- A canonical tail lies above its bound. -/
theorem Memory.wfFrom_some_cons (l k : Nat) (b : Byte) (t : List Host.Cell) :
    Memory.wfFrom (some l) ((k, b) :: t) = true ↔ l < k ∧ b ≠ 0 ∧ Memory.wfFrom (some k) t = true := by
  simp [Memory.wfFrom, and_assoc]

theorem Memory.wfFrom_none_cons (k : Nat) (b : Byte) (t : List Host.Cell) :
    Memory.wfFrom none ((k, b) :: t) = true ↔ b ≠ 0 ∧ Memory.wfFrom (some k) t = true := by
  simp [Memory.wfFrom]

/-- A smaller bound holds too. -/
theorem Memory.wfFrom_mono {m : List Host.Cell} {l l' : Nat} (h : Memory.wfFrom (some l) m = true) (hl : l' ≤ l) :
    Memory.wfFrom (some l') m = true := by
  cases m with
  | nil => rfl
  | cons c t =>
    obtain ⟨k, b⟩ := c
    rw [Memory.wfFrom_some_cons] at *
    exact ⟨by omega, h.2⟩

/-- An address at or below the bound of a canonical memory reads as zero. -/
theorem Memory.read_below {m : List Host.Cell} {l a : Nat} (h : Memory.wfFrom (some l) m = true) (ha : a ≤ l) :
    Memory.read m a = 0 := by
  induction m generalizing l with
  | nil => rfl
  | cons c t ih =>
    obtain ⟨k, b⟩ := c
    rw [Memory.wfFrom_some_cons] at h
    have hk : k ≠ a := by omega
    simp [Memory.read, hk]
    exact ih h.2.2 (by omega)

/-- A write above a bound keeps the canonical form above it. -/
theorem Memory.write_wfFrom {m : List Host.Cell} {l a : Nat} (b : Byte) (h : Memory.wfFrom (some l) m = true) (ha : l < a) :
    Memory.wfFrom (some l) (Memory.write m a b) = true := by
  induction m generalizing l with
  | nil =>
    simp only [Memory.write]
    split
    · rfl
    · rename_i hb; rw [Memory.wfFrom_some_cons]; exact ⟨ha, hb, rfl⟩
  | cons c t ih =>
    obtain ⟨k, x⟩ := c
    rw [Memory.wfFrom_some_cons] at h
    obtain ⟨h1, h2, h3⟩ := h
    simp only [Memory.write]
    split
    · split
      · rw [Memory.wfFrom_some_cons]; exact ⟨h1, h2, h3⟩
      · rename_i hlt hb
        rw [Memory.wfFrom_some_cons, Memory.wfFrom_some_cons]; exact ⟨ha, hb, hlt, h2, h3⟩
    · split
      · rename_i hk
        subst hk
        split
        · exact Memory.wfFrom_mono h3 (by omega)
        · rename_i hb; rw [Memory.wfFrom_some_cons]; exact ⟨ha, hb, h3⟩
      · rw [Memory.wfFrom_some_cons]; exact ⟨h1, h2, ih h3 (by omega)⟩

/-- A write keeps the canonical form. -/
theorem Memory.write_wf {m : List Host.Cell} (a : Nat) (b : Byte) (h : Memory.wf m = true) :
    Memory.wf (Memory.write m a b) = true := by
  unfold Memory.wf at *
  cases m with
  | nil =>
    simp only [Memory.write]
    split
    · rfl
    · rename_i hb; rw [Memory.wfFrom_none_cons]; exact ⟨hb, rfl⟩
  | cons c t =>
    obtain ⟨k, x⟩ := c
    rw [Memory.wfFrom_none_cons] at h
    obtain ⟨h2, h3⟩ := h
    simp only [Memory.write]
    split
    · split
      · rw [Memory.wfFrom_none_cons]; exact ⟨h2, h3⟩
      · rename_i hlt hb
        rw [Memory.wfFrom_none_cons, Memory.wfFrom_some_cons]; exact ⟨hb, hlt, h2, h3⟩
    · split
      · split
        · cases t with
          | nil => rfl
          | cons d t =>
            obtain ⟨k', y⟩ := d
            rw [Memory.wfFrom_some_cons] at h3
            rw [Memory.wfFrom_none_cons]; exact h3.2
        · rename_i hk hb; subst hk; rw [Memory.wfFrom_none_cons]; exact ⟨hb, h3⟩
      · rw [Memory.wfFrom_none_cons]; exact ⟨h2, Memory.write_wfFrom b h3 (by omega)⟩

/-- A run of writes keeps the canonical form. -/
theorem Memory.put_wf {m : List Host.Cell} (a : Nat) (bs : List Byte) (h : Memory.wf m = true) :
    Memory.wf (Memory.put m a bs) = true := by
  induction bs generalizing m a with
  | nil => exact h
  | cons b bs ih => exact ih (a + 1) (Memory.write_wf a b h)

/-! ## Reading after writing -/

/-- A read after a write gives the byte written, and every other byte as before. -/
theorem Memory.read_write {m : List Host.Cell} (a x : Nat) (b : Byte) (h : Memory.wf m = true) :
    Memory.read (Memory.write m a b) x = if x = a then b else Memory.read m x := by
  have key : ∀ (m : List Host.Cell) (lo : Option Nat), Memory.wfFrom lo m = true → (∀ l, lo = some l → l < a) →
      Memory.read (Memory.write m a b) x = if x = a then b else Memory.read m x := by
    intro m
    induction m with
    | nil =>
      intro lo _ _
      by_cases hb : b = 0#8 <;> by_cases hx : x = a
      · simp [Memory.write, Memory.read, hb, hx]
      · simp [Memory.write, Memory.read, hb, hx]
      · simp [Memory.write, Memory.read, hb, hx]
      · simp [Memory.write, Memory.read, hb, Ne.symm hx, hx]
    | cons c t ih =>
      intro lo hwf hlo
      obtain ⟨k, y⟩ := c
      have htail : Memory.wfFrom (some k) t = true := by
        simp [Memory.wfFrom] at hwf; exact hwf.2
      simp only [Memory.write]
      by_cases h1 : a < k
      · simp only [h1, if_true]
        by_cases hx : x = a
        · subst hx
          have hk : k ≠ x := by omega
          by_cases hb : b = 0#8
          · simp [hb, Memory.read, hk, Memory.read_below htail (Nat.le_of_lt h1)]
          · simp [hb, Memory.read]
        · have hx' : a ≠ x := fun e => hx e.symm
          by_cases hb : b = 0#8
          · simp [hb, hx]
          · simp [hb, hx, hx', Memory.read]
      · simp only [h1, if_false]
        by_cases h2 : k = a
        · subst h2
          simp only [if_true]
          by_cases hx : x = k
          · subst hx
            by_cases hb : b = 0#8
            · simp [hb, Memory.read_below htail (Nat.le_refl _)]
            · simp [hb, Memory.read]
          · have hx' : k ≠ x := fun e => hx e.symm
            by_cases hb : b = 0#8
            · simp [hb, hx, hx', Memory.read]
            · simp [hb, hx, hx', Memory.read]
        · simp only [h2, if_false]
          have hr := ih (some k) htail (by intro l hl; cases hl; omega)
          by_cases hk : k = x
          · have : x ≠ a := by omega
            simp [Memory.read, hk, this]
          · simp [Memory.read, hk, hr]
  exact key m none h (by intro l hl; cases hl)

theorem Memory.read_write_same {m : List Host.Cell} (a : Nat) (b : Byte) (h : Memory.wf m = true) :
    Memory.read (Memory.write m a b) a = b := by simp [Memory.read_write a a b h]

theorem Memory.read_write_other {m : List Host.Cell} {a x : Nat} (b : Byte) (h : Memory.wf m = true) (hx : x ≠ a) :
    Memory.read (Memory.write m a b) x = Memory.read m x := by simp [Memory.read_write a x b h, hx]

/-- A run of writes leaves every byte outside it. -/
theorem Memory.read_put_outside {m : List Host.Cell} {a x : Nat} (bs : List Byte) (h : Memory.wf m = true)
    (hx : x < a ∨ a + bs.length ≤ x) : Memory.read (Memory.put m a bs) x = Memory.read m x := by
  induction bs generalizing m a with
  | nil => rfl
  | cons b bs ih =>
    simp only [Memory.put, List.length_cons] at *
    rw [ih (Memory.write_wf a b h) (by omega), Memory.read_write_other b h (by omega)]

/-- A run of writes gives each byte of the run. -/
theorem Memory.read_put_inside {m : List Host.Cell} {a i : Nat} (bs : List Byte) (h : Memory.wf m = true)
    (hi : i < bs.length) : Memory.read (Memory.put m a bs) (a + i) = bs[i] := by
  induction bs generalizing m a i with
  | nil => simp at hi
  | cons b bs ih =>
    simp only [Memory.put]
    cases i with
    | zero =>
      rw [Nat.add_zero, Memory.read_put_outside bs (Memory.write_wf a b h) (by omega)]
      exact Memory.read_write_same a b h
    | succ i =>
      have := ih (a := a + 1) (i := i) (Memory.write_wf a b h) (by simpa using hi)
      rw [show a + (i + 1) = a + 1 + i by omega, this]
      rfl

/-! ## Equal memories are equal data -/

/-- The first listed byte of a canonical memory is where a reader sees it. -/
theorem Memory.eq_of_read_from {m m' : List Host.Cell} {lo : Option Nat} (h : Memory.wfFrom lo m = true)
    (h' : Memory.wfFrom lo m' = true) (hr : ∀ x, Memory.read m x = Memory.read m' x) : m = m' := by
  have tailOf : ∀ (lo : Option Nat) (k : Nat) (b : Byte) (t : List Host.Cell),
      Memory.wfFrom lo ((k, b) :: t) = true → b ≠ 0 ∧ Memory.wfFrom (some k) t = true := by
    intro lo k b t h
    simp [Memory.wfFrom] at h
    exact ⟨h.1.2, h.2⟩
  induction m generalizing lo m' with
  | nil =>
    cases m' with
    | nil => rfl
    | cons c t =>
      obtain ⟨k, b⟩ := c
      have := hr k
      simp [Memory.read] at this
      exact absurd this.symm (tailOf _ _ _ _ h').1
  | cons c t ih =>
    obtain ⟨k, b⟩ := c
    have ht := tailOf _ _ _ _ h
    cases m' with
    | nil =>
      have := hr k
      simp [Memory.read] at this
      exact absurd this ht.1
    | cons c' t' =>
      obtain ⟨k', b'⟩ := c'
      have ht' := tailOf _ _ _ _ h'
      have hk : k = k' := by
        rcases Nat.lt_trichotomy k k' with hlt | heq | hgt
        · have := hr k
          simp [Memory.read, Nat.ne_of_gt hlt, Memory.read_below ht'.2 (Nat.le_of_lt hlt)] at this
          exact absurd this ht.1
        · exact heq
        · have := hr k'
          simp [Memory.read, Nat.ne_of_gt hgt, Memory.read_below ht.2 (Nat.le_of_lt hgt)] at this
          exact absurd this.symm ht'.1
      subst hk
      have hb : b = b' := by simpa [Memory.read] using hr k
      subst hb
      congr 1
      refine ih ht.2 ht'.2 fun x => ?_
      by_cases hx : k = x
      · subst hx
        rw [Memory.read_below ht.2 (Nat.le_refl _), Memory.read_below ht'.2 (Nat.le_refl _)]
      · simpa [Memory.read, hx] using hr x

/-- Canonical memories that read alike at every address are equal. -/
theorem Memory.eq_of_read {m m' : List Host.Cell} (h : Memory.wf m = true) (h' : Memory.wf m' = true)
    (hr : ∀ x, Memory.read m x = Memory.read m' x) : m = m' := Memory.eq_of_read_from h h' hr

/-! ## Multi-byte reads -/

theorem Memory.nat_eq_of_read {m m' : List Host.Cell} (a n : Nat) (h : ∀ i, i < n → Memory.read m (a + i) = Memory.read m' (a + i)) :
    Memory.nat m a n = Memory.nat m' a n := by
  induction n generalizing a with
  | zero => rfl
  | succ n ih =>
    simp only [Memory.nat]
    have h0 := h 0 (by omega)
    simp only [Nat.add_zero] at h0
    rw [h0, ih (a + 1) fun i hi => by have := h (i + 1) (by omega); simpa [Nat.add_assoc, Nat.add_comm 1] using this]

theorem leBytes_length (n x : Nat) : (leBytes n x).length = n := by
  induction n generalizing x with
  | zero => rfl
  | succ n ih => simp [leBytes, ih]

/-- The bytes of a number below 256^n read back as the number. -/
theorem leNat_leBytes (n x : Nat) (h : x < 256 ^ n) : leNat (leBytes n x) = x := by
  induction n generalizing x with
  | zero => simp at h; simp [leBytes, leNat, h]
  | succ n ih =>
    have hx : x / 256 < 256 ^ n := by
      rw [Nat.div_lt_iff_lt_mul (by omega)]; rwa [Nat.pow_succ] at h
    simp only [leBytes, leNat, ih _ hx]
    have : (BitVec.ofNat 8 x).toNat = x % 256 := by simp
    omega

/-- Reading `n` bytes where a run of `n` bytes was written gives their number. -/
theorem Memory.nat_put (m : List Host.Cell) (a : Nat) (bs : List Byte) (h : Memory.wf m = true) :
    Memory.nat (Memory.put m a bs) a bs.length = leNat bs := by
  induction bs generalizing m a with
  | nil => rfl
  | cons b bs ih =>
    have hw := Memory.write_wf a b h
    simp only [List.length_cons, Memory.nat, leNat, Memory.put]
    rw [ih _ _ hw, Memory.read_put_outside bs hw (by omega), Memory.read_write_same a b h]

/-! ## The operations of the state -/

/-- Bytes written to physical memory keep its canonical form. -/
theorem State.poke_wf (s : State) (pa : Nat) (bs : List Byte) (h : Memory.wf s.mem = true) :
    Memory.wf (s.poke pa bs).mem = true := Memory.put_wf pa bs h

/-- Bytes written to a team's shared memory keep every allocation canonical. -/
theorem State.pokeShared_wf (s : State) (u off : Nat) (bs : List Byte) (h : ∀ t ∈ s.teams, Memory.wf t.shared = true) :
    ∀ t ∈ (s.pokeShared u off bs).teams, Memory.wf t.shared = true := by
  intro t ht
  simp only [State.pokeShared, State.modTeam, List.mem_map] at ht
  obtain ⟨x, hx, rfl⟩ := ht
  split
  · exact Memory.put_wf off bs (h x hx)
  · exact h x hx

/-- Bytes outside a write to physical memory are as before. -/
theorem State.poke_read_outside (s : State) (pa x : Nat) (bs : List Byte) (h : Memory.wf s.mem = true)
    (hx : x < pa ∨ pa + bs.length ≤ x) : Memory.read (s.poke pa bs).mem x = Memory.read s.mem x :=
  Memory.read_put_outside bs h hx

end Sys2Proof.Machine
end

