-- ==== Sys2Proof/Laws/Ops.lean ====
section
/-!
SUPPORT. What the shared operations do: finding what was changed, the view of an issuing flow, the issue, the completion,
the waits and traps of an instruction, and the frames of the group operations they are made of.
-/
namespace Sys2Proof.Machine

/-! ## Finding what was changed -/

/-- A search whose test a map keeps finds the image of what it found before. -/
theorem find?_map_keep {α : Type} (l : List α) (f : α → α) (p : α → Bool) (h : ∀ x, p (f x) = p x) :
    (l.map f).find? p = (l.find? p).map f := by
  induction l with
  | nil => rfl
  | cons a l ih => by_cases hp : p a <;> simp [List.find?, h, hp, ih]

theorem State.team?_modTeam (s : State) (u w : Nat) (f : Team → Team) (hf : ∀ t, (f t).uid = t.uid) :
    (s.modTeam u f).team? w = (s.team? w).map fun t => if t.uid = u then f t else t := by
  unfold State.team? State.modTeam
  refine find?_map_keep _ _ _ fun t => ?_
  by_cases h : t.uid = u <;> simp [h, hf]

/-- The team that was changed. -/
theorem State.team?_modTeam_same {s : State} {u : Nat} {t : Team} (f : Team → Team) (hf : ∀ t, (f t).uid = t.uid)
    (h : s.team? u = some t) : (s.modTeam u f).team? u = some (f t) := by
  have hu : t.uid = u := by
    have := List.find?_some h
    simpa using this
  simp [State.team?_modTeam s u u f hf, h, hu]

/-- Another team. -/
theorem State.team?_modTeam_other {s : State} {u w : Nat} (f : Team → Team) (hf : ∀ t, (f t).uid = t.uid) (hw : w ≠ u) :
    (s.modTeam u f).team? w = s.team? w := by
  rw [State.team?_modTeam s u w f hf]
  cases h : s.team? w with
  | none => rfl
  | some t =>
    have hu : t.uid = w := by have := List.find?_some h; simpa using this
    simp [hu, hw]

theorem State.team?_uid {s : State} {u : Nat} {t : Team} (h : s.team? u = some t) : t.uid = u := by
  have := List.find?_some h
  simpa using this

theorem Team.group?_gid {t : Team} {gid : Nat} {g : Group} (h : t.group? gid = some g) : g.gid = gid := by
  have := List.find?_some h
  simpa using this

theorem State.group?_gid {s : State} {u gid : Nat} {g : Group} (h : s.group? u gid = some g) : g.gid = gid := by
  unfold State.group? at h
  cases ht : s.team? u with
  | none => simp [ht] at h
  | some t => simp [ht] at h; exact Team.group?_gid h

theorem Team.group?_modGroup (t : Team) (a b : Nat) (f : Group → Group) (hf : ∀ g, (f g).gid = g.gid) :
    (t.modGroup a f).group? b = (t.group? b).map fun g => if g.gid = a then f g else g := by
  unfold Team.group? Team.modGroup
  refine find?_map_keep _ _ _ fun g => ?_
  by_cases h : g.gid = a <;> simp [h, hf]

/-- The group that was changed, by a change that keeps its number. -/
theorem State.group?_modGroup_same {s : State} {u gid : Nat} {g : Group} (f : Group → Group)
    (hf : ∀ x, x.gid = gid → (f x).gid = gid) (h : s.group? u gid = some g) : (s.modGroup u gid f).group? u gid = some (f g) := by
  unfold State.group? at *
  cases ht : s.team? u with
  | none => simp [ht] at h
  | some t =>
    simp [ht] at h
    have hg := Team.group?_gid h
    rw [State.modGroup, State.team?_modTeam_same (fun t => t.modGroup gid f) (fun t => rfl) ht]
    simp only [Option.bind_some, Team.group?, Team.modGroup]
    unfold Team.group? at h
    rw [find?_map_keep t.groups _ _ (fun x => by by_cases hx : x.gid = gid <;> simp [hx, hf x]), h]
    simp [hg]

/-- A replacement is what a search of its number finds. -/
theorem State.group?_setGroup {s : State} {u : Nat} {g g' : Group} (hg : g'.gid = g.gid)
    (h : s.group? u g.gid = some g) : (s.modGroup u g.gid fun _ => g').group? u g.gid = some g' :=
  State.group?_modGroup_same (fun _ => g') (fun _ _ => hg) h

/-- Changes of one group, one after the other. -/
theorem State.modGroup_modGroup (s : State) (u gid : Nat) (f k : Group → Group) (hf : ∀ x, x.gid = gid → (f x).gid = gid) :
    (s.modGroup u gid f).modGroup u gid k = s.modGroup u gid fun g => k (f g) := by
  simp only [State.modGroup, State.modTeam, Team.modGroup, List.map_map]
  congr 1
  apply List.map_congr_left
  intro t _
  by_cases h : t.uid = u <;> simp [h]
  intro g _
  by_cases hg : g.gid = gid <;> simp [hg, hf]

/-- A change of one group leaves every byte of shared memory. -/
@[simp] theorem State.sharedOf_modGroup (s : State) (u gid : Nat) (f : Group → Group) (w : Nat) :
    (s.modGroup u gid f).sharedOf w = s.sharedOf w := by
  unfold State.sharedOf State.modGroup
  rw [State.team?_modTeam s u w (fun t => t.modGroup gid f) (fun t => rfl)]
  cases s.team? w with
  | none => rfl
  | some t => by_cases h : t.uid = u <;> simp [h, Team.modGroup]

theorem SameMemory.refl (s : State) : SameMemory s s := ⟨fun _ => rfl, fun _ _ => rfl⟩

theorem SameMemory.trans {a b c : State} (h : SameMemory a b) (k : SameMemory b c) : SameMemory a c :=
  ⟨fun x => (k.1 x).trans (h.1 x), fun u x => (k.2 u x).trans (h.2 u x)⟩

theorem SameMemory.modGroup (s : State) (u gid : Nat) (f : Group → Group) : SameMemory s (s.modGroup u gid f) :=
  ⟨fun _ => rfl, fun w a => by rw [State.sharedOf_modGroup]⟩

theorem OnlyGroup.sameMemory {s t : State} {u gid : Nat} {g : Group} (h : OnlyGroup s t u gid g) : SameMemory s t := by
  obtain ⟨⟨f, _, rfl⟩, _⟩ := h
  exact SameMemory.modGroup s u gid f

theorem OnlyGroup.gid {s t : State} {u gid : Nat} {g : Group} (h : OnlyGroup s t u gid g) : g.gid = gid :=
  State.group?_gid h.2

theorem OnlyGroup.refl {s : State} {u gid : Nat} {g : Group} (h : s.group? u gid = some g) : OnlyGroup s s u gid g := by
  refine ⟨⟨id, fun _ e => e, ?_⟩, h⟩
  have : ∀ t : Team, (if t.uid = u then t.modGroup gid id else t) = t := by
    intro t
    split
    · cases t; simp [Team.modGroup]
    · rfl
  cases s
  simp [State.modGroup, State.modTeam, this]

/-- A further change of the same group. -/
theorem OnlyGroup.modGroup {s t : State} {u gid : Nat} {g : Group} (h : OnlyGroup s t u gid g) (f : Group → Group)
    (hf : ∀ x, x.gid = gid → (f x).gid = gid) : OnlyGroup s (t.modGroup u gid f) u gid (f g) := by
  obtain ⟨⟨k, hk, rfl⟩, h2⟩ := h
  exact ⟨⟨fun x => f (k x), fun x hx => hf _ (hk x hx), State.modGroup_modGroup s u gid k f hk⟩,
    State.group?_modGroup_same f hf h2⟩

/-! ## The view -/

theorem Group.Keeps.gid {g g' : Group} {fl : Nat} {dv kv : Nat → Nat → Bool} {ds dm : Bool → Nat → Bool}
    (h : g.Keeps g' fl dv kv ds dm) : g'.gid = g.gid := by
  have := h.rest
  unfold Group.keepsRest at this
  rw [this.2.2]

theorem State.viewOf_some {s : State} {u gid fl words : Nat} {v : View} (h : s.viewOf u gid fl words = some v) :
    s.team? u = some v.t ∧ s.group? u gid = some v.g ∧ v.s = s ∧ v.u = u ∧ v.fl = fl ∧ v.back = v.g.pcOf fl ∧
      v.next = v.back + BitVec.ofNat 64 (4 * words) ∧ v.repi = v.g.repiOf fl ∧ v.last = true ∧
      v.heldV = (s.itemsOf u gid).flatMap Item.heldV ∧ v.heldM = (s.itemsOf u gid).flatMap fun i => i.heldMFor fl := by
  unfold State.viewOf at h
  split at h
  · simp at h
  · rename_i t ht
    split at h
    · simp at h
    · rename_i g hg
      split at h
      · simp at h
      · simp only [Option.some.injEq] at h
        subst h
        simp [State.group?, ht, hg]

/-- How the meaning of an instruction begins. -/
theorem withIssuer_eq (s : State) (words : Nat) (f : View → Out) :
    withIssuer s words f = match s.issuer? words with | some v => f v | none => .fault .noIssuer := by
  unfold withIssuer State.issuer?
  cases s.cur with
  | none => rfl
  | some c =>
    simp only [Option.bind_some]
    cases (s.closeWindows c.team c.gid c.flow).viewOf c.team c.gid c.flow words <;> rfl

theorem withIssuer_some {s : State} {words : Nat} {v : View} (f : View → Out) (h : s.issuer? words = some v) :
    withIssuer s words f = f v := by rw [withIssuer_eq, h]

/-- Bits met at issue and none of them enabled: each cause is absent or not enabled. -/
theorem bits_off (a b c : Bool) (t : BitVec 10)
    (h : (((if a then statLaviol else 0) ||| if b then statHra else 0) ||| if c then statDeadrd else 0) &&& t = 0) :
    (t.getLsbD 1 && a) = false ∧ (t.getLsbD 3 && b) = false ∧ (t.getLsbD 0 && c) = false := by
  have e : ∀ i, ((((if a then statLaviol else 0) ||| if b then statHra else 0) ||| if c then statDeadrd else 0) &&& t).getLsbD i = false := by
    intro i; rw [h]; simp
  have h1 := e 1
  have h3 := e 3
  have h0 := e 0
  revert h1 h3 h0
  cases a <;> cases b <;> cases c <;> simp [statLaviol, statHra, statDeadrd] <;> intros <;> simp_all

/-- HRA and DEADRD in their order. -/
theorem View.heldDead_eq (v : View) (eff : Mask) (ops : List Opnd) (st : BitVec 10) (k : BitVec 10 → Out) :
    v.heldDead eff ops st k =
      (if (v.svc && v.g.trapen.getLsbD 3 && (v.heldNamed ops).isSome) = true then
        v.trap (st ||| if (v.heldNamed ops).isSome then statHra else 0) 0x0A (BitVec.ofNat 64 ((v.heldNamed ops).getD 0))
      else if (v.svc && v.g.trapen.getLsbD 0 && (v.deadRead eff ops).isSome) = true then
        v.trap ((st ||| if (v.heldNamed ops).isSome then statHra else 0) ||| if (v.deadRead eff ops).isSome then statDeadrd else 0)
          0x08 ((v.deadRead eff ops).getD 0)
      else k ((st ||| if (v.heldNamed ops).isSome then statHra else 0) ||| if (v.deadRead eff ops).isSome then statDeadrd else 0)) :=
  rfl

/-- LAVIOL before HRA and DEADRD, and ECC after them (R376). -/
theorem View.registerChecks_eq (v : View) (eff : Mask) (ops : List Opnd) (body : View → BitVec 10 → Out) :
    v.registerChecks eff ops body =
      if (v.svc && v.g.trapen.getLsbD 1 && (v.breach ops).isSome) = true then
        v.trap (if (v.breach ops).isSome then statLaviol else 0) 0x09 (BitVec.ofNat 64 ((v.breach ops).getD 0))
      else
        v.heldDead eff ops (if (v.breach ops).isSome then statLaviol else 0) fun st3 =>
          match v.eccRead eff ops with
          | some h => v.trap st3 0x60 h
          | none => body v st3 := rfl

/-- HRA and DEADRD that stop nothing run the body with the bits met. -/
theorem View.heldDead_clear {v : View} {eff : Mask} {ops : List Opnd} {st : BitVec 10} (body : BitVec 10 → Out)
    (h3 : (v.svc && v.g.trapen.getLsbD 3 && (v.heldNamed ops).isSome) = false)
    (h0 : (v.svc && v.g.trapen.getLsbD 0 && (v.deadRead eff ops).isSome) = false) :
    v.heldDead eff ops st body =
      body ((st ||| if (v.heldNamed ops).isSome then statHra else 0) ||| if (v.deadRead eff ops).isSome then statDeadrd else 0) := by
  rw [View.heldDead_eq, if_neg (by rw [h3]; decide), if_neg (by rw [h0]; decide)]

/-- Register checks that stop nothing run the body with the bits they met. -/
theorem View.registerChecks_clear {v : View} {eff : Mask} {ops : List Opnd} (body : View → BitVec 10 → Out)
    (h : v.svc = true → v.metBits eff ops &&& v.g.trapen = 0) (he : v.eccRead eff ops = none) :
    v.registerChecks eff ops body = body v (v.metBits eff ops) := by
  have hb : (v.svc && v.g.trapen.getLsbD 1 && (v.breach ops).isSome) = false ∧
      (v.svc && v.g.trapen.getLsbD 3 && (v.heldNamed ops).isSome) = false ∧
      (v.svc && v.g.trapen.getLsbD 0 && (v.deadRead eff ops).isSome) = false := by
    cases hs : v.svc with
    | false => simp
    | true => simpa only [Bool.true_and] using bits_off _ _ _ _ (h hs)
  rw [View.registerChecks_eq, if_neg (by rw [hb.1]; decide), View.heldDead_clear _ hb.2.1 hb.2.2, he]
  rfl

/-- An issue that nothing stops runs the instruction's own effect. -/
theorem View.issue_canIssue {v : View} {ill : Bool} {eff : Mask} {ops : List Opnd} (body : View → BitVec 10 → Out)
    (h : v.canIssue ill eff ops = true) :
    v.issue none ill eff ops body = body (v.readied ops) ((v.readied ops).metBits eff ops) := by
  unfold View.canIssue at h
  simp only [Bool.and_eq_true, Bool.or_eq_true, Bool.not_eq_true', Option.isNone_iff_eq_none, beq_iff_eq] at h
  obtain ⟨⟨⟨⟨⟨h1, h2⟩, h3⟩, ha⟩, h4⟩, h5⟩ := h
  unfold View.issue
  simp only [h1, h2, h3, ha, Bool.false_eq_true, if_false]
  refine View.registerChecks_clear body (fun hs => ?_) h5
  rcases h4 with h4 | h4
  · exact absurd hs (by change ¬ v.svc = true; simp [h4])
  · exact h4

/-- What HRA and DEADRD find: a cause that traps, or what follows, on the bits met. -/
theorem View.heldDead_cases (v : View) (eff : Mask) (ops : List Opnd) (st : BitVec 10) (k body : BitVec 10 → Out)
    (h : (∃ c h, ∀ st, k st = v.trap st c h) ∨ k = body) :
    (∃ bits c h, v.heldDead eff ops st k = v.trap bits c h) ∨
      v.heldDead eff ops st k =
        body ((st ||| if (v.heldNamed ops).isSome then statHra else 0) ||| if (v.deadRead eff ops).isSome then statDeadrd else 0) := by
  by_cases h3 : (v.svc && v.g.trapen.getLsbD 3 && (v.heldNamed ops).isSome) = true
  · left
    rw [View.heldDead_eq, if_pos h3]
    exact ⟨_, _, _, rfl⟩
  · by_cases h0 : (v.svc && v.g.trapen.getLsbD 0 && (v.deadRead eff ops).isSome) = true
    · left
      rw [View.heldDead_eq, if_neg h3, if_pos h0]
      exact ⟨_, _, _, rfl⟩
    · rw [View.heldDead_clear k (by simpa using h3) (by simpa using h0)]
      rcases h with ⟨c, x, h⟩ | rfl
      · exact .inl ⟨_, c, x, h _⟩
      · exact .inr rfl

/-- What the register checks find (R376): a cause that traps, or the body with the bits met. -/
theorem View.registerChecks_cases (v : View) (eff : Mask) (ops : List Opnd) (body : View → BitVec 10 → Out) :
    (∃ st c h, v.registerChecks eff ops body = v.trap st c h) ∨
      v.registerChecks eff ops body = body v (v.metBits eff ops) := by
  by_cases h1 : (v.svc && v.g.trapen.getLsbD 1 && (v.breach ops).isSome) = true
  · rw [View.registerChecks_eq, if_pos h1]
    exact .inl ⟨_, _, _, rfl⟩
  · rw [View.registerChecks_eq, if_neg h1]
    have h : ∀ k : BitVec 10 → Out, ((∃ c h, ∀ st, k st = v.trap st c h) ∨ k = body v) →
        (∃ st c h, v.heldDead eff ops (if (v.breach ops).isSome then statLaviol else 0) k = v.trap st c h) ∨
          v.heldDead eff ops (if (v.breach ops).isSome then statLaviol else 0) k = body v (v.metBits eff ops) :=
      fun k => View.heldDead_cases v eff ops _ k (body v)
    apply h
    cases v.eccRead eff ops with
    | some x => exact .inl ⟨0x60, x, fun _ => rfl⟩
    | none => exact .inr rfl

/-- What an instruction may find at its issue (R376): a decoder trap, a busy token or an ATOM's result, a register cause or an
ECC error, or its own effect, with the bits met. -/
theorem View.issue_cases (v : View) (early : Option Nat) (ill : Bool) (eff : Mask) (ops : List Opnd)
    (body : View → BitVec 10 → Out) :
    (∃ c h, v.issue early ill eff ops body = v.trap 0 c h) ∨
      (v.issue early ill eff ops body = v.wait ∨ v.issue early ill eff ops body = v.waitTokens ops) ∨
      (∃ st c h, v.issue early ill eff ops body = (v.readied ops).trap st c h) ∨
      v.issue early ill eff ops body = body (v.readied ops) ((v.readied ops).metBits eff ops) := by
  unfold View.issue
  split
  · exact .inl ⟨_, _, rfl⟩
  · split
    · exact .inl ⟨_, _, rfl⟩
    · split
      · exact .inl ⟨_, _, rfl⟩
      · split
        · exact .inr (.inl (.inr rfl))
        · split
          · exact .inr (.inl (.inl rfl))
          · exact .inr (.inr (View.registerChecks_cases (v.readied ops) eff ops body))

end Sys2Proof.Machine
end

