-- ==== Sys2Proof/Laws/Group.lean ====
section
/-!
SUPPORT. What each operation on a group leaves as it was (`Group.Keeps`), from a register write to the completion of an
instruction and the merges after it.
-/
namespace Sys2Proof.Machine

/-! ## Vectors -/

theorem vget_vset {α : Type} {n : Nat} (v : Vector α n) (i j : Nat) (x d : α) :
    vget (vset v i x) j d = if i = j ∧ i < n then x else vget v j d := by
  unfold vget vset
  rw [Vector.getElem?_setIfInBounds]
  by_cases h : i = j
  · subst h
    by_cases hn : i < n <;> simp [hn]
  · simp [h]

theorem vget_ofFn {α : Type} {n : Nat} (f : Fin n → α) (i : Nat) (d : α) :
    vget (Vector.ofFn f) i d = if h : i < n then f ⟨i, h⟩ else d := by
  unfold vget
  by_cases h : i < n <;> simp [h]

theorem lane_mergeLanes (m : Mask) (a b : LaneVec) (l : Nat) (h : l < 32) :
    lane (mergeLanes m a b) l = if m.getLsbD l then lane a l else lane b l := by
  unfold lane mergeLanes
  rw [vget_ofFn]
  simp [h, vget]

/-! ## The relation -/

variable {fl : Nat} {dv kv : Nat → Nat → Bool} {ds dm : Bool → Nat → Bool}

theorem Group.Keeps.refl (g : Group) : g.Keeps g fl dv kv ds dm where
  rest := ⟨rfl, fun _ h => h, rfl⟩
  flows := by
    refine ⟨?_, rfl⟩
    split
    · exact ⟨fun _ => rfl, fun h hh => ⟨h, hh, rfl⟩⟩
    · rfl
  v := fun _ _ _ _ _ => ⟨rfl, fun _ => rfl⟩
  s := fun _ _ _ _ _ _ => ⟨rfl, rfl⟩
  m := fun _ _ _ _ _ _ => rfl
  due := ⟨fun _ _ h => .inl h, fun _ _ h => .inl h⟩

theorem Group.Keeps.trans {a b c : Group} (h : a.Keeps b fl dv kv ds dm) (k : b.Keeps c fl dv kv ds dm) :
    a.Keeps c fl dv kv ds dm where
  rest := by
    have h1 := h.rest
    have h2 := k.rest
    refine ⟨h2.1.trans h1.1, fun e he => h1.2.1 e (h2.2.1 e he), ?_⟩
    rw [h2.2.2, h1.2.2]
  flows := by
    have h1 := h.flows
    have h2 := k.flows
    unfold Group.keepsFlows at *
    refine ⟨?_, h2.2.trans h1.2⟩
    split
    · rename_i hf
      simp only [hf, if_true] at h1 h2
      refine ⟨fun hs => (h2.1.1 (h1.2 ▸ hs)).trans (h1.1.1 hs), fun x hx => ?_⟩
      obtain ⟨y, hy, ey⟩ := h1.1.2 x hx
      obtain ⟨z, hz, ez⟩ := h2.1.2 y hy
      refine ⟨z, hz, ?_⟩
      rw [ez, ey]
    · rename_i hf
      simp only [hf, if_false] at h1 h2
      exact h2.1.trans h1.1
  v := fun r l hl hd hn => by
    have hb : b.dueV r l = false := by
      cases hc : b.dueV r l with
      | false => rfl
      | true => rcases h.due.1 r l hc with h' | h' <;> simp_all
    have h1 := h.v r l hl hd hn
    have h2 := k.v r l hl hb hn
    exact ⟨h2.1.trans h1.1, fun hk => (h2.2 hk).trans (h1.2 hk)⟩
  s := fun bk r hr hbk hd hn => by
    have hb : b.dueS bk r = false := by
      cases hc : b.dueS bk r with
      | false => rfl
      | true => rcases h.due.2 bk r hc with h' | h' <;> simp_all
    have h1 := h.s bk r hr hbk hd hn
    have h2 := k.s bk r hr hbk hb hn
    exact ⟨h2.1.trans h1.1, h2.2.trans h1.2⟩
  m := fun bk r h0 h16 hbk hn => (k.m bk r h0 h16 hbk hn).trans (h.m bk r h0 h16 hbk hn)
  due := ⟨fun r l hc => by
      rcases k.due.1 r l hc with h' | h'
      · exact h.due.1 r l h'
      · exact .inr h',
    fun bk r hc => by
      rcases k.due.2 bk r hc with h' | h'
      · exact h.due.2 bk r h'
      · exact .inr h'⟩

/-- A weaker claim about more registers. -/
theorem Group.Keeps.mono {g g' : Group} {dv' kv' : Nat → Nat → Bool} {ds' dm' : Bool → Nat → Bool}
    (h : g.Keeps g' fl dv kv ds dm) (hv : ∀ r l, dv r l = true → dv' r l = true)
    (hk : ∀ r l, kv r l = true → kv' r l = true) (hs : ∀ b r, ds b r = true → ds' b r = true)
    (hm : ∀ b r, dm b r = true → dm' b r = true) : g.Keeps g' fl dv' kv' ds' dm' where
  rest := h.rest
  flows := h.flows
  v := fun r l hl hd hn => by
    have h1 := h.v r l hl hd (by cases e : dv r l <;> simp_all)
    exact ⟨h1.1, fun e => h1.2 (by cases e' : kv r l <;> simp_all)⟩
  s := fun b r hr hb hd hn => h.s b r hr hb hd (by cases e : ds b r; rfl; exact absurd (hs b r e) (by simp [hn]))
  m := fun b r h0 h16 hb hn => h.m b r h0 h16 hb (by cases e : dm b r; rfl; exact absurd (hm b r e) (by simp [hn]))
  due := ⟨fun r l hc => (h.due.1 r l hc).imp_right (hv r l), fun b r hc => (h.due.2 b r hc).imp_right (hs b r)⟩

/-! ## Register writes -/

/-- A change of place only: records and STAT. -/
theorem Group.Keeps.ofPlace {g g' : Group} (h : g' = { g with recs := g'.recs, stat := g'.stat })
    (hr : fl = 4 → g.handler.isSome → g'.recs = g.recs) : g.Keeps g' fl dv kv ds dm := by
  have hd : g'.handler = g.handler := by rw [h]
  have hp : g'.pends = g.pends := by rw [h]
  have hv : g'.v = g.v := by rw [h]
  have hl : g'.vlive = g.vlive := by rw [h]
  have hs : g'.s = g.s := by rw [h]
  have hsl : g'.slive = g.slive := by rw [h]
  have hm : g'.m = g.m := by rw [h]
  refine ⟨?_, ⟨?_, by rw [hd]⟩, ?_, ?_, ?_, ?_, ?_⟩
  · unfold Group.keepsRest; rw [h]; exact ⟨rfl, fun _ h => h, rfl⟩
  · split
    · rename_i h4
      exact ⟨hr h4, fun x hx => ⟨x, hd.trans hx, rfl⟩⟩
    · exact hd
  · intro r l _ _ _; simp [Group.vAt, Group.vLiveAt, hv, hl]
  · intro b r _ _ _ _; simp [Group.sReg, Group.sRegLive, hd, hs, hsl]
  · intro b r _ _ _ _; simp [Group.mReg, hd, hm]
  · intro r l hx; left; simpa [Group.dueV, hp] using hx
  · intro b r hx; left; simpa [Group.dueS, Group.bankS, hp, hd] using hx

theorem Group.killV_keeps (g : Group) (r : Nat) (m : Mask) (hk : ∀ l, l < 32 → m.getLsbD l = true → kv r l = true) :
    g.Keeps (g.killV r m) fl dv kv ds dm := by
  refine ⟨⟨rfl, fun _ h => h, rfl⟩, ⟨?_, rfl⟩, ?_, ?_, ?_, ?_, ?_⟩
  · split
    · exact ⟨fun _ => rfl, fun x hx => ⟨x, hx, rfl⟩⟩
    · rfl
  · intro r' l hl _ _
    refine ⟨rfl, fun hn => ?_⟩
    simp only [Group.vLiveAt, Group.killV, vget_vset]
    split
    · rename_i h
      obtain ⟨h, _⟩ := h
      subst h
      have : m.getLsbD l = false := by
        cases e : m.getLsbD l
        · rfl
        · simp [hk l hl e] at hn
      simp only [BitVec.getLsbD_and, BitVec.getLsbD_not, this, hl, decide_true, Bool.not_false, Bool.and_true]
    · rfl
  · intro b r _ _ _ _; exact ⟨rfl, rfl⟩
  · intro b r _ _ _ _; rfl
  · exact fun _ _ h => .inl h
  · exact fun _ _ h => .inl h

theorem Group.writeV_keeps (g : Group) (r : Nat) (m : Mask) (x : LaneVec)
    (hw : ∀ l, l < 32 → m.getLsbD l = true → dv r l = true ∨ g.dueV r l = true) :
    g.Keeps (g.writeV r m x) fl dv kv ds dm := by
  refine ⟨⟨rfl, fun _ h => h, rfl⟩, ⟨?_, rfl⟩, ?_, ?_, ?_, ?_, ?_⟩
  · split
    · exact ⟨fun _ => rfl, fun x hx => ⟨x, hx, rfl⟩⟩
    · rfl
  · intro r' l hl hd hn
    by_cases h : r = r' ∧ r < 128
    · obtain ⟨h, h128⟩ := h
      subst h
      have hm : m.getLsbD l = false := by
        cases e : m.getLsbD l
        · rfl
        · rcases hw l hl e with h' | h' <;> simp_all
      refine ⟨?_, fun _ => ?_⟩
      · simp only [Group.vAt, Group.writeV, vget_vset, h128, and_self, if_true, lane_mergeLanes _ _ _ _ hl, hm]
        rfl
      · simp [Group.vLiveAt, Group.writeV, vget_vset, h128, hm]
    · exact ⟨by simp [Group.vAt, Group.writeV, vget_vset, h], fun _ => by simp [Group.vLiveAt, Group.writeV, vget_vset, h]⟩
  · intro b r _ _ _ _; exact ⟨rfl, rfl⟩
  · intro b r _ _ _ _; rfl
  · exact fun _ _ h => .inl h
  · exact fun _ _ h => .inl h

theorem testBit_ofNat_two_pow (n k i : Nat) (hk : k < n) : (BitVec.ofNat n (2 ^ k)).getLsbD i = decide (i = k) := by
  rw [BitVec.getLsbD_ofNat]
  by_cases hi : i = k
  · subst hi; simp [hk, Nat.testBit_two_pow_self]
  · simp [hi, Ne.symm hi]

theorem Group.writeS_keeps (g : Group) (f r : Nat) (x : Word)
    (hw : r ≠ 0 → ds (g.bankS f r) r = true ∨ g.dueS (g.bankS f r) r = true) (hf : fl = 4 ∨ f ≠ 4 ∨ g.handler = none) :
    g.Keeps (g.writeS (f == 4) r x) fl dv kv ds dm := by
  unfold Group.writeS
  split
  · exact Group.Keeps.refl g
  · rename_i h0
    have hw' := hw h0
    split
    · rename_i h hb hh
      simp only [Bool.and_eq_true, beq_iff_eq, decide_eq_true_eq] at hb
      obtain ⟨h4, h56⟩ := hb
      have hbank : g.bankS f r = true := by simp [Group.bankS, h4, h56, hh]
      rw [hbank] at hw'
      have hfl : fl = 4 := by rcases hf with h' | h' | h' <;> simp_all
      refine ⟨⟨rfl, fun _ h => (List.mem_filter.mp h).1, rfl⟩, ⟨?_, by simp [hh]⟩, ?_, ?_, ?_, ?_, ?_⟩
      · simp only [hfl, if_true]
        refine ⟨fun _ => trivial, fun y hy => ?_⟩
        rw [hh] at hy
        cases hy
        exact ⟨_, rfl, rfl⟩
      · intro r' l _ _ _; exact ⟨rfl, fun _ => rfl⟩
      · intro b r' hr hb hd hn
        by_cases hb1 : b = true
        · subst hb1
          have hne : r' ≠ r := by intro e; subst e; rcases hw' with h' | h' <;> simp_all
          have h56' := hb rfl
          refine ⟨?_, ?_⟩
          · have : r - 56 ≠ r' - 56 := by omega
            simp [Group.sReg, hh, vget_vset, this]
          · by_cases h00 : r' = 0
            · simp [Group.sRegLive, h00]
            · by_cases hr64 : r < 64
              · have := testBit_ofNat_two_pow 8 (r - 56) (r' - 56) (by omega)
                generalize BitVec.ofNat 8 (2 ^ (r - 56)) = bit at this ⊢
                simp [Group.sRegLive, hh, h00, this]; omega
              · have hz : BitVec.ofNat 8 (2 ^ (r - 56)) = 0 := by
                  apply BitVec.eq_of_toNat_eq
                  simp only [BitVec.toNat_ofNat]
                  exact Nat.mod_eq_zero_of_dvd (Nat.pow_dvd_pow 2 (by omega))
                simp [Group.sRegLive, hh, h00, hz]
        · simp only [Bool.not_eq_true] at hb1
          subst hb1
          exact ⟨rfl, rfl⟩
      · intro b r' _ _ _ _
        cases b <;> simp [Group.mReg, hh]
      · intro r' l hx; exact .inl hx
      · intro b r' hx; left; simpa [Group.dueS, Group.bankS, hh] using hx
    · rename_i hnb
      have hbank : g.bankS f r = false := by
        unfold Group.bankS
        cases hh : g.handler with
        | none => simp
        | some h =>
          cases e : (f == 4 && decide (56 ≤ r))
          · simp
          · exact absurd hh (by intro hh'; exact hnb h e hh')
      rw [hbank] at hw'
      refine ⟨⟨rfl, fun _ h => (List.mem_filter.mp h).1, rfl⟩, ⟨?_, rfl⟩, ?_, ?_, ?_, ?_, ?_⟩
      · split
        · exact ⟨fun _ => rfl, fun x hx => ⟨x, hx, rfl⟩⟩
        · rfl
      · intro r' l _ _ _; exact ⟨rfl, fun _ => rfl⟩
      · intro b r' hr hb hd hn
        cases b with
        | true => exact ⟨rfl, rfl⟩
        | false =>
          have hne : r ≠ r' := by intro e; subst e; rcases hw' with h' | h' <;> simp_all
          refine ⟨by simp [Group.sReg, vget_vset, hne], ?_⟩
          by_cases h00 : r' = 0
          · simp [Group.sRegLive, h00]
          · by_cases hr64 : r < 64
            · have := testBit_ofNat_two_pow 64 r r' hr64
              generalize BitVec.ofNat 64 (2 ^ r) = bit at this ⊢
              simp [Group.sRegLive, h00, this]; omega
            · have hz : BitVec.ofNat 64 (2 ^ r) = 0 := by
                apply BitVec.eq_of_toNat_eq
                simp only [BitVec.toNat_ofNat]
                exact Nat.mod_eq_zero_of_dvd (Nat.pow_dvd_pow 2 (by omega))
              simp [Group.sRegLive, h00, hz]
      · intro b r' _ _ _ _; rfl
      · exact fun _ _ h => .inl h
      · exact fun _ _ h => .inl h

theorem Group.writeM_keeps (g : Group) (f r : Nat) (x : Mask) (hw : dm (g.bankM f r) r = true)
    (hr16 : r < 16) (hf : fl = 4 ∨ f ≠ 4 ∨ g.handler = none) : g.Keeps (g.writeM (f == 4) r x) fl dv kv ds dm := by
  unfold Group.writeM
  split
  · rename_i h hb hh
    simp only [Bool.and_eq_true, beq_iff_eq, decide_eq_true_eq] at hb
    obtain ⟨h4, h14⟩ := hb
    have hbank : g.bankM f r = true := by simp [Group.bankM, h4, h14, hh]
    rw [hbank] at hw
    have hfl : fl = 4 := by rcases hf with h' | h' | h' <;> simp_all
    refine ⟨⟨rfl, fun _ h => h, rfl⟩, ⟨?_, by simp [hh]⟩, ?_, ?_, ?_, ?_, ?_⟩
    · simp only [hfl, if_true]
      refine ⟨fun _ => trivial, fun y hy => ?_⟩
      rw [hh] at hy
      cases hy
      exact ⟨_, rfl, by split <;> rfl⟩
    · intro r' l _ _ _; exact ⟨rfl, fun _ => rfl⟩
    · intro b r' _ _ _ _
      cases b <;> simp only [Group.sReg, Group.sRegLive, hh] <;> split <;> simp <;> split <;> exact ⟨rfl, rfl⟩
    · intro b r' h0 hr hb hn
      cases b with
      | false => rfl
      | true =>
        have hne : r' ≠ r := by intro e; subst e; simp_all
        have h14' := hb rfl
        simp only [Group.mReg, hh, if_true]
        by_cases e : r = 14
        · have : r' ≠ 14 := by omega
          simp [e, this]
        · have : r' = 14 := by omega
          simp [e, this]
    · intro r' l hx; exact .inl hx
    · intro b r' hx; left; simpa [Group.dueS, Group.bankS, hh] using hx
  · rename_i hnb
    have hbank : g.bankM f r = false := by
      unfold Group.bankM
      cases hh : g.handler with
      | none => simp
      | some h =>
        cases e : (f == 4 && decide (14 ≤ r))
        · simp
        · exact absurd hh (by intro hh'; exact hnb h e hh')
    rw [hbank] at hw
    refine ⟨⟨rfl, fun _ h => h, rfl⟩, ⟨?_, rfl⟩, ?_, ?_, ?_, ?_, ?_⟩
    · split
      · exact ⟨fun _ => rfl, fun x hx => ⟨x, hx, rfl⟩⟩
      · rfl
    · intro r' l _ _ _; exact ⟨rfl, fun _ => rfl⟩
    · intro b r' _ _ _ _; exact ⟨rfl, rfl⟩
    · intro b r' h0 hr hb hn
      cases b with
      | true => rfl
      | false =>
        have hne : r ≠ r' := by intro e; subst e; simp_all
        simp [Group.mReg, vget_vset, hne]
    · exact fun _ _ h => .inl h
    · exact fun _ _ h => .inl h

/-! ## Outstanding results -/

@[simp] theorem Group.writeS_pends (g : Group) (h : Bool) (r : Nat) (x : Word) : (g.writeS h r x).pends = g.pends := by
  unfold Group.writeS; split <;> (try split) <;> rfl

theorem Group.writeS_handler_isSome (g : Group) (h : Bool) (r : Nat) (x : Word) :
    (g.writeS h r x).handler.isSome = g.handler.isSome := by
  unfold Group.writeS
  split
  · rfl
  · split
    · rename_i hh; simp [hh]
    · rfl

/-- Writing a result that is outstanding changes nothing else. -/
theorem Group.deliver_keeps (g : Group) (p : Pend) (hp : p ∈ g.pends)
    (hf : fl = 4 ∨ p.flow ≠ 4 ∨ g.handler = none) : g.Keeps (g.deliver p) fl dv kv ds dm := by
  have hv : ∀ (ws : List (Nat × Mask × LaneVec)) (a : Group), a.pends = g.pends → a.handler = g.handler →
      (∀ w ∈ ws, w ∈ p.vs) → a.Keeps (ws.foldl (fun g w => g.writeV w.1 w.2.1 w.2.2) a) fl dv kv ds dm ∧
        (ws.foldl (fun g w => g.writeV w.1 w.2.1 w.2.2) a).pends = g.pends ∧
        (ws.foldl (fun g w => g.writeV w.1 w.2.1 w.2.2) a).handler = g.handler := by
    intro ws
    induction ws with
    | nil => intro a ha hh _; exact ⟨Group.Keeps.refl a, ha, hh⟩
    | cons w ws ih =>
      intro a ha hh hs
      have h1 : a.Keeps (a.writeV w.1 w.2.1 w.2.2) fl dv kv ds dm := by
        refine Group.writeV_keeps a _ _ _ fun l _ hl => .inr ?_
        simp only [Group.dueV, ha, List.any_eq_true]
        exact ⟨p, hp, w, hs w (by simp), by simp [hl]⟩
      have h2 := ih (a.writeV w.1 w.2.1 w.2.2) (by simpa using ha) (by simpa using hh) fun x hx => hs x (by simp [hx])
      exact ⟨h1.trans h2.1, h2.2⟩
  have hsc : ∀ (ws : List (Nat × Word)) (a : Group), a.pends = g.pends → a.handler.isSome = g.handler.isSome →
      (∀ w ∈ ws, w ∈ p.ss) → a.Keeps (ws.foldl (fun g w => g.writeS (p.flow == 4) w.1 w.2) a) fl dv kv ds dm := by
    intro ws
    induction ws with
    | nil => intro a _ _ _; exact Group.Keeps.refl a
    | cons w ws ih =>
      intro a ha hh hs
      have h1 : a.Keeps (a.writeS (p.flow == 4) w.1 w.2) fl dv kv ds dm := by
        refine Group.writeS_keeps a p.flow _ _ (fun _ => .inr ?_) ?_
        · simp only [Group.dueS, ha, List.any_eq_true]
          exact ⟨p, hp, w, hs w (by simp), by simp⟩
        · rcases hf with h | h | h
          · exact .inl h
          · exact .inr (.inl h)
          · right; right
            rw [h] at hh
            simpa using hh
      refine h1.trans (ih _ (by simpa using ha) ?_ fun x hx => hs x (by simp [hx]))
      rw [Group.writeS_handler_isSome, hh]
  obtain ⟨h1, h2, h3⟩ := hv p.vs g rfl rfl fun _ h => h
  exact h1.trans (hsc p.ss _ h2 (by rw [h3]) fun _ h => h)

theorem Group.deliver_pends (g : Group) (p : Pend) : (g.deliver p).pends = g.pends := by
  have hv : ∀ (ws : List (Nat × Mask × LaneVec)) (a : Group),
      (ws.foldl (fun g w => g.writeV w.1 w.2.1 w.2.2) a).pends = a.pends := by
    intro ws
    induction ws with
    | nil => intro a; rfl
    | cons w ws ih => intro a; simp [ih]
  have hs : ∀ (ws : List (Nat × Word)) (a : Group),
      (ws.foldl (fun g w => g.writeS (p.flow == 4) w.1 w.2) a).pends = a.pends := by
    intro ws
    induction ws with
    | nil => intro a; rfl
    | cons w ws ih => intro a; simp [ih]
  simp [Group.deliver, hv, hs]

/-- Fewer outstanding results, all of them old. -/
theorem Group.Keeps.ofPends (g : Group) (ps : List Pend) (h : ∀ p ∈ ps, p ∈ g.pends ∨
      ((∀ w ∈ p.vs, ∀ l, w.2.1.getLsbD l = true → dv w.1 l = true) ∧ ∀ w ∈ p.ss, ds (g.bankS p.flow w.1) w.1 = true)) :
    g.Keeps { g with pends := ps } fl dv kv ds dm := by
  refine ⟨⟨rfl, fun _ h => h, rfl⟩, ⟨?_, rfl⟩, ?_, ?_, ?_, ?_, ?_⟩
  · split
    · exact ⟨fun _ => rfl, fun x hx => ⟨x, hx, rfl⟩⟩
    · rfl
  · intro r' l _ _ _; exact ⟨rfl, fun _ => rfl⟩
  · intro b r' _ _ _ _; exact ⟨rfl, rfl⟩
  · intro b r' _ _ _ _; rfl
  · intro r l hx
    simp only [Group.dueV, List.any_eq_true] at *
    obtain ⟨p, hp, w, hw, e⟩ := hx
    simp only [Bool.and_eq_true, beq_iff_eq] at e
    rcases h p hp with h' | h'
    · exact .inl ⟨p, h', w, hw, by simp [e]⟩
    · right; rw [← e.1]; exact h'.1 w hw l e.2
  · intro b r hx
    simp only [Group.dueS, List.any_eq_true] at *
    obtain ⟨p, hp, w, hw, e⟩ := hx
    simp only [Bool.and_eq_true, beq_iff_eq] at e
    rcases h p hp with h' | h'
    · exact .inl ⟨p, h', w, hw, by simp only [Bool.and_eq_true, beq_iff_eq]; exact e⟩
    · right
      have := h'.2 w hw
      rw [← e.2, ← e.1]; exact this

/-- Writing outstanding results changes nothing but their destinations. -/
theorem Group.drainIf_keeps (g : Group) (f : Pend → Bool) (hf : fl = 4 ∨ g.handler = none) :
    g.Keeps (g.drainIf f) fl dv kv ds dm := by
  have key : ∀ (ps : List Pend) (a : Group), a.pends = g.pends → a.handler.isSome = g.handler.isSome →
      (∀ p ∈ ps, p ∈ g.pends) → a.Keeps (ps.foldl Group.deliver a) fl dv kv ds dm ∧
        (ps.foldl Group.deliver a).pends = g.pends := by
    intro ps
    induction ps with
    | nil => intro a ha _ _; exact ⟨Group.Keeps.refl a, ha⟩
    | cons p ps ih =>
      intro a ha hh hs
      have h1 : a.Keeps (a.deliver p) fl dv kv ds dm := by
        refine Group.deliver_keeps a p (ha ▸ hs p (by simp)) ?_
        rcases hf with h | h
        · exact .inl h
        · right; right; rw [h] at hh; simpa using hh
      have h2 := ih (a.deliver p) (by rw [Group.deliver_pends, ha]) (by rw [h1.flows.2, hh]) fun q hq => hs q (by simp [hq])
      exact ⟨h1.trans h2.1, h2.2⟩
  obtain ⟨h1, h2⟩ := key (g.pends.filter f) g rfl rfl fun p hp => (List.mem_filter.mp hp).1
  refine h1.trans ?_
  refine Group.Keeps.ofPends _ _ fun p hp => .inl ?_
  rw [h2]
  exact (List.mem_filter.mp hp).1

theorem Group.drainIf_handler_isSome (g : Group) (f : Pend → Bool) :
    (g.drainIf f).handler.isSome = g.handler.isSome :=
  (Group.drainIf_keeps (fl := 4) (dv := fun _ _ => false) (kv := fun _ _ => false) (ds := fun _ _ => false)
    (dm := fun _ _ => false) g f (.inl rfl)).flows.2

/-- Delivering results leaves the split records. -/
theorem Group.deliver_recs (g : Group) (p : Pend) : (g.deliver p).recs = g.recs := by
  have hv : ∀ (ws : List (Nat × Mask × LaneVec)) (a : Group),
      (ws.foldl (fun g w => g.writeV w.1 w.2.1 w.2.2) a).recs = a.recs := by
    intro ws
    induction ws with
    | nil => intro a; rfl
    | cons w ws ih => intro a; simp [ih]
  have hs : ∀ (ws : List (Nat × Word)) (a : Group),
      (ws.foldl (fun g w => g.writeS (p.flow == 4) w.1 w.2) a).recs = a.recs := by
    intro ws
    induction ws with
    | nil => intro a; rfl
    | cons w ws ih =>
      intro a
      simp only [List.foldl_cons, ih]
      unfold Group.writeS
      split <;> (try split) <;> rfl
  simp [Group.deliver, hv, hs]

theorem Group.drainIf_recs (g : Group) (f : Pend → Bool) : (g.drainIf f).recs = g.recs := by
  have key : ∀ (ps : List Pend) (a : Group), (ps.foldl Group.deliver a).recs = a.recs := by
    intro ps
    induction ps with
    | nil => intro a; rfl
    | cons p ps ih => intro a; simp [ih, Group.deliver_recs]
  simp [Group.drainIf, key]

@[simp] theorem Group.drainIf_record (g : Group) (f : Pend → Bool) (k : Nat) : (g.drainIf f).record k = g.record k := by
  simp [Group.record, Group.drainIf_recs]

/-! ## The flow's place, windows, kills and merges -/

theorem Group.setRec_keeps (g : Group) (k : Nat) (r : Split) (h : fl ≠ 4 ∨ g.handler = none) :
    g.Keeps (g.setRec k r) fl dv kv ds dm :=
  Group.Keeps.ofPlace rfl fun h4 hs => by rcases h with h | h <;> simp_all

theorem Group.modOrd_keeps (g : Group) (f : FlowOrd → FlowOrd) : g.Keeps (g.modOrd fl f) fl dv kv ds dm := by
  unfold Group.modOrd
  split
  · rename_i h4
    refine ⟨⟨rfl, fun _ h => h, rfl⟩, ⟨?_, by simp⟩, ?_, ?_, ?_, ?_, ?_⟩
    · simp only [h4, if_true]
      refine ⟨fun _ => trivial, fun x hx => ?_⟩
      simp only [hx, Option.map_some]
      exact ⟨_, rfl, rfl⟩
    · intro r' l _ _ _; exact ⟨rfl, fun _ => rfl⟩
    · intro b r' _ _ _ _
      cases hh : g.handler <;> cases b <;> simp [Group.sReg, Group.sRegLive, hh]
    · intro b r' _ _ _ _
      cases hh : g.handler <;> cases b <;> simp [Group.mReg, hh]
    · intro r' l hx; exact .inl hx
    · intro b r' hx; left; simpa [Group.dueS, Group.bankS] using hx
  · rename_i h4
    exact Group.setRec_keeps g _ _ (.inl h4)

/-- An acquire from tokens changes only what the issuing flow knows (R24, R194). -/
theorem Group.acquireTokens_keeps (g : Group) (ops : List Opnd) : g.Keeps (g.acquireTokens fl ops) fl dv kv ds dm := by
  unfold Group.acquireTokens
  dsimp only
  split
  · exact Group.Keeps.refl g
  · exact Group.modOrd_keeps g _

theorem Group.setFlow_keeps (g : Group) (pc : Word) (repi : BitVec 6) :
    g.Keeps (g.setFlow fl pc repi) fl dv kv ds dm := by
  unfold Group.setFlow
  split
  · rename_i h4
    refine ⟨⟨rfl, fun _ h => h, rfl⟩, ⟨?_, by simp⟩, ?_, ?_, ?_, ?_, ?_⟩
    · simp only [h4, if_true]
      refine ⟨fun _ => trivial, fun x hx => ?_⟩
      simp only [hx, Option.map_some]
      exact ⟨_, rfl, rfl⟩
    · intro r' l _ _ _; exact ⟨rfl, fun _ => rfl⟩
    · intro b r' _ _ _ _
      cases hh : g.handler <;> cases b <;> simp [Group.sReg, Group.sRegLive, hh]
    · intro b r' _ _ _ _
      cases hh : g.handler <;> cases b <;> simp [Group.mReg, hh]
    · intro r' l hx; exact .inl hx
    · intro b r' hx; left; simpa [Group.dueS, Group.bankS] using hx
  · rename_i h4
    exact Group.setRec_keeps g _ _ (.inl h4)

theorem Group.setSleep_keeps_service (g : Group) (sl : Sleep) (h4 : fl ≠ 4) : g.Keeps (g.setSleep fl sl) fl dv kv ds dm := by
  unfold Group.setSleep
  simp only [h4, if_false]
  exact Group.setRec_keeps g _ _ (.inl h4)

theorem Group.countWindow_keeps (g : Group) (k : Nat) : g.Keeps (g.countWindow k) fl dv kv ds dm := by
  refine ⟨⟨rfl, fun _ h => h, rfl⟩, ⟨?_, rfl⟩, ?_, ?_, ?_, ?_, ?_⟩
  · split
    · exact ⟨fun _ => rfl, fun x hx => ⟨x, hx, rfl⟩⟩
    · rfl
  · intro r' l _ _ _; exact ⟨rfl, fun _ => rfl⟩
  · intro b r' _ _ _ _; exact ⟨rfl, rfl⟩
  · intro b r' _ _ _ _; rfl
  · intro r l hx
    left
    simp only [Group.dueV, Group.countWindow, List.any_map, List.any_eq_true, Function.comp] at *
    obtain ⟨p, hp, hw⟩ := hx
    refine ⟨p, hp, ?_⟩
    split at hw <;> exact hw
  · intro b r hx
    left
    simp only [Group.dueS, Group.countWindow, List.any_map, List.any_eq_true, Function.comp] at *
    obtain ⟨p, hp, hw⟩ := hx
    refine ⟨p, hp, ?_⟩
    split at hw <;> exact hw

/-- A held cause keeps its cause and its HINFO when its record merges (R221). -/
theorem Group.movePending_keeps (g : Group) (j i : Nat) : g.Keeps (g.movePending j i) fl dv kv ds dm := by
  refine ⟨⟨?_, fun _ h => h, rfl⟩, ⟨?_, rfl⟩, ?_, ?_, ?_, ?_, ?_⟩
  · cases h : g.pending <;> simp [Group.movePending, h]
    split <;> simp
  · split
    · exact ⟨fun _ => rfl, fun x hx => ⟨x, hx, rfl⟩⟩
    · rfl
  · intro r' l _ _ _; exact ⟨rfl, fun _ => rfl⟩
  · intro b r' _ _ _ _; exact ⟨rfl, rfl⟩
  · intro b r' _ _ _ _; rfl
  · exact fun _ _ h => .inl h
  · exact fun _ _ h => .inl h

theorem Group.mergePair_keeps (g : Group) (i j : Nat) (hn : g.handler = none) :
    g.Keeps (g.mergePair i j) fl dv kv ds dm := by
  have h1 : g.Keeps (g.drainFlow i) fl dv kv ds dm := Group.drainIf_keeps g _ (.inr hn)
  have hn1 : (g.drainFlow i).handler = none := by have := h1.flows.2; rw [hn] at this; simpa using this
  have h2 : (g.drainFlow i).Keeps ((g.drainFlow i).drainFlow j) fl dv kv ds dm := Group.drainIf_keeps _ _ (.inr hn1)
  have hn2 : ((g.drainFlow i).drainFlow j).handler = none := by have := h2.flows.2; rw [hn1] at this; simpa using this
  unfold Group.mergePair
  exact ((h1.trans h2).trans ((Group.setRec_keeps _ _ _ (.inr hn2)).trans (Group.setRec_keeps _ _ _ (.inr hn2)))).trans
    (Group.movePending_keeps _ _ _)

/-- The merges of a boundary change nothing but records and the destinations of outstanding results. -/
theorem Group.merge_keeps (g : Group) : g.Keeps g.merge fl dv kv ds dm := by
  unfold Group.merge
  split
  · exact Group.Keeps.refl g
  · rename_i hn
    have key : ∀ (ps : List (Nat × Nat)) (a : Group), a.handler = none →
        a.Keeps (ps.foldl (fun g p => if g.mergeable p.1 p.2 then g.mergePair p.1 p.2 else g) a) fl dv kv ds dm := by
      intro ps
      induction ps with
      | nil => intro a _; exact Group.Keeps.refl a
      | cons p ps ih =>
        intro a ha
        simp only [List.foldl_cons]
        split
        · have h1 : a.Keeps (a.mergePair p.1 p.2) fl dv kv ds dm := Group.mergePair_keeps a _ _ ha
          have := h1.flows.2
          rw [ha] at this
          exact h1.trans (ih _ (by simpa using this))
        · exact ih a ha
    exact key _ g hn

/-! ## An instruction's writes -/

theorem Group.writeMask_keeps (g : Group) (r : Nat) (x : Mask) (hw : r ≠ 0 → dm (g.bankM fl r) r = true)
    (hr : r < 16) (hf : fl = 4 ∨ g.handler = none) : g.Keeps (g.writeMask fl r x) fl dv kv ds dm := by
  unfold Group.writeMask
  split
  · split
    · exact Group.Keeps.refl g
    · rename_i h4
      exact Group.setRec_keeps g _ _ (.inl h4)
  · rename_i h0
    exact Group.writeM_keeps g fl r x (hw h0) hr (by rcases hf with h | h <;> simp [h])

/-- What the writes of an instruction touch. -/
structure Eff.Within (e : Eff) (g : Group) (fl : Nat) (dv kv : Nat → Nat → Bool) (ds dm : Bool → Nat → Bool) : Prop where
  v : ∀ w ∈ e.vw, ∀ l, l < 32 → w.2.1.getLsbD l = true → dv w.1 l = true
  k : ∀ w ∈ e.kills, ∀ l, l < 32 → w.2.getLsbD l = true → kv w.1 l = true
  s : ∀ w ∈ e.sw, w.1 ≠ 0 → ds (g.bankS fl w.1) w.1 = true
  m : ∀ w ∈ e.mw, w.1 < 16 ∧ (w.1 ≠ 0 → dm (g.bankM fl w.1) w.1 = true)
  p : ∀ p, e.pend = some p → (∀ w ∈ p.vs, ∀ l, w.2.1.getLsbD l = true → dv w.1 l = true) ∧
        ∀ w ∈ p.ss, ds (g.bankS p.flow w.1) w.1 = true

/-- A fold of steps that each keep what a relation keeps. -/
theorem Group.foldl_keeps {α : Type} (f : Group → α → Group) (P : Group → Prop) (ws : List α) (g : Group)
    (h0 : P g) (h : ∀ a w, P a → w ∈ ws → a.Keeps (f a w) fl dv kv ds dm ∧ P (f a w)) :
    g.Keeps (ws.foldl f g) fl dv kv ds dm ∧ P (ws.foldl f g) := by
  induction ws generalizing g with
  | nil => exact ⟨Group.Keeps.refl g, h0⟩
  | cons w ws ih =>
    have h1 := h g w h0 (by simp)
    have h2 := ih (f g w) h1.2 fun a x ha hx => h a x ha (by simp [hx])
    exact ⟨h1.1.trans h2.1, h2.2⟩

theorem Group.bank_of_isSome {a g : Group} (h : a.handler.isSome = g.handler.isSome) (f r : Nat) :
    a.bankS f r = g.bankS f r ∧ a.bankM f r = g.bankM f r := by simp [Group.bankS, Group.bankM, h]

/-- Kills and writes touch the registers they name. -/
theorem Group.apply_keeps (g : Group) (hv : List (Nat × Nat)) (hm : List Nat) (e : Eff)
    (he : e.Within g fl dv kv ds dm) (hf : fl = 4 ∨ g.handler = none) :
    g.Keeps (g.apply fl hv hm e) fl dv kv ds dm ∧ (g.apply fl hv hm e).handler.isSome = g.handler.isSome := by
  have hsome : ∀ {a b : Group}, a.Keeps b fl dv kv ds dm → a.handler.isSome = g.handler.isSome →
      b.handler.isSome = g.handler.isSome := fun h k => h.flows.2.trans k
  have hf' : ∀ {a : Group}, a.handler.isSome = g.handler.isSome → fl = 4 ∨ a.handler = none := by
    intro a ha
    rcases hf with h | h
    · exact .inl h
    · right; rw [h] at ha; simpa using ha
  have h1 := Group.foldl_keeps (fl := fl) (dv := dv) (kv := kv) (ds := ds) (dm := dm)
    (fun g (k : Nat × Mask) => g.killV k.1 k.2) (fun a => a.handler.isSome = g.handler.isSome) e.kills g rfl
    fun a w ha hw => ⟨Group.killV_keeps a _ _ (he.k w hw), ha⟩
  have h2 := Group.foldl_keeps (fl := fl) (dv := dv) (kv := kv) (ds := ds) (dm := dm)
    (fun g (w : Nat × Mask × LaneVec) => if inRuns hv w.1 then g else g.writeV w.1 w.2.1 w.2.2)
    (fun a => a.handler.isSome = g.handler.isSome) e.vw _ h1.2
    fun a w ha hw => by
      by_cases hh : inRuns hv w.1 = true
      · simp only [hh, if_true]; exact ⟨Group.Keeps.refl a, ha⟩
      · simp only [hh]
        exact ⟨Group.writeV_keeps a _ _ _ fun l hl hb => .inl (he.v w hw l hl hb), ha⟩
  have h3 := Group.foldl_keeps (fl := fl) (dv := dv) (kv := kv) (ds := ds) (dm := dm)
    (fun g (w : Nat × Word) => g.writeS (fl == 4) w.1 w.2)
    (fun a => a.handler.isSome = g.handler.isSome) e.sw _ h2.2
    fun a w ha hw => by
      have := Group.writeS_keeps (fl := fl) (dv := dv) (kv := kv) (ds := ds) (dm := dm) a fl w.1 w.2
        (fun h0 => .inl (by rw [(Group.bank_of_isSome ha fl w.1).1]; exact he.s w hw h0))
        (by rcases hf' ha with h | h <;> simp [h])
      exact ⟨this, hsome this ha⟩
  have h4 := Group.foldl_keeps (fl := fl) (dv := dv) (kv := kv) (ds := ds) (dm := dm)
    (fun g (w : Nat × Mask) => if hm.contains w.1 then g else g.writeMask fl w.1 w.2)
    (fun a => a.handler.isSome = g.handler.isSome) e.mw _ h3.2
    fun a w ha hw => by
      by_cases hh : hm.contains w.1 = true
      · simp only [hh, if_true]; exact ⟨Group.Keeps.refl a, ha⟩
      · simp only [hh]
        have := Group.writeMask_keeps (fl := fl) (dv := dv) (kv := kv) (ds := ds) (dm := dm) a w.1 w.2
          (fun h0 => by rw [(Group.bank_of_isSome ha fl w.1).2]; exact (he.m w hw).2 h0) (he.m w hw).1 (hf' ha)
        exact ⟨this, hsome this ha⟩
  exact ⟨((h1.1.trans h2.1).trans h3.1).trans h4.1, h4.2⟩

/-- The windows of a flow count the instruction unless it is an iteration of a REP before the last (R65, R157). -/
def Group.counted (g : Group) (v : View) : Group := if v.last then g.countWindow v.fl else g

/-- A new outstanding result, if there is one. -/
def Group.addPend (g : Group) : Option Pend → Group
  | some p => { g with pends := g.pends ++ [p] }
  | none => g

/-- The group after an instruction's writes and its STAT bits. -/
def Group.written (g : Group) (v : View) (st : BitVec 10) (e : Eff) : Group :=
  { g.apply v.fl v.heldV v.heldM e with stat := (g.apply v.fl v.heldV v.heldM e).stat ||| v.statBits st }

/-- The group at the boundary after an instruction, before its merges. -/
def Group.placed (g : Group) (v : View) (st : BitVec 10) (e : Eff) : Group :=
  (((g.written v st e).setFlow v.fl (e.pc.getD v.next) v.repi).counted v).addPend e.pend

/-- The completion in its four parts: writes and STAT, the place, the windows and a new result, and the merges. -/
theorem Group.finish_eq (g : Group) (v : View) (st : BitVec 10) (e : Eff) : g.finish v st e = (g.placed v st e).merge := by
  unfold Group.finish Group.placed Group.counted Group.addPend Group.written
  cases e.pend <;> rfl

theorem Group.addPend_keeps (g : Group) (o : Option Pend) (hp : ∀ p, o = some p →
      (∀ w ∈ p.vs, ∀ l, w.2.1.getLsbD l = true → dv w.1 l = true) ∧ ∀ w ∈ p.ss, ds (g.bankS p.flow w.1) w.1 = true) :
    g.Keeps (g.addPend o) fl dv kv ds dm := by
  cases o with
  | none => exact Group.Keeps.refl g
  | some p =>
    refine Group.Keeps.ofPends g _ fun q hq => ?_
    rcases List.mem_append.mp hq with h | h
    · exact .inl h
    · have : q = p := by simpa using h
      subst this
      exact .inr (hp q rfl)

theorem Group.counted_keeps (g : Group) (v : View) : g.Keeps (g.counted v) fl dv kv ds dm := by
  unfold Group.counted
  split
  · exact Group.countWindow_keeps g _
  · exact Group.Keeps.refl g

/-- After an instruction's writes its STAT, place, windows and merges touch only what was outstanding. -/
theorem Group.finish_keeps_apply (g : Group) (v : View) (st : BitVec 10) (e : Eff)
    (hp : ∀ p, e.pend = some p → (∀ w ∈ p.vs, ∀ l, w.2.1.getLsbD l = true → dv w.1 l = true) ∧
        ∀ w ∈ p.ss, ds ((g.apply v.fl v.heldV v.heldM e).bankS p.flow w.1) w.1 = true) :
    (g.apply v.fl v.heldV v.heldM e).Keeps (g.finish v st e) v.fl dv kv ds dm := by
  rw [Group.finish_eq]
  have h1 : (g.apply v.fl v.heldV v.heldM e).Keeps (g.written v st e) v.fl dv kv ds dm :=
    Group.Keeps.ofPlace rfl fun _ _ => rfl
  have h2 := (h1.trans (Group.setFlow_keeps _ (e.pc.getD v.next) v.repi)).trans (Group.counted_keeps _ v)
  refine (h2.trans (Group.addPend_keeps _ e.pend fun p hpe => ⟨(hp p hpe).1, fun w hw => ?_⟩)).trans (Group.merge_keeps _)
  rw [(Group.bank_of_isSome h2.flows.2 p.flow w.1).1]
  exact (hp p hpe).2 w hw

/-- The completion of an instruction touches the registers it writes and what was outstanding. -/
theorem Group.finish_keeps (g : Group) (v : View) (st : BitVec 10) (e : Eff) (he : e.Within g v.fl dv kv ds dm)
    (hf : v.fl = 4 ∨ g.handler = none) : g.Keeps (g.finish v st e) v.fl dv kv ds dm := by
  have h1 := Group.apply_keeps g v.heldV v.heldM e he hf
  refine h1.1.trans (Group.finish_keeps_apply g v st e fun p hp => ?_)
  refine ⟨(he.p p hp).1, fun w hw => ?_⟩
  rw [(Group.bank_of_isSome h1.2 p.flow w.1).1]
  exact (he.p p hp).2 w hw

/-! ## What no completion changes -/

theorem Group.writeS_gid (g : Group) (h : Bool) (r : Nat) (x : Word) : (g.writeS h r x).gid = g.gid := by
  unfold Group.writeS; split <;> (try split) <;> rfl

theorem Group.writeMask_gid (g : Group) (f r : Nat) (x : Mask) : (g.writeMask f r x).gid = g.gid := by
  unfold Group.writeMask
  split
  · split <;> rfl
  · unfold Group.writeM; split <;> rfl

theorem Group.foldl_gid {α : Type} (f : Group → α → Group) (hf : ∀ a w, (f a w).gid = a.gid) (ws : List α) (g : Group) :
    (ws.foldl f g).gid = g.gid := by
  induction ws generalizing g with
  | nil => rfl
  | cons w ws ih => rw [List.foldl_cons, ih, hf]

theorem Group.apply_gid (g : Group) (fl : Nat) (hv : List (Nat × Nat)) (hm : List Nat) (e : Eff) :
    (g.apply fl hv hm e).gid = g.gid := by
  unfold Group.apply
  rw [Group.foldl_gid _ (fun a w => by split; rfl; exact Group.writeMask_gid _ _ _ _),
    Group.foldl_gid _ (fun a w => Group.writeS_gid _ _ _ _),
    Group.foldl_gid _ (fun a w => by split <;> rfl)]
  exact Group.foldl_gid (fun g (k : Nat × Mask) => g.killV k.1 k.2) (fun a w => rfl) _ _

theorem Group.merge_gid (g : Group) : g.merge.gid = g.gid :=
  (Group.merge_keeps (fl := 0) (dv := fun _ _ => false) (kv := fun _ _ => false) (ds := fun _ _ => false)
    (dm := fun _ _ => false) g).gid

/-- The completion keeps the group's number. -/
theorem Group.finish_gid (g : Group) (v : View) (st : BitVec 10) (e : Eff) : (g.finish v st e).gid = g.gid := by
  rw [Group.finish_eq, Group.merge_gid]
  have h1 : (g.written v st e).gid = g.gid := Group.apply_gid g _ _ _ e
  have h2 : ((g.written v st e).setFlow v.fl (e.pc.getD v.next) v.repi).gid = g.gid := by
    unfold Group.setFlow; split <;> exact h1
  have h3 : (((g.written v st e).setFlow v.fl (e.pc.getD v.next) v.repi).counted v).gid = g.gid := by
    unfold Group.counted; split <;> exact h2
  unfold Group.placed
  cases e.pend <;> exact h3

end Sys2Proof.Machine
end

