-- ==== Sys2Proof/Laws/View.lean ====
section
/-!
SUPPORT. The issuing flow's view from its issue to its completion: only its group changes, memory stays, and the group keeps
what `Group.Keeps` names; then the values that a completed instruction leaves.
-/
namespace Sys2Proof.Machine

variable {dv kv : Nat → Nat → Bool} {ds dm : Bool → Nat → Bool}

/-- A view reached from that of the issuing flow by changes of its own group that keep what is named. -/
structure View.After (s : State) (v w : View) (dv kv : Nat → Nat → Bool) (ds dm : Bool → Nat → Bool) : Prop where
  u    : w.u = v.u
  fl   : w.fl = v.fl
  gid  : w.g.gid = v.g.gid
  only : OnlyGroup s w.s v.u v.g.gid w.g
  keep : ∃ g, s.group? v.u v.g.gid = some g ∧ g.Keeps w.g v.fl dv kv ds dm
  turn : v.fl = 4 ∨ w.g.handler = none

theorem View.inTurn_iff (v : View) : v.inTurn = true ↔ v.fl ≤ 4 ∧ (v.fl = 4 ∨ v.g.handler = none) := by
  simp [View.inTurn, Option.isNone_iff_eq_none]

/-- The issuing flow's own view. -/
theorem View.After.start {s : State} {words : Nat} {v : View} (h : s.issuer? words = some v) (ht : v.inTurn = true) :
    View.After s v v dv kv ds dm := by
  unfold State.issuer? at h
  obtain ⟨c, hc, h⟩ := Option.bind_eq_some_iff.mp h
  obtain ⟨-, hg, hs, hu, hfl, -⟩ := State.viewOf_some h
  rw [View.inTurn_iff] at ht
  have hgid := State.group?_gid hg
  cases h0 : s.group? c.team c.gid with
  | none =>
    exfalso
    unfold State.closeWindows State.group? State.modGroup at hg
    rw [State.team?_modTeam _ _ _ (fun t => t.modGroup c.gid _) (fun t => rfl)] at hg
    unfold State.group? at h0
    cases ht' : s.team? c.team with
    | none => simp [ht'] at hg
    | some t =>
      simp only [ht', Option.bind_some] at h0
      have hu' := State.team?_uid ht'
      simp only [ht', Option.map_some, Option.bind_some, hu', if_true, Team.group?, Team.modGroup] at hg
      unfold Team.group? at h0
      rw [find?_map_keep t.groups _ _ (fun x => by
        by_cases hx : x.gid = c.gid
        · simp [hx, (Group.drainIf_keeps (fl := 4) (dv := fun _ _ => false) (kv := fun _ _ => false)
            (ds := fun _ _ => false) (dm := fun _ _ => false) x _ (.inl rfl)).gid]
        · simp [hx]), h0] at hg
      simp at hg
  | some g0 =>
    have hk : ∀ x : Group, x.gid = c.gid → (x.drainIf fun p => p.flow == c.flow && p.win == 0).gid = c.gid :=
      fun x hx => ((Group.drainIf_keeps (fl := 4) (dv := fun _ _ => false) (kv := fun _ _ => false)
        (ds := fun _ _ => false) (dm := fun _ _ => false) x _ (.inl rfl)).gid).trans hx
    have h1 := State.group?_modGroup_same (fun g => g.drainIf fun p => p.flow == c.flow && p.win == 0) hk h0
    have hvg : v.g = g0.drainIf fun p => p.flow == c.flow && p.win == 0 := by
      have : some v.g = some _ := hg.symm.trans h1
      simpa using this
    have hturn : v.fl = 4 ∨ g0.handler = none := by
      rcases ht.2 with h | h
      · exact .inl h
      · right
        have := Group.drainIf_handler_isSome g0 fun p => p.flow == c.flow && p.win == 0
        rw [← hvg, h] at this
        simpa using this.symm
    refine ⟨rfl, rfl, rfl, ?_, ⟨g0, by rw [hu, hgid]; exact h0, ?_⟩, ht.2⟩
    · rw [hs, hu, hgid]
      refine ⟨⟨_, hk, rfl⟩, ?_⟩
      rw [hvg]
      exact h1
    · rw [hvg]
      exact Group.drainIf_keeps g0 _ hturn

/-- A further change of the group. -/
theorem View.After.withGroup {s : State} {v w : View} (h : View.After s v w dv kv ds dm) {g : Group}
    (hg : w.g.Keeps g v.fl dv kv ds dm) : View.After s v (w.withGroup g) dv kv ds dm := by
  obtain ⟨g0, h0, hk⟩ := h.keep
  refine ⟨h.u, h.fl, hg.gid.trans h.gid, ?_, ⟨g0, h0, hk.trans hg⟩, ?_⟩
  · have := h.only.modGroup (fun _ => g) (fun x _ => hg.gid.trans h.gid)
    unfold View.withGroup
    rw [h.u, h.gid]
    exact this
  · rcases h.turn with h4 | hn
    · exact .inl h4
    · right
      have := hg.flows.2
      rw [hn] at this
      show g.handler = none
      simpa using this

/-- The view that the issue passes on. -/
theorem View.After.readied {s : State} {v w : View} (h : View.After s v w dv kv ds dm) (ops : List Opnd) :
    View.After s v (w.readied ops) dv kv ds dm := by
  refine h.withGroup ?_
  rw [← h.fl]
  exact Group.acquireTokens_keeps _ _

/-! ## The values that a completion leaves -/

theorem Group.foldl_proj {α β : Type} (π : Group → β) (f : Group → α → Group) (hf : ∀ a w, π (f a w) = π a) (ws : List α)
    (g : Group) : π (ws.foldl f g) = π g := by
  induction ws generalizing g with
  | nil => rfl
  | cons w ws ih => rw [List.foldl_cons, ih, hf]

theorem Group.writeS_v (g : Group) (h : Bool) (r : Nat) (x : Word) :
    (g.writeS h r x).v = g.v ∧ (g.writeS h r x).vlive = g.vlive := by
  unfold Group.writeS; split <;> (try split) <;> exact ⟨rfl, rfl⟩

theorem Group.writeMask_v (g : Group) (f r : Nat) (x : Mask) :
    (g.writeMask f r x).v = g.v ∧ (g.writeMask f r x).vlive = g.vlive := by
  unfold Group.writeMask
  split
  · split <;> exact ⟨rfl, rfl⟩
  · unfold Group.writeM; split <;> exact ⟨rfl, rfl⟩

/-- A write of a vector register leaves its values, live. -/
theorem Group.writeV_at (g : Group) (r : Nat) (m : Mask) (x : LaneVec) {l : Nat} (hr : r < 128) (hl : l < 32)
    (hm : m.getLsbD l = true) : (g.writeV r m x).vAt r l = lane x l ∧ (g.writeV r m x).vLiveAt r l = true := by
  refine ⟨?_, ?_⟩
  · simp only [Group.vAt, Group.writeV, vget_vset, hr, and_self, if_true, lane_mergeLanes _ _ _ _ hl, hm]
  · simp [Group.vLiveAt, Group.writeV, vget_vset, hr, hm]

theorem Group.writeV_at_other (g : Group) (r r' : Nat) (m : Mask) (x : LaneVec) (l : Nat) (hr : r' ≠ r) :
    (g.writeV r m x).vAt r' l = g.vAt r' l ∧ (g.writeV r m x).vLiveAt r' l = g.vLiveAt r' l := by
  have : ¬ (r = r' ∧ r < 128) := fun h => hr h.1.symm
  simp [Group.vAt, Group.vLiveAt, Group.writeV, vget_vset, this]

/-- A vector write of an instruction, its registers being distinct, stands after all its writes. -/
theorem Group.apply_vAt (g : Group) (fl : Nat) (hv : List (Nat × Nat)) (hm : List Nat) (e : Eff) {d l : Nat} {m : Mask}
    {x : LaneVec} (hnd : (e.vw.map Prod.fst).Nodup) (hmem : (d, m, x) ∈ e.vw) (hh : inRuns hv d = false) (hd : d < 128)
    (hl : l < 32) (hb : m.getLsbD l = true) :
    (g.apply fl hv hm e).vAt d l = lane x l ∧ (g.apply fl hv hm e).vLiveAt d l = true := by
  have key : ∀ (ws : List (Nat × Mask × LaneVec)) (a : Group), (ws.map Prod.fst).Nodup → (d, m, x) ∈ ws →
      (ws.foldl (fun g w => if inRuns hv w.1 then g else g.writeV w.1 w.2.1 w.2.2) a).vAt d l = lane x l ∧
      (ws.foldl (fun g w => if inRuns hv w.1 then g else g.writeV w.1 w.2.1 w.2.2) a).vLiveAt d l = true := by
    have other : ∀ (ws : List (Nat × Mask × LaneVec)) (a : Group), d ∉ ws.map Prod.fst →
        (ws.foldl (fun g w => if inRuns hv w.1 then g else g.writeV w.1 w.2.1 w.2.2) a).vAt d l = a.vAt d l ∧
        (ws.foldl (fun g w => if inRuns hv w.1 then g else g.writeV w.1 w.2.1 w.2.2) a).vLiveAt d l = a.vLiveAt d l := by
      intro ws
      induction ws with
      | nil => intro a _; exact ⟨rfl, rfl⟩
      | cons w ws ih =>
        intro a hn
        simp only [List.map_cons, List.mem_cons, not_or] at hn
        rw [List.foldl_cons]
        have h1 := ih (if inRuns hv w.1 then a else a.writeV w.1 w.2.1 w.2.2) hn.2
        rw [h1.1, h1.2]
        split
        · exact ⟨rfl, rfl⟩
        · exact Group.writeV_at_other a _ _ _ _ _ hn.1
    intro ws
    induction ws with
    | nil => intro a _ h; simp at h
    | cons w ws ih =>
      intro a hnd hmem
      rw [List.foldl_cons]
      simp only [List.map_cons, List.nodup_cons] at hnd
      rcases List.mem_cons.mp hmem with h | h
      · subst h
        have h1 := other ws (if inRuns hv d then a else a.writeV d m x) hnd.1
        simp only [hh, Bool.false_eq_true, if_false] at h1 ⊢
        rw [h1.1, h1.2]
        exact Group.writeV_at a d m x hd hl hb
      · exact ih _ hnd.2 h
  unfold Group.apply
  have h1 := key e.vw (e.kills.foldl (fun g k => g.killV k.1 k.2) g) hnd hmem
  have hv1 : ∀ (a b : Group), a.v = b.v → a.vlive = b.vlive → a.vAt d l = b.vAt d l ∧ a.vLiveAt d l = b.vLiveAt d l := by
    intro a b h1 h2; simp [Group.vAt, Group.vLiveAt, h1, h2]
  have h2 := hv1 _ _
    (Group.foldl_proj (fun g => g.v) (fun g (w : Nat × Mask) => if hm.contains w.1 then g else g.writeMask fl w.1 w.2)
      (fun a w => by split; rfl; exact (Group.writeMask_v a _ _ _).1) e.mw
      (e.sw.foldl (fun g w => g.writeS (fl == 4) w.1 w.2)
        (e.vw.foldl (fun g w => if inRuns hv w.1 then g else g.writeV w.1 w.2.1 w.2.2)
          (e.kills.foldl (fun g k => g.killV k.1 k.2) g))))
    (Group.foldl_proj (fun g => g.vlive) (fun g (w : Nat × Mask) => if hm.contains w.1 then g else g.writeMask fl w.1 w.2)
      (fun a w => by split; rfl; exact (Group.writeMask_v a _ _ _).2) e.mw _)
  have h3 := hv1 _ _
    (Group.foldl_proj (fun g => g.v) (fun g (w : Nat × Word) => g.writeS (fl == 4) w.1 w.2)
      (fun a w => (Group.writeS_v a _ _ _).1) e.sw
      (e.vw.foldl (fun g w => if inRuns hv w.1 then g else g.writeV w.1 w.2.1 w.2.2)
          (e.kills.foldl (fun g k => g.killV k.1 k.2) g)))
    (Group.foldl_proj (fun g => g.vlive) (fun g (w : Nat × Word) => g.writeS (fl == 4) w.1 w.2)
      (fun a w => (Group.writeS_v a _ _ _).2) e.sw _)
  exact ⟨h2.1.trans (h3.1.trans h1.1), h2.2.trans (h3.2.trans h1.2)⟩

theorem Group.apply_pends (g : Group) (fl : Nat) (hv : List (Nat × Nat)) (hm : List Nat) (e : Eff) :
    (g.apply fl hv hm e).pends = g.pends := by
  unfold Group.apply
  rw [Group.foldl_proj (fun g => g.pends) (fun g (w : Nat × Mask) => if hm.contains w.1 then g else g.writeMask fl w.1 w.2)
      (fun a w => by
        split
        · rfl
        · unfold Group.writeMask
          split
          · split <;> rfl
          · unfold Group.writeM; split <;> rfl),
    Group.foldl_proj (fun g => g.pends) (fun g (w : Nat × Word) => g.writeS (fl == 4) w.1 w.2)
      (fun a w => Group.writeS_pends a _ _ _),
    Group.foldl_proj (fun g => g.pends) (fun g (w : Nat × Mask × LaneVec) => if inRuns hv w.1 then g else g.writeV w.1 w.2.1 w.2.2)
      (fun a w => by split <;> rfl),
    Group.foldl_proj (fun g => g.pends) (fun g (k : Nat × Mask) => g.killV k.1 k.2) (fun a w => rfl)]

/-- A vector write of a completed instruction without a new outstanding result stands, unless an earlier outstanding result
has the lane as a destination. -/
theorem Group.finish_vAt (g : Group) (v : View) (st : BitVec 10) (e : Eff) {d l : Nat} {m : Mask} {x : LaneVec}
    (hnd : (e.vw.map Prod.fst).Nodup) (hmem : (d, m, x) ∈ e.vw) (hh : inRuns v.heldV d = false) (hd : d < 128)
    (hl : l < 32) (hb : m.getLsbD l = true) (hdue : g.dueV d l = false) (hp : e.pend = none) :
    (g.finish v st e).vAt d l = lane x l ∧ (g.finish v st e).vLiveAt d l = true := by
  have h1 := Group.apply_vAt g v.fl v.heldV v.heldM e hnd hmem hh hd hl hb
  have h2 := (Group.finish_keeps_apply (dv := fun _ _ => false) (kv := fun _ _ => false) (ds := fun _ _ => false)
    (dm := fun _ _ => false) g v st e (by simp [hp])).v d l hl (by
      simpa [Group.dueV, Group.apply_pends] using hdue) rfl
  exact ⟨h2.1.trans h1.1, (h2.2 rfl).trans h1.2⟩

/-- A write of a scalar register leaves its value, live; S0 reads zero. -/
theorem Group.writeS_at (g : Group) (f r : Nat) (x : Word) (h0 : r ≠ 0) (hr : r < 64) :
    (g.writeS (f == 4) r x).sReg (g.bankS f r) r = x ∧ (g.writeS (f == 4) r x).sRegLive (g.bankS f r) r = true := by
  unfold Group.writeS
  simp only [h0, if_false]
  split
  · rename_i h hb hh
    simp only [Bool.and_eq_true, beq_iff_eq, decide_eq_true_eq] at hb
    have hbank : g.bankS f r = true := by simp [Group.bankS, hb, hh]
    have h8 : r - 56 < 8 := by omega
    have := testBit_ofNat_two_pow 8 (r - 56) (r - 56) h8
    simp only [hbank, Group.sReg, Group.sRegLive, h0, if_false, if_true, vget_vset, h8, and_self, BitVec.getLsbD_or, this,
      decide_true, Bool.or_true]
  · rename_i hnb
    have hbank : g.bankS f r = false := by
      unfold Group.bankS
      cases hh : g.handler with
      | none => simp
      | some h =>
        cases e : (f == 4 && decide (56 ≤ r))
        · simp
        · exact absurd hh (by intro hh'; exact hnb h e hh')
    have := testBit_ofNat_two_pow 64 r r hr
    simp only [hbank, Group.sReg, Group.sRegLive, h0, if_false, Bool.false_eq_true, vget_vset, hr, and_self, if_true,
      BitVec.getLsbD_or, this, decide_true, Bool.or_true]

theorem Group.writeMask_s (g : Group) (f r : Nat) (x : Mask) (b : Bool) (q : Nat) :
    (g.writeMask f r x).sReg b q = g.sReg b q ∧ (g.writeMask f r x).sRegLive b q = g.sRegLive b q := by
  unfold Group.writeMask
  split
  · split <;> exact ⟨rfl, rfl⟩
  · unfold Group.writeM
    split
    · rename_i h hb hh
      unfold Group.sReg Group.sRegLive
      rw [hh]
      constructor
      · dsimp only; split
        · rfl
        · split
          · split <;> rfl
          · rfl
      · dsimp only; split
        · rfl
        · split
          · split <;> rfl
          · rfl
    · exact ⟨rfl, rfl⟩

/-- The scalar write of an instruction that writes one stands after all its writes. -/
theorem Group.apply_sReg (g : Group) (fl : Nat) (hv : List (Nat × Nat)) (hm : List Nat) (e : Eff) {d : Nat} {x : Word}
    (he : e.sw = [(d, x)]) (h0 : d ≠ 0) (hd : d < 64) :
    (g.apply fl hv hm e).sReg (g.bankS fl d) d = x ∧ (g.apply fl hv hm e).sRegLive (g.bankS fl d) d = true := by
  unfold Group.apply
  rw [Group.foldl_proj (fun g' => g'.sReg (g.bankS fl d) d)
      (fun g (w : Nat × Mask) => if hm.contains w.1 then g else g.writeMask fl w.1 w.2)
      (fun a w => by split; rfl; exact (Group.writeMask_s a _ _ _ _ _).1),
    Group.foldl_proj (fun g' => g'.sRegLive (g.bankS fl d) d)
      (fun g (w : Nat × Mask) => if hm.contains w.1 then g else g.writeMask fl w.1 w.2)
      (fun a w => by split; rfl; exact (Group.writeMask_s a _ _ _ _ _).2)]
  have hh := Group.foldl_proj (fun g' => g'.handler)
    (fun g (w : Nat × Mask × LaneVec) => if inRuns hv w.1 then g else g.writeV w.1 w.2.1 w.2.2)
    (fun a w => by split <;> rfl) e.vw (e.kills.foldl (fun g k => g.killV k.1 k.2) g)
  have hk := Group.foldl_proj (fun g' => g'.handler) (fun g (k : Nat × Mask) => g.killV k.1 k.2) (fun a w => rfl) e.kills g
  generalize e.vw.foldl (fun g w => if inRuns hv w.1 then g else g.writeV w.1 w.2.1 w.2.2)
    (e.kills.foldl (fun g k => g.killV k.1 k.2) g) = a at *
  have hb : g.bankS fl d = a.bankS fl d := by
    have : a.handler = g.handler := hh.trans hk
    simp [Group.bankS, this]
  rw [he, hb]
  exact Group.writeS_at a fl d x h0 hd

/-- The scalar write of a completed instruction without a new outstanding result stands, unless an earlier outstanding
result has the register as its destination. -/
theorem Group.finish_sReg (g : Group) (v : View) (st : BitVec 10) (e : Eff) {d : Nat} {x : Word} (he : e.sw = [(d, x)])
    (h0 : d ≠ 0) (hd : d < 64) (hturn : v.fl = 4 ∨ g.handler = none) (hdue : g.dueS (g.bankS v.fl d) d = false)
    (hw : ∀ w ∈ e.mw, w.1 < 16) (hp : e.pend = none) :
    (g.finish v st e).sReg (g.bankS v.fl d) d = x ∧ (g.finish v st e).sRegLive (g.bankS v.fl d) d = true := by
  have h1 := Group.apply_sReg g v.fl v.heldV v.heldM e he h0 hd
  have hsome := (Group.apply_keeps (fl := v.fl) (dv := fun _ _ => true) (kv := fun _ _ => true) (ds := fun _ _ => true)
    (dm := fun _ _ => true) g v.heldV v.heldM e
    ⟨fun _ _ _ _ _ => rfl, fun _ _ _ _ _ => rfl, fun _ _ _ => rfl, fun w hw' => ⟨hw w hw', fun _ => rfl⟩,
      fun p hp' => by simp [hp] at hp'⟩ hturn).2
  have h2 := (Group.finish_keeps_apply (dv := fun _ _ => false) (kv := fun _ _ => false) (ds := fun _ _ => false)
    (dm := fun _ _ => false) g v st e (by simp [hp])).s (g.bankS v.fl d) d hd (by
      intro hb; simp [Group.bankS] at hb; exact hb.1.2) (by
      simp only [Group.dueS, Group.apply_pends] at hdue ⊢
      rw [← hdue]
      congr 1
      funext p
      congr 1
      funext w
      rw [(Group.bank_of_isSome hsome p.flow d).1]) rfl
  exact ⟨h2.1.trans h1.1, h2.2.trans h1.2⟩

theorem Group.writeS_stat (g : Group) (h : Bool) (r : Nat) (x : Word) : (g.writeS h r x).stat = g.stat := by
  unfold Group.writeS; split <;> (try split) <;> rfl

theorem Group.writeMask_stat (g : Group) (f r : Nat) (x : Mask) : (g.writeMask f r x).stat = g.stat := by
  unfold Group.writeMask
  split
  · split <;> rfl
  · unfold Group.writeM; split <;> rfl

theorem Group.drainIf_stat (g : Group) (f : Pend → Bool) : (g.drainIf f).stat = g.stat := by
  unfold Group.drainIf
  exact Group.foldl_proj (fun g => g.stat) Group.deliver (fun a p => by
    unfold Group.deliver
    exact (Group.foldl_proj (fun g => g.stat) (fun g (w : Nat × Word) => g.writeS (p.flow == 4) w.1 w.2)
      (fun a w => Group.writeS_stat a _ _ _) p.ss _).trans
      (Group.foldl_proj (fun g => g.stat) (fun g (w : Nat × Mask × LaneVec) => g.writeV w.1 w.2.1 w.2.2)
        (fun a w => rfl) p.vs a)) (g.pends.filter f) g

theorem Group.mergePair_stat (g : Group) (i j : Nat) : (g.mergePair i j).stat = g.stat := by
  simp only [Group.mergePair, Group.movePending, Group.setRec, Group.drainFlow, Group.drainIf_stat]

theorem Group.merge_stat (g : Group) : g.merge.stat = g.stat := by
  unfold Group.merge
  split
  · rfl
  · exact Group.foldl_proj (fun g => g.stat) (fun g (p : Nat × Nat) => if g.mergeable p.1 p.2 then g.mergePair p.1 p.2 else g)
      (fun a p => by
        split
        · exact Group.mergePair_stat a p.1 p.2
        · rfl) _ g

theorem Group.apply_stat (g : Group) (fl : Nat) (hv : List (Nat × Nat)) (hm : List Nat) (e : Eff) :
    (g.apply fl hv hm e).stat = g.stat := by
  unfold Group.apply
  rw [Group.foldl_proj (fun g => g.stat) (fun g (w : Nat × Mask) => if hm.contains w.1 then g else g.writeMask fl w.1 w.2)
      (fun a w => by split; rfl; exact Group.writeMask_stat a _ _ _),
    Group.foldl_proj (fun g => g.stat) (fun g (w : Nat × Word) => g.writeS (fl == 4) w.1 w.2)
      (fun a w => Group.writeS_stat a _ _ _),
    Group.foldl_proj (fun g => g.stat) (fun g (w : Nat × Mask × LaneVec) => if inRuns hv w.1 then g else g.writeV w.1 w.2.1 w.2.2)
      (fun a w => by split <;> rfl),
    Group.foldl_proj (fun g => g.stat) (fun g (k : Nat × Mask) => g.killV k.1 k.2) (fun a w => rfl)]

/-- STAT after a completion: the bits of before and those the instruction sets. -/
theorem Group.finish_stat (g : Group) (v : View) (st : BitVec 10) (e : Eff) :
    (g.finish v st e).stat = g.stat ||| v.statBits st := by
  rw [Group.finish_eq, Group.merge_stat]
  have h1 : (g.written v st e).stat = g.stat ||| v.statBits st := by
    show (g.apply v.fl v.heldV v.heldM e).stat ||| v.statBits st = _
    rw [Group.apply_stat]
  have h2 : ((g.written v st e).setFlow v.fl (e.pc.getD v.next) v.repi).stat = (g.written v st e).stat := by
    unfold Group.setFlow; split <;> rfl
  have h3 : (((g.written v st e).setFlow v.fl (e.pc.getD v.next) v.repi).counted v).stat = (g.written v st e).stat := by
    unfold Group.counted; split <;> exact h2
  unfold Group.placed
  cases e.pend <;> exact h3.trans h1

/-! ## Where a flow stands -/

theorem Group.record_setRec (g : Group) (i k : Nat) (r : Split) :
    (g.setRec i r).record k = if i = k ∧ i < 4 then r else g.record k := by
  simp [Group.record, Group.setRec, vget_vset]

@[simp] theorem Group.record_movePending (g : Group) (j i k : Nat) : (g.movePending j i).record k = g.record k := rfl

/-- A merge keeps the place of every set of lanes that one record holds. -/
theorem Group.mergePair_stands (g : Group) {i j : Nat} (hij : i ≠ j) (hi : i < 4) (hm : g.mergeable i j = true) {ms : Mask}
    {pc : Word} (h : ∃ k, (g.record k).pc = pc ∧ ms &&& ~~~(g.record k).members = 0) :
    ∃ k, ((g.mergePair i j).record k).pc = pc ∧ ms &&& ~~~((g.mergePair i j).record k).members = 0 := by
  obtain ⟨k, hpc, hms⟩ := h
  have hpcs : (g.record i).pc = (g.record j).pc := by
    unfold Group.mergeable at hm
    simp only [Bool.and_eq_true, beq_iff_eq] at hm
    exact hm.1.1.1.1.2
  have hsub : ∀ a b : Mask, ms &&& ~~~a = 0 → ms &&& ~~~(a ||| b) = 0 ∧ ms &&& ~~~(b ||| a) = 0 := by
    intro a b hz
    have e : ms &&& ~~~(a ||| b) = ms &&& ~~~a &&& ~~~b := by
      ext n hn; simp [Bool.and_assoc]
    have e' : ms &&& ~~~(b ||| a) = ms &&& ~~~a &&& ~~~b := by rw [BitVec.or_comm, e]
    rw [e, e', hz]
    simp
  unfold Group.mergePair
  dsimp only
  by_cases hk : k = i ∨ k = j
  · refine ⟨i, ?_⟩
    rw [Group.record_movePending, Group.record_setRec, Group.record_setRec]
    simp only [hij.symm, false_and, if_false, hi, and_self, if_true]
    simp only [Group.drainFlow, Group.drainIf_record]
    rcases hk with rfl | rfl
    · exact ⟨hpc, (hsub _ _ hms).1⟩
    · exact ⟨hpcs.trans hpc, (hsub _ _ hms).2⟩
  · simp only [not_or] at hk
    refine ⟨k, ?_⟩
    rw [Group.record_movePending, Group.record_setRec, Group.record_setRec]
    simp only [Ne.symm hk.1, Ne.symm hk.2, false_and, if_false]
    simp only [Group.drainFlow, Group.drainIf_record]
    exact ⟨hpc, hms⟩

theorem Group.merge_stands (g : Group) (fl : Nat) {ms : Mask} {pc : Word} (h : g.standsAt fl ms pc) :
    g.merge.standsAt fl ms pc := by
  unfold Group.merge
  split
  · exact h
  · rename_i hn
    unfold Group.standsAt at *
    split
    · rename_i h4
      simp only [h4, if_true] at h
      obtain ⟨x, hx, _⟩ := h
      rw [hn] at hx
      cases hx
    · rename_i h4
      simp only [h4, if_false] at h
      have key : ∀ (ps : List (Nat × Nat)) (a : Group), (∀ p ∈ ps, p.1 ≠ p.2 ∧ p.1 < 4) →
          (∃ k, (a.record k).pc = pc ∧ ms &&& ~~~(a.record k).members = 0) →
          ∃ k, ((ps.foldl (fun g p => if g.mergeable p.1 p.2 then g.mergePair p.1 p.2 else g) a).record k).pc = pc ∧
            ms &&& ~~~((ps.foldl (fun g p => if g.mergeable p.1 p.2 then g.mergePair p.1 p.2 else g) a).record k).members = 0 := by
        intro ps
        induction ps with
        | nil => intro a _ ha; exact ha
        | cons p ps ih =>
          intro a hp ha
          rw [List.foldl_cons]
          refine ih _ (fun q hq => hp q (by simp [hq])) ?_
          split
          · rename_i hm
            exact Group.mergePair_stands a (hp p (by simp)).1 (hp p (by simp)).2 hm ha
          · exact ha
      exact key _ g (by decide) h

theorem Group.apply_members (g : Group) (fl : Nat) (hv : List (Nat × Nat)) (hm : List Nat) (e : Eff) (k : Nat) :
    ((g.apply fl hv hm e).record k).members = (g.record k).members := by
  unfold Group.apply
  rw [Group.foldl_proj (fun g => (g.record k).members)
      (fun g (w : Nat × Mask) => if hm.contains w.1 then g else g.writeMask fl w.1 w.2)
      (fun a w => by
        split
        · rfl
        · unfold Group.writeMask
          split
          · split
            · rfl
            · simp only [Group.modRec, Group.record_setRec]
              split
              · rename_i h; rw [h.1]
              · rfl
          · unfold Group.writeM; split <;> rfl),
    Group.foldl_proj (fun g => (g.record k).members) (fun g (w : Nat × Word) => g.writeS (fl == 4) w.1 w.2)
      (fun a w => by unfold Group.writeS; split <;> (try split) <;> rfl),
    Group.foldl_proj (fun g => (g.record k).members)
      (fun g (w : Nat × Mask × LaneVec) => if inRuns hv w.1 then g else g.writeV w.1 w.2.1 w.2.2)
      (fun a w => by split <;> rfl),
    Group.foldl_proj (fun g => (g.record k).members) (fun g (k : Nat × Mask) => g.killV k.1 k.2) (fun a w => rfl)]

theorem Group.apply_handler_isSome (g : Group) (fl : Nat) (hv : List (Nat × Nat)) (hm : List Nat) (e : Eff) :
    (g.apply fl hv hm e).handler.isSome = g.handler.isSome := by
  unfold Group.apply
  rw [Group.foldl_proj (fun g => g.handler.isSome)
      (fun g (w : Nat × Mask) => if hm.contains w.1 then g else g.writeMask fl w.1 w.2)
      (fun a w => by
        split
        · rfl
        · unfold Group.writeMask
          split
          · split <;> rfl
          · unfold Group.writeM
            split
            · rename_i hh; simp [hh]
            · rfl),
    Group.foldl_proj (fun g => g.handler.isSome) (fun g (w : Nat × Word) => g.writeS (fl == 4) w.1 w.2)
      (fun a w => Group.writeS_handler_isSome a _ _ _),
    Group.foldl_proj (fun g => g.handler.isSome)
      (fun g (w : Nat × Mask × LaneVec) => if inRuns hv w.1 then g else g.writeV w.1 w.2.1 w.2.2)
      (fun a w => by split <;> rfl),
    Group.foldl_proj (fun g => g.handler.isSome) (fun g (k : Nat × Mask) => g.killV k.1 k.2) (fun a w => rfl)]

/-- The flow of a completed instruction stands at its branch target, or at the instruction after it. -/
theorem Group.finish_stands (g : Group) (v : View) (st : BitVec 10) (e : Eff)
    (h4 : v.fl < 4 ∨ v.fl = 4 ∧ g.handler.isSome = true) :
    (g.finish v st e).standsAt v.fl (g.record v.fl).members (e.pc.getD v.next) := by
  rw [Group.finish_eq]
  refine Group.merge_stands _ _ ?_
  have hset : ((g.written v st e).setFlow v.fl (e.pc.getD v.next) v.repi).standsAt v.fl (g.record v.fl).members
      (e.pc.getD v.next) := by
    unfold Group.standsAt Group.setFlow
    rcases h4 with h | ⟨h, hs⟩
    · have hne : v.fl ≠ 4 := by omega
      simp only [hne, if_false]
      refine ⟨v.fl, ?_⟩
      simp only [Group.modRec, Group.record_setRec, h, and_self, if_true]
      refine ⟨trivial, ?_⟩
      have : ((g.written v st e).record v.fl).members = (g.record v.fl).members :=
        Group.apply_members g v.fl v.heldV v.heldM e v.fl
      rw [this]
      simp
    · simp only [h, if_true]
      have hs' : (g.written v st e).handler.isSome = true := by
        rw [show (g.written v st e).handler = (g.apply v.fl v.heldV v.heldM e).handler from rfl, Group.apply_handler_isSome, hs]
      cases hh : (g.written v st e).handler with
      | none => simp [hh] at hs'
      | some x => exact ⟨_, rfl, rfl⟩
  unfold Group.placed Group.counted
  have h3 : (if v.last then ((g.written v st e).setFlow v.fl (e.pc.getD v.next) v.repi).countWindow v.fl
      else (g.written v st e).setFlow v.fl (e.pc.getD v.next) v.repi).standsAt v.fl (g.record v.fl).members
      (e.pc.getD v.next) := by
    split <;> exact hset
  cases e.pend <;> exact h3

/-! ## Splits through merges -/

theorem Group.recordsApart_iff (g : Group) : g.recordsApart = true ↔
    (∀ i, i < 4 → (g.record i).exec &&& ~~~(g.record i).members = 0) ∧
    ∀ i j, i < 4 → j < 4 → i ≠ j → (g.record i).members &&& (g.record j).members = 0 := by
  simp only [Group.recordsApart, List.all_eq_true, List.mem_range, Bool.and_eq_true, Bool.or_eq_true, beq_iff_eq]
  constructor
  · intro h
    exact ⟨fun i hi => (h i hi).1, fun i j hi hj hij => ((h i hi).2 j hj).resolve_left hij⟩
  · intro h i hi
    refine ⟨h.1 i hi, fun j hj => ?_⟩
    by_cases e : i = j
    · exact .inl e
    · exact .inr (h.2 i j hi hj e)

/-- What a merge of two records leaves in each record. -/
theorem Group.mergePair_record (g : Group) {i j : Nat} (hij : i ≠ j) (hi : i < 4) (hj : j < 4) (k : Nat) :
    ((g.mergePair i j).record k).members =
        (if k = i then (g.record i).members ||| (g.record j).members else if k = j then 0 else (g.record k).members) ∧
    ((g.mergePair i j).record k).exec =
        (if k = i then (g.record i).exec ||| (g.record j).exec else if k = j then 0 else (g.record k).exec) ∧
    (k = i → ((g.mergePair i j).record k).pc = (g.record i).pc) ∧
    (k ≠ i → k ≠ j → (g.mergePair i j).record k = g.record k) := by
  unfold Group.mergePair
  dsimp only
  rw [Group.record_movePending, Group.record_setRec, Group.record_setRec]
  simp only [Group.drainFlow, Group.drainIf_record]
  by_cases hki : k = i
  · subst hki
    simp [hij.symm, hi]
  · by_cases hkj : k = j
    · subst hkj
      simp [hki, hj, Split.unused]
    · simp [hki, hkj, Ne.symm hki, Ne.symm hkj]

theorem mask_sub_or (a b c : Mask) (h : a &&& ~~~b = 0) : a &&& ~~~(b ||| c) = 0 := by
  have e : a &&& ~~~(b ||| c) = a &&& ~~~b &&& ~~~c := by ext n hn; simp [Bool.and_assoc]
  rw [e, h]; simp

/-- A merge keeps the records apart. -/
theorem Group.mergePair_apart (g : Group) {i j : Nat} (hij : i ≠ j) (hi : i < 4) (hj : j < 4) (h : g.recordsApart = true) :
    (g.mergePair i j).recordsApart = true := by
  rw [Group.recordsApart_iff] at *
  obtain ⟨h1, h2⟩ := h
  have hr := Group.mergePair_record g hij hi hj
  constructor
  · intro k hk
    rw [(hr k).1, (hr k).2.1]
    by_cases hki : k = i
    · simp only [hki, if_true]
      have e1 := mask_sub_or _ _ (g.record j).members (h1 i hi)
      have e2 := mask_sub_or _ _ (g.record i).members (h1 j hj)
      rw [BitVec.or_comm] at e2
      have e : ((g.record i).exec ||| (g.record j).exec) &&& ~~~((g.record i).members ||| (g.record j).members) =
          (g.record i).exec &&& ~~~((g.record i).members ||| (g.record j).members) |||
          (g.record j).exec &&& ~~~((g.record i).members ||| (g.record j).members) := by
        ext n hn; simp only [BitVec.getElem_and, BitVec.getElem_or]; rw [Bool.and_or_distrib_right]
      rw [e, e1, e2]; simp
    · by_cases hkj : k = j
      · simp [hkj, hij.symm]
      · simp only [hki, hkj, if_false]; exact h1 k hk
  · intro a b ha hb hab
    rw [(hr a).1, (hr b).1]
    have dis : ∀ x y z : Mask, x &&& z = 0 → y &&& z = 0 → (x ||| y) &&& z = 0 ∧ z &&& (x ||| y) = 0 := by
      intro x y z hx hy
      have e : (x ||| y) &&& z = x &&& z ||| y &&& z := by
        ext n hn; simp only [BitVec.getElem_and, BitVec.getElem_or]; rw [Bool.and_or_distrib_right]
      refine ⟨by rw [e, hx, hy]; simp, ?_⟩
      rw [BitVec.and_comm, e, hx, hy]; simp
    by_cases hai : a = i
    · subst hai
      by_cases hbj : b = j
      · simp [hbj, hij.symm]
      · simp only [if_true, Ne.symm hab, hbj, if_false]
        exact (dis _ _ _ (h2 a b ha hb hab) (h2 j b hj hb (Ne.symm hbj))).1
    · by_cases haj : a = j
      · simp [haj, hij.symm]
      · simp only [hai, haj, if_false]
        by_cases hbi : b = i
        · simp only [hbi, if_true]
          exact (dis _ _ _ (h2 i a hi ha (Ne.symm hai)) (h2 j a hj ha (Ne.symm haj))).2
        · by_cases hbj : b = j
          · simp [hbj, hij.symm]
          · simp only [hbi, hbj, if_false]; exact h2 a b ha hb hab

/-- A merge keeps every split that the group holds. -/
theorem Group.mergePair_holds (g : Group) {i j : Nat} (hij : i ≠ j) (hi : i < 4) (hj : j < 4)
    (hm : g.mergeable i j = true) (ha : g.recordsApart = true) {r : Split} (hr : r.members ≠ 0)
    (h : g.holdsSplit r) : (g.mergePair i j).holdsSplit r := by
  rw [Group.recordsApart_iff] at ha
  obtain ⟨h1, h2⟩ := ha
  obtain ⟨k, hpc, hms, hx, heq⟩ := h
  have hrec := Group.mergePair_record g hij hi hj
  unfold Group.mergeable at hm
  simp only [Bool.and_eq_true, beq_iff_eq] at hm
  have hpcs : (g.record i).pc = (g.record j).pc := hm.1.1.1.1.2
  have hui : (g.record i).members ≠ 0 := by
    have := hm.1.1.1.1.1.1; simpa [Split.used] using this
  have huj : (g.record j).members ≠ 0 := by
    have := hm.1.1.1.1.1.2; simpa [Split.used] using this
  have hsub : ∀ n, r.members.getLsbD n = true → (g.record k).members.getLsbD n = true := by
    intro n hn
    have hlt : n < 32 := BitVec.lt_of_getLsbD hn
    have := congrArg (fun x => BitVec.getLsbD x n) hms
    simp only [BitVec.getLsbD_and, BitVec.getLsbD_not, hlt, decide_true, Bool.true_and, hn] at this
    simpa using this
  -- the other record of the pair meets no member of the split
  have apart : ∀ o, o < 4 → k < 4 → o ≠ k → (g.record o).members &&& r.members = 0 := by
    intro o ho hk hok
    apply BitVec.eq_of_getLsbD_eq
    intro n hn
    rw [BitVec.getLsbD_and]
    cases e : r.members.getLsbD n
    · simp
    · have h3 := congrArg (fun x => BitVec.getLsbD x n) (h2 o k ho hk hok)
      simp only [BitVec.getLsbD_and, hsub n e, Bool.and_true] at h3
      simp only [Bool.and_true, h3]
  have apartX : ∀ o, o < 4 → k < 4 → o ≠ k → (g.record o).exec &&& r.members = 0 := by
    intro o ho hk hok
    have := apart o ho hk hok
    have e : (g.record o).exec &&& r.members = (g.record o).exec &&& ((g.record o).members &&& r.members) := by
      apply BitVec.eq_of_getLsbD_eq
      intro n hn
      have h3 := congrArg (fun x => BitVec.getLsbD x n) (h1 o ho)
      simp only [BitVec.getLsbD_and, BitVec.getLsbD_not, hn, decide_true, Bool.true_and] at h3 ⊢
      revert h3
      cases (g.record o).exec.getLsbD n <;> cases (g.record o).members.getLsbD n <;> simp
    rw [e, this]; simp
  have or_and : ∀ x y z : Mask, (x ||| y) &&& z = x &&& z ||| y &&& z := by
    intro x y z
    ext n hn; simp only [BitVec.getElem_and, BitVec.getElem_or]; rw [Bool.and_or_distrib_right]
  have grow : ∀ o, o < 4 → k < 4 → o ≠ k → (g.record o).members ≠ 0 →
      (g.record k).members ||| (g.record o).members ≠ r.members := by
    intro o ho hk hok hne e
    apply hne
    have h3 := apart o ho hk hok
    rw [← e] at h3
    apply BitVec.eq_of_getLsbD_eq
    intro n hn
    have h4 := congrArg (fun x => BitVec.getLsbD x n) h3
    simp only [BitVec.getLsbD_and, BitVec.getLsbD_or] at h4
    revert h4
    cases (g.record o).members.getLsbD n <;> simp
  by_cases hk : k < 4
  · by_cases hki : k = i
    · subst hki
      refine ⟨k, ?_, ?_, ?_, ?_⟩
      · rw [(hrec k).2.2.1 rfl, hpc]
      · rw [(hrec k).1]; simp only [if_true]; exact mask_sub_or _ _ _ hms
      · rw [(hrec k).2.1]; simp only [if_true]
        rw [or_and, hx, apartX j hj hk (Ne.symm hij)]; simp
      · rw [(hrec k).1]; simp only [if_true]
        intro e; exact absurd e (grow j hj hk (Ne.symm hij) huj)
    · by_cases hkj : k = j
      · subst hkj
        refine ⟨i, ?_, ?_, ?_, ?_⟩
        · rw [(hrec i).2.2.1 rfl, hpcs, hpc]
        · rw [(hrec i).1]; simp only [if_true]; rw [BitVec.or_comm]; exact mask_sub_or _ _ _ hms
        · rw [(hrec i).2.1]; simp only [if_true]
          rw [or_and, hx, apartX i hi hk hij]; simp
        · rw [(hrec i).1]; simp only [if_true]
          intro e; rw [BitVec.or_comm] at e; exact absurd e (grow i hi hk hij hui)
      · refine ⟨k, ?_⟩
        rw [(hrec k).2.2.2 hki hkj]
        exact ⟨hpc, hms, hx, heq⟩
  · exfalso
    apply hr
    have : g.record k = Split.unused := by
      unfold Group.record vget
      have : (g.recs[k]?) = none := by simp; omega
      simp [this]
    rw [this] at hsub
    apply BitVec.eq_of_getLsbD_eq
    intro n hn
    cases e : r.members.getLsbD n
    · simp
    · have := hsub n e
      simp [Split.unused] at this

/-- The merges of a boundary keep every split that the group holds. -/
theorem Group.merge_holds (g : Group) (ha : g.handler = none → g.recordsApart = true) {r : Split} (hr : r.members ≠ 0)
    (h : g.holdsSplit r) : g.merge.holdsSplit r := by
  unfold Group.merge
  split
  · exact h
  · rename_i hn
    have key : ∀ (ps : List (Nat × Nat)) (a : Group), (∀ p ∈ ps, p.1 ≠ p.2 ∧ p.1 < 4 ∧ p.2 < 4) → a.recordsApart = true →
        a.holdsSplit r →
        (ps.foldl (fun g p => if g.mergeable p.1 p.2 then g.mergePair p.1 p.2 else g) a).holdsSplit r := by
      intro ps
      induction ps with
      | nil => intro a _ _ hh; exact hh
      | cons p ps ih =>
        intro a hp hap hh
        rw [List.foldl_cons]
        obtain ⟨h1, h2, h3⟩ := hp p (by simp)
        split
        · rename_i hm
          exact ih _ (fun q hq => hp q (by simp [hq])) (Group.mergePair_apart a h1 h2 h3 hap)
            (Group.mergePair_holds a h1 h2 h3 hm hap hr hh)
        · exact ih _ (fun q hq => hp q (by simp [hq])) hap hh
    exact key _ g (by decide) (ha hn) h

/-! ## What a completed instruction has done -/

theorem Group.writeM_at (g : Group) (f r : Nat) (x : Mask) (hr : r < 16) :
    (g.writeM (f == 4) r x).mReg (g.bankM f r) r = x := by
  unfold Group.writeM
  split
  · rename_i h hb hh
    simp only [Bool.and_eq_true, beq_iff_eq, decide_eq_true_eq] at hb
    have hbank : g.bankM f r = true := by simp [Group.bankM, hb, hh]
    simp only [hbank, Group.mReg, if_true]
    by_cases e : r = 14 <;> simp [e]
  · rename_i hnb
    have hbank : g.bankM f r = false := by
      unfold Group.bankM
      cases hh : g.handler with
      | none => simp
      | some h =>
        cases e : (f == 4 && decide (14 ≤ r))
        · simp
        · exact absurd hh (by intro hh'; exact hnb h e hh')
    simp [hbank, Group.mReg, vget_vset, hr]

/-- The group that the mask writes of an instruction start from has the handler of before. -/
theorem Group.apply_before_masks (g : Group) (fl : Nat) (hv : List (Nat × Nat)) (hm : List Nat) (e : Eff) :
    ∃ a : Group, a.handler.isSome = g.handler.isSome ∧ a.recs = g.recs ∧
      g.apply fl hv hm e = e.mw.foldl (fun g w => if hm.contains w.1 then g else g.writeMask fl w.1 w.2) a := by
  refine ⟨_, ?_, ?_, rfl⟩
  · rw [Group.foldl_proj (fun g => g.handler.isSome) (fun g (w : Nat × Word) => g.writeS (fl == 4) w.1 w.2)
      (fun a w => Group.writeS_handler_isSome a _ _ _),
    Group.foldl_proj (fun g => g.handler.isSome)
      (fun g (w : Nat × Mask × LaneVec) => if inRuns hv w.1 then g else g.writeV w.1 w.2.1 w.2.2)
      (fun a w => by split <;> rfl),
    Group.foldl_proj (fun g => g.handler.isSome) (fun g (k : Nat × Mask) => g.killV k.1 k.2) (fun a w => rfl)]
  · rw [Group.foldl_proj (fun g => g.recs) (fun g (w : Nat × Word) => g.writeS (fl == 4) w.1 w.2)
      (fun a w => by unfold Group.writeS; split <;> (try split) <;> rfl),
    Group.foldl_proj (fun g => g.recs)
      (fun g (w : Nat × Mask × LaneVec) => if inRuns hv w.1 then g else g.writeV w.1 w.2.1 w.2.2)
      (fun a w => by split <;> rfl),
    Group.foldl_proj (fun g => g.recs) (fun g (k : Nat × Mask) => g.killV k.1 k.2) (fun a w => rfl)]

/-- The records after an instruction's writes: only its own EXEC may change. -/
theorem View.apply_record (v : View) (g : Group) (e : Eff) (hg : g.recs = v.g.recs) (hfl : v.fl < 4)
    (hmw : e.mw.length ≤ 1) (k : Nat) :
    (g.apply v.fl v.heldV v.heldM e).record k =
      if k = v.fl then { v.split with exec := v.execAfter e } else v.g.record k := by
  obtain ⟨a, -, ha, he⟩ := Group.apply_before_masks g v.fl v.heldV v.heldM e
  have hne : v.fl ≠ 4 := by omega
  have hrec : ∀ k, a.record k = v.g.record k := fun k => by simp [Group.record, ha, hg]
  rw [he]
  have hsvc : v.svc = true := by simp [View.svc, hne]
  unfold View.execAfter View.members
  rw [hsvc]
  match h : e.mw, hmw with
  | [], _ =>
    simp only [List.foldl_nil, List.find?_nil, hrec]
    split
    · rename_i hk; subst hk; rfl
    · rfl
  | [w], _ =>
    simp only [List.foldl_cons, List.foldl_nil, List.find?_cons, List.find?_nil]
    by_cases h0 : w.1 = 0
    · by_cases hh : v.heldM.contains 0 = true
      · simp only [h0, hh, if_true, beq_self_eq_true, Bool.not_true, Bool.and_false, hrec]
        split
        · rename_i hk; subst hk; rfl
        · rfl
      · simp only [Bool.not_eq_true] at hh
        simp only [h0, hh, Bool.false_eq_true, if_false, beq_self_eq_true, Bool.not_false, Bool.and_true]
        simp only [Group.writeMask, if_true, hne, if_false, Group.modRec, Group.record_setRec, hrec]
        by_cases hk : k = v.fl
        · subst hk; simp [hfl, View.split]
        · simp [hk, Ne.symm hk]
    · have hb : (w.1 == 0) = false := by simp [h0]
      simp only [hb, Bool.false_and]
      have : ∀ k, (if v.heldM.contains w.1 = true then a else a.writeMask v.fl w.1 w.2).record k = v.g.record k := by
        intro k
        split
        · exact hrec k
        · rw [← hrec k]
          unfold Group.writeMask
          simp only [h0, if_false]
          unfold Group.writeM
          split <;> rfl
      rw [this]
      split
      · rename_i hk; subst hk; rfl
      · rfl

/-- The records at the boundary after an instruction, before its merges. -/
theorem View.moved_record (v : View) (g : Group) (st : BitVec 10) (e : Eff) (hg : g.recs = v.g.recs) (hfl : v.fl < 4)
    (hmw : e.mw.length ≤ 1) (k : Nat) :
    (g.placed v st e).record k =
      if k = v.fl then { v.split with pc := e.pc.getD v.next, repi := v.repi, exec := v.execAfter e } else v.g.record k := by
  have hne : v.fl ≠ 4 := by omega
  have h1 := View.apply_record v g e hg hfl hmw
  have hw : ∀ k, (g.written v st e).record k = (g.apply v.fl v.heldV v.heldM e).record k := fun k => rfl
  have h2 : ∀ k, ((g.written v st e).setFlow v.fl (e.pc.getD v.next) v.repi).record k =
      if k = v.fl then { v.split with pc := e.pc.getD v.next, repi := v.repi, exec := v.execAfter e }
      else v.g.record k := by
    intro k
    simp only [Group.setFlow, hne, if_false, Group.modRec, Group.record_setRec, hw, h1, if_true]
    by_cases hk : k = v.fl
    · subst hk; simp [hfl]
    · simp [hk, Ne.symm hk]
  have h3 : ∀ k, (((g.written v st e).setFlow v.fl (e.pc.getD v.next) v.repi).counted v).record k =
      ((g.written v st e).setFlow v.fl (e.pc.getD v.next) v.repi).record k := by
    intro k; unfold Group.counted; split <;> rfl
  rw [← h2, ← h3]
  unfold Group.placed
  cases e.pend <;> rfl

/-- A killed lane is dead after an instruction's writes unless it is written again. -/
theorem Group.apply_killed (g : Group) (fl : Nat) (hv : List (Nat × Nat)) (hm : List Nat) (e : Eff) {r l : Nat} {m : Mask}
    (hk : (r, m) ∈ e.kills) (hr : r < 128) (hb : m.getLsbD l = true)
    (hw : ∀ w ∈ e.vw, w.1 = r → w.2.1.getLsbD l = false) : (g.apply fl hv hm e).vLiveAt r l = false := by
  have dead : ∀ (ks : List (Nat × Mask)) (a : Group), ((r, m) ∈ ks ∨ a.vLiveAt r l = false) →
      (ks.foldl (fun g k => g.killV k.1 k.2) a).vLiveAt r l = false := by
    intro ks
    induction ks with
    | nil => intro a h; simpa using h
    | cons k ks ih =>
      intro a h
      rw [List.foldl_cons]
      refine ih _ ?_
      have hkill : (a.killV k.1 k.2).vLiveAt r l = (if k.1 = r ∧ k.1 < 128 then
          a.vLiveAt r l && (decide (l < 32) && !k.2.getLsbD l) else a.vLiveAt r l) := by
        simp only [Group.vLiveAt, Group.killV, vget_vset]
        split
        · rename_i h; rw [h.1]; simp [BitVec.getLsbD_and, BitVec.getLsbD_not]
        · rfl
      rcases h with h | h
      · rcases List.mem_cons.mp h with h | h
        · right; rw [hkill, ← h]; simp [hr, hb]
        · exact .inl h
      · right; rw [hkill]; split <;> simp [h]
  have h1 := dead e.kills g (.inl hk)
  have write : ∀ (ws : List (Nat × Mask × LaneVec)) (a : Group), (∀ w ∈ ws, w.1 = r → w.2.1.getLsbD l = false) →
      a.vLiveAt r l = false →
      (ws.foldl (fun g w => if inRuns hv w.1 then g else g.writeV w.1 w.2.1 w.2.2) a).vLiveAt r l = false := by
    intro ws
    induction ws with
    | nil => intro a _ h; exact h
    | cons w ws ih =>
      intro a hn h
      rw [List.foldl_cons]
      refine ih _ (fun x hx => hn x (by simp [hx])) ?_
      split
      · exact h
      · by_cases e : r = w.1
        · have := hn w (by simp) e.symm
          simp only [Group.vLiveAt, Group.writeV, vget_vset] at h ⊢
          split
          · rename_i hh; rw [hh.1, BitVec.getLsbD_or, h, this]; rfl
          · exact h
        · rw [(Group.writeV_at_other a w.1 r w.2.1 w.2.2 l e).2, h]
  have h2 := write e.vw _ hw h1
  unfold Group.apply
  have hl : ∀ a b : Group, a.vlive = b.vlive → a.vLiveAt r l = b.vLiveAt r l := fun a b h => by simp [Group.vLiveAt, h]
  rw [hl _ _ (Group.foldl_proj (fun g => g.vlive)
      (fun g (w : Nat × Mask) => if hm.contains w.1 then g else g.writeMask fl w.1 w.2)
      (fun a w => by split; rfl; exact (Group.writeMask_v a _ _ _).2) e.mw _),
    hl _ _ (Group.foldl_proj (fun g => g.vlive) (fun g (w : Nat × Word) => g.writeS (fl == 4) w.1 w.2)
      (fun a w => (Group.writeS_v a _ _ _).2) e.sw _)]
  exact h2

end Sys2Proof.Machine
end

