-- ==== Sys2Proof/Laws/Done.lean ====
section
/-!
SUPPORT. What a completed instruction has done (`View.Wrote`), from the effect it was given: the lemma that each instruction's
result rests on.
-/
namespace Sys2Proof.Machine

/-- The form of an effect that the lemmas take: distinct vector destinations, one scalar or mask at most, and a mask number
within the file. -/
structure Eff.Plain (e : Eff) (fl : Nat) : Prop where
  vecs   : (e.vw.map Prod.fst).Nodup
  scal   : e.sw.length ≤ 1
  mask   : e.mw.length ≤ 1
  mreg   : ∀ w ∈ e.mw, w.1 < 16
  apart  : e.pend = none ∨ e.sw = []
  later  : ∀ p, e.pend = some p → p.flow = fl ∧ (p.vs.map Prod.fst).Nodup ∧ p.ss.length ≤ 1

/-! ## A new outstanding result -/

/-- Outstanding results `ps` have no destination that those of a group lack. -/
def Group.coversDue (g : Group) (ps : List Pend) : Prop :=
  (∀ r l, (ps.any fun p => p.vs.any fun w => w.1 == r && w.2.1.getLsbD l) = true → g.dueV r l = true) ∧
  ∀ r, (ps.any fun p => p.ss.any fun w => w.1 == r) = true → g.dueS false r = true

/-- The result stands in the group. -/
def Group.stands (g : Group) (p : Pend) (a : Group) : Prop :=
  (∀ d m x, (d, m, x) ∈ p.vs → d < 128 → ∀ l, l < 32 → m.getLsbD l = true → g.dueV d l = false →
      a.vAt d l = lane x l ∧ a.vLiveAt d l = true) ∧
    ∀ d x, (d, x) ∈ p.ss → d ≠ 0 → d < 64 → g.dueS false d = false → a.sReg false d = x ∧ a.sRegLive false d = true

theorem Group.coversDue.sub {g : Group} {ps qs : List Pend} (h : g.coversDue ps) (hs : ∀ q ∈ qs, q ∈ ps) :
    g.coversDue qs := by
  constructor
  · intro r l hq
    refine h.1 r l ?_
    rw [List.any_eq_true] at *
    obtain ⟨q, hq, e⟩ := hq
    exact ⟨q, hs q hq, e⟩
  · intro r hq
    refine h.2 r ?_
    rw [List.any_eq_true] at *
    obtain ⟨q, hq, e⟩ := hq
    exact ⟨q, hs q hq, e⟩

/-- Delivering a result makes it stand. -/
theorem Group.deliver_stands (g a : Group) (p : Pend) (hv : (p.vs.map Prod.fst).Nodup) (hs : p.ss.length ≤ 1)
    (hn : a.handler = none) : g.stands p (a.deliver p) := by
  unfold Group.deliver
  constructor
  · intro d m x hmem hd l hl hb _
    have h1 := Group.apply_vAt a 0 [] [] { vw := p.vs } hv hmem rfl hd hl hb
    simp only [Group.apply, List.foldl_nil] at h1
    have hpr : ∀ (b : Group), (p.ss.foldl (fun g w => g.writeS (p.flow == 4) w.1 w.2) b).v = b.v ∧
        (p.ss.foldl (fun g w => g.writeS (p.flow == 4) w.1 w.2) b).vlive = b.vlive := fun b =>
      ⟨Group.foldl_proj (fun g => g.v) (fun g (w : Nat × Word) => g.writeS (p.flow == 4) w.1 w.2)
        (fun a w => (Group.writeS_v a _ _ _).1) p.ss b,
       Group.foldl_proj (fun g => g.vlive) (fun g (w : Nat × Word) => g.writeS (p.flow == 4) w.1 w.2)
        (fun a w => (Group.writeS_v a _ _ _).2) p.ss b⟩
    refine ⟨?_, ?_⟩
    · rw [← h1.1]; simp [Group.vAt, (hpr _).1, inRuns]
    · rw [← h1.2]; simp [Group.vLiveAt, (hpr _).2, inRuns]
  · intro d x hmem h0 hd _
    have hh : ∀ (ws : List (Nat × Mask × LaneVec)) (b : Group),
        (ws.foldl (fun g w => g.writeV w.1 w.2.1 w.2.2) b).handler = b.handler := fun ws b =>
      Group.foldl_proj (fun g => g.handler) (fun g (w : Nat × Mask × LaneVec) => g.writeV w.1 w.2.1 w.2.2)
        (fun a w => rfl) ws b
    match hss : p.ss, hs with
    | [], _ => rw [hss] at hmem; simp at hmem
    | [w], _ =>
      rw [hss] at hmem
      have : w = (d, x) := (List.mem_singleton.mp hmem).symm
      subst this
      dsimp only
      rw [List.foldl_cons, List.foldl_nil]
      generalize hb : p.vs.foldl (fun g w => g.writeV w.1 w.2.1 w.2.2) a = b
      have hbh : b.handler = none := by rw [← hb, hh]; exact hn
      have h1 := Group.writeS_at b p.flow d x h0 hd
      have : b.bankS p.flow d = false := by simp [Group.bankS, hbh]
      rw [this] at h1
      exact h1

theorem Group.stands.keep {g a b : Group} {p : Pend} {fl : Nat} (h : g.stands p a) (hd : g.coversDue a.pends)
    (hk : a.Keeps b fl (fun _ _ => false) (fun _ _ => false) (fun _ _ => false) (fun _ _ => false)) : g.stands p b := by
  constructor
  · intro d m x hmem hd' l hl hb hdue
    have h1 := h.1 d m x hmem hd' l hl hb hdue
    have h2 := hk.v d l hl (by
      cases e : a.dueV d l with
      | false => rfl
      | true => rw [hd.1 d l e] at hdue; exact absurd hdue (by simp)) rfl
    exact ⟨h2.1.trans h1.1, (h2.2 rfl).trans h1.2⟩
  · intro d x hmem h0 hd' hdue
    have h1 := h.2 d x hmem h0 hd' hdue
    have h2 := hk.s false d hd' (by simp) (by
      cases e : a.dueS false d with
      | false => rfl
      | true =>
        rw [hd.2 d (by
          rw [List.any_eq_true]
          simp only [Group.dueS, List.any_eq_true] at e
          obtain ⟨q, hq, w, hw, e⟩ := e
          simp only [Bool.and_eq_true] at e
          exact ⟨q, hq, List.any_eq_true.mpr ⟨w, hw, e.1⟩⟩)] at hdue
        exact absurd hdue (by simp)) rfl
    exact ⟨h2.1.trans h1.1, h2.2.trans h1.2⟩

/-- The last result is outstanding, or it stands. -/
def Group.owesLast (g : Group) (p : Pend) (a : Group) : Prop :=
  (∃ ps, a.pends = ps ++ [p] ∧ g.coversDue ps) ∨ g.coversDue a.pends ∧ g.stands p a

theorem Group.foldl_deliver_pends (ps : List Pend) (a : Group) : (ps.foldl Group.deliver a).pends = a.pends :=
  Group.foldl_proj (fun g => g.pends) Group.deliver (fun a p => Group.deliver_pends a p) ps a

theorem Group.foldl_deliver_handler (ps : List Pend) (a : Group) :
    (ps.foldl Group.deliver a).handler.isSome = a.handler.isSome := by
  have key : ∀ (p : Pend) (a : Group), (a.deliver p).handler.isSome = a.handler.isSome := by
    intro p a
    unfold Group.deliver
    dsimp only
    rw [Group.foldl_proj (fun g => g.handler.isSome) (fun g (w : Nat × Word) => g.writeS (p.flow == 4) w.1 w.2)
      (fun a w => Group.writeS_handler_isSome a _ _ _),
      Group.foldl_proj (fun g => g.handler.isSome) (fun g (w : Nat × Mask × LaneVec) => g.writeV w.1 w.2.1 w.2.2)
      (fun a w => rfl)]
  exact Group.foldl_proj (fun g => g.handler.isSome) Group.deliver (fun a p => key p a) ps a

theorem Group.drainIf_owes {g a : Group} {p : Pend} (f : Pend → Bool) (hv : (p.vs.map Prod.fst).Nodup)
    (hs : p.ss.length ≤ 1) (hn : a.handler = none) (h : g.owesLast p a) : g.owesLast p (a.drainIf f) := by
  rcases h with ⟨ps, hps, hc⟩ | ⟨hc, hst⟩
  · by_cases hf : f p = true
    · right
      constructor
      · refine hc.sub ?_
        intro q hq
        simp only [Group.drainIf, hps, List.filter_append, List.mem_append, List.mem_filter] at hq
        rcases hq with hq | hq
        · exact hq.1
        · exfalso
          have : q = p := by simpa using hq.1
          rw [this, hf] at hq
          simp at hq
      · have hd : (a.drainIf f).v = ((a.pends.filter f).foldl Group.deliver a).v ∧
            (a.drainIf f).vlive = ((a.pends.filter f).foldl Group.deliver a).vlive ∧
            (a.drainIf f).s = ((a.pends.filter f).foldl Group.deliver a).s ∧
            (a.drainIf f).slive = ((a.pends.filter f).foldl Group.deliver a).slive ∧
            (a.drainIf f).handler = ((a.pends.filter f).foldl Group.deliver a).handler := ⟨rfl, rfl, rfl, rfl, rfl⟩
        have hfil : a.pends.filter f = ps.filter f ++ [p] := by rw [hps, List.filter_append]; simp [hf]
        rw [hfil, List.foldl_append, List.foldl_cons, List.foldl_nil] at hd
        have hnn : ((ps.filter f).foldl Group.deliver a).handler = none := by
          have := Group.foldl_deliver_handler (ps.filter f) a
          rw [hn] at this; simpa using this
        have h1 := Group.deliver_stands g ((ps.filter f).foldl Group.deliver a) p hv hs hnn
        unfold Group.stands Group.vAt Group.vLiveAt Group.sReg Group.sRegLive at *
        rw [hd.1, hd.2.1, hd.2.2.1, hd.2.2.2.1]
        simpa using h1
    · left
      refine ⟨ps.filter fun q => !f q, ?_, hc.sub fun q hq => (List.mem_filter.mp hq).1⟩
      simp [Group.drainIf, hps, List.filter_append, hf]
  · right
    constructor
    · exact hc.sub fun q hq => (List.mem_filter.mp hq).1
    · exact hst.keep (fl := 4) hc (Group.drainIf_keeps a f (.inl rfl))

theorem Group.owesLast_of_eq {g a b : Group} {p : Pend} (h : g.owesLast p a) (hp : b.pends = a.pends) (hv : b.v = a.v)
    (hl : b.vlive = a.vlive) (hs : b.s = a.s) (hsl : b.slive = a.slive) (hh : b.handler = a.handler) : g.owesLast p b := by
  simpa only [Group.owesLast, Group.stands, Group.vAt, Group.vLiveAt, Group.sReg, Group.sRegLive, hp, hv, hl, hs, hsl, hh] using h

/-- A merge of two records waits for their results (R67). -/
theorem Group.mergePair_owes {g a : Group} {p : Pend} (i j : Nat) (hv : (p.vs.map Prod.fst).Nodup) (hs : p.ss.length ≤ 1)
    (hn : a.handler = none) (h : g.owesLast p a) :
    g.owesLast p (a.mergePair i j) ∧ (a.mergePair i j).handler = none := by
  have h1 := Group.drainIf_owes (fun p => p.flow == i) hv hs hn h
  have hn1 : (a.drainFlow i).handler = none := by
    have := Group.drainIf_handler_isSome a fun p => p.flow == i
    rw [hn] at this; simpa [Group.drainFlow] using this
  have h2 := Group.drainIf_owes (fun p => p.flow == j) hv hs hn1 h1
  have hn2 : ((a.drainFlow i).drainFlow j).handler = none := by
    have := Group.drainIf_handler_isSome (a.drainFlow i) fun p => p.flow == j
    rw [hn1] at this; simpa [Group.drainFlow] using this
  have hm : (a.mergePair i j).handler = ((a.drainFlow i).drainFlow j).handler := rfl
  exact ⟨Group.owesLast_of_eq h2 rfl rfl rfl rfl rfl hm, hm.trans hn2⟩

/-- The merges of a boundary leave a new result outstanding, or make it stand. -/
theorem Group.merge_owes {g a : Group} {p : Pend} (hv : (p.vs.map Prod.fst).Nodup) (hs : p.ss.length ≤ 1)
    (hn : a.handler = none) (h : g.owesLast p a) : g.owesLast p a.merge := by
  unfold Group.merge
  rw [hn]
  have key : ∀ (ps : List (Nat × Nat)) (a : Group), a.handler = none → g.owesLast p a →
      g.owesLast p (ps.foldl (fun g p => if g.mergeable p.1 p.2 then g.mergePair p.1 p.2 else g) a) := by
    intro ps
    induction ps with
    | nil => intro a _ h; exact h
    | cons q ps ih =>
      intro a hn h
      rw [List.foldl_cons]
      split
      · have h1 := Group.mergePair_owes q.1 q.2 hv hs hn h
        exact ih _ h1.2 h1.1
      · exact ih _ hn h
  exact key _ a hn h

/-! ## The lemma -/

theorem Group.finish_vAt' (g : Group) (v : View) (st : BitVec 10) (e : Eff) {d l : Nat} {m : Mask} {x : LaneVec}
    (hp : e.Plain v.fl) (hmem : (d, m, x) ∈ e.vw) (hh : inRuns v.heldV d = false) (hd : d < 128)
    (hl : l < 32) (hb : m.getLsbD l = true) (hdue : g.dueV d l = false) (hlat : e.laterV d l = false) :
    (g.finish v st e).vAt d l = lane x l ∧ (g.finish v st e).vLiveAt d l = true := by
  have h1 := Group.apply_vAt g v.fl v.heldV v.heldM e hp.vecs hmem hh hd hl hb
  have h2 := (Group.finish_keeps_apply (dv := e.laterV) (kv := fun _ _ => false) (ds := fun _ _ => true)
    (dm := fun _ _ => false) g v st e (by
      intro p hpe
      refine ⟨fun w hw l hl => ?_, fun _ _ => rfl⟩
      simp only [Eff.laterV, hpe, List.any_eq_true]
      exact ⟨w, hw, by simp [hl]⟩)).v d l hl (by simpa [Group.dueV, Group.apply_pends] using hdue) hlat
  exact ⟨h2.1.trans h1.1, (h2.2 rfl).trans h1.2⟩

theorem Group.finish_killed (g : Group) (v : View) (st : BitVec 10) (e : Eff) {r l : Nat} {m : Mask}
    (hk : (r, m) ∈ e.kills) (hr : r < 128) (hl : l < 32) (hb : m.getLsbD l = true) (hdue : g.dueV r l = false)
    (hw : ∀ w ∈ e.vw, w.1 = r → w.2.1.getLsbD l = false) (hlat : e.laterV r l = false) :
    (g.finish v st e).vLiveAt r l = false := by
  have h1 := Group.apply_killed g v.fl v.heldV v.heldM e hk hr hb hw
  have h2 := (Group.finish_keeps_apply (dv := e.laterV) (kv := fun _ _ => false) (ds := fun _ _ => true)
    (dm := fun _ _ => false) g v st e (by
      intro p hpe
      refine ⟨fun w hw l hl => ?_, fun _ _ => rfl⟩
      simp only [Eff.laterV, hpe, List.any_eq_true]
      exact ⟨w, hw, by simp [hl]⟩)).v r l hl (by simpa [Group.dueV, Group.apply_pends] using hdue) hlat
  exact (h2.2 rfl).trans h1

theorem Group.finish_mReg (g : Group) (v : View) (st : BitVec 10) (e : Eff) {d : Nat} {x : Mask} (hp : e.Plain v.fl)
    (hmem : (d, x) ∈ e.mw) (h0 : d ≠ 0) (hd : d < 16) (hh : v.heldM.contains d = false) :
    (g.finish v st e).mReg (g.bankM v.fl d) d = x := by
  obtain ⟨a, ha, -, he⟩ := Group.apply_before_masks g v.fl v.heldV v.heldM e
  have h1 : (g.apply v.fl v.heldV v.heldM e).mReg (g.bankM v.fl d) d = x := by
    rw [he]
    have hl := hp.mask
    match hmw : e.mw, hl with
    | [], _ => rw [hmw] at hmem; simp at hmem
    | [w], _ =>
      rw [hmw] at hmem
      have : w = (d, x) := (List.mem_singleton.mp hmem).symm
      subst this
      simp only [List.foldl_cons, List.foldl_nil, hh, Bool.false_eq_true, if_false, Group.writeMask, h0]
      rw [← (Group.bank_of_isSome ha v.fl d).2]
      exact Group.writeM_at a v.fl d x hd
  have h2 := (Group.finish_keeps_apply (dv := fun _ _ => true) (kv := fun _ _ => true) (ds := fun _ _ => true)
    (dm := fun _ _ => false) g v st e (fun p _ => ⟨fun _ _ _ _ => rfl, fun _ _ => rfl⟩)).m (g.bankM v.fl d) d
      (by omega) hd (by intro hb; simp [Group.bankM] at hb; exact hb.1.2) rfl
  exact h2.trans h1

theorem Group.finish_owes (v : View) (st : BitVec 10) (e : Eff) (hp : e.Plain v.fl)
    (hturn : v.fl = 4 ∨ v.g.handler = none) {p : Pend} (he : e.pend = some p) : v.Owes p (v.g.finish v st e) := by
  obtain ⟨hfl, hv, hs⟩ := hp.later p he
  have hsome : (v.g.placed v st e).handler.isSome = v.g.handler.isSome := by
    have h1 := (Group.apply_keeps (fl := v.fl) (dv := fun _ _ => true) (kv := fun _ _ => true) (ds := fun _ _ => true)
      (dm := fun _ _ => true) v.g v.heldV v.heldM e
      ⟨fun _ _ _ _ _ => rfl, fun _ _ _ _ _ => rfl, fun _ _ _ => rfl, fun w hw => ⟨hp.mreg w hw, fun _ => rfl⟩,
        fun p _ => ⟨fun _ _ _ _ => rfl, fun _ _ => rfl⟩⟩ hturn).2
    rw [← h1]
    have h2 : (v.g.written v st e).handler.isSome = (v.g.apply v.fl v.heldV v.heldM e).handler.isSome := rfl
    rw [← h2]
    have h3 := (Group.setFlow_keeps (fl := v.fl) (dv := fun _ _ => true) (kv := fun _ _ => true) (ds := fun _ _ => true)
      (dm := fun _ _ => true) (v.g.written v st e) (e.pc.getD v.next) v.repi).flows.2
    rw [← h3]
    unfold Group.placed Group.addPend Group.counted
    rw [he]
    dsimp only
    split <;> rfl
  rw [Group.finish_eq]
  have hpends : (∃ ps, (v.g.placed v st e).pends = ps ++ [p] ∧ v.g.coversDue ps) ∨
      ∃ ps, (v.g.placed v st e).pends = ps ++ [p] ∧ v.g.handler.isSome = true := by
    cases hh : v.g.handler with
    | some h =>
      refine .inr ⟨(((v.g.written v st e).setFlow v.fl (e.pc.getD v.next) v.repi).counted v).pends, ?_, rfl⟩
      unfold Group.placed Group.addPend
      rw [he]
    | none =>
      refine .inl ⟨(((v.g.written v st e).setFlow v.fl (e.pc.getD v.next) v.repi).counted v).pends, ?_, ?_⟩
      · unfold Group.placed Group.addPend
        rw [he]
      · have hpp : ((v.g.written v st e).setFlow v.fl (e.pc.getD v.next) v.repi).pends = v.g.pends := by
          have : (v.g.written v st e).pends = v.g.pends := Group.apply_pends _ _ _ _ _
          rw [← this]
          unfold Group.setFlow
          split <;> rfl
        have hb : ∀ (f r : Nat), v.g.bankS f r = false := by intro f r; simp [Group.bankS, hh]
        unfold Group.counted
        split
        · constructor
          · intro r l h
            rw [Group.countWindow, List.any_eq_true] at h
            obtain ⟨q, hq, h⟩ := h
            simp only [List.mem_map, hpp] at hq
            obtain ⟨q0, hq0, rfl⟩ := hq
            simp only [Group.dueV, List.any_eq_true]
            refine ⟨q0, hq0, ?_⟩
            rw [List.any_eq_true] at h
            split at h <;> exact h
          · intro r h
            rw [Group.countWindow, List.any_eq_true] at h
            obtain ⟨q, hq, h⟩ := h
            simp only [List.mem_map, hpp] at hq
            obtain ⟨q0, hq0, rfl⟩ := hq
            simp only [Group.dueS, List.any_eq_true, hb, beq_self_eq_true, Bool.and_true]
            refine ⟨q0, hq0, ?_⟩
            rw [List.any_eq_true] at h
            split at h <;> exact h
        · rw [hpp]
          constructor
          · intro r l h; exact h
          · intro r h; simpa only [Group.dueS, hb, beq_self_eq_true, Bool.and_true] using h
  rcases hpends with ⟨qs, hps, hc⟩ | ⟨ps, hps, hh⟩
  · cases hh : v.g.handler with
    | some h =>
      left
      have : (v.g.placed v st e).merge = v.g.placed v st e := by
        unfold Group.merge
        rw [hh] at hsome
        split
        · rfl
        · rename_i hn; rw [hn] at hsome; simp at hsome
      rw [this, hps]; simp
    | none =>
      have hn : (v.g.placed v st e).handler = none := by rw [hh] at hsome; simpa using hsome
      have := Group.merge_owes hv hs hn (g := v.g) (.inl ⟨qs, hps, hc⟩)
      have hb : ∀ (f r : Nat), v.g.bankS f r = false := by intro f r; simp [Group.bankS, hh]
      rcases this with ⟨rs, hqs, -⟩ | ⟨-, hst⟩
      · left; rw [hqs]; simp
      · right; simp only [hb]; exact hst
  · left
    have : (v.g.placed v st e).merge = v.g.placed v st e := by
      unfold Group.merge
      rw [hh] at hsome
      split
      · rfl
      · rename_i hn; rw [hn] at hsome; simp at hsome
    rw [this, hps]; simp

/-- Everything that a completed instruction has done. -/
theorem View.finish_wrote (v : View) (st : BitVec 10) (e : Eff) (hp : e.Plain v.fl) (h4 : v.fl ≤ 4)
    (hturn : v.fl = 4 ∨ v.g.handler = none) (hhan : v.fl = 4 → v.g.handler.isSome = true) :
    v.Wrote st e (v.g.finish v st e) where
  vec d m x hm hd hh l hl hb hdue hlat := Group.finish_vAt' v.g v st e hp hm hh hd hl hb hdue hlat
  killed r m hk hr l hl hb hdue hw hlat := Group.finish_killed v.g v st e hk hr hl hb hdue hw hlat
  scal d x hm h0 hd hdue := by
    have hl := hp.scal
    have hsw : e.sw = [(d, x)] := by
      match hsw : e.sw, hl with
      | [], _ => rw [hsw] at hm; simp at hm
      | [w], _ => rw [hsw] at hm; have : w = (d, x) := (List.mem_singleton.mp hm).symm
                  rw [this]
    have hpn : e.pend = none := by
      rcases hp.apart with h | h
      · exact h
      · rw [h] at hsw; simp at hsw
    exact Group.finish_sReg v.g v st e hsw h0 hd hturn hdue hp.mreg hpn
  mask d x hm h0 hd hh := Group.finish_mReg v.g v st e hp hm h0 hd hh
  stat := Group.finish_stat v.g v st e
  place := by
    have hst := Group.finish_stands v.g v st e (?_ : _ ∨ _)
    · rcases Nat.lt_or_ge v.fl 4 with h | h
      · have hm : v.members = (v.g.record v.fl).members := by
          have : v.svc = true := by simp [View.svc]; omega
          simp [View.members, this, View.split]
        rw [hm]; exact hst
      · have h4 : v.fl = 4 := by omega
        unfold Group.standsAt at hst ⊢
        rw [if_pos h4] at hst ⊢
        exact hst
    rcases Nat.lt_or_ge v.fl 4 with h | h
    · exact .inl h
    · have : v.fl = 4 := by omega
      exact .inr ⟨this, hhan this⟩
  splits hfl ha hm := by
    have hmem : v.members = (v.g.record v.fl).members := by
      have : v.svc = true := by simp [View.svc]; omega
      simp [View.members, this, View.split]
    have hn : v.g.handler = none := by rcases hturn with h | h; omega; exact h
    have hrec := View.moved_record v v.g st e rfl hfl hp.mask
    have hap : (v.g.placed v st e).recordsApart = true := by
      rw [Group.recordsApart_iff] at ha ⊢
      have hmk : ∀ k, ((v.g.placed v st e).record k).members = (v.g.record k).members := by
        intro k; rw [hrec]; split
        · rename_i hk; subst hk; rfl
        · rfl
      refine ⟨fun i hi => ?_, fun i j hi hj hij => ?_⟩
      · rw [hmk, hrec]
        split
        · rename_i hk; subst hk
          show v.execAfter e &&& ~~~(v.g.record v.fl).members = 0
          unfold View.execAfter
          split
          · rw [hmem]
            show _ &&& (v.g.record v.fl).members &&& ~~~(v.g.record v.fl).members = 0
            ext n hn; simp
          · exact ha.1 _ hi
        · exact ha.1 i hi
      · rw [hmk, hmk]; exact ha.2 i j hi hj hij
    rw [Group.finish_eq]
    refine ⟨?_, ?_⟩
    · refine Group.merge_holds _ (fun _ => hap) (hmem ▸ hm) ⟨v.fl, ?_⟩
      rw [hrec]
      simp only [if_true]
      refine ⟨trivial, ?_, ?_, fun _ => trivial⟩
      · ext n hn; simp
      · trivial
    · intro j hj hne hu
      refine Group.merge_holds _ (fun _ => hap) (by simpa [Split.used] using hu) ⟨j, ?_⟩
      rw [hrec]
      simp only [hne, if_false]
      refine ⟨trivial, ?_, trivial, fun _ => trivial⟩
      ext n hn; simp
  later p he := Group.finish_owes v st e hp hturn he

end Sys2Proof.Machine
end

