-- ==== Sys2Proof/Laws/Forms.lean ====
section
/-!
SUPPORT. From the text of a meaning to its form: an instruction that issues and finishes as its form says runs as
`Form.Runs` states, and raises FPX as `Form.RaisesFpx` states.
-/
namespace Sys2Proof.Machine

/-- The effect of a plain instruction touches what it names. -/
theorem Eff.within (e : Eff) (g : Group) (fl : Nat) (hm : ∀ w ∈ e.mw, w.1 < 16) :
    e.Within g fl e.dv e.kv (e.ds g fl) (e.dm g fl) where
  v w hw l _ hl := by
    simp only [Eff.dv, Bool.or_eq_true, List.any_eq_true]
    exact .inl ⟨w, hw, by simp [hl]⟩
  k w hw l _ hl := by
    simp only [Eff.kv, List.any_eq_true]
    exact ⟨w, hw, by simp [hl]⟩
  s w hw h0 := by
    simp only [Eff.ds, Bool.or_eq_true, List.any_eq_true]
    exact .inl ⟨w, hw, by simp [Group.oneS, h0]⟩
  m w hw := by
    refine ⟨hm w hw, fun h0 => ?_⟩
    simp only [Eff.dm, List.any_eq_true]
    exact ⟨w, hw, by simp [Group.oneM, h0]⟩
  p p hp := by
    constructor
    · intro w hw l hl
      simp only [Eff.dv, Eff.laterV, hp, Bool.or_eq_true, List.any_eq_true]
      exact .inr ⟨w, hw, by simp [hl]⟩
    · intro w hw
      simp only [Eff.ds, hp, Bool.or_eq_true, List.any_eq_true]
      exact .inr ⟨w, hw, by simp [Group.oneS]⟩

/-- A view whose completion the lemmas cover: a change of the issuing flow's group that keeps its number and handler. -/
structure View.Ends (s : State) (v w w1 : View) : Prop where
  after : View.After s v w (fun _ _ => false) (fun _ _ => false) (fun _ _ => false) (fun _ _ => false)
  u     : w1.u = v.u
  fl    : w1.fl = v.fl
  gid   : w1.g.gid = v.g.gid
  only  : OnlyGroup s w1.s v.u v.g.gid w1.g
  some  : w1.g.handler.isSome = w.g.handler.isSome
  le    : v.fl ≤ 4
  han   : v.fl = 4 → w.g.handler.isSome = true

theorem View.Ends.same {s : State} {v w : View}
    (h : View.After s v w (fun _ _ => false) (fun _ _ => false) (fun _ _ => false) (fun _ _ => false))
    (hle : v.fl ≤ 4) (hh : v.fl = 4 → w.g.handler.isSome = true) : View.Ends s v w w :=
  ⟨h, h.u, h.fl, h.gid, h.only, rfl, hle, hh⟩

/-- A change of the group that keeps its number and handler flow. -/
theorem View.Ends.withGroup {s : State} {v w : View}
    (h : View.After s v w (fun _ _ => false) (fun _ _ => false) (fun _ _ => false) (fun _ _ => false))
    (hle : v.fl ≤ 4) (hh : v.fl = 4 → w.g.handler.isSome = true) {g : Group} (hg : g.gid = w.g.gid)
    (hs : g.handler.isSome = w.g.handler.isSome) : View.Ends s v w (w.withGroup g) := by
  refine ⟨h, h.u, h.fl, hg.trans h.gid, ?_, hs, hle, hh⟩
  have := h.only.modGroup (fun _ => g) (fun x _ => hg.trans h.gid)
  unfold View.withGroup
  rw [h.u, h.gid]
  exact this

/-- The completion of a view. -/
theorem View.Ends.finish {s : State} {v w w1 : View} (h : View.Ends s v w w1) (st : BitVec 10) {e : Eff}
    (he : e.Plain v.fl) :
    ∃ t g', w1.finish st e = .next t ∧ v.Completes s t w w1 e g' ∧ w1.Wrote st e g' := by
  have hturn : w1.fl = 4 ∨ w1.g.handler = none := by
    rw [h.fl]
    rcases h.after.turn with h4 | hn
    · exact .inl h4
    · right
      have := h.some
      rw [hn] at this
      simpa using this
  have hgid : ∀ x : Group, x.gid = v.g.gid → (x.finish w1 st e).gid = v.g.gid := fun x hx =>
    (Group.finish_gid x w1 st e).trans hx
  have honly := h.only.modGroup (fun g => g.finish w1 st e) hgid
  obtain ⟨g0, h0, hk⟩ := h.after.keep
  refine ⟨_, w1.g.finish w1 st e, rfl, ⟨?_, ?_, ⟨g0, h0, hk⟩, ?_⟩, ?_⟩
  · rw [h.u, h.gid]; exact honly
  · rw [h.u, h.gid]; exact honly.sameMemory
  · have := Group.finish_keeps w1.g w1 st e (e.within w1.g w1.fl he.mreg) hturn
    rw [h.fl] at this
    exact this
  · refine View.finish_wrote w1 st e (h.fl ▸ he) (h.fl ▸ h.le) hturn ?_
    rw [h.fl]
    intro h4
    rw [h.some]
    exact h.han h4

/-- The handler flow exists in its own view. -/
theorem State.issuer?_handler {s : State} {words : Nat} {v : View} (h : s.issuer? words = some v) :
    v.fl = 4 → v.g.handler.isSome = true := by
  unfold State.issuer? at h
  obtain ⟨c, -, h⟩ := Option.bind_eq_some_iff.mp h
  have h1 := State.viewOf_some h
  unfold State.viewOf at h
  split at h
  · simp at h
  · rename_i t ht
    split at h
    · simp at h
    · rename_i g hg
      split at h
      · simp at h
      · rename_i hn
        intro h4
        have hfl : c.flow = 4 := by rw [← h1.2.2.2.2.1]; exact h4
        have hgg : v.g = g := by
          have := h1.2.1
          unfold State.group? at this
          rw [ht] at this
          simp only [Option.bind_some] at this
          rw [hg] at this
          simpa using this.symm
        rw [hgg]
        simp only [hfl, decide_true, Bool.true_and, Option.isNone_iff_eq_none] at hn
        cases hh : g.handler with
        | none => exact absurd hh hn
        | some x => rfl

/-- The views of a flow in its turn after its issue. -/
theorem View.After.handler {s : State} {v w : View}
    (h : View.After s v w (fun _ _ => false) (fun _ _ => false) (fun _ _ => false) (fun _ _ => false))
    (h0 : View.After s v v (fun _ _ => false) (fun _ _ => false) (fun _ _ => false) (fun _ _ => false)) :
    w.g.handler.isSome = v.g.handler.isSome := by
  obtain ⟨g, hg, hk⟩ := h.keep
  obtain ⟨g', hg', hk'⟩ := h0.keep
  have : g = g' := Option.some.inj (hg.symm.trans hg')
  subst this
  exact hk.flows.2.trans hk'.flows.2.symm

/-- The issue of a form. -/
theorem Form.issued_after {F : Form} {s : State} {v : View} (h : F.CanIssue s v) :
    View.After s v (F.issued v) (fun _ _ => false) (fun _ _ => false) (fun _ _ => false) (fun _ _ => false) := by
  have h0 := View.After.start (dv := fun _ _ => false) (kv := fun _ _ => false) (ds := fun _ _ => false)
    (dm := fun _ _ => false) h.1 h.2.1
  unfold Form.issued
  exact h0.readied _

/-- The meaning of an instruction as its form gives it. -/
structure Form.Means (F : Form) (i : Instr) (body : View → View → BitVec 10 → Out) : Prop where
  sets  : ∀ f, F.sets = some f → ∀ w, (f w).gid = w.g.gid ∧ (f w).handler.isSome = w.g.handler.isSome
  plain : ∀ w, (F.result w).Plain w.fl
  meets : ∀ s, exec i s = withIssuer s F.words fun v =>
    v.issue (F.early v) (F.ill v) (F.reads v) (F.ops v) (body v)
  body  : ∀ s v, F.CanIssue s v → F.Free (F.issued v) →
    body v (F.issued v) ((F.issued v).metBits (F.reads v) (F.ops v)) =
      if (F.issued v).fpxLanes (F.flags (F.issued v)) = 0#32 then (F.after v).finish (F.bits v) (F.result (F.issued v))
      else (F.issued v).trap (F.bits v) 0x0B (hinfoLanes ((F.issued v).fpxLanes (F.flags (F.issued v))))

theorem Form.Means.exec_eq {F : Form} {i : Instr} {body : View → View → BitVec 10 → Out} (h : F.Means i body) {s : State} {v : View}
    (hc : F.CanIssue s v) : Machine.exec i s = body v (F.issued v) ((F.issued v).metBits (F.reads v) (F.ops v)) := by
  rw [h.meets, withIssuer_some _ hc.1, hc.2.2.1]
  exact View.issue_canIssue _ hc.2.2.2

theorem Form.Means.runs {F : Form} {i : Instr} {body : View → View → BitVec 10 → Out} (h : F.Means i body) : F.Runs i := by
  intro s v hc hm hf
  rw [h.exec_eq hc, h.body s v hc hm, if_pos hf]
  have h0 := View.After.start (dv := fun _ _ => false) (kv := fun _ _ => false) (ds := fun _ _ => false)
    (dm := fun _ _ => false) hc.1 hc.2.1
  have h1 := Form.issued_after hc
  have hle : v.fl ≤ 4 := ((View.inTurn_iff v).mp hc.2.1).1
  have hhan : v.fl = 4 → (F.issued v).g.handler.isSome = true := by
    intro h4; rw [h1.handler h0]; exact State.issuer?_handler hc.1 h4
  have hend : View.Ends s v (F.issued v) (F.after v) := by
    unfold Form.after
    cases hs : F.sets with
    | none => exact View.Ends.same h1 hle hhan
    | some f => exact View.Ends.withGroup h1 hle hhan (h.sets f hs _).1 (h.sets f hs _).2
  exact hend.finish _ (h1.fl ▸ h.plain _)

theorem Form.Means.raises {F : Form} {i : Instr} {body : View → View → BitVec 10 → Out} (h : F.Means i body) : F.RaisesFpx i := by
  intro s v hc hm hf
  rw [h.exec_eq hc, h.body s v hc hm, if_neg hf]
  rfl

/-! ## Instructions without flags -/

theorem allFlags_none : allFlags (Vector.replicate 32 0#10) = 0#10 := by decide

theorem maskOf_false (f : Nat → Bool) (h : ∀ l, f l = false) : maskOf f = 0#32 := by
  unfold maskOf
  have : ∀ (xs : List Nat) (a : Nat), xs.foldl (fun a l => if f l then a + 2 ^ l else a) a = a := by
    intro xs; induction xs with
    | nil => intro a; rfl
    | cons x xs ih => intro a; rw [List.foldl_cons, h x]; exact ih a
  rw [this]

theorem View.fpxLanes_none (v : View) : v.fpxLanes (Vector.replicate 32 0#10) = 0#32 := by
  unfold View.fpxLanes
  split
  · apply maskOf_false
    intro l
    have : vget (Vector.replicate 32 0#10) l 0 = 0#10 := by
      unfold vget
      by_cases h : l < 32 <;> simp [h]
    rw [this]; simp
  · rfl

/-- An instruction that raises no flag. -/
theorem Form.Means.quiet {F : Form} {i : Instr} {body : View → View → BitVec 10 → Out}
    (sets  : ∀ f, F.sets = some f → ∀ w, (f w).gid = w.g.gid ∧ (f w).handler.isSome = w.g.handler.isSome)
    (plain : ∀ w, (F.result w).Plain w.fl)
    (meets : ∀ s, exec i s = withIssuer s F.words fun v =>
      v.issue (F.early v) (F.ill v) (F.reads v) (F.ops v) (body v))
    (hf : ∀ w, F.flags w = Vector.replicate 32 0#10)
    (hb : ∀ s v, F.CanIssue s v → F.Free (F.issued v) →
      body v (F.issued v) ((F.issued v).metBits (F.reads v) (F.ops v)) =
        (F.after v).finish ((F.issued v).metBits (F.reads v) (F.ops v) ||| F.stat (F.issued v)) (F.result (F.issued v))) :
    F.Means i body where
  sets := sets
  plain := plain
  meets := meets
  body s v hc hm := by
    rw [hf, View.fpxLanes_none, if_pos rfl, hb s v hc hm]
    unfold Form.bits
    rw [hf, allFlags_none]
    simp

theorem Eff.plain_s (d : Nat) (x : Word) (fl : Nat) : ({ sw := [(d, x)] } : Eff).Plain fl :=
  ⟨by simp, by simp, by simp, by simp, .inl rfl, by simp⟩

/-- The number that a fold of powers of two builds. -/
theorem foldl_two_pow (f : Nat → Bool) (n : Nat) : ((List.range n).foldl (fun a l => if f l then a + 2 ^ l else a) 0) < 2 ^ n ∧
   ∀ l, ((List.range n).foldl (fun a l => if f l then a + 2 ^ l else a) 0).testBit l = (decide (l < n) && f l) := by
  induction n with
  | zero => simp
  | succ n ih =>
    rw [List.range_succ, List.foldl_append]
    simp only [List.foldl_cons, List.foldl_nil]
    generalize (List.range n).foldl (fun a l => if f l then a + 2 ^ l else a) 0 = A at ih
    obtain ⟨h1, h2⟩ := ih
    have hp : 2 ^ (n+1) = 2 ^ n + 2 ^ n := by rw [Nat.pow_succ]; omega
    split
    · rename_i hf
      refine ⟨by omega, fun l => ?_⟩
      rw [Nat.add_comm]
      by_cases hl : l = n
      · subst hl
        rw [Nat.testBit_two_pow_add_eq, h2]; simp [hf]
      · rcases Nat.lt_or_gt_of_ne hl with hl | hl
        · rw [Nat.testBit_two_pow_add_gt hl, h2]
          have : l < n + 1 := by omega
          simp [hl, this]
        · rw [Nat.testBit_lt_two_pow]
          · simp; omega
          · calc 2 ^ n + A < 2 ^ (n+1) := by omega
              _ ≤ 2 ^ l := Nat.pow_le_pow_right (by decide) hl
    · rename_i hf
      refine ⟨by omega, fun l => ?_⟩
      rw [h2]
      by_cases hl : l = n
      · subst hl; simp at hf; simp [hf]
      · congr 1; rw [decide_eq_decide]; omega

/-- The lanes of a mask made from a test. -/
theorem getLsbD_maskOf (f : Nat → Bool) (l : Nat) : (maskOf f).getLsbD l = (decide (l < 32) && f l) := by
  unfold maskOf
  rw [BitVec.getLsbD_ofNat, (foldl_two_pow f 32).2 l]
  by_cases h : l < 32 <;> simp [h]

/-! ## What the issue leaves as it was -/

/-- A split without what it knows of other agents' releases. -/
def Split.plain (r : Split) : Split := { r with ord := .fresh }

/-- The parts of a group that results written at an issue never touch. -/
def Group.fixed (g : Group) : Vector Mask 16 × Vector Split 4 × Mask × BitVec 10 × Option (BitVec 12 × Mask × Mask) :=
  (g.m, g.recs.map Split.plain, g.launched, g.trapen, g.handler.map fun h => (h.mode, h.m14, h.m15))

theorem Group.writeS_fixed (g : Group) (h : Bool) (r : Nat) (x : Word) : (g.writeS h r x).fixed = g.fixed := by
  unfold Group.writeS
  split
  · rfl
  · split
    · rename_i hh; simp [Group.fixed, hh]
    · rfl

theorem Group.drainIf_fixed (g : Group) (f : Pend → Bool) : (g.drainIf f).fixed = g.fixed := by
  have hd : ∀ (a : Group) (p : Pend), (a.deliver p).fixed = a.fixed := by
    intro a p
    unfold Group.deliver
    dsimp only
    rw [Group.foldl_proj Group.fixed (fun g (w : Nat × Word) => g.writeS (p.flow == 4) w.1 w.2)
      (fun a w => Group.writeS_fixed a _ _ _),
      Group.foldl_proj Group.fixed (fun g (w : Nat × Mask × LaneVec) => g.writeV w.1 w.2.1 w.2.2) (fun a w => rfl)]
  exact Group.foldl_proj Group.fixed Group.deliver hd (g.pends.filter f) g

theorem Group.modOrd_fixed (g : Group) (fl : Nat) (f : FlowOrd → FlowOrd) : (g.modOrd fl f).fixed = g.fixed := by
  unfold Group.modOrd
  split
  · simp [Group.fixed, Function.comp_def]
  · have : (g.modRec fl fun r => { r with ord := f r.ord }).recs.map Split.plain = g.recs.map Split.plain := by
      ext i hi : 1
      simp only [Group.modRec, Group.setRec, vset, Vector.getElem_map, Vector.getElem_setIfInBounds]
      split
      · rename_i h
        subst h
        simp [Group.record, vget, hi, Split.plain]
      · rfl
    unfold Group.fixed
    rw [this]
    rfl

theorem View.readied_fixed (v : View) (ops : List Opnd) : (v.readied ops).g.fixed = v.g.fixed := by
  show (v.g.acquireTokens v.fl ops).fixed = _
  unfold Group.acquireTokens
  dsimp only
  split
  · rfl
  · exact Group.modOrd_fixed _ _ _

/-- Views of one flow whose groups agree in these parts. -/
structure View.Alike (v w : View) : Prop where
  fixed : w.g.fixed = v.g.fixed
  fl    : w.fl = v.fl
  heldV : w.heldV = v.heldV
  heldM : w.heldM = v.heldM

theorem View.Alike.readied (v : View) (ops : List Opnd) : v.Alike (v.readied ops) :=
  ⟨v.readied_fixed ops, rfl, rfl, rfl⟩

theorem View.Alike.svc {v w : View} (h : v.Alike w) : w.svc = v.svc := by simp [View.svc, h.fl]

theorem View.Alike.split {v w : View} (h : v.Alike w) : w.split.plain = v.split.plain := by
  have h1 : w.g.recs.map Split.plain = v.g.recs.map Split.plain := congrArg (fun x => x.2.1) h.fixed
  have hk : ∀ (r : Vector Split 4) (k : Nat), (vget r k Split.unused).plain = vget (r.map Split.plain) k Split.unused := by
    intro r k
    unfold vget
    by_cases hk : k < 4
    · simp [hk]
    · simp [hk]; rfl
  simp only [View.split, Group.record, hk, h1, h.fl]

theorem View.Alike.splitMode {v w : View} (h : v.Alike w) : w.split.mode = v.split.mode := by
  have := congrArg Split.mode h.split
  exact this

theorem View.Alike.splitExec {v w : View} (h : v.Alike w) : w.split.exec = v.split.exec := by
  have := congrArg Split.exec h.split
  exact this

theorem View.Alike.launched {v w : View} (h : v.Alike w) : w.g.launched = v.g.launched :=
  congrArg (fun x => x.2.2.1) h.fixed

theorem View.Alike.trapen {v w : View} (h : v.Alike w) : w.g.trapen = v.g.trapen :=
  congrArg (fun x => x.2.2.2.1) h.fixed

theorem View.Alike.handler {v w : View} (h : v.Alike w) :
    (w.g.handler.map fun h => (h.mode, h.m14, h.m15)) = v.g.handler.map fun h => (h.mode, h.m14, h.m15) :=
  congrArg (fun x => x.2.2.2.2) h.fixed

theorem View.Alike.mode {v w : View} (h : v.Alike w) : w.mode = v.mode := by
  unfold View.mode
  rw [h.svc, h.splitMode]
  have := h.handler
  cases hw : w.g.handler <;> cases hv : v.g.handler <;> simp_all

theorem View.Alike.mraw {v w : View} (h : v.Alike w) (r : Nat) : w.mraw r = v.mraw r := by
  unfold View.mraw
  have h1 : w.g.m = v.g.m := congrArg (fun x => x.1) h.fixed
  rw [h.svc, h.splitExec, h.launched, h1]
  have := h.handler
  cases hw : w.g.handler <;> cases hv : v.g.handler <;> simp_all

theorem View.Alike.eff {v w : View} (h : v.Alike w) (b : Bool) : w.eff b = v.eff b := by
  unfold View.eff View.guardReg
  rw [h.svc, h.splitExec, h.launched, h.mode, h.mraw]

theorem View.Alike.et {v w : View} (h : v.Alike w) : w.et = v.et := by unfold View.et; rw [h.mode]
theorem View.Alike.rm {v w : View} (h : v.Alike w) : w.rm = v.rm := by unfold View.rm; rw [h.mode]
theorem View.Alike.sat {v w : View} (h : v.Alike w) : w.sat = v.sat := by unfold View.sat; rw [h.mode]

end Sys2Proof.Machine
end

