-- ==== Sys2Proof/Laws/PerInstr.lean ====
section
/-!
SUPPORT. One lemma per constructor of `Instr`: what kind of encoding it has (R55, R56). An event has none; an instruction has
one word or two, as many as the opcode in its first word says.
-/
namespace Sys2Proof

/-- The top bits of an append are those of its high part. -/
theorem top_append {m n : Nat} (x : BitVec m) (y : BitVec n) (j k : Nat) (h : k = j + n) :
    (x ++ y).toNat / 2 ^ k = x.toNat / 2 ^ j := by
  subst h
  rw [BitVec.toNat_append, Nat.add_comm, Nat.pow_add, ← Nat.div_div_eq_div_mul]
  congr 1
  rw [← Nat.shiftRight_eq_div_pow, Nat.shiftRight_or_distrib, Nat.shiftLeft_shiftRight, Nat.shiftRight_eq_div_pow,
    Nat.div_eq_of_lt y.isLt, Nat.or_zero]

/-- The opcode is the top seven bits. -/
theorem opcodeOf_eq (w : W32) : opcodeOf w = w.toNat / 2 ^ 25 := by
  have := w.isLt
  simp only [opcodeOf, BitVec.extractLsb'_toNat, Nat.shiftRight_eq_div_pow]
  omega

/-- An opcode has one word or two. -/
theorem opWords_cases (op : Nat) : opWords op = 1 ∨ opWords op = 2 := by
  unfold opWords
  repeat' split
  all_goals simp

theorem opcodeOf_encV3 (op d : BitVec 7) (a b : VSrc) : opcodeOf (encV3 op d a b) = op.toNat := by
  rw [opcodeOf_eq, encV3]
  repeat' refine (top_append _ _ _ _ rfl).trans ?_
  exact Nat.div_one _

theorem opcodeOf_encVI (op d : BitVec 7) (a : VSrc) (imm : BitVec 9) : opcodeOf (encVI op d a imm) = op.toNat := by
  rw [opcodeOf_eq, encVI]
  repeat' refine (top_append _ _ _ _ rfl).trans ?_
  exact Nat.div_one _

theorem opcodeOf_encS3 (op : BitVec 7) (d a b : BitVec 6) : opcodeOf (encS3 op d a b) = op.toNat := by
  rw [opcodeOf_eq, encS3]
  repeat' refine (top_append _ _ _ _ rfl).trans ?_
  exact Nat.div_one _

theorem opcodeOf_encK (op : BitVec 7) (md ma mb : BitVec 4) (func : BitVec 3) : opcodeOf (encK op md ma mb func) = op.toNat := by
  rw [opcodeOf_eq, encK]
  repeat' refine (top_append _ _ _ _ rfl).trans ?_
  exact Nat.div_one _

theorem opcodeOf_encBR (op : BitVec 7) (mc : BitVec 4) (off : BitVec 21) : opcodeOf (encBR op mc off) = op.toNat := by
  rw [opcodeOf_eq, encBR]
  repeat' refine (top_append _ _ _ _ rfl).trans ?_
  exact Nat.div_one _

theorem opcodeOf_encBS (op : BitVec 7) (sc : BitVec 6) (off : BitVec 19) : opcodeOf (encBS op sc off) = op.toNat := by
  rw [opcodeOf_eq, encBS]
  repeat' refine (top_append _ _ _ _ rfl).trans ?_
  exact Nat.div_one _

theorem opcodeOf_encL (op d : BitVec 7) (m : LAddr) (ah : BitVec 4) : opcodeOf (encL op d m ah) = op.toNat := by
  rw [opcodeOf_eq, encL]
  repeat' refine (top_append _ _ _ _ rfl).trans ?_
  exact Nat.div_one _

theorem opcodeOf_encLs (op : BitVec 7) (d sb : BitVec 6) (ah : BitVec 4) : opcodeOf (encLs op d sb ah) = op.toNat := by
  rw [opcodeOf_eq, encLs]
  repeat' refine (top_append _ _ _ _ rfl).trans ?_
  exact Nat.div_one _

theorem opcodeOf_encE (op d : BitVec 7) (sa sb tok : BitVec 6) : opcodeOf (encE op d sa sb tok) = op.toNat := by
  rw [opcodeOf_eq, encE]
  repeat' refine (top_append _ _ _ _ rfl).trans ?_
  exact Nat.div_one _

theorem opcodeOf_encP (op : BitVec 7) (x : BitVec 25) : opcodeOf (encP op x) = op.toNat := by
  rw [opcodeOf_eq, encP]
  repeat' refine (top_append _ _ _ _ rfl).trans ?_
  exact Nat.div_one _

/-- The words of an encoding are as many as its opcode has. -/
def Laws.EncodingShape.Words (ws : List W32) : Prop :=
  ∃ w, (ws = [w] ∧ opWords (opcodeOf w) = 1) ∨ ∃ v, ws = [w, v] ∧ opWords (opcodeOf w) = 2

/-- An event has no encoding; an instruction has one, with the words of its opcode (R56). -/
def Laws.EncodingShape.Statement (i : Instr) : Prop :=
  (i.isEvent = true ∧ encode i = none) ∨ (i.isEvent = false ∧ ∃ ws, encode i = some ws ∧ Laws.EncodingShape.Words ws)

theorem shape_one {i : Instr} {w : W32} (op : Nat) (hi : i.isEvent = false) (h : encode i = some [w])
    (ho : opcodeOf w = op) (h1 : opWords op = 1) : Laws.EncodingShape.Statement i :=
  .inr ⟨hi, _, h, w, .inl ⟨rfl, ho ▸ h1⟩⟩

theorem shape_two {i : Instr} {w v : W32} (op : Nat) (hi : i.isEvent = false) (h : encode i = some [w, v])
    (ho : opcodeOf w = op) (h2 : opWords op = 2) : Laws.EncodingShape.Statement i :=
  .inr ⟨hi, _, h, w, .inr ⟨v, rfl, ho ▸ h2⟩⟩

theorem Laws.EncodingShape.vadd (d : BitVec 7) (a b : VSrc) : Laws.EncodingShape.Statement (.vadd d a b) :=
  shape_one _ rfl rfl (opcodeOf_encV3 ..) rfl

theorem Laws.EncodingShape.vsub (d : BitVec 7) (a b : VSrc) : Laws.EncodingShape.Statement (.vsub d a b) :=
  shape_one _ rfl rfl (opcodeOf_encV3 ..) rfl

theorem Laws.EncodingShape.vmul (d : BitVec 7) (a b : VSrc) : Laws.EncodingShape.Statement (.vmul d a b) :=
  shape_one _ rfl rfl (opcodeOf_encV3 ..) rfl

theorem Laws.EncodingShape.vmulh (d : BitVec 7) (a b : VSrc) : Laws.EncodingShape.Statement (.vmulh d a b) :=
  shape_one _ rfl rfl (opcodeOf_encV3 ..) rfl

theorem Laws.EncodingShape.vfma (d : BitVec 7) (a b : VSrc) : Laws.EncodingShape.Statement (.vfma d a b) :=
  shape_one _ rfl rfl (opcodeOf_encV3 ..) rfl

theorem Laws.EncodingShape.vfms (d : BitVec 7) (a b : VSrc) : Laws.EncodingShape.Statement (.vfms d a b) :=
  shape_one _ rfl rfl (opcodeOf_encV3 ..) rfl

theorem Laws.EncodingShape.vmin (d : BitVec 7) (a b : VSrc) : Laws.EncodingShape.Statement (.vmin d a b) :=
  shape_one _ rfl rfl (opcodeOf_encV3 ..) rfl

theorem Laws.EncodingShape.vmax (d : BitVec 7) (a b : VSrc) : Laws.EncodingShape.Statement (.vmax d a b) :=
  shape_one _ rfl rfl (opcodeOf_encV3 ..) rfl

theorem Laws.EncodingShape.vand (d : BitVec 7) (a b : VSrc) : Laws.EncodingShape.Statement (.vand d a b) :=
  shape_one _ rfl rfl (opcodeOf_encV3 ..) rfl

theorem Laws.EncodingShape.vor (d : BitVec 7) (a b : VSrc) : Laws.EncodingShape.Statement (.vor d a b) :=
  shape_one _ rfl rfl (opcodeOf_encV3 ..) rfl

theorem Laws.EncodingShape.vxor (d : BitVec 7) (a b : VSrc) : Laws.EncodingShape.Statement (.vxor d a b) :=
  shape_one _ rfl rfl (opcodeOf_encV3 ..) rfl

theorem Laws.EncodingShape.vshl (d : BitVec 7) (a b : VSrc) : Laws.EncodingShape.Statement (.vshl d a b) :=
  shape_one _ rfl rfl (opcodeOf_encV3 ..) rfl

theorem Laws.EncodingShape.vshr (d : BitVec 7) (a b : VSrc) : Laws.EncodingShape.Statement (.vshr d a b) :=
  shape_one _ rfl rfl (opcodeOf_encV3 ..) rfl

theorem Laws.EncodingShape.vsel (d : BitVec 7) (a b : VSrc) : Laws.EncodingShape.Statement (.vsel d a b) :=
  shape_one _ rfl rfl (opcodeOf_encV3 ..) rfl

theorem Laws.EncodingShape.vabsd (d : BitVec 7) (a b : VSrc) : Laws.EncodingShape.Statement (.vabsd d a b) :=
  shape_one _ rfl rfl (opcodeOf_encV3 ..) rfl

theorem Laws.EncodingShape.vdiv (d : BitVec 7) (a b : VSrc) (ahead : BitVec 4) : Laws.EncodingShape.Statement (.vdiv d a b ahead) :=
  shape_two _ rfl rfl (opcodeOf_encV3 ..) rfl

theorem Laws.EncodingShape.vrem (d : BitVec 7) (a b : VSrc) (ahead : BitVec 4) : Laws.EncodingShape.Statement (.vrem d a b ahead) :=
  shape_two _ rfl rfl (opcodeOf_encV3 ..) rfl

theorem Laws.EncodingShape.vaddi (d : BitVec 7) (a : VSrc) (imm : BitVec 9) : Laws.EncodingShape.Statement (.vaddi d a imm) :=
  shape_one _ rfl rfl (opcodeOf_encVI ..) rfl

theorem Laws.EncodingShape.vmuli (d : BitVec 7) (a : VSrc) (imm : BitVec 9) : Laws.EncodingShape.Statement (.vmuli d a imm) :=
  shape_one _ rfl rfl (opcodeOf_encVI ..) rfl

theorem Laws.EncodingShape.vshli (d : BitVec 7) (a : VSrc) (imm : BitVec 9) : Laws.EncodingShape.Statement (.vshli d a imm) :=
  shape_one _ rfl rfl (opcodeOf_encVI ..) rfl

theorem Laws.EncodingShape.vshri (d : BitVec 7) (a : VSrc) (imm : BitVec 9) : Laws.EncodingShape.Statement (.vshri d a imm) :=
  shape_one _ rfl rfl (opcodeOf_encVI ..) rfl

theorem Laws.EncodingShape.vandi (d : BitVec 7) (a : VSrc) (imm : BitVec 9) : Laws.EncodingShape.Statement (.vandi d a imm) :=
  shape_one _ rfl rfl (opcodeOf_encVI ..) rfl

theorem Laws.EncodingShape.vmov (d : BitVec 7) (a : VSrc) : Laws.EncodingShape.Statement (.vmov d a) :=
  shape_one _ rfl rfl (opcodeOf_encVI ..) rfl

theorem Laws.EncodingShape.vldi (d : BitVec 7) (lit : W32) : Laws.EncodingShape.Statement (.vldi d lit) :=
  shape_two _ rfl rfl (opcodeOf_encVI ..) rfl

theorem Laws.EncodingShape.vneg (d : BitVec 7) (a : VSrc) : Laws.EncodingShape.Statement (.vneg d a) :=
  shape_one _ rfl rfl (opcodeOf_encVI ..) rfl

theorem Laws.EncodingShape.vabs (d : BitVec 7) (a : VSrc) : Laws.EncodingShape.Statement (.vabs d a) :=
  shape_one _ rfl rfl (opcodeOf_encVI ..) rfl

theorem Laws.EncodingShape.vpopc (d : BitVec 7) (a : VSrc) : Laws.EncodingShape.Statement (.vpopc d a) :=
  shape_one _ rfl rfl (opcodeOf_encVI ..) rfl

theorem Laws.EncodingShape.vclz (d : BitVec 7) (a : VSrc) : Laws.EncodingShape.Statement (.vclz d a) :=
  shape_one _ rfl rfl (opcodeOf_encVI ..) rfl

theorem Laws.EncodingShape.vbfx (d : BitVec 7) (a b : VSrc) : Laws.EncodingShape.Statement (.vbfx d a b) :=
  shape_one _ rfl rfl (opcodeOf_encV3 ..) rfl

theorem Laws.EncodingShape.vbfi (d : BitVec 7) (a b : VSrc) : Laws.EncodingShape.Statement (.vbfi d a b) :=
  shape_one _ rfl rfl (opcodeOf_encV3 ..) rfl

theorem Laws.EncodingShape.vlerp (d : BitVec 7) (a b : VSrc) : Laws.EncodingShape.Statement (.vlerp d a b) :=
  shape_one _ rfl rfl (opcodeOf_encV3 ..) rfl

theorem Laws.EncodingShape.vcvt (d : BitVec 7) (a : VSrc) (styp : ETy) (rm : RMode) (sat : Bool) : Laws.EncodingShape.Statement (.vcvt d a styp rm sat) :=
  shape_one _ rfl rfl (opcodeOf_encVI ..) rfl

theorem Laws.EncodingShape.vexp2 (d : BitVec 7) (a : VSrc) (ahead : BitVec 4) : Laws.EncodingShape.Statement (.vexp2 d a ahead) :=
  shape_two _ rfl rfl (opcodeOf_encV3 ..) rfl

theorem Laws.EncodingShape.vlog2 (d : BitVec 7) (a : VSrc) (ahead : BitVec 4) : Laws.EncodingShape.Statement (.vlog2 d a ahead) :=
  shape_two _ rfl rfl (opcodeOf_encV3 ..) rfl

theorem Laws.EncodingShape.vrcp (d : BitVec 7) (a : VSrc) (ahead : BitVec 4) : Laws.EncodingShape.Statement (.vrcp d a ahead) :=
  shape_two _ rfl rfl (opcodeOf_encV3 ..) rfl

theorem Laws.EncodingShape.vrsq (d : BitVec 7) (a : VSrc) (ahead : BitVec 4) : Laws.EncodingShape.Statement (.vrsq d a ahead) :=
  shape_two _ rfl rfl (opcodeOf_encV3 ..) rfl

theorem Laws.EncodingShape.vsqrt (d : BitVec 7) (a : VSrc) (ahead : BitVec 4) : Laws.EncodingShape.Statement (.vsqrt d a ahead) :=
  shape_two _ rfl rfl (opcodeOf_encV3 ..) rfl

theorem Laws.EncodingShape.vsinp (d : BitVec 7) (a : VSrc) (ahead : BitVec 4) : Laws.EncodingShape.Statement (.vsinp d a ahead) :=
  shape_two _ rfl rfl (opcodeOf_encV3 ..) rfl

theorem Laws.EncodingShape.vcosp (d : BitVec 7) (a : VSrc) (ahead : BitVec 4) : Laws.EncodingShape.Statement (.vcosp d a ahead) :=
  shape_two _ rfl rfl (opcodeOf_encV3 ..) rfl

theorem Laws.EncodingShape.vtanh (d : BitVec 7) (a : VSrc) (ahead : BitVec 4) : Laws.EncodingShape.Statement (.vtanh d a ahead) :=
  shape_two _ rfl rfl (opcodeOf_encV3 ..) rfl

theorem Laws.EncodingShape.vcmp (md : BitVec 4) (cond : Cond) (a : BitVec 7) (la : Bool) (b : BitVec 7) (lb : Bool) : Laws.EncodingShape.Statement (.vcmp md cond a la b lb) := by
  refine shape_one 0x22 rfl rfl ((opcodeOf_eq _).trans ?_) rfl
  repeat' refine (top_append _ _ _ _ rfl).trans ?_
  rfl

theorem Laws.EncodingShape.vclass (d : BitVec 7) (a : VSrc) : Laws.EncodingShape.Statement (.vclass d a) :=
  shape_one _ rfl rfl (opcodeOf_encVI ..) rfl

theorem Laws.EncodingShape.vrint (d : BitVec 7) (a : VSrc) (rm : RMode) : Laws.EncodingShape.Statement (.vrint d a rm) :=
  shape_one _ rfl rfl (opcodeOf_encVI ..) rfl

theorem Laws.EncodingShape.xperm (d : BitVec 7) (a b : VSrc) (ahead : BitVec 4) : Laws.EncodingShape.Statement (.xperm d a b ahead) :=
  shape_two _ rfl rfl (opcodeOf_encV3 ..) rfl

theorem Laws.EncodingShape.xbfly (d : BitVec 7) (a : VSrc) (x : BitVec 5) (ahead : BitVec 4) : Laws.EncodingShape.Statement (.xbfly d a x ahead) :=
  shape_two _ rfl rfl (opcodeOf_encVI ..) rfl

theorem Laws.EncodingShape.xbcast (d : BitVec 7) (a : VSrc) (lane : BitVec 5) (ahead : BitVec 4) : Laws.EncodingShape.Statement (.xbcast d a lane ahead) :=
  shape_two _ rfl rfl (opcodeOf_encVI ..) rfl

theorem Laws.EncodingShape.xred (d : BitVec 7) (a : VSrc) (op : ROp) : Laws.EncodingShape.Statement (.xred d a op) :=
  shape_one _ rfl rfl (opcodeOf_encVI ..) rfl

theorem Laws.EncodingShape.xscan (d : BitVec 7) (a : VSrc) (op : ROp) (incl : Bool) : Laws.EncodingShape.Statement (.xscan d a op incl) :=
  shape_one _ rfl rfl (opcodeOf_encVI ..) rfl

theorem Laws.EncodingShape.xpsum (d : BitVec 7) (ma : BitVec 4) (incl : Bool) : Laws.EncodingShape.Statement (.xpsum d ma incl) :=
  shape_one _ rfl rfl (opcodeOf_encVI ..) rfl

theorem Laws.EncodingShape.vtos (sd : BitVec 6) (a : VSrc) : Laws.EncodingShape.Statement (.vtos sd a) :=
  shape_one _ rfl rfl (opcodeOf_encVI ..) rfl

theorem Laws.EncodingShape.stov (d : BitVec 7) (sa : BitVec 6) : Laws.EncodingShape.Statement (.stov d sa) :=
  shape_one _ rfl rfl (opcodeOf_encVI ..) rfl

theorem Laws.EncodingShape.sadd (d a b : BitVec 6) : Laws.EncodingShape.Statement (.sadd d a b) :=
  shape_one _ rfl rfl (opcodeOf_encS3 ..) rfl

theorem Laws.EncodingShape.ssub (d a b : BitVec 6) : Laws.EncodingShape.Statement (.ssub d a b) :=
  shape_one _ rfl rfl (opcodeOf_encS3 ..) rfl

theorem Laws.EncodingShape.smul (d a b : BitVec 6) : Laws.EncodingShape.Statement (.smul d a b) :=
  shape_one _ rfl rfl (opcodeOf_encS3 ..) rfl

theorem Laws.EncodingShape.smulh (d a b : BitVec 6) : Laws.EncodingShape.Statement (.smulh d a b) :=
  shape_one _ rfl rfl (opcodeOf_encS3 ..) rfl

theorem Laws.EncodingShape.sand (d a b : BitVec 6) : Laws.EncodingShape.Statement (.sand d a b) :=
  shape_one _ rfl rfl (opcodeOf_encS3 ..) rfl

theorem Laws.EncodingShape.sor (d a b : BitVec 6) : Laws.EncodingShape.Statement (.sor d a b) :=
  shape_one _ rfl rfl (opcodeOf_encS3 ..) rfl

theorem Laws.EncodingShape.sxor (d a b : BitVec 6) : Laws.EncodingShape.Statement (.sxor d a b) :=
  shape_one _ rfl rfl (opcodeOf_encS3 ..) rfl

theorem Laws.EncodingShape.sshl (d a b : BitVec 6) : Laws.EncodingShape.Statement (.sshl d a b) :=
  shape_one _ rfl rfl (opcodeOf_encS3 ..) rfl

theorem Laws.EncodingShape.sshr (d a b : BitVec 6) : Laws.EncodingShape.Statement (.sshr d a b) :=
  shape_one _ rfl rfl (opcodeOf_encS3 ..) rfl

theorem Laws.EncodingShape.ssra (d a b : BitVec 6) : Laws.EncodingShape.Statement (.ssra d a b) :=
  shape_one _ rfl rfl (opcodeOf_encS3 ..) rfl

theorem Laws.EncodingShape.saddi (d a : BitVec 6) (imm : BitVec 11) : Laws.EncodingShape.Statement (.saddi d a imm) := by
  refine shape_one 0x3A rfl rfl ((opcodeOf_eq _).trans ?_) rfl
  repeat' refine (top_append _ _ _ _ rfl).trans ?_
  rfl

theorem Laws.EncodingShape.sldi (d : BitVec 6) (lit : W32) : Laws.EncodingShape.Statement (.sldi d lit) := by
  refine shape_two 0x3B rfl rfl ((opcodeOf_eq _).trans ?_) rfl
  repeat' refine (top_append _ _ _ _ rfl).trans ?_
  rfl

theorem Laws.EncodingShape.scmp (cond : Cond) (dc : BitVec 3) (a b : BitVec 6) : Laws.EncodingShape.Statement (.scmp cond dc a b) := by
  refine shape_one 0x3C rfl rfl ((opcodeOf_eq _).trans ?_) rfl
  repeat' refine (top_append _ _ _ _ rfl).trans ?_
  rfl

theorem Laws.EncodingShape.smin (d a b : BitVec 6) : Laws.EncodingShape.Statement (.smin d a b) :=
  shape_one _ rfl rfl (opcodeOf_encS3 ..) rfl

theorem Laws.EncodingShape.smax (d a b : BitVec 6) : Laws.EncodingShape.Statement (.smax d a b) :=
  shape_one _ rfl rfl (opcodeOf_encS3 ..) rfl

theorem Laws.EncodingShape.smov (d a : BitVec 6) : Laws.EncodingShape.Statement (.smov d a) :=
  shape_one _ rfl rfl (opcodeOf_encS3 ..) rfl

theorem Laws.EncodingShape.mand (md ma mb : BitVec 4) : Laws.EncodingShape.Statement (.mand md ma mb) :=
  shape_one _ rfl rfl (opcodeOf_encK ..) rfl

theorem Laws.EncodingShape.mor (md ma mb : BitVec 4) : Laws.EncodingShape.Statement (.mor md ma mb) :=
  shape_one _ rfl rfl (opcodeOf_encK ..) rfl

theorem Laws.EncodingShape.mxor (md ma mb : BitVec 4) : Laws.EncodingShape.Statement (.mxor md ma mb) :=
  shape_one _ rfl rfl (opcodeOf_encK ..) rfl

theorem Laws.EncodingShape.mandn (md ma mb : BitVec 4) : Laws.EncodingShape.Statement (.mandn md ma mb) :=
  shape_one _ rfl rfl (opcodeOf_encK ..) rfl

theorem Laws.EncodingShape.mnot (md ma : BitVec 4) : Laws.EncodingShape.Statement (.mnot md ma) :=
  shape_one _ rfl rfl (opcodeOf_encK ..) rfl

theorem Laws.EncodingShape.mmov (md ma : BitVec 4) : Laws.EncodingShape.Statement (.mmov md ma) :=
  shape_one _ rfl rfl (opcodeOf_encK ..) rfl

theorem Laws.EncodingShape.mtos (sd : BitVec 6) (ma : BitVec 4) : Laws.EncodingShape.Statement (.mtos sd ma) :=
  shape_one _ rfl rfl (opcodeOf_encS3 ..) rfl

theorem Laws.EncodingShape.stom (md : BitVec 4) (sa : BitVec 6) : Laws.EncodingShape.Statement (.stom md sa) :=
  shape_one _ rfl rfl (opcodeOf_encS3 ..) rfl

theorem Laws.EncodingShape.mcnt (sd : BitVec 6) (ma : BitVec 4) : Laws.EncodingShape.Statement (.mcnt sd ma) :=
  shape_one _ rfl rfl (opcodeOf_encS3 ..) rfl

theorem Laws.EncodingShape.mffs (sd : BitVec 6) (ma : BitVec 4) : Laws.EncodingShape.Statement (.mffs sd ma) :=
  shape_one _ rfl rfl (opcodeOf_encS3 ..) rfl

theorem Laws.EncodingShape.setmode (et : BitVec 4) (rm : BitVec 3) (g : BitVec 4) (sat wet wrm wg wsat : Bool) : Laws.EncodingShape.Statement (.setmode et rm g sat wet wrm wg wsat) := by
  refine shape_one 0x44 rfl rfl ((opcodeOf_eq _).trans ?_) rfl
  repeat' refine (top_append _ _ _ _ rfl).trans ?_
  rfl

theorem Laws.EncodingShape.srd (d : BitVec 7) (idx : BitVec 11) : Laws.EncodingShape.Statement (.srd d idx) := by
  refine shape_one 0x45 rfl rfl ((opcodeOf_eq _).trans ?_) rfl
  repeat' refine (top_append _ _ _ _ rfl).trans ?_
  rfl

theorem Laws.EncodingShape.swr (idx : BitVec 11) (sa : BitVec 6) : Laws.EncodingShape.Statement (.swr idx sa) := by
  refine shape_one 0x46 rfl rfl ((opcodeOf_eq _).trans ?_) rfl
  repeat' refine (top_append _ _ _ _ rfl).trans ?_
  rfl

theorem Laws.EncodingShape.mldi (md : BitVec 4) (lit : W32) : Laws.EncodingShape.Statement (.mldi md lit) := by
  refine shape_two 0x47 rfl rfl ((opcodeOf_eq _).trans ?_) rfl
  repeat' refine (top_append _ _ _ _ rfl).trans ?_
  rfl

theorem Laws.EncodingShape.bra (off : BitVec 21) : Laws.EncodingShape.Statement (.bra off) :=
  shape_one _ rfl rfl (opcodeOf_encBR ..) rfl

theorem Laws.EncodingShape.bru (mc : BitVec 4) (off : BitVec 21) : Laws.EncodingShape.Statement (.bru mc off) :=
  shape_one _ rfl rfl (opcodeOf_encBR ..) rfl

theorem Laws.EncodingShape.brz (mc : BitVec 4) (off : BitVec 21) : Laws.EncodingShape.Statement (.brz mc off) :=
  shape_one _ rfl rfl (opcodeOf_encBR ..) rfl

theorem Laws.EncodingShape.brnz (mc : BitVec 4) (off : BitVec 21) : Laws.EncodingShape.Statement (.brnz mc off) :=
  shape_one _ rfl rfl (opcodeOf_encBR ..) rfl

theorem Laws.EncodingShape.brs (sc : BitVec 6) (off : BitVec 19) : Laws.EncodingShape.Statement (.brs sc off) :=
  shape_one _ rfl rfl (opcodeOf_encBS ..) rfl

theorem Laws.EncodingShape.jmpi (a : VSrc) (join tag : BitVec 16) : Laws.EncodingShape.Statement (.jmpi a join tag) :=
  shape_two _ rfl rfl (opcodeOf_encVI ..) rfl

theorem Laws.EncodingShape.calli (a : VSrc) (tag : BitVec 16) : Laws.EncodingShape.Statement (.calli a tag) :=
  shape_two _ rfl rfl (opcodeOf_encVI ..) rfl

theorem Laws.EncodingShape.call (off : BitVec 21) : Laws.EncodingShape.Statement (.call off) :=
  shape_one _ rfl rfl (opcodeOf_encBR ..) rfl

theorem Laws.EncodingShape.ret : Laws.EncodingShape.Statement .ret :=
  shape_one _ rfl rfl (opcodeOf_encP ..) rfl

theorem Laws.EncodingShape.pad (tag : BitVec 16) : Laws.EncodingShape.Statement (.pad tag) :=
  shape_one _ rfl rfl (opcodeOf_encP ..) rfl

theorem Laws.EncodingShape.loop (sc : BitVec 6) (off : BitVec 19) : Laws.EncodingShape.Statement (.loop sc off) :=
  shape_one _ rfl rfl (opcodeOf_encBS ..) rfl

theorem Laws.EncodingShape.exit : Laws.EncodingShape.Statement .exit :=
  shape_one _ rfl rfl (opcodeOf_encP ..) rfl

theorem Laws.EncodingShape.nop : Laws.EncodingShape.Statement .nop :=
  shape_one _ rfl rfl (opcodeOf_encP ..) rfl

theorem Laws.EncodingShape.brk : Laws.EncodingShape.Statement .brk :=
  shape_one _ rfl rfl (opcodeOf_encP ..) rfl

theorem Laws.EncodingShape.yield : Laws.EncodingShape.Statement .yield :=
  shape_one _ rfl rfl (opcodeOf_encP ..) rfl

theorem Laws.EncodingShape.ld (d : BitVec 7) (m : LAddr) (ahead : BitVec 4) (w : MemWord) : Laws.EncodingShape.Statement (.ld d m ahead w) :=
  shape_two _ rfl rfl (opcodeOf_encL ..) rfl

theorem Laws.EncodingShape.st (d : BitVec 7) (m : LAddr) (w : MemWord) : Laws.EncodingShape.Statement (.st d m w) :=
  shape_two _ rfl rfl (opcodeOf_encL ..) rfl

theorem Laws.EncodingShape.lds (sd : BitVec 6) (sb : BitVec 6) (ahead : BitVec 4) (w : MemWord) : Laws.EncodingShape.Statement (.lds sd sb ahead w) :=
  shape_two _ rfl rfl (opcodeOf_encLs ..) rfl

theorem Laws.EncodingShape.sts (sd : BitVec 6) (sb : BitVec 6) (w : MemWord) : Laws.EncodingShape.Statement (.sts sd sb w) :=
  shape_two _ rfl rfl (opcodeOf_encLs ..) rfl

theorem Laws.EncodingShape.atom (d : BitVec 7) (m : LAddr) (w : AtomWord) : Laws.EncodingShape.Statement (.atom d m w) :=
  shape_two _ rfl rfl (opcodeOf_encL ..) rfl

theorem Laws.EncodingShape.red (m : LAddr) (w : AtomWord) : Laws.EncodingShape.Statement (.red m w) :=
  shape_two _ rfl rfl (opcodeOf_encL ..) rfl

theorem Laws.EncodingShape.qpush (sd sb : BitVec 6) (gang : Bool) (off : BitVec 23) : Laws.EncodingShape.Statement (.qpush sd sb gang off) :=
  shape_two _ rfl rfl (opcodeOf_encLs ..) rfl

theorem Laws.EncodingShape.qpop (sd sb : BitVec 6) (gang : Bool) (off : BitVec 23) : Laws.EncodingShape.Statement (.qpop sd sb gang off) :=
  shape_two _ rfl rfl (opcodeOf_encLs ..) rfl

theorem Laws.EncodingShape.barvInit (sd sb : BitVec 6) (off : BitVec 23) : Laws.EncodingShape.Statement (.barvInit sd sb off) :=
  shape_two _ rfl rfl (opcodeOf_encLs ..) rfl

theorem Laws.EncodingShape.barvArr (sd sb : BitVec 6) (off : BitVec 23) : Laws.EncodingShape.Statement (.barvArr sd sb off) :=
  shape_two _ rfl rfl (opcodeOf_encLs ..) rfl

theorem Laws.EncodingShape.barvTx (sd sb : BitVec 6) (off : BitVec 23) : Laws.EncodingShape.Statement (.barvTx sd sb off) :=
  shape_two _ rfl rfl (opcodeOf_encLs ..) rfl

theorem Laws.EncodingShape.barvArrtx (sd sb : BitVec 6) (off : BitVec 23) : Laws.EncodingShape.Statement (.barvArrtx sd sb off) :=
  shape_two _ rfl rfl (opcodeOf_encLs ..) rfl

theorem Laws.EncodingShape.bwait (sd sb : BitVec 6) (off : BitVec 23) : Laws.EncodingShape.Statement (.bwait sd sb off) :=
  shape_two _ rfl rfl (opcodeOf_encLs ..) rfl

theorem Laws.EncodingShape.fence (kind : FKind) (scope : Scope) : Laws.EncodingShape.Statement (.fence kind scope) :=
  shape_one _ rfl rfl (opcodeOf_encP ..) rfl

theorem Laws.EncodingShape.sapp (sd sb sc : BitVec 6) (off : BitVec 23) : Laws.EncodingShape.Statement (.sapp sd sb sc off) :=
  shape_two _ rfl rfl (opcodeOf_encLs ..) rfl

theorem Laws.EncodingShape.ldk (d : BitVec 7) (m : LAddr) (ahead : BitVec 4) (size : MSize) (off : BitVec 23) : Laws.EncodingShape.Statement (.ldk d m ahead size off) :=
  shape_two _ rfl rfl (opcodeOf_encL ..) rfl

theorem Laws.EncodingShape.stk (d : BitVec 7) (m : LAddr) (size : MSize) (off : BitVec 23) : Laws.EncodingShape.Statement (.stk d m size off) :=
  shape_two _ rfl rfl (opcodeOf_encL ..) rfl

theorem Laws.EncodingShape.xcp (d sa sb tok : BitVec 6) (batch : Bool) (nm1 : BitVec 6) (bytes : Bool) : Laws.EncodingShape.Statement (.xcp d sa sb tok batch nm1 bytes) :=
  shape_two _ rfl rfl (opcodeOf_encE ..) rfl

theorem Laws.EncodingShape.xdrain : Laws.EncodingShape.Statement .xdrain :=
  shape_two _ rfl rfl (opcodeOf_encE ..) rfl

theorem Laws.EncodingShape.xqry (sd : BitVec 6) : Laws.EncodingShape.Statement (.xqry sd) :=
  shape_two _ rfl rfl (opcodeOf_encE ..) rfl

theorem Laws.EncodingShape.mma (d : BitVec 7) (sa sb tok : BitVec 6) : Laws.EncodingShape.Statement (.mma d sa sb tok) :=
  shape_two _ rfl rfl (opcodeOf_encE ..) rfl

theorem Laws.EncodingShape.mzero (d : BitVec 7) : Laws.EncodingShape.Statement (.mzero d) :=
  shape_two _ rfl rfl (opcodeOf_encE ..) rfl

theorem Laws.EncodingShape.mfenceOpr : Laws.EncodingShape.Statement .mfenceOpr :=
  shape_two _ rfl rfl (opcodeOf_encE ..) rfl

theorem Laws.EncodingShape.mprio (p : BitVec 2) : Laws.EncodingShape.Statement (.mprio p) :=
  shape_two _ rfl rfl (opcodeOf_encE ..) rfl

theorem Laws.EncodingShape.hld (d : BitVec 7) (sa tok : BitVec 6) (age : BitVec 4) (filter : HFilter) (fault short : Bool) (mm cm1 : BitVec 4) (vc vp : BitVec 7) (lp : Bool) : Laws.EncodingShape.Statement (.hld d sa tok age filter fault short mm cm1 vc vp lp) :=
  shape_two _ rfl rfl (opcodeOf_encE ..) rfl

theorem Laws.EncodingShape.hopen (sa sb tok : BitVec 6) : Laws.EncodingShape.Statement (.hopen sa sb tok) :=
  shape_two _ rfl rfl (opcodeOf_encE ..) rfl

theorem Laws.EncodingShape.hmw (d : BitVec 7) (sa tok : BitVec 6) (vp : BitVec 7) (lp : Bool) : Laws.EncodingShape.Statement (.hmw d sa tok vp lp) :=
  shape_two _ rfl rfl (opcodeOf_encE ..) rfl

theorem Laws.EncodingShape.hseal (sa sb tok : BitVec 6) (pages : BitVec 20) : Laws.EncodingShape.Statement (.hseal sa sb tok pages) :=
  shape_two _ rfl rfl (opcodeOf_encE ..) rfl

theorem Laws.EncodingShape.hshort (sa sb tok : BitVec 6) (slot : BitVec 2) (k j : BitVec 4) : Laws.EncodingShape.Statement (.hshort sa sb tok slot k j) :=
  shape_two _ rfl rfl (opcodeOf_encE ..) rfl

theorem Laws.EncodingShape.hinv (sa sb tok : BitVec 6) (n : BitVec 20) : Laws.EncodingShape.Statement (.hinv sa sb tok n) :=
  shape_two _ rfl rfl (opcodeOf_encE ..) rfl

theorem Laws.EncodingShape.hqry (sa sb tok : BitVec 6) (sel : BitVec 4) (sslot : BitVec 2) (vp : BitVec 7) (lp : Bool) : Laws.EncodingShape.Statement (.hqry sa sb tok sel sslot vp lp) :=
  shape_two _ rfl rfl (opcodeOf_encE ..) rfl

theorem Laws.EncodingShape.lins (d : BitVec 7) (sa tok : BitVec 6) (lp : Bool) : Laws.EncodingShape.Statement (.lins d sa tok lp) :=
  shape_two _ rfl rfl (opcodeOf_encE ..) rfl

theorem Laws.EncodingShape.lres (sa sb tok : BitVec 6) (free cov : Bool) (vp : BitVec 7) (lp : Bool) : Laws.EncodingShape.Statement (.lres sa sb tok free cov vp lp) :=
  shape_two _ rfl rfl (opcodeOf_encE ..) rfl

theorem Laws.EncodingShape.lclr (sa tok : BitVec 6) (vp : BitVec 7) (lp : Bool) : Laws.EncodingShape.Statement (.lclr sa tok vp lp) :=
  shape_two _ rfl rfl (opcodeOf_encE ..) rfl

theorem Laws.EncodingShape.lqry (d : BitVec 7) (sa tok : BitVec 6) (layer : BitVec 4) (vp : BitVec 7) (lp : Bool) : Laws.EncodingShape.Statement (.lqry d sa tok layer vp lp) :=
  shape_two _ rfl rfl (opcodeOf_encE ..) rfl

theorem Laws.EncodingShape.cinit (d : BitVec 7) (sa sb tok : BitVec 6) (sp : Bool) (va : BitVec 7) (lv : Bool) : Laws.EncodingShape.Statement (.cinit d sa sb tok sp va lv) :=
  shape_two _ rfl rfl (opcodeOf_encE ..) rfl

theorem Laws.EncodingShape.cacc (d : BitVec 7) (sa tok : BitVec 6) (sp : Bool) (va : BitVec 7) (lv : Bool) : Laws.EncodingShape.Statement (.cacc d sa tok sp va lv) :=
  shape_two _ rfl rfl (opcodeOf_encE ..) rfl

theorem Laws.EncodingShape.cflush (sa tok : BitVec 6) (sp : Bool) (va : BitVec 7) (lv : Bool) : Laws.EncodingShape.Statement (.cflush sa tok sp va lv) :=
  shape_two _ rfl rfl (opcodeOf_encE ..) rfl

theorem Laws.EncodingShape.crd (d : BitVec 7) (sa tok : BitVec 6) (sp : Bool) (va : BitVec 7) (lv : Bool) : Laws.EncodingShape.Statement (.crd d sa tok sp va lv) :=
  shape_two _ rfl rfl (opcodeOf_encE ..) rfl

theorem Laws.EncodingShape.cadj (d : BitVec 7) (sa tok : BitVec 6) (sp : Bool) (va : BitVec 7) (lv : Bool) : Laws.EncodingShape.Statement (.cadj d sa tok sp va lv) :=
  shape_two _ rfl rfl (opcodeOf_encE ..) rfl

theorem Laws.EncodingShape.rtrace (d : BitVec 7) (sa tok : BitVec 6) (first cullb yield : Bool) (mask : BitVec 8) (vr : BitVec 7) (lr : Bool) : Laws.EncodingShape.Statement (.rtrace d sa tok first cullb yield mask vr lr) :=
  shape_two _ rfl rfl (opcodeOf_encE ..) rfl

theorem Laws.EncodingShape.rtresume (d : BitVec 7) (tok : BitVec 6) (ma : BitVec 4) : Laws.EncodingShape.Statement (.rtresume d tok ma) :=
  shape_two _ rfl rfl (opcodeOf_encE ..) rfl

theorem Laws.EncodingShape.rtsave (sa tok : BitVec 6) (va : BitVec 7) (lv : Bool) : Laws.EncodingShape.Statement (.rtsave sa tok va lv) :=
  shape_two _ rfl rfl (opcodeOf_encE ..) rfl

theorem Laws.EncodingShape.rtload (d : BitVec 7) (sa tok : BitVec 6) (va : BitVec 7) (lv : Bool) : Laws.EncodingShape.Statement (.rtload d sa tok va lv) :=
  shape_two _ rfl rfl (opcodeOf_encE ..) rfl

theorem Laws.EncodingShape.rtabort (tok : BitVec 6) : Laws.EncodingShape.Statement (.rtabort tok) :=
  shape_two _ rfl rfl (opcodeOf_encE ..) rfl

theorem Laws.EncodingShape.wgalloc (d : BitVec 7) (sa : BitVec 6) (node : BitVec 6) : Laws.EncodingShape.Statement (.wgalloc d sa node) :=
  shape_two _ rfl rfl (opcodeOf_encE ..) rfl

theorem Laws.EncodingShape.wgallocTry (d : BitVec 7) (sa : BitVec 6) (mf : BitVec 4) (node : BitVec 6) : Laws.EncodingShape.Statement (.wgallocTry d sa mf node) :=
  shape_two _ rfl rfl (opcodeOf_encE ..) rfl

theorem Laws.EncodingShape.wgcommit (d : BitVec 7) (sa : BitVec 6) (node : BitVec 6) : Laws.EncodingShape.Statement (.wgcommit d sa node) :=
  shape_two _ rfl rfl (opcodeOf_encE ..) rfl

theorem Laws.EncodingShape.dlaunch (d : BitVec 7) : Laws.EncodingShape.Statement (.dlaunch d) :=
  shape_two _ rfl rfl (opcodeOf_encE ..) rfl

theorem Laws.EncodingShape.dlaunchS (sa : BitVec 6) : Laws.EncodingShape.Statement (.dlaunchS sa) :=
  shape_two _ rfl rfl (opcodeOf_encE ..) rfl

theorem Laws.EncodingShape.rep (count : BitVec 6) (dstr astr bstr : BitVec 3) : Laws.EncodingShape.Statement (.rep count dstr astr bstr) :=
  shape_one _ rfl rfl (opcodeOf_encP ..) rfl

theorem Laws.EncodingShape.trap (code : BitVec 8) : Laws.EncodingShape.Statement (.trap code) :=
  shape_one _ rfl rfl (opcodeOf_encP ..) rfl

theorem Laws.EncodingShape.tret : Laws.EncodingShape.Statement .tret :=
  shape_one _ rfl rfl (opcodeOf_encP ..) rfl

theorem Laws.EncodingShape.hsr (sd : BitVec 6) (sel : BitVec 16) : Laws.EncodingShape.Statement (.hsr sd sel) :=
  shape_one _ rfl rfl (opcodeOf_encP ..) rfl

theorem Laws.EncodingShape.hbar (sd : BitVec 6) : Laws.EncodingShape.Statement (.hbar sd) :=
  shape_one _ rfl rfl (opcodeOf_encP ..) rfl

theorem Laws.EncodingShape.hsw (sel : BitVec 16) (sa : BitVec 6) : Laws.EncodingShape.Statement (.hsw sel sa) :=
  shape_one _ rfl rfl (opcodeOf_encP ..) rfl

theorem Laws.EncodingShape.texitDone : Laws.EncodingShape.Statement .texitDone :=
  shape_one _ rfl rfl (opcodeOf_encP ..) rfl

theorem Laws.EncodingShape.texitSaved : Laws.EncodingShape.Statement .texitSaved :=
  shape_one _ rfl rfl (opcodeOf_encP ..) rfl

theorem Laws.EncodingShape.icinv : Laws.EncodingShape.Statement .icinv :=
  shape_one _ rfl rfl (opcodeOf_encP ..) rfl

theorem Laws.EncodingShape.longLatencyResult (team gid idx : Nat) 
    : Laws.EncodingShape.Statement (.longLatencyResult team gid idx) := .inl ⟨rfl, rfl⟩

theorem Laws.EncodingShape.atomReturn (team gid fl : Nat) : Laws.EncodingShape.Statement (.atomReturn team gid fl) := .inl ⟨rfl, rfl⟩

theorem Laws.EncodingShape.redPerform (red : Nat) : Laws.EncodingShape.Statement (.redPerform red) := .inl ⟨rfl, rfl⟩

theorem Laws.EncodingShape.barrierArrival (item : Nat) : Laws.EncodingShape.Statement (.barrierArrival item) := .inl ⟨rfl, rfl⟩

theorem Laws.EncodingShape.bwaitWake (team gid fl : Nat) : Laws.EncodingShape.Statement (.bwaitWake team gid fl) := .inl ⟨rfl, rfl⟩

theorem Laws.EncodingShape.queueRetest (team gid fl : Nat) 
    : Laws.EncodingShape.Statement (.queueRetest team gid fl) := .inl ⟨rfl, rfl⟩

theorem Laws.EncodingShape.recordFreeWaitEnd (team gid fl : Nat) 
    : Laws.EncodingShape.Statement (.recordFreeWaitEnd team gid fl) := .inl ⟨rfl, rfl⟩

theorem Laws.EncodingShape.yieldExpiry (team gid fl : Nat) 
    : Laws.EncodingShape.Statement (.yieldExpiry team gid fl) := .inl ⟨rfl, rfl⟩

theorem Laws.EncodingShape.trapEntry (team gid : Nat) : Laws.EncodingShape.Statement (.trapEntry team gid) := .inl ⟨rfl, rfl⟩

theorem Laws.EncodingShape.preempt (team : Nat) (areas : List (Nat × Nat)) 
    : Laws.EncodingShape.Statement (.preempt team areas) := .inl ⟨rfl, rfl⟩

theorem Laws.EncodingShape.teamRestore (team cluster : Nat) 
    : Laws.EncodingShape.Statement (.teamRestore team cluster) := .inl ⟨rfl, rfl⟩

theorem Laws.EncodingShape.hbarRelease (team : Nat) : Laws.EncodingShape.Statement (.hbarRelease team) := .inl ⟨rfl, rfl⟩

theorem Laws.EncodingShape.handlerResume (team gid : Nat) : Laws.EncodingShape.Statement (.handlerResume team gid) := .inl ⟨rfl, rfl⟩

theorem Laws.EncodingShape.contextKill (ctx : Nat) : Laws.EncodingShape.Statement (.contextKill ctx) := .inl ⟨rfl, rfl⟩

theorem Laws.EncodingShape.engineReset (unit : Engine) : Laws.EncodingShape.Statement (.engineReset unit) := .inl ⟨rfl, rfl⟩

theorem Laws.EncodingShape.pagePresent (ctx va : Nat) (entries : Option (List (Nat × BitVec 64))) 
    : Laws.EncodingShape.Statement (.pagePresent ctx va entries) := .inl ⟨rfl, rfl⟩

theorem Laws.EncodingShape.pageMigrate (ctx va frame kind : Nat) (finish : Bool) 
    : Laws.EncodingShape.Statement (.pageMigrate ctx va frame kind finish) := .inl ⟨rfl, rfl⟩

theorem Laws.EncodingShape.contextHalt (ctx : Nat) : Laws.EncodingShape.Statement (.contextHalt ctx) := .inl ⟨rfl, rfl⟩

theorem Laws.EncodingShape.launchEnqueue (ctx packet : Nat) (image : List (Nat × BitVec 8)) 
    : Laws.EncodingShape.Statement (.launchEnqueue ctx packet image) := .inl ⟨rfl, rfl⟩

theorem Laws.EncodingShape.dlaunchEnqueue (team gid fl : Nat) 
    : Laws.EncodingShape.Statement (.dlaunchEnqueue team gid fl) := .inl ⟨rfl, rfl⟩

theorem Laws.EncodingShape.dispatch (grid : Nat) : Laws.EncodingShape.Statement (.dispatch grid) := .inl ⟨rfl, rfl⟩

theorem Laws.EncodingShape.teamPlacement (grid : Nat) (cores : List Nat) 
    : Laws.EncodingShape.Statement (.teamPlacement grid cores) := .inl ⟨rfl, rfl⟩

theorem Laws.EncodingShape.groupRetire (team gid : Nat) : Laws.EncodingShape.Statement (.groupRetire team gid) := .inl ⟨rfl, rfl⟩

theorem Laws.EncodingShape.gridComplete (grid : Nat) : Laws.EncodingShape.Statement (.gridComplete grid) := .inl ⟨rfl, rfl⟩

theorem Laws.EncodingShape.wgallocGrant (team gid fl : Nat) 
    : Laws.EncodingShape.Statement (.wgallocGrant team gid fl) := .inl ⟨rfl, rfl⟩

theorem Laws.EncodingShape.batchTimeout (graph node : Nat) 
    : Laws.EncodingShape.Statement (.batchTimeout graph node) := .inl ⟨rfl, rfl⟩

theorem Laws.EncodingShape.batchDrain (graph node : Nat) : Laws.EncodingShape.Statement (.batchDrain graph node) := .inl ⟨rfl, rfl⟩

theorem Laws.EncodingShape.graphLoad (ctx addr : Nat) : Laws.EncodingShape.Statement (.graphLoad ctx addr) := .inl ⟨rfl, rfl⟩

theorem Laws.EncodingShape.graphUnload (graph : Nat) : Laws.EncodingShape.Statement (.graphUnload graph) := .inl ⟨rfl, rfl⟩

theorem Laws.EncodingShape.copyItemComplete (item idx : Nat) 
    : Laws.EncodingShape.Statement (.copyItemComplete item idx) := .inl ⟨rfl, rfl⟩

theorem Laws.EncodingShape.matrixGrant (cluster : Nat) : Laws.EncodingShape.Statement (.matrixGrant cluster) := .inl ⟨rfl, rfl⟩

theorem Laws.EncodingShape.mmaComplete (cluster : Nat) : Laws.EncodingShape.Statement (.mmaComplete cluster) := .inl ⟨rfl, rfl⟩

theorem Laws.EncodingShape.htuItemComplete (item : Nat) : Laws.EncodingShape.Statement (.htuItemComplete item) := .inl ⟨rfl, rfl⟩

theorem Laws.EncodingShape.hctlComplete (item : Nat) : Laws.EncodingShape.Statement (.hctlComplete item) := .inl ⟨rfl, rfl⟩

theorem Laws.EncodingShape.scrub (ctx space page : Nat) : Laws.EncodingShape.Statement (.scrub ctx space page) := .inl ⟨rfl, rfl⟩

theorem Laws.EncodingShape.lcuOperation (item : Nat) : Laws.EncodingShape.Statement (.lcuOperation item) := .inl ⟨rfl, rfl⟩

theorem Laws.EncodingShape.lcuItemComplete (item : Nat) : Laws.EncodingShape.Statement (.lcuItemComplete item) := .inl ⟨rfl, rfl⟩

theorem Laws.EncodingShape.raySlotBind (team gid fl : Nat) 
    : Laws.EncodingShape.Statement (.raySlotBind team gid fl) := .inl ⟨rfl, rfl⟩

theorem Laws.EncodingShape.traversalStep (team gid lane : Nat) 
    : Laws.EncodingShape.Statement (.traversalStep team gid lane) := .inl ⟨rfl, rfl⟩

theorem Laws.EncodingShape.rayItemComplete (item : Nat) : Laws.EncodingShape.Statement (.rayItemComplete item) := .inl ⟨rfl, rfl⟩

theorem Laws.EncodingShape.xdrainComplete (team gid fl : Nat) 
    : Laws.EncodingShape.Statement (.xdrainComplete team gid fl) := .inl ⟨rfl, rfl⟩

theorem Laws.EncodingShape.sliceCutChange (slices : Nat) : Laws.EncodingShape.Statement (.sliceCutChange slices) := .inl ⟨rfl, rfl⟩

theorem Laws.EncodingShape.deterministicModeSet (slice : Nat) (on : Bool) 
    : Laws.EncodingShape.Statement (.deterministicModeSet slice on) := .inl ⟨rfl, rfl⟩

theorem Laws.EncodingShape.replay (capture : Nat) : Laws.EncodingShape.Statement (.replay capture) := .inl ⟨rfl, rfl⟩

theorem Laws.EncodingShape.headConfigure (engine head : Nat) (cfg : HeadCfg) 
    : Laws.EncodingShape.Statement (.headConfigure engine head cfg) := .inl ⟨rfl, rfl⟩

theorem Laws.EncodingShape.frameLatch (engine head : Nat) : Laws.EncodingShape.Statement (.frameLatch engine head) := .inl ⟨rfl, rfl⟩

theorem Laws.EncodingShape.frameDone (engine head : Nat) : Laws.EncodingShape.Statement (.frameDone engine head) := .inl ⟨rfl, rfl⟩

theorem Laws.EncodingShape.encodeConfigure (engine stream : Nat) (cfg : StreamCfg) 
    : Laws.EncodingShape.Statement (.encodeConfigure engine stream cfg) := .inl ⟨rfl, rfl⟩

theorem Laws.EncodingShape.accessUnitWrite (engine stream : Nat) 
    : Laws.EncodingShape.Statement (.accessUnitWrite engine stream) := .inl ⟨rfl, rfl⟩

theorem Laws.EncodingShape.ringReturn (engine stream auIndex ceIndex : Nat) 
    : Laws.EncodingShape.Statement (.ringReturn engine stream auIndex ceIndex) := .inl ⟨rfl, rfl⟩

theorem Laws.EncodingShape.moduleReset : Laws.EncodingShape.Statement .moduleReset := .inl ⟨rfl, rfl⟩

theorem Laws.EncodingShape.bootStage : Laws.EncodingShape.Statement .bootStage := .inl ⟨rfl, rfl⟩

theorem Laws.EncodingShape.rollbackRequest (who : Requester) (value : Nat) 
    : Laws.EncodingShape.Statement (.rollbackRequest who value) := .inl ⟨rfl, rfl⟩

theorem Laws.EncodingShape.recoveryFlashImage (images : List FlashImage) 
    : Laws.EncodingShape.Statement (.recoveryFlashImage images) := .inl ⟨rfl, rfl⟩

theorem Laws.EncodingShape.getVersion (who : Requester) : Laws.EncodingShape.Statement (.getVersion who) := .inl ⟨rfl, rfl⟩

theorem Laws.EncodingShape.getCapabilities (who : Requester) : Laws.EncodingShape.Statement (.getCapabilities who) := .inl ⟨rfl, rfl⟩

theorem Laws.EncodingShape.negotiateAlgorithms (who : Requester) (algs : SpdmAlgs) 
    : Laws.EncodingShape.Statement (.negotiateAlgorithms who algs) := .inl ⟨rfl, rfl⟩

theorem Laws.EncodingShape.getDigests (who : Requester) : Laws.EncodingShape.Statement (.getDigests who) := .inl ⟨rfl, rfl⟩

theorem Laws.EncodingShape.getCertificate (who : Requester) (slot : Nat) 
    : Laws.EncodingShape.Statement (.getCertificate who slot) := .inl ⟨rfl, rfl⟩

theorem Laws.EncodingShape.challenge (who : Requester) (slot : Nat) (nonce : BitVec 256) 
    : Laws.EncodingShape.Statement (.challenge who slot nonce) := .inl ⟨rfl, rfl⟩

theorem Laws.EncodingShape.getMeasurements (who : Requester) (nonce : BitVec 256) 
    : Laws.EncodingShape.Statement (.getMeasurements who nonce) := .inl ⟨rfl, rfl⟩

theorem Laws.EncodingShape.linkDown (link : Link) : Laws.EncodingShape.Statement (.linkDown link) := .inl ⟨rfl, rfl⟩

theorem Laws.EncodingShape.clockLower (block : ClockBlock) : Laws.EncodingShape.Statement (.clockLower block) := .inl ⟨rfl, rfl⟩

theorem Laws.EncodingShape.clockRaise (block : ClockBlock) : Laws.EncodingShape.Statement (.clockRaise block) := .inl ⟨rfl, rfl⟩

theorem Laws.EncodingShape.clusterStart (cluster : Nat) : Laws.EncodingShape.Statement (.clusterStart cluster) := .inl ⟨rfl, rfl⟩

theorem Laws.EncodingShape.millerUncorrectable : Laws.EncodingShape.Statement .millerUncorrectable := .inl ⟨rfl, rfl⟩

/-- A reserved word encodes as itself, with its second word where the opcode has two. -/
theorem encode_reserved (w v : W32) :
    encode (.reservedOpcode w v) = if opWords (opcodeOf w) = 1 then some [w] else some [w, v] := rfl

theorem Laws.EncodingShape.reservedOpcode (w0 w1 : W32) : Laws.EncodingShape.Statement (.reservedOpcode w0 w1) := by
  rcases opWords_cases (opcodeOf w0) with h | h
  · exact shape_one _ rfl ((encode_reserved w0 w1).trans (if_pos h)) rfl h
  · exact shape_two _ rfl ((encode_reserved w0 w1).trans (if_neg (by omega))) rfl h

theorem Laws.EncodingShape.translationBufferInvalidation (ctx : Nat) (va : Option Nat) 
    : Laws.EncodingShape.Statement (.translationBufferInvalidation ctx va) := .inl ⟨rfl, rfl⟩

theorem Laws.EncodingShape.queueBind (slice queue ctx : Nat) 
    : Laws.EncodingShape.Statement (.queueBind slice queue ctx) := .inl ⟨rfl, rfl⟩

theorem Laws.EncodingShape.contextCreate (ctx slice root logBase handler capBase capBytes : Nat) 
    : Laws.EncodingShape.Statement (.contextCreate ctx slice root logBase handler capBase capBytes) := .inl ⟨rfl, rfl⟩

theorem Laws.EncodingShape.groupRemove (team gid : Nat) : Laws.EncodingShape.Statement (.groupRemove team gid) := .inl ⟨rfl, rfl⟩

theorem Laws.EncodingShape.hostPeerWindowAccess (who : Requester) (addr : Nat) (write : Option (List (BitVec 8))) (len : Nat) 
    : Laws.EncodingShape.Statement (.hostPeerWindowAccess who addr write len) := .inl ⟨rfl, rfl⟩

theorem Laws.EncodingShape.linkUp (link : Link) : Laws.EncodingShape.Statement (.linkUp link) := .inl ⟨rfl, rfl⟩

theorem Laws.EncodingShape.softError (site : ErrSite) (correctable : Bool) 
    : Laws.EncodingShape.Statement (.softError site correctable) := .inl ⟨rfl, rfl⟩

end Sys2Proof
end

