-- ==== Sys2Proof/Laws/Rules.lean ====
section
/-!
SUPPORT. The meanings of register instructions against their forms: the frames of vector, scalar and mask instructions, and
the equality of each operation with the text of its rule.
-/
namespace Sys2Proof.Machine

/-- The kills of the source fields are those that the form asks for. -/
theorem killsOf_two (a b : VSrc) (m : Mask) : killsOf m [vsrc a, vsrc b] = lastUse a m ++ lastUse b m := by
  cases ha : a.last <;> cases hb : b.last <;> simp [killsOf, lastUse, vsrc, ha, hb]

theorem killsOf_one (a : VSrc) (m : Mask) : killsOf m [vsrc a] = lastUse a m := by
  cases ha : a.last <;> simp [killsOf, lastUse, vsrc, ha]

/-- A sub-element lies below 2^w. -/
theorem subElem_lt (w i : Nat) (x : Word) : subElem w i x < 2 ^ w := Nat.mod_lt _ (Nat.two_pow_pos _)

/-- A meaning's lane result is its rule's when the operations agree on sub-elements. -/
theorem subLane_eq (v : View) {op rule : SubOp}
    (h : ∀ a b d, a < 2 ^ tyWidth v.et → b < 2 ^ tyWidth v.et → d < 2 ^ tyWidth v.et →
      op v.et v.rm v.sat a b d = rule v.et v.rm v.sat a b d) (a b d : Word) :
    v.subLane op a b d = ruleLane rule v.et v.rm v.sat a b d := by
  have : (fun i => op v.et v.rm v.sat (subElem (tyWidth v.et) i a) (subElem (tyWidth v.et) i b) (subElem (tyWidth v.et) i d)) =
    fun i => rule v.et v.rm v.sat (subElem (tyWidth v.et) i a) (subElem (tyWidth v.et) i b) (subElem (tyWidth v.et) i d) := by
    funext i
    exact h _ _ _ (subElem_lt _ _ _) (subElem_lt _ _ _) (subElem_lt _ _ _)
  unfold View.subLane mapSubs ruleLane subCount
  dsimp only
  rw [this]

/-- The effects of the forms are plain. -/
theorem plain_oneWrite (w : View) (d : Nat) (f : Nat → Word × Flags) (ks : List (Nat × Mask)) (fl : Nat) :
    (oneWrite w d f ks).Plain fl :=
  ⟨by simp [oneWrite], by simp [oneWrite], by simp [oneWrite], by simp [oneWrite], .inl rfl, by simp [oneWrite]⟩

theorem plain_oneLater (w : View) (d : Nat) (f : Nat → Word × Flags) (ks : List (Nat × Mask)) (n : BitVec 4) :
    (oneLater w d f ks n).Plain w.fl := by
  refine ⟨by simp [oneLater], by simp [oneLater], by simp [oneLater], by simp [oneLater], .inr rfl, ?_⟩
  intro p hp
  simp only [oneLater, Option.some.injEq] at hp
  subst hp
  refine ⟨rfl, ?_, by simp⟩
  dsimp only; split <;> simp

/-- The flags and the values of a function over the lanes of a mask. -/
theorem ofFn_pick {α β : Type} (p : α → β) (c : Nat → Bool) (f : Nat → α) (z : α) (y : β) (hz : p z = y) :
    (Vector.ofFn fun (i : Fin 32) => p (Vector.ofFn fun (j : Fin 32) => if c j.val then f j.val else z)[i.val]) =
      Vector.ofFn fun (i : Fin 32) => if c i.val then p (f i.val) else y := by
  apply Vector.ext
  intro i hi
  rw [Vector.getElem_ofFn, Vector.getElem_ofFn, Vector.getElem_ofFn]
  dsimp only
  split
  · rfl
  · exact hz

/-- `laneWrite` is the form's completion. -/
theorem View.laneWrite_eq (w : View) (st : BitVec 10) (d : Nat) (ks : List (Nat × Mask)) (f : Nat → Word × Flags) :
    w.laneWrite st d (w.eff false) ks f =
      if w.fpxLanes (laneFlags w f) = 0#32 then w.finish (st ||| allFlags (laneFlags w f)) (oneWrite w d f ks)
      else w.trap (st ||| allFlags (laneFlags w f)) 0x0B (hinfoLanes (w.fpxLanes (laneFlags w f))) := by
  have h1 := ofFn_pick Prod.snd (fun l => (w.eff false).getLsbD l) f (0, 0) (0 : Flags) rfl
  have h2 := ofFn_pick Prod.fst (fun l => (w.eff false).getLsbD l) f (0, 0) (0 : Word) rfl
  unfold View.laneWrite
  dsimp only at h1 h2 ⊢
  rw [h1, h2]
  unfold View.finishFlags oneWrite laneFlags lanesFrom
  dsimp only
  split
  · rename_i h; rw [if_neg (by simpa using h)]
  · rename_i h; rw [if_pos (by simpa using h)]

theorem View.laneLater_eq (w : View) (st : BitVec 10) (d : Nat) (ks : List (Nat × Mask)) (n : BitVec 4) (f : Nat → Word × Flags) :
    w.laneLater st d (w.eff false) ks n f =
      if w.fpxLanes (laneFlags w f) = 0#32 then w.finish (st ||| allFlags (laneFlags w f)) (oneLater w d f ks n)
      else w.trap (st ||| allFlags (laneFlags w f)) 0x0B (hinfoLanes (w.fpxLanes (laneFlags w f))) := by
  have h1 := ofFn_pick Prod.snd (fun l => (w.eff false).getLsbD l) f (0, 0) (0 : Flags) rfl
  have h2 := ofFn_pick Prod.fst (fun l => (w.eff false).getLsbD l) f (0, 0) (0 : Word) rfl
  have h3 : ∀ x : LaneVec, ([(d, w.eff false, x)].filter fun y => !inRuns w.heldV y.1) =
      if inRuns w.heldV d then [] else [(d, w.eff false, x)] := by
    intro x; cases h : inRuns w.heldV d <;> simp [h]
  unfold View.laneLater
  dsimp only at h1 h2 ⊢
  rw [h1, h2]
  unfold View.finishFlags oneLater laneFlags lanesFrom View.laterV
  rw [h3]
  dsimp only
  by_cases h : w.fpxLanes (Vector.ofFn fun (l : Fin 32) => if (w.eff false).getLsbD l.val = true then (f l.val).2 else 0) = 0#32
  · rw [if_pos h, if_neg (by simpa using h)]
  · rw [if_neg h, if_pos (by simpa using h)]

/-- An instruction that issues has an accepted element type. -/
theorem Form.CanIssue.ill {F : Form} {s : State} {v : View} (h : F.CanIssue s v) : F.ill v = false := by
  have := h.2.2.2
  unfold View.canIssue at this
  simp only [Bool.and_eq_true, Bool.not_eq_true'] at this
  exact this.1.1.1.1.2

/-- A meaning of two or three vector sources has its form. -/
theorem Form.means_vector3 {i : Instr} {d : BitVec 7} {a b : VSrc} {rd : Bool} {ok ok' : ETy → Bool} {op rule : SubOp}
    (hok : ∀ t, ok t = ok' t)
    (hop : ∀ t rm sat a b d, ok t = true → a < 2 ^ tyWidth t → b < 2 ^ tyWidth t → d < 2 ^ tyWidth t →
      op t rm sat a b d = rule t rm sat a b d)
    (h : ∀ s, exec i s = withIssuer s 1 fun v => v.vec3 d.toNat (vsrc a) (vsrc b) rd ok op) :
    ∃ body, (Form.vector3 d a b rd ok' rule).Means i body := by
  have : ok = ok' := by funext t; exact hok t
  subst this
  refine ⟨fun v w st => w.laneWrite st d.toNat (v.eff false) (killsOf (v.eff false) [vsrc a, vsrc b]) fun l =>
      w.subLane op (lane (w.rdV (vsrc a).reg) l) (lane (w.rdV (vsrc b).reg) l) (lane (w.rdV d.toNat) l),
    ⟨by simp [Form.vector3], fun w => plain_oneWrite _ _ _ _ _, h, ?_⟩⟩
  intro s v hc hm
  have hok : ok v.et = true := by
    have := hc.ill
    simpa [Form.vector3] using this
  have ha := View.Alike.readied v [opRun d.toNat 1 rd, opRd a.reg.toNat, opRd b.reg.toNat]
  generalize hw : (Form.vector3 d a b rd ok rule).issued v = w
  have ha : v.Alike w := by rw [← hw]; exact ha
  have he : v.eff false = w.eff false := (ha.eff false).symm
  unfold Form.vector3 at *
  dsimp only
  rw [he, View.laneWrite_eq, killsOf_two]
  have hf : ∀ x y z, w.subLane op x y z = ruleLane rule w.et w.rm w.sat x y z := fun x y z =>
    subLane_eq w (fun p q r hp hq hr => hop _ _ _ _ _ _ (by rw [ha.et]; exact hok) hp hq hr) x y z
  unfold Form.bits Form.after
  rw [hw]
  simp only [hf, he]
  simp [vsrc]
  try rfl

/-- A meaning of one vector source has its form. -/
theorem Form.means_vector1 {i : Instr} {d : BitVec 7} {a : VSrc} {ok ok' : ETy → Bool} {op rule : SubOp}
    (hok : ∀ t, ok t = ok' t)
    (hop : ∀ t rm sat a, ok t = true → a < 2 ^ tyWidth t → op t rm sat a 0 0 = rule t rm sat a 0 0)
    (h : ∀ s, exec i s = withIssuer s 1 fun v => v.vec1 d.toNat (vsrc a) ok op) :
    ∃ body, (Form.vector1 d a ok' rule).Means i body := by
  have : ok = ok' := by funext t; exact hok t
  subst this
  refine ⟨fun v w st => w.laneWrite st d.toNat (v.eff false) (killsOf (v.eff false) [vsrc a]) fun l =>
      w.subLane op (lane (w.rdV (vsrc a).reg) l) 0 0,
    ⟨by simp [Form.vector1], fun w => plain_oneWrite _ _ _ _ _, h, ?_⟩⟩
  intro s v hc hm
  have hok : ok v.et = true := by
    have := hc.ill
    simpa [Form.vector1] using this
  have ha := View.Alike.readied v [opWr d.toNat, opRd a.reg.toNat]
  generalize hw : (Form.vector1 d a ok rule).issued v = w
  have ha : v.Alike w := by rw [← hw]; exact ha
  have he : v.eff false = w.eff false := (ha.eff false).symm
  unfold Form.vector1 at *
  dsimp only
  rw [he, View.laneWrite_eq, killsOf_one]
  have hf : ∀ x, w.subLane op x 0 0 = ruleLane rule w.et w.rm w.sat x 0 0 := fun x => by
    have h0 : ∀ i, subElem (tyWidth w.et) i 0 = 0 := by intro i; simp [subElem]
    unfold View.subLane mapSubs ruleLane subCount
    dsimp only
    simp only [h0]
    have : (fun i => op w.et w.rm w.sat (subElem (tyWidth w.et) i x) 0 0) =
        fun i => rule w.et w.rm w.sat (subElem (tyWidth w.et) i x) 0 0 := by
      funext i; exact hop _ _ _ _ (by rw [ha.et]; exact hok) (subElem_lt _ _ _)
    rw [this]
  unfold Form.bits Form.after
  rw [hw]
  simp only [hf, he]
  simp [vsrc]
  try rfl

/-- A division has its form. -/
theorem Form.means_later2 {i : Instr} {d : BitVec 7} {a b : VSrc} {n : BitVec 4} {ok ok' : ETy → Bool} {op rule : SubOp}
    (hok : ∀ t, ok t = ok' t)
    (hop : ∀ t rm sat a b d, ok t = true → a < 2 ^ tyWidth t → b < 2 ^ tyWidth t → d < 2 ^ tyWidth t →
      op t rm sat a b d = rule t rm sat a b d)
    (h : ∀ s, exec i s = withIssuer s 2 fun v => v.vecLater d.toNat (vsrc a) (vsrc b) n ok op) :
    ∃ body, (Form.later2 d a b n ok' rule).Means i body := by
  have : ok = ok' := by funext t; exact hok t
  subst this
  refine ⟨fun v w st => w.laneLater st d.toNat (v.eff false) (killsOf (v.eff false) [vsrc a, vsrc b]) n fun l =>
      w.subLane op (lane (w.rdV (vsrc a).reg) l) (lane (w.rdV (vsrc b).reg) l) 0,
    ⟨by simp [Form.later2], fun w => plain_oneLater _ _ _ _ _, h, ?_⟩⟩
  intro s v hc hm
  have hok : ok v.et = true := by
    have := hc.ill
    simpa [Form.later2] using this
  have ha := View.Alike.readied v [opWr d.toNat, opRd a.reg.toNat, opRd b.reg.toNat]
  generalize hw : (Form.later2 d a b n ok rule).issued v = w
  have ha : v.Alike w := by rw [← hw]; exact ha
  have he : v.eff false = w.eff false := (ha.eff false).symm
  unfold Form.later2 at *
  dsimp only
  rw [he, View.laneLater_eq, killsOf_two]
  have hf : ∀ x y z, w.subLane op x y z = ruleLane rule w.et w.rm w.sat x y z := fun x y z =>
    subLane_eq w (fun p q r hp hq hr => hop _ _ _ _ _ _ (by rw [ha.et]; exact hok) hp hq hr) x y z
  unfold Form.bits Form.after
  rw [hw]
  simp only [hf, he]
  simp [vsrc]
  try rfl

/-- A special function has its form. -/
theorem Form.means_later1 {i : Instr} {d : BitVec 7} {a : VSrc} {n : BitVec 4} {ok : ETy → Bool} {op : SubOp}
    (h : ∀ s, exec i s = withIssuer s 2 fun v =>
      v.issue none (!ok v.et) (v.eff false) [opWr d.toNat, opRd (vsrc a).reg] fun w st =>
        w.laneLater st d.toNat (v.eff false) (killsOf (v.eff false) [vsrc a]) n fun l => w.subLane op (lane (w.rdV (vsrc a).reg) l) 0 0) :
    ∃ body, (Form.later1 d a n ok op).Means i body := by
  refine ⟨fun v w st => w.laneLater st d.toNat (v.eff false) (killsOf (v.eff false) [vsrc a]) n fun l =>
      w.subLane op (lane (w.rdV (vsrc a).reg) l) 0 0,
    ⟨by simp [Form.later1], fun w => plain_oneLater _ _ _ _ _, h, ?_⟩⟩
  intro s v hc hm
  have ha := View.Alike.readied v [opWr d.toNat, opRd a.reg.toNat]
  generalize hw : (Form.later1 d a n ok op).issued v = w
  have ha : v.Alike w := by rw [← hw]; exact ha
  have he : v.eff false = w.eff false := (ha.eff false).symm
  unfold Form.later1 at *
  dsimp only
  rw [he, View.laneLater_eq, killsOf_one]
  have hf : ∀ x y z, w.subLane op x y z = ruleLane op w.et w.rm w.sat x y z := fun x y z =>
    subLane_eq w (fun p q r hp hq hr => rfl) x y z
  unfold Form.bits Form.after
  rw [hw]
  simp only [hf, he]
  simp [vsrc]
  try rfl

/-- The value of an integer sub-element. -/
theorem intVal_eq (t : ETy) {x : Nat} (h : x < 2 ^ tyWidth t) : intVal (tySigned t) (tyWidth t) x = ruleVal t x := by
  unfold intVal ruleVal
  have hp : 2 ^ tyWidth t = 2 * 2 ^ (tyWidth t - 1) := by cases t <;> decide
  cases hs : tySigned t
  · simp [Nat.mod_eq_of_lt h]
  · simp only [Bool.true_and, decide_eq_true_eq, if_true, BitVec.toInt_eq_toNat_cond, BitVec.toNat_ofNat, Nat.mod_eq_of_lt h]
    split <;> split <;> push_cast <;> omega

/-- The low bits. -/
theorem wrapInt_eq (t : ETy) (x : Int) : wrapInt (tyWidth t) x = ruleBits t x := by
  unfold wrapInt ruleBits
  rw [BitVec.toNat_ofInt]
  rfl

/-- Delivery under SAT. -/
theorem deliver_eq (t : ETy) (sat : Bool) (x : Int) : deliverInt (tySigned t) (tyWidth t) sat x = ruleInt t sat x := by
  unfold deliverInt ruleInt
  have h1 : intMin (tySigned t) (tyWidth t) = ruleMin t := by unfold intMin ruleMin; rfl
  have h2 : intMax (tySigned t) (tyWidth t) = ruleMax t := by unfold intMax ruleMax; rfl
  rw [h1, h2, wrapInt_eq, wrapInt_eq, wrapInt_eq]
  cases sat
  · rfl
  · simp only [Bool.true_and, decide_eq_true_eq, if_true]; rfl

/-- The two columns of an arithmetic operation. -/
theorem numOp_eq (fi : Int → Int → Int → Int) (ff : FFmt → RMode → FVal → FVal → FVal → Nat × Flags) (t : ETy) (rm : RMode)
    (sat : Bool) (a b d : Nat) (ha : a < 2 ^ tyWidth t) (hb : b < 2 ^ tyWidth t) (hd : d < 2 ^ tyWidth t) :
    numOp fi ff t rm sat a b d = ruleNum fi ff t rm sat a b d := by
  unfold numOp ruleNum
  cases tyFmt t with
  | some F => rfl
  | none => dsimp only; rw [deliver_eq, intVal_eq t ha, intVal_eq t hb, intVal_eq t hd]

/-- The rows of R119. -/
theorem okArith_eq (t : ETy) : okArith t = arithType t := by cases t <;> rfl

theorem okInt_eq (t : ETy) : okInt t = intType t := by cases t <;> rfl

theorem okFloat_eq (t : ETy) : okFloat t = floatType t := by cases t <;> rfl

/-- Minimum and maximum. -/
theorem minmax_eq (m : Bool) (t : ETy) (rm : RMode) (sat : Bool) (a b d : Nat) (ha : a < 2 ^ tyWidth t) (hb : b < 2 ^ tyWidth t) :
    opMinMax m t rm sat a b d = ruleMinMax m t rm sat a b d := by
  unfold opMinMax ruleMinMax
  cases tyFmt t with
  | some F => rfl
  | none =>
    dsimp only; rw [intVal_eq t ha, intVal_eq t hb]
    cases m <;> by_cases h : ruleVal t a < ruleVal t b <;> simp [h, flNone]

/-- Shifts. -/
theorem shl_eq (t : ETy) (n : Nat) (a : Nat) : a * 2 ^ n % 2 ^ tyWidth t = (BitVec.ofNat (tyWidth t) a <<< n).toNat := by
  rw [BitVec.toNat_shiftLeft, BitVec.toNat_ofNat, Nat.shiftLeft_eq, Nat.mod_mul_mod]

theorem shr_eq (t : ETy) (n : Nat) {a : Nat} (ha : a < 2 ^ tyWidth t) :
    wrapInt (tyWidth t) ((intVal (tySigned t) (tyWidth t) a).fdiv (2 ^ n : Nat)) =
      (if tySigned t then (BitVec.ofNat (tyWidth t) a).sshiftRight n else BitVec.ofNat (tyWidth t) a >>> n).toNat := by
  rw [intVal_eq t ha, wrapInt_eq, Int.fdiv_eq_ediv_of_nonneg _ (by exact Int.natCast_nonneg _)]
  unfold ruleBits ruleVal
  cases tySigned t
  · simp only [Bool.false_eq_true, if_false]
    rw [← Int.natCast_ediv, BitVec.ofInt_natCast, BitVec.toNat_ushiftRight, Nat.shiftRight_eq_div_pow, BitVec.toNat_ofNat, BitVec.toNat_ofNat]
    apply Nat.mod_eq_of_lt
    exact Nat.lt_of_le_of_lt (Nat.div_le_self _ _) (Nat.mod_lt _ (Nat.two_pow_pos _))
  · simp only [if_true, BitVec.sshiftRight, Int.shiftRight_eq_div_pow]

/-- Bitwise operations. -/
theorem bits_eq (w : Nat) (f : Nat → Nat → Nat) (g : BitVec w → BitVec w → BitVec w)
    (h : ∀ x y : BitVec w, (g x y).toNat = f x.toNat y.toNat) {a b : Nat} (ha : a < 2 ^ w) (hb : b < 2 ^ w) :
    f a b = (g (BitVec.ofNat w a) (BitVec.ofNat w b)).toNat := by
  rw [h]; simp [Nat.mod_eq_of_lt ha, Nat.mod_eq_of_lt hb]

theorem tyWidth_ne (t : ETy) : tyWidth t ≠ 0 := by cases t <;> decide

theorem field_eq (t : ETy) (b : Nat) : bitField (tyWidth t) b = ruleField t b := rfl

/-- Field extraction. -/
theorem bfx_eq (t : ETy) (rm : RMode) (sat : Bool) (a b d : Nat) (ha : a < 2 ^ tyWidth t) :
    opBfx t rm sat a b d = ruleBfx t rm sat a b d := by
  unfold opBfx ruleBfx
  dsimp only
  rw [field_eq]
  have hw : 0 < tyWidth t := Nat.pos_of_ne_zero (tyWidth_ne t)
  have hle : (ruleField t b).1 + (ruleField t b).2 ≤ tyWidth t := by
    unfold ruleField; dsimp only
    have := Nat.mod_lt b hw
    omega
  have hpos : 0 < (ruleField t b).2 := by
    unfold ruleField; dsimp only
    have := Nat.mod_lt b hw
    omega
  generalize (ruleField t b).1 = off at *
  generalize (ruleField t b).2 = wid at *
  have hx : ((BitVec.ofNat (tyWidth t) a).extractLsb' off wid) = BitVec.ofNat wid (a / 2 ^ off) := by
    apply BitVec.eq_of_toNat_eq
    rw [BitVec.extractLsb'_toNat, BitVec.toNat_ofNat, BitVec.toNat_ofNat, Nat.mod_eq_of_lt ha, Nat.shiftRight_eq_div_pow]
  rw [hx]
  refine Prod.ext ?_ rfl
  dsimp only
  rw [wrapInt_eq]
  unfold ruleBits intVal
  cases hs : tySigned t
  · simp only [Bool.false_and, Bool.false_eq_true, if_false, BitVec.zeroExtend]
    rw [BitVec.ofInt_natCast, BitVec.toNat_ofNat, BitVec.toNat_setWidth, BitVec.toNat_ofNat]
  · simp only [Bool.true_and, decide_eq_true_eq, if_true, BitVec.signExtend]
    congr 2
    rw [BitVec.toInt_eq_toNat_cond, BitVec.toNat_ofNat]
    have hp : 2 ^ wid = 2 * 2 ^ (wid - 1) := by
      obtain ⟨k, rfl⟩ := Nat.exists_eq_succ_of_ne_zero (Nat.ne_of_gt hpos)
      simp [Nat.pow_succ, Nat.mul_comm]
    split <;> split <;> push_cast <;> omega

/-- Field insertion. -/
theorem bfi_eq (t : ETy) (rm : RMode) (sat : Bool) (a b d : Nat) (_ : a < 2 ^ tyWidth t) (hd : d < 2 ^ tyWidth t) :
    opBfi t rm sat a b d = ruleBfi t rm sat a b d := by
  unfold opBfi ruleBfi
  dsimp only
  rw [field_eq]
  have hw : 0 < tyWidth t := Nat.pos_of_ne_zero (tyWidth_ne t)
  have hle : (ruleField t b).1 + (ruleField t b).2 ≤ tyWidth t := by
    unfold ruleField; dsimp only
    have := Nat.mod_lt b hw
    omega
  generalize (ruleField t b).1 = off at *
  generalize (ruleField t b).2 = wid at *
  refine Prod.ext ?_ rfl
  dsimp only
  generalize tyWidth t = w at *
  have key : ∀ i, (d % 2 ^ off + a % 2 ^ wid * 2 ^ off + d / 2 ^ (off + wid) * 2 ^ (off + wid)).testBit i =
      if i < off then d.testBit i else if i < off + wid then a.testBit (i - off) else d.testBit i := by
    intro i
    have h1 : d % 2 ^ off + a % 2 ^ wid * 2 ^ off + d / 2 ^ (off + wid) * 2 ^ (off + wid) =
        2 ^ off * (2 ^ wid * (d / 2 ^ (off + wid)) + a % 2 ^ wid) + d % 2 ^ off := by
      rw [Nat.pow_add, Nat.mul_add, Nat.mul_comm (d / _), Nat.mul_assoc (2 ^ off) (2 ^ wid), Nat.mul_comm (a % _)]
      omega
    rw [h1, Nat.testBit_two_pow_mul_add _ (Nat.mod_lt _ (Nat.two_pow_pos _)),
      Nat.testBit_two_pow_mul_add _ (Nat.mod_lt _ (Nat.two_pow_pos _))]
    split
    · rename_i h; rw [Nat.testBit_mod_two_pow]; simp [h]
    · rename_i h
      split
      · rename_i h'
        rw [Nat.testBit_mod_two_pow, if_pos (by omega)]
        simp [h']
      · rename_i h'
        rw [if_neg (by omega), Nat.testBit_div_two_pow]
        congr 1; omega
  apply Nat.eq_of_testBit_eq
  intro i
  rw [key]
  have hb : ∀ x : BitVec w, x.toNat.testBit i = x.getLsbD i := fun x => rfl
  rw [hb, BitVec.getLsbD_or, BitVec.getLsbD_and, BitVec.getLsbD_and, BitVec.getLsbD_not, BitVec.getLsbD_shiftLeft,
    BitVec.getLsbD_shiftLeft, BitVec.getLsbD_ofNat, BitVec.getLsbD_ofNat, BitVec.getLsbD_ofNat, Nat.testBit_two_pow_sub_one]
  by_cases h1 : i < w
  · by_cases h2 : i < off
    · simp [h1, h2]
    · by_cases h3 : i < off + wid
      · have : i - off < wid := by omega
        have h4 : i - off < w := by omega
        simp [h1, h2, h3, this, h4]
      · have : ¬ i - off < wid := by omega
        simp [h1, h2, h3, this]
  · have h2 : ¬ i < off := by omega
    have h3 : ¬ i < off + wid := by omega
    have : d.testBit i = false := Nat.testBit_lt_two_pow (Nat.lt_of_lt_of_le hd (Nat.pow_le_pow_right (by decide) (by omega)))
    simp [h1, h2, h3, this]

/-- Counting bits. -/
theorem popc_eq (n x : Nat) : popCount n x = (List.range n).countP fun i => x.testBit i := by
  induction n generalizing x with
  | zero => rfl
  | succ n ih =>
    rw [popCount, ih, List.range_succ_eq_map, List.countP_cons, List.countP_map]
    have : ((fun i => x.testBit i) ∘ Nat.succ) = fun i => (x / 2).testBit i := by
      funext i; simp [Nat.testBit_succ]
    rw [this, Nat.testBit_zero]
    have := Nat.mod_two_eq_zero_or_one x
    rcases this with h | h <;> simp [h] <;> omega

/-- Leading zeros. -/
theorem clz_eq (w a : Nat) (ha : a < 2 ^ w) (_ : 0 < w) :
    (if a = 0 then w else w - 1 - a.log2) = ((List.range w).find? fun i => a.testBit (w - 1 - i)).getD w := by
  by_cases h0 : a = 0
  · subst h0
    have : (List.range w).find? (fun i => (0:Nat).testBit (w - 1 - i)) = none := by simp
    rw [this]; simp
  · rw [if_neg h0]
    have hl : a.log2 < w := (Nat.log2_lt h0).mpr ha
    have : (List.range w).find? (fun i => a.testBit (w - 1 - i)) = some (w - 1 - a.log2) := by
      rw [List.find?_range_eq_some]
      refine ⟨?_, by simp; omega, ?_⟩
      · have : w - 1 - (w - 1 - a.log2) = a.log2 := by omega
        rw [this]; exact Nat.testBit_log2 h0
      · intro j hj
        have : a.testBit (w - 1 - j) = false := by
          apply Nat.testBit_lt_two_pow
          exact (Nat.log2_lt h0).mp (by omega)
        simp [this]
    rw [this]; rfl

/-- A scalar meaning has its form. -/
theorem Form.Means.scalar2 {i : Instr} {d : Nat} {a b : BitVec 6} {f k : Word → Word → Word} (hfk : ∀ x y, k x y = f x y)
    (h : ∀ s, exec i s = withIssuer s 1 fun v => v.sca2 d a.toNat b.toNat k) :
    (Form.scalar2 d a b f).Runs i := by
  have : k = f := by funext x y; exact hfk x y
  subst this
  refine (Form.Means.quiet (F := Form.scalar2 d a b k) (body := fun _ v st => v.finish st { sw := [(d, k (v.rdS a.toNat) (v.rdS b.toNat))] })
    (by simp [Form.scalar2]) (fun w => Eff.plain_s _ _ _) h (fun _ => rfl) ?_).runs
  intro s v hc hm
  simp [Form.scalar2, Form.after]

theorem Form.Means.scalar1 {i : Instr} {d a : BitVec 6} {f k : Word → Word} (hfk : ∀ x, k x = f x)
    (h : ∀ s, exec i s = withIssuer s 1 fun v => v.sca1 d.toNat a.toNat k) :
    (Form.scalar1 d a f).Runs i := by
  have : k = f := by funext x; exact hfk x
  subst this
  refine (Form.Means.quiet (F := Form.scalar1 d a k) (body := fun _ v st => v.finish st { sw := [(d.toNat, k (v.rdS a.toNat))] })
    (by simp [Form.scalar1]) (fun w => Eff.plain_s _ _ _) h (fun _ => rfl) ?_).runs
  intro s v hc hm
  simp [Form.scalar1, Form.after]

theorem Form.Means.maskTo {i : Instr} {d : BitVec 6} {a : BitVec 4} {f k : Mask → Word} (hfk : ∀ x, k x = f x)
    (h : ∀ s, exec i s = withIssuer s 1 fun v => v.maskTo d.toNat a.toNat k) :
    (Form.maskTo d a f).Runs i := by
  have : k = f := by funext x; exact hfk x
  subst this
  refine (Form.Means.quiet (F := Form.maskTo d a k) (body := fun _ v st => v.finish st { sw := [(d.toNat, k (v.rdM a.toNat))] })
    (by simp [Form.maskTo]) (fun w => Eff.plain_s _ _ _) h (fun _ => rfl) ?_).runs
  intro s v hc hm
  simp [Form.maskTo, Form.after]

/-- The lanes of a mask, counted and searched. -/
theorem lanesOf_length (x : Mask) : (lanesOf x).length = (List.range 32).countP fun l => x.getLsbD l := by
  simp [lanesOf, List.countP_eq_length_filter]

theorem lowestLane_eq (x : Mask) : lowestLane x = (List.range 32).find? fun l => x.getLsbD l := by
  simp [lowestLane, lanesOf]

theorem Eff.plain_m (d : BitVec 4) (x : Mask) (fl : Nat) : ({ mw := [(d.toNat, x)] } : Eff).Plain fl :=
  ⟨by simp, by simp, by simp, by simp; exact d.isLt, .inl rfl, by simp⟩

/-- A mask meaning has its form. -/
theorem Form.Means.mask2 {i : Instr} {d a b : BitVec 4} {f : Bool → Bool → Bool} {k : Mask → Mask → Mask}
    (hfk : ∀ x y l, l < 32 → (k x y).getLsbD l = f (x.getLsbD l) (y.getLsbD l))
    (h : ∀ s, exec i s = withIssuer s 1 fun v => v.mask2 d.toNat a.toNat b.toNat k) :
    (Form.mask2 d a b f).Runs i := by
  refine (Form.Means.quiet (F := Form.mask2 d a b f) (body := fun _ v st => v.finish st { mw := [(d.toNat, k (v.rdM a.toNat) (v.rdM b.toNat))] })
    (by simp [Form.mask2]) (fun w => Eff.plain_m _ _ _) h (fun _ => rfl) ?_).runs
  intro s v hc hm
  have : ∀ x y : Mask, k x y = maskOf fun l => f (x.getLsbD l) (y.getLsbD l) := by
    intro x y
    apply BitVec.eq_of_getLsbD_eq
    intro l hl
    rw [getLsbD_maskOf, hfk x y l hl]; simp [hl]
  simp [Form.mask2, Form.after, this]

theorem Form.Means.mask1 {i : Instr} {d a : BitVec 4} {f : Bool → Bool} {k : Mask → Mask}
    (hfk : ∀ x l, l < 32 → (k x).getLsbD l = f (x.getLsbD l))
    (h : ∀ s, exec i s = withIssuer s 1 fun v => v.mask1 d.toNat a.toNat k) :
    (Form.mask1 d a f).Runs i := by
  refine (Form.Means.quiet (F := Form.mask1 d a f) (body := fun _ v st => v.finish st { mw := [(d.toNat, k (v.rdM a.toNat))] })
    (by simp [Form.mask1]) (fun w => Eff.plain_m _ _ _) h (fun _ => rfl) ?_).runs
  intro s v hc hm
  have : ∀ x : Mask, k x = maskOf fun l => f (x.getLsbD l) := by
    intro x
    apply BitVec.eq_of_getLsbD_eq
    intro l hl
    rw [getLsbD_maskOf, hfk x l hl]; simp [hl]
  simp [Form.mask1, Form.after, this]

/-! ## Special functions -/

/-- The place that `sfuReach` gives: within its range, the lowest or one whose threshold is reached, and no higher one is. -/
theorem sfuReach_spec (step : Int → Int) (x : Int) (n : Nat) (top : Int) :
    top - n ≤ sfuReach step x n top ∧ sfuReach step x n top ≤ top ∧
      (sfuReach step x n top = top - n ∨ step (sfuReach step x n top) ≤ x) ∧
      ∀ k, top - n < k → k ≤ top → step k ≤ x → k ≤ sfuReach step x n top := by
  induction n generalizing top with
  | zero => simp only [sfuReach]; exact ⟨by omega, by omega, .inl (by omega), fun k h1 h2 _ => by omega⟩
  | succ n ih =>
    unfold sfuReach
    split
    · rename_i h
      exact ⟨by omega, by omega, .inr h, fun k _ h2 _ => h2⟩
    · rename_i h
      obtain ⟨h1, h2, h3, h4⟩ := ih (top - 1)
      refine ⟨by omega, by omega, ?_, fun k hk ht hs => ?_⟩
      · rcases h3 with h3 | h3
        · exact .inl (by omega)
        · exact .inr h3
      · rcases Int.lt_or_eq_of_le ht with h5 | rfl
        · exact h4 k (by omega) (by omega) hs
        · exact absurd hs h

/-- Over ranges and arguments that rise, `sfuReach` never falls, whatever the thresholds are (R114). -/
theorem sfuReach_mono (step : Int → Int) {x y lo hi lo' hi' : Int} (hx : x ≤ y) (h : lo ≤ hi) (h' : lo' ≤ hi') (hl : lo ≤ lo')
    (hh : hi ≤ hi') : sfuReach step x (hi - lo).toNat hi ≤ sfuReach step y (hi' - lo').toNat hi' := by
  obtain ⟨a1, a2, a3, -⟩ := sfuReach_spec step x (hi - lo).toNat hi
  obtain ⟨b1, b2, -, b4⟩ := sfuReach_spec step y (hi' - lo').toNat hi'
  generalize sfuReach step x (hi - lo).toNat hi = r at *
  generalize sfuReach step y (hi' - lo').toNat hi' = q at *
  rcases a3 with a3 | a3
  · omega
  · by_cases hr : lo' < r
    · exact b4 r (by omega) (by omega) (by omega)
    · omega

end Sys2Proof.Machine
end

