-- ==== Sys2Proof/Laws/Trees.lean ====
section
/-!
SUPPORT. The tree of R115 level by level and from the top, the operations at its nodes, and the frames of cross-lane
instructions.
-/
namespace Sys2Proof.Machine

/-! The tree -/

theorem treeLevel_append (f : Nat → Nat → Nat × Flags) : ∀ (n : Nat) (xs ys : List (Option Nat)), xs.length = 2 * n →
    treeLevel f (xs ++ ys) = ((treeLevel f xs).1 ++ (treeLevel f ys).1, (treeLevel f xs).2 ||| (treeLevel f ys).2) := by
  intro n
  induction n with
  | zero =>
    intro xs ys h
    have : xs = [] := List.length_eq_zero_iff.mp (by omega)
    subst this
    simp [treeLevel]
  | succ n ih =>
    intro xs ys h
    match xs, h with
    | a :: b :: t, h =>
      have := ih t ys (by simp at h; omega)
      simp only [List.cons_append, treeLevel, this, BitVec.or_assoc]

theorem treeLevel_length (f : Nat → Nat → Nat × Flags) : ∀ (n : Nat) (xs : List (Option Nat)), xs.length = 2 * n →
    (treeLevel f xs).1.length = n := by
  intro n
  induction n with
  | zero => intro xs h; have : xs = [] := List.length_eq_zero_iff.mp (by omega)
            subst this; simp [treeLevel]
  | succ n ih =>
    intro xs h
    match xs, h with
    | a :: b :: t, h =>
      have := ih t (by simp at h; omega)
      simp [treeLevel, this]

def ruleComb (f : Nat → Nat → Nat × Flags) (p q : Option Nat × Flags) : Option Nat × Flags :=
  match p.1, q.1 with
  | some x, some y => (some (f x y).1, p.2 ||| q.2 ||| (f x y).2)
  | some x, none => (some x, p.2 ||| q.2)
  | none, y => (y, p.2 ||| q.2)

theorem ruleTree_succ (f : Nat → Nat → Nat × Flags) (k : Nat) (xs : List (Option Nat)) :
    ruleTree f (k + 1) xs = ruleComb f (ruleTree f k (xs.take (2 ^ k))) (ruleTree f k (xs.drop (2 ^ k))) := rfl

theorem ruleTree_level (f : Nat → Nat → Nat × Flags) : ∀ (k : Nat) (xs : List (Option Nat)), xs.length = 2 ^ (k + 1) →
    ruleTree f (k + 1) xs = ((ruleTree f k (treeLevel f xs).1).1, (treeLevel f xs).2 ||| (ruleTree f k (treeLevel f xs).1).2) := by
  intro k
  induction k with
  | zero =>
    intro xs h
    match xs, h with
    | [a, b], _ =>
      cases a <;> cases b <;> simp [ruleTree, treeLevel, comb, List.take, List.head?]
  | succ k ih =>
    intro xs h
    have h2 : 2 ^ (k + 1 + 1) = 2 * 2 ^ (k + 1) := by rw [Nat.pow_succ, Nat.mul_comm]
    have h1 : 2 ^ (k + 1) = 2 * 2 ^ k := by rw [Nat.pow_succ, Nat.mul_comm]
    rw [ruleTree_succ, ih _ (by simp; omega), ih _ (by simp; omega), ruleTree_succ]
    have hx : xs = xs.take (2 ^ (k + 1)) ++ xs.drop (2 ^ (k + 1)) := (List.take_append_drop _ _).symm
    have hl : treeLevel f xs = ((treeLevel f (xs.take (2 ^ (k + 1)))).1 ++ (treeLevel f (xs.drop (2 ^ (k + 1)))).1,
        (treeLevel f (xs.take (2 ^ (k + 1)))).2 ||| (treeLevel f (xs.drop (2 ^ (k + 1)))).2) := by
      conv => lhs; rw [hx]
      exact treeLevel_append f (2 ^ k) (xs.take (2 ^ (k + 1))) (xs.drop (2 ^ (k + 1))) (by simp; omega)
    have len : (treeLevel f (xs.take (2 ^ (k + 1)))).1.length = 2 ^ k := treeLevel_length f _ _ (by simp; omega)
    rw [hl]
    dsimp only
    generalize treeLevel f (xs.take (2 ^ (k + 1))) = A at *
    generalize treeLevel f (xs.drop (2 ^ (k + 1))) = B at *
    have t1 : (A.1 ++ B.1).take (2 ^ k) = A.1 := by rw [← len, List.take_left]
    have t2 : (A.1 ++ B.1).drop (2 ^ k) = B.1 := by rw [← len, List.drop_left]
    rw [t1, t2]
    generalize ruleTree f k A.1 = P
    generalize ruleTree f k B.1 = Q
    have ac : ∀ a b c d : Flags, a ||| b ||| (c ||| d) = a ||| c ||| (b ||| d) := by
      intro a b c d
      rw [BitVec.or_assoc, BitVec.or_assoc, ← BitVec.or_assoc b c d, BitVec.or_comm b c, BitVec.or_assoc c b d]
    unfold ruleComb
    obtain ⟨p, pf⟩ := P
    obtain ⟨q, qf⟩ := Q
    cases p <;> cases q <;> simp only [Prod.mk.injEq, true_and] <;> rw [ac] <;> try rw [BitVec.or_assoc]

theorem treeRed_eq (f : Nat → Nat → Nat × Flags) : ∀ (k : Nat) (xs : List (Option Nat)), xs.length = 2 ^ k →
    treeRed f k xs = ruleTree f k xs := by
  intro k
  induction k with
  | zero => intro xs _; rfl
  | succ k ih =>
    intro xs h
    rw [ruleTree_level f k xs h]
    have : 2 ^ (k + 1) = 2 * 2 ^ k := by rw [Nat.pow_succ, Nat.mul_comm]
    unfold treeRed
    dsimp only
    rw [ih _ (treeLevel_length f _ _ (by omega))]

/-- Operations that agree on a closed set of values give the same tree. -/
theorem ruleTree_congr {f g : Nat → Nat → Nat × Flags} (P : Nat → Prop) (hc : ∀ x y, P x → P y → f x y = g x y ∧ P (f x y).1) :
    ∀ (k : Nat) (xs : List (Option Nat)), (∀ x, some x ∈ xs → P x) →
      ruleTree f k xs = ruleTree g k xs ∧ ∀ x, (ruleTree f k xs).1 = some x → P x := by
  intro k
  induction k with
  | zero =>
    intro xs h
    refine ⟨rfl, fun x hx => h x ?_⟩
    unfold ruleTree at hx
    cases xs with
    | nil => simp at hx
    | cons a t => simp at hx; simp [hx]
  | succ k ih =>
    intro xs h
    have h1 := ih (xs.take (2 ^ k)) fun x hx => h x (List.mem_of_mem_take hx)
    have h2 := ih (xs.drop (2 ^ k)) fun x hx => h x (List.mem_of_mem_drop hx)
    rw [ruleTree_succ, ruleTree_succ, ← h1.1, ← h2.1]
    generalize ruleTree f k (xs.take (2 ^ k)) = A at *
    generalize ruleTree f k (xs.drop (2 ^ k)) = B at *
    obtain ⟨a, af⟩ := A
    obtain ⟨b, bf⟩ := B
    unfold ruleComb
    cases a with
    | none =>
      refine ⟨rfl, fun x hx => ?_⟩
      exact h2.2 x hx
    | some a =>
      cases b with
      | none => exact ⟨rfl, fun x hx => h1.2 x hx⟩
      | some b =>
        have := hc a b (h1.2 a rfl) (h2.2 b rfl)
        dsimp only
        rw [← this.1]
        exact ⟨rfl, fun x hx => by simp at hx; rw [← hx]; exact this.2⟩

theorem ruleBits_lt (t : ETy) (x : Int) : ruleBits t x < 2 ^ tyWidth t := BitVec.isLt _

theorem node_agree (o : ROp) (t : ETy) (rm : RMode) (sat : Bool) (hok : redType o t = true) (x y : Nat)
    (hx : tyFmt t = none → x < 2 ^ tyWidth t) (hy : tyFmt t = none → y < 2 ^ tyWidth t) :
    redOp o t rm sat x y 0 = ruleNode o t rm sat x y 0 ∧ (tyFmt t = none → (redOp o t rm sat x y 0).1 < 2 ^ tyWidth t) := by
  have h0 : 0 < 2 ^ tyWidth t := Nat.two_pow_pos _
  cases ht : tyFmt t with
  | some F =>
    refine ⟨?_, by simp⟩
    cases o
    · simp only [redOp, ruleNode, opAdd, numOp, ruleNum, ht]
    · simp only [redOp, ruleNode, opMinMax, ruleMinMax, ht]; rfl
    · simp only [redOp, ruleNode, opMinMax, ruleMinMax, ht]; rfl
    all_goals (exfalso; cases t <;> simp [redType, intType, tyFmt] at hok ht)
  | none =>
    have hx := hx ht
    have hy := hy ht
    have hmm : ∀ m, (opMinMax m t rm sat x y 0).1 < 2 ^ tyWidth t := by
      intro m
      unfold opMinMax; rw [ht]; dsimp only
      repeat' split
      all_goals assumption
    cases o
    · have he := numOp_eq (fun a b _ => a + b) (fun F rm a b _ => fAdd F rm a b) t rm sat x y 0 hx hy h0
      refine ⟨he, fun _ => ?_⟩
      show (numOp (fun a b _ => a + b) (fun F rm a b _ => fAdd F rm a b) t rm sat x y 0).1 < _
      rw [he]
      unfold ruleNum ruleInt; rw [ht]; dsimp only
      repeat' split
      all_goals exact ruleBits_lt _ _
    · exact ⟨minmax_eq _ t rm sat x y 0 hx hy, fun _ => hmm _⟩
    · exact ⟨minmax_eq _ t rm sat x y 0 hx hy, fun _ => hmm _⟩
    · exact ⟨Prod.ext (bits_eq _ (fun x y => x &&& y) (fun x y => x &&& y) (fun x y => by simp) hx hy) rfl,
        fun _ => Nat.and_lt_two_pow _ hy⟩
    · exact ⟨Prod.ext (bits_eq _ (fun x y => x ||| y) (fun x y => x ||| y) (fun x y => by simp) hx hy) rfl,
        fun _ => Nat.or_lt_two_pow hx hy⟩
    · exact ⟨Prod.ext (bits_eq _ (fun x y => x ^^^ y) (fun x y => x ^^^ y) (fun x y => by simp) hx hy) rfl,
        fun _ => Nat.xor_lt_two_pow hx hy⟩

theorem tyWidth_cases (t : ETy) : tyWidth t = 4 ∨ tyWidth t = 8 ∨ tyWidth t = 16 ∨ tyWidth t = 32 ∨ tyWidth t = 64 := by
  cases t <;> decide

theorem okRed_eq (o : ROp) (t : ETy) : okRed o t = redType o t := by cases o <;> cases t <;> rfl

theorem redIdentity_eq (o : ROp) (t : ETy) : redIdentity o t = ruleIdentity o t := by
  cases o <;> cases t <;> rfl

theorem crossSub_eq (w : View) (r width sl ss : Nat) : w.crossSub r width sl ss = ruleSrc w r width sl ss := by
  unfold View.crossSub ruleSrc subCount View.laneThere
  by_cases h1 : ss < 64 / width
  · have : ¬ 64 / width ≤ ss := by omega
    cases h2 : w.g.launched.getLsbD sl <;> cases h3 : w.svc <;> cases h4 : w.g.live.getLsbD sl <;>
      cases h5 : inRuns w.heldV r <;> cases h6 : (w.vLive r).getLsbD sl <;> simp [h1, this]
  · have : 64 / width ≤ ss := by omega
    simp [h1, this]

theorem elements_eq (w : View) (r : Nat) : w.elements r (w.eff false) = ruleElements w r := by
  have hpos : 0 < subCount (tyWidth w.et) := by rcases tyWidth_cases w.et with h | h | h | h | h <;> rw [h] <;> decide
  have key : ∀ (n : Nat) (hn : 0 < n) (m : Nat) (g : Nat → Nat → Option Nat),
      ((List.range m).flatMap fun l => (List.range n).map fun s => g l s) = (List.range (m * n)).map fun e => g (e / n) (e % n) := by
    intro n hn m g
    induction m with
    | zero => simp
    | succ m ih =>
      rw [List.range_succ, List.flatMap_append, ih, Nat.succ_mul, List.range_add, List.map_append]
      congr 1
      simp only [List.flatMap_cons, List.flatMap_nil, List.append_nil, List.map_map]
      apply List.map_congr_left
      intro s hs
      rw [List.mem_range] at hs
      simp only [Function.comp]
      rw [Nat.mul_comm m n, Nat.mul_add_div hn, Nat.mul_add_mod, Nat.div_eq_of_lt hs, Nat.mod_eq_of_lt hs, Nat.add_zero]
  unfold View.elements ruleElements
  dsimp only
  rw [key (subCount (tyWidth w.et)) hpos 32 fun l s => if (w.eff false).getLsbD l then some (w.crossSub r (tyWidth w.et) l s) else none]
  unfold subCount
  simp only [crossSub_eq]

theorem ruleElements_length (w : View) (r : Nat) : (ruleElements w r).length = 2 ^ (5 + (64 / tyWidth w.et).log2) := by
  unfold ruleElements
  simp only [List.length_map, List.length_range]
  rcases tyWidth_cases w.et with h | h | h | h | h <;> rw [h] <;> decide

theorem reduce_eq (w : View) (o : ROp) (r : Nat) (hok : redType o w.et = true) (keep : Nat → Bool) :
    (let t := treeRed (fun x y => redOp o w.et w.rm w.sat x y 0) (treeDepth w.et)
      ((w.elements r (w.eff false)).zipIdx.map fun p => if keep p.2 then p.1 else none)
     (t.1.getD (redIdentity o w.et), t.2)) = ruleReduce w o r keep := by
  unfold ruleReduce treeDepth subCount
  dsimp only
  rw [elements_eq, treeRed_eq _ _ _ (by rw [List.length_map, List.length_zipIdx, ruleElements_length])]
  have := (ruleTree_congr (f := fun x y => redOp o w.et w.rm w.sat x y 0) (g := fun x y => ruleNode o w.et w.rm w.sat x y 0)
    (fun x => tyFmt w.et = none → x < 2 ^ tyWidth w.et) (fun x y hx hy => node_agree o w.et w.rm w.sat hok x y hx hy)
    (5 + (64 / tyWidth w.et).log2) ((ruleElements w r).zipIdx.map fun p => if keep p.2 then p.1 else none) (by
      intro x hx _
      rw [List.mem_map] at hx
      obtain ⟨p, hp, h⟩ := hx
      split at h
      · have := List.fst_mem_of_mem_zipIdx hp
        rw [h] at this
        unfold ruleElements at this
        rw [List.mem_map] at this
        obtain ⟨e, -, h⟩ := this
        split at h
        · simp only [Option.some.injEq] at h
          rw [← h]
          unfold ruleSrc
          split
          · exact subElem_lt _ _ _
          · exact Nat.mod_lt _ (Nat.two_pow_pos _)
        · simp at h
      · simp at h)).1
  rw [this, redIdentity_eq]

/-- The effects of these instructions are plain. -/
theorem plain_v (w : List (Nat × Mask × LaneVec)) (ks : List (Nat × Mask)) (fl : Nat) (h : (w.map Prod.fst).Nodup) :
    ({ vw := w, kills := ks } : Eff).Plain fl := ⟨h, by simp, by simp, by simp, .inl rfl, by simp⟩


theorem zipIdx_keep_all (xs : List (Option Nat)) : (xs.zipIdx.map fun p => if true = true then p.1 else none) = xs := by
  apply List.ext_getElem
  · simp
  · intro i h1 h2; simp

/-- An instruction that writes one register from a function of the lane. -/
theorem Form.Means.ofLanes {F : Form} {i : Instr} {body : View → View → BitVec 10 → Out} {d : Nat}
    {f : View → Nat → Word × Flags} {ks : View → List (Nat × Mask)} (sets : F.sets = none)
    (meets : ∀ s, exec i s = withIssuer s F.words fun v =>
      v.issue (F.early v) (F.ill v) (F.reads v) (F.ops v) (body v))
    (hfl : ∀ w, F.flags w = laneFlags w (f w)) (hres : ∀ w, F.result w = oneWrite w d (f w) (ks w))
    (hst : ∀ w, F.stat w = 0#10)
    (hb : ∀ s v, F.CanIssue s v → ∀ st, body v (F.issued v) st =
      (F.issued v).laneWrite st d ((F.issued v).eff false) (ks (F.issued v)) (f (F.issued v))) : F.Means i body where
  sets := by simp [sets]
  plain w := by rw [hres]; exact plain_oneWrite _ _ _ _ _
  meets := meets
  body s v hc _ := by
    have ha : F.after v = F.issued v := by unfold Form.after; rw [sets]
    rw [hb s v hc, View.laneWrite_eq]
    simp only [Form.bits, ha, hfl, hres, hst, BitVec.or_zero]

/-- As `ofLanes`, for a result that stands later. -/
theorem Form.Means.ofLater {F : Form} {i : Instr} {body : View → View → BitVec 10 → Out} {d : Nat}
    {f : View → Nat → Word × Flags} {ks : View → List (Nat × Mask)} {n : BitVec 4} (sets : F.sets = none)
    (meets : ∀ s, exec i s = withIssuer s F.words fun v =>
      v.issue (F.early v) (F.ill v) (F.reads v) (F.ops v) (body v))
    (hfl : ∀ w, F.flags w = laneFlags w (f w)) (hres : ∀ w, F.result w = oneLater w d (f w) (ks w) n)
    (hst : ∀ w, F.stat w = 0#10)
    (hb : ∀ s v, F.CanIssue s v → ∀ st, body v (F.issued v) st =
      (F.issued v).laneLater st d ((F.issued v).eff false) (ks (F.issued v)) n (f (F.issued v))) : F.Means i body where
  sets := by simp [sets]
  plain w := by rw [hres]; exact plain_oneLater _ _ _ _ _
  meets := meets
  body s v hc _ := by
    have ha : F.after v = F.issued v := by unfold Form.after; rw [sets]
    rw [hb s v hc, View.laneLater_eq]
    simp only [Form.bits, ha, hfl, hres, hst, BitVec.or_zero]

/-- Lanes that raise no flag. -/
theorem laneFlags_none (w : View) (f : Nat → Word × Flags) (h : ∀ l, (f l).2 = 0#10) : laneFlags w f = Vector.replicate 32 0#10 := by
  unfold laneFlags
  apply Vector.ext; intro i hi
  rw [Vector.getElem_ofFn, Vector.getElem_replicate]
  dsimp only
  split
  · exact h i
  · rfl

theorem mapSubs_const (w : Nat) (R : Nat × Flags) (hn : 0 < 64 / w) :
    mapSubs w (fun _ => (R.1, R.2)) = (laneOfSubs w (List.replicate (64 / w) R.1), R.2) := by
  unfold mapSubs subCount
  generalize 64 / w = n at *
  have e1 : (List.range n).map (fun _ => (R.1, R.2)) = List.replicate n R := by
    apply List.ext_getElem <;> simp
  dsimp only
  rw [e1, List.map_replicate]
  refine Prod.ext rfl ?_
  dsimp only
  obtain ⟨k, rfl⟩ := Nat.exists_eq_succ_of_ne_zero (Nat.ne_of_gt hn)
  have : ∀ (k : Nat) (f : Flags), (List.replicate k R).foldl (fun a r => a ||| r.2) (f ||| R.2) = f ||| R.2 := by
    intro k
    induction k with
    | zero => intro f; rfl
    | succ k ih =>
      intro f
      rw [List.replicate_succ, List.foldl_cons, BitVec.or_assoc, BitVec.or_self, ih]
  rw [List.replicate_succ, List.foldl_cons, this]
  simp


theorem redLane_eq (w : View) (o : ROp) (r : Nat) (hok : redType o w.et = true) :
    mapSubs (tyWidth w.et) (fun _ =>
      ((treeRed (fun x y => redOp o w.et w.rm w.sat x y 0) (treeDepth w.et) (w.elements r (w.eff false))).1.getD (redIdentity o w.et),
        (treeRed (fun x y => redOp o w.et w.rm w.sat x y 0) (treeDepth w.et) (w.elements r (w.eff false))).2)) = redLane w o r := by
  have hr := reduce_eq w o r hok fun _ => true
  rw [zipIdx_keep_all] at hr
  have h1 := congrArg Prod.fst hr
  have h2 := congrArg Prod.snd hr
  dsimp only at h1 h2
  have hn : 0 < 64 / tyWidth w.et := by rcases tyWidth_cases w.et with h | h | h | h | h <;> rw [h] <;> decide
  unfold redLane
  rw [h1, h2]
  exact mapSubs_const _ _ hn

theorem scanLane_eq (w : View) (o : ROp) (incl : Bool) (r l : Nat) (hok : redType o w.et = true) :
    mapSubs (tyWidth w.et) (fun s =>
      ((treeRed (fun x y => redOp o w.et w.rm w.sat x y 0) (treeDepth w.et)
          (scanKeep incl (subCount (tyWidth w.et) * l + s) (w.elements r (w.eff false)))).1.getD (redIdentity o w.et),
        (treeRed (fun x y => redOp o w.et w.rm w.sat x y 0) (treeDepth w.et)
          (scanKeep incl (subCount (tyWidth w.et) * l + s) (w.elements r (w.eff false)))).2)) = scanLane w o incl r l := by
  have : ∀ s, ((treeRed (fun x y => redOp o w.et w.rm w.sat x y 0) (treeDepth w.et) (scanKeep incl (subCount (tyWidth w.et) * l + s) (w.elements r (w.eff false)))).1.getD (redIdentity o w.et),
      (treeRed (fun x y => redOp o w.et w.rm w.sat x y 0) (treeDepth w.et) (scanKeep incl (subCount (tyWidth w.et) * l + s) (w.elements r (w.eff false)))).2) =
      ruleReduce w o r fun e => decide (e < 64 / tyWidth w.et * l + s) || incl && e == 64 / tyWidth w.et * l + s := by
    intro s
    rw [← reduce_eq w o r hok]
    unfold scanKeep subCount
    simp
  unfold mapSubs scanLane subCount at *
  simp only [this]

theorem prefix_eq (x : Mask) (incl : Bool) {l : Nat} (hl : l < 32) :
    BitVec.ofNat 64 (((List.range (if incl then l + 1 else l)).filter fun i => x.getLsbD i).length) = prefixCount x incl l := by
  unfold prefixCount
  congr 1
  rw [← List.countP_eq_length_filter]
  have key : ∀ m, m ≤ 32 → (List.range m).countP (fun i => x.getLsbD i) = (List.range 32).countP fun i => x.getLsbD i && decide (i < m) := by
    intro m hm
    have : List.range 32 = List.range (m + (32 - m)) := by congr 1; omega
    rw [this, List.range_add, List.countP_append, List.countP_map]
    have h1 : (List.range m).countP (fun i => x.getLsbD i && decide (i < m)) = (List.range m).countP (fun i => x.getLsbD i) := by
      apply List.countP_congr
      intro i hi
      simp [List.mem_range.mp hi]
    have h2 : (List.range (32 - m)).countP ((fun i => x.getLsbD i && decide (i < m)) ∘ fun x => m + x) = 0 := by
      rw [List.countP_eq_zero]; intro i _; simp
    rw [h1, h2]; rfl
  cases incl
  · simp only [Bool.false_eq_true, if_false, Bool.false_and, Bool.or_false]
    exact key l (by omega)
  · simp only [if_true, Bool.true_and]
    rw [key (l + 1) (by omega)]
    apply List.countP_congr
    intro i _
    have : decide (i < l + 1) = (decide (i < l) || i == l) := by
      rw [Bool.eq_iff_iff]; simp; omega
    rw [this]

theorem crossPairs_eq (v : View) (src : Nat → Nat → Nat × Nat) :
    (v.crossReads (v.eff false) (tyWidth v.et) fun l => (List.range (subCount (tyWidth v.et))).map (src l)) = crossPairs v src := by
  unfold View.crossReads crossPairs subCount
  congr 1
  funext l
  rw [List.filterMap_map]
  congr 1
  funext s
  simp only [Function.comp, Bool.and_eq_true, decide_eq_true_eq]

theorem crossLane_eq (w : View) (r : Nat) (src : Nat → Nat → Nat × Nat) (l : Nat) :
    mapSubs (tyWidth w.et) (fun s => (w.crossSub r (tyWidth w.et) (src l s).1 (src l s).2, flNone)) = (crossLane w r src l, 0) := by
  unfold mapSubs crossLane subCount
  refine Prod.ext ?_ ?_
  · dsimp only
    rw [List.map_map]
    congr 2
    funext s
    exact crossSub_eq _ _ _ _ _
  · dsimp only
    have : ∀ (xs : List Nat) (f : Nat → Nat) (a : Flags), (xs.map fun s => (f s, flNone)).foldl (fun a r => a ||| r.2) a = a := by
      intro xs f
      induction xs with
      | nil => intro a; rfl
      | cons x xs ih =>
        intro a
        rw [List.map_cons, List.foldl_cons, ih]
        exact BitVec.or_zero
    exact this _ _ _

/-- `laneLater` from a function that agrees in the written lanes. -/
theorem View.laneLater_congr (w : View) (st : BitVec 10) (d : Nat) (m : Mask) (ks : List (Nat × Mask)) (n : BitVec 4)
    {f g : Nat → Word × Flags} (h : ∀ l, l < 32 → f l = g l) : w.laneLater st d m ks n f = w.laneLater st d m ks n g := by
  have : (Vector.ofFn fun (i : Fin 32) => if m.getLsbD i.val then f i.val else (0, 0)) =
      Vector.ofFn fun (i : Fin 32) => if m.getLsbD i.val then g i.val else (0, 0) := by
    refine congrArg Vector.ofFn (funext fun i => ?_)
    rw [h i.val i.isLt]
  unfold View.laneLater
  dsimp only
  rw [this]

theorem View.laneWrite_congr (w : View) (st : BitVec 10) (d : Nat) (m : Mask) (ks : List (Nat × Mask))
    {f g : Nat → Word × Flags} (h : ∀ l, l < 32 → f l = g l) : w.laneWrite st d m ks f = w.laneWrite st d m ks g := by
  have : (Vector.ofFn fun (i : Fin 32) => if m.getLsbD i.val then f i.val else (0, 0)) =
      Vector.ofFn fun (i : Fin 32) => if m.getLsbD i.val then g i.val else (0, 0) := by
    refine congrArg Vector.ofFn (funext fun i => ?_)
    rw [h i.val i.isLt]
  unfold View.laneWrite
  dsimp only
  rw [this]

theorem lane_get (x : LaneVec) (l : Fin 32) : lane x l.val = x[l.val] := by simp [lane, vget]

theorem View.Alike.wset {v w : View} (h : v.Alike w) : wset w = wset v := by
  unfold Machine.wset; rw [h.svc, h.splitExec, h.launched]

theorem cvtRuns_eq (st t : ETy) : cvtRuns st t = (max 1 (tyWidth st / tyWidth t), max 1 (tyWidth t / tyWidth st)) := by
  unfold cvtRuns
  rcases tyWidth_cases st with h | h | h | h | h <;> rcases tyWidth_cases t with k | k | k | k | k <;> rw [h, k] <;> decide

theorem cvtLane_eq (st t : ETy) (r : RMode) (sat : Bool) (f : Nat → Word) (j : Nat) (hj : j < (cvtRuns st t).2) :
    cvtLane st t r sat ((List.range (cvtRuns st t).1).map f) j =
      (let rs := (List.range (64 / tyWidth t)).map fun i => cvtSub st t r sat f (j * (64 / tyWidth t) + i)
       (laneOfSubs (tyWidth t) (rs.map Prod.fst), rs.foldl (fun g r => g ||| r.2) 0)) := by
  unfold cvtLane mapSubs subCount
  dsimp only
  have : (List.range (64 / tyWidth t)).map (fun s =>
      if tyWidth t < tyWidth st then conv st t r sat (subElem (tyWidth st) (s % (64 / tyWidth st)) (((List.range (cvtRuns st t).1).map f).getD (s / (64 / tyWidth st)) 0))
      else conv st t r sat (subElem (tyWidth st) (j * (64 / tyWidth t) + s) (((List.range (cvtRuns st t).1).map f).getD 0 0))) =
      (List.range (64 / tyWidth t)).map fun i => cvtSub st t r sat f (j * (64 / tyWidth t) + i) := by
    apply List.map_congr_left
    intro s hs
    rw [List.mem_range] at hs
    unfold cvtSub
    rw [cvtRuns_eq] at hj ⊢
    dsimp only at hj ⊢
    have hg : ∀ k, k < max 1 (tyWidth st / tyWidth t) → ((List.range (max 1 (tyWidth st / tyWidth t))).map f).getD k 0 = f k := by
      intro k hk; simp [List.getD, hk]
    have hcase : (tyWidth t < tyWidth st → j = 0 ∧ s / (64 / tyWidth st) < max 1 (tyWidth st / tyWidth t)) ∧
        (¬ tyWidth t < tyWidth st → j * (64 / tyWidth t) + s < 64 / tyWidth st) := by
      rcases tyWidth_cases st with h | h | h | h | h <;> rcases tyWidth_cases t with k | k | k | k | k <;>
        rw [k] at hs <;> rw [h, k] at hj ⊢ <;> omega
    by_cases hlt : tyWidth t < tyWidth st
    · obtain ⟨h0, h1⟩ := hcase.1 hlt
      rw [if_pos hlt, hg _ h1, h0, Nat.zero_mul, Nat.zero_add]
    · have h1 := hcase.2 hlt
      rw [if_neg hlt, hg 0 (by omega), Nat.mod_eq_of_lt h1, Nat.div_eq_of_lt h1]
  rw [this]

theorem foldl_congr_mem {α β : Type} {f g : β → α → β} {xs : List α} {a : β} (h : ∀ b x, x ∈ xs → f b x = g b x) :
    xs.foldl f a = xs.foldl g a := by
  induction xs generalizing a with
  | nil => rfl
  | cons x xs ih => rw [List.foldl_cons, List.foldl_cons, h a x (by simp), ih fun b y hy => h b y (by simp [hy])]

theorem zipIdx_range_map {α β : Type} (n : Nat) (f : Nat → α) (g : α × Nat → β) :
    ((List.range n).map f).zipIdx.map g = (List.range n).map fun j => g (f j, j) := by
  apply List.ext_getElem
  · simp
  · intro i h1 h2; simp

/-- A meaning of one write from a function of the lane has its form. -/
theorem Form.means_lanewise {i : Instr} {d : BitVec 7} {more : List Opnd} {ok ok' : ETy → Bool} {ks ks' : View → List (Nat × Mask)}
    {f : View → Nat → Word × Flags} {g : View → View → Nat → Word × Flags}
    (hok : ∀ t, ok t = ok' t)
    (hk : ∀ v w : View, v.Alike w → ks' v = ks w)
    (hf : ∀ v w : View, v.Alike w → ok v.et = true → ∀ l, l < 32 → g v w l = f w l)
    (h : ∀ s, exec i s = withIssuer s 1 fun v =>
      v.issue none (!ok v.et) (v.eff false) (opWr d.toNat :: more) fun w st => w.laneWrite st d.toNat (v.eff false) (ks' v) (g v w)) :
    ∃ body, (Form.lanewise d more ok' ks f).Means i body := by
  have : ok = ok' := by funext t; exact hok t
  subst this
  refine ⟨fun v w st => w.laneWrite st d.toNat (v.eff false) (ks' v) (g v w),
    Form.Means.ofLanes (f := f) (ks := ks) (d := d.toNat) rfl h (fun _ => rfl) (fun _ => rfl) (fun _ => rfl) ?_⟩
  intro s v hc st
  have hill := hc.ill
  have hok : ok v.et = true := by simpa [Form.lanewise] using hill
  have ha := View.Alike.readied v (opWr d.toNat :: more)
  dsimp only [Form.issued, Form.lanewise]
  generalize v.readied (opWr d.toNat :: more) = w at *
  rw [← ha.eff, hk v w ha]
  exact View.laneWrite_congr _ _ _ _ _ (hf v w ha hok)

/-- A move between lanes has its form. -/
theorem Form.means_cross {i : Instr} {d : BitVec 7} {a : VSrc} {n : BitVec 4} {src : Nat → Nat → Nat × Nat}
    (h : ∀ s, exec i s = withIssuer s 2 fun v => v.crossMove d.toNat (vsrc a) [] [] n (v.eff false) src) :
    ∃ body, (Form.cross d a n (fun _ => []) (fun _ => []) fun _ => src).Means i body := by
  refine ⟨fun v w st => w.laneLater st d.toNat (v.eff false) (killsOf (v.eff false) [vsrc a] ++ []) n fun l => mapSubs (tyWidth v.et) fun s =>
      (w.crossSub a.reg.toNat (tyWidth v.et) (src l s).1 (src l s).2, flNone),
    Form.Means.ofLater (f := fun w l => (crossLane w a.reg.toNat src l, 0)) (ks := fun w => lastUse a (w.eff false) ++ []) (d := d.toNat) (n := n)
      rfl ?_ (fun w => (laneFlags_none w _ fun _ => rfl).symm) (fun _ => rfl) (fun _ => rfl) ?_⟩
  · intro s
    dsimp only [Form.cross]
    simp only [← crossPairs_eq]
    exact h s
  · intro s v hc st
    have ha := View.Alike.readied v (opWr d.toNat :: { opRd a.reg.toNat with reads := some (crossPairs v src) } :: [])
    dsimp only [Form.issued, Form.cross]
    generalize v.readied (opWr d.toNat :: { opRd a.reg.toNat with reads := some (crossPairs v src) } :: []) = w at *
    rw [← ha.eff, ← ha.et, killsOf_one]
    exact View.laneLater_congr _ _ _ _ _ _ fun l _ => crossLane_eq _ _ _ _

/-- Results written elsewhere leave a register as it is. -/
theorem Group.drainIf_reg (g : Group) (f : Pend → Bool) (r : Nat)
    (h : ∀ p ∈ g.pends, f p = true → ∀ w ∈ p.vs, w.1 ≠ r) :
    vget (g.drainIf f).v r (LaneVec.splat 0) = vget g.v r (LaneVec.splat 0) ∧ vget (g.drainIf f).vlive r 0 = vget g.vlive r 0 := by
  have hw : ∀ (ws : List (Nat × Mask × LaneVec)) (a : Group), (∀ w ∈ ws, w.1 ≠ r) →
      vget (ws.foldl (fun g w => g.writeV w.1 w.2.1 w.2.2) a).v r (LaneVec.splat 0) = vget a.v r (LaneVec.splat 0) ∧
      vget (ws.foldl (fun g w => g.writeV w.1 w.2.1 w.2.2) a).vlive r 0 = vget a.vlive r 0 := by
    intro ws
    induction ws with
    | nil => intro a _; exact ⟨rfl, rfl⟩
    | cons w ws ih =>
      intro a hn
      rw [List.foldl_cons]
      have h1 := ih (a.writeV w.1 w.2.1 w.2.2) fun x hx => hn x (by simp [hx])
      rw [h1.1, h1.2]
      have : ¬ (w.1 = r ∧ w.1 < 128) := fun h => hn w (by simp) h.1
      simp [Group.writeV, vget_vset, this]
  have hd : ∀ (p : Pend) (a : Group), (∀ w ∈ p.vs, w.1 ≠ r) →
      vget (a.deliver p).v r (LaneVec.splat 0) = vget a.v r (LaneVec.splat 0) ∧ vget (a.deliver p).vlive r 0 = vget a.vlive r 0 := by
    intro p a hp
    unfold Group.deliver
    dsimp only
    rw [Group.foldl_proj (fun g => g.v) (fun g (w : Nat × Word) => g.writeS (p.flow == 4) w.1 w.2) (fun a w => (Group.writeS_v a _ _ _).1),
      Group.foldl_proj (fun g => g.vlive) (fun g (w : Nat × Word) => g.writeS (p.flow == 4) w.1 w.2) (fun a w => (Group.writeS_v a _ _ _).2)]
    exact hw p.vs a hp
  have key : ∀ (ps : List Pend) (a : Group), (∀ p ∈ ps, ∀ w ∈ p.vs, w.1 ≠ r) →
      vget (ps.foldl Group.deliver a).v r (LaneVec.splat 0) = vget a.v r (LaneVec.splat 0) ∧ vget (ps.foldl Group.deliver a).vlive r 0 = vget a.vlive r 0 := by
    intro ps
    induction ps with
    | nil => intro a _; exact ⟨rfl, rfl⟩
    | cons p ps ih =>
      intro a hn
      rw [List.foldl_cons]
      have h1 := ih (a.deliver p) fun x hx => hn x (by simp [hx])
      have h2 := hd p a (hn p (by simp))
      exact ⟨h1.1.trans h2.1, h1.2.trans h2.2⟩
  exact key _ g fun p hp => h p (List.mem_filter.mp hp).1 (List.mem_filter.mp hp).2

/-- A register reads the same after an issue. -/
theorem View.readied_rdV (v : View) (ops : List Opnd) (r : Nat) : (v.readied ops).rdV r = v.rdV r := by
  have h1 : (v.g.acquireTokens v.fl ops).v = v.g.v ∧ (v.g.acquireTokens v.fl ops).vlive = v.g.vlive := by
    unfold Group.acquireTokens Group.modOrd
    dsimp only
    split
    · exact ⟨rfl, rfl⟩
    · split <;> exact ⟨rfl, rfl⟩
  show (if inRuns v.heldV r then LaneVec.splat poison else _) = _
  simp only [View.rdV, View.vLive, View.vraw, View.readied, View.withGroup, h1.1, h1.2]
  rfl

end Sys2Proof.Machine
end

