-- ==== Sys2Proof/Tests/Slice0.lean ====
section
/-!
SUPPORT. Tests: words written out from the spec's encodings, well-formedness, a state that meets the hypotheses of each
statement, and values of the manual's examples.
-/
namespace Sys2Proof.Tests
open Sys2Proof Sys2Proof.Machine
set_option maxRecDepth 100000

/-! ## Decoding -/

/-- A word from its fields: the lowest bit and the value of each. -/
def word (fs : List (Nat × Nat)) : W32 := BitVec.ofNat 32 (fs.foldl (fun a f => a + f.2 * 2 ^ f.1) 0)

/-- Three-register vector arithmetic (R57 V3, R79). -/
theorem test_decode_vector :
    decodeWords (word [(25, 0x01), (18, 5), (11, 6), (2, 7), (0, 1)]) 0 = .ok (.vadd 5 ⟨6, false, false⟩ ⟨7, false, true⟩) ∧
    decodeWords (word [(25, 0x02), (18, 5), (11, 6), (10, 1), (2, 7)]) 0 = .ok (.vsub 5 ⟨6, true, false⟩ ⟨7, false, false⟩) ∧
    decodeWords (word [(25, 0x03), (18, 5), (11, 6), (2, 7), (0, 1)]) 0 = .ok (.vmul 5 ⟨6, false, false⟩ ⟨7, false, true⟩) ∧
    decodeWords (word [(25, 0x04), (18, 5), (11, 6), (10, 1), (2, 7)]) 0 = .ok (.vmulh 5 ⟨6, true, false⟩ ⟨7, false, false⟩) ∧
    decodeWords (word [(25, 0x05), (18, 5), (11, 6), (2, 7), (0, 1)]) 0 = .ok (.vfma 5 ⟨6, false, false⟩ ⟨7, false, true⟩) ∧
    decodeWords (word [(25, 0x06), (18, 5), (11, 6), (10, 1), (2, 7)]) 0 = .ok (.vfms 5 ⟨6, true, false⟩ ⟨7, false, false⟩) ∧
    decodeWords (word [(25, 0x07), (18, 5), (11, 6), (2, 7), (0, 1)]) 0 = .ok (.vmin 5 ⟨6, false, false⟩ ⟨7, false, true⟩) ∧
    decodeWords (word [(25, 0x08), (18, 5), (11, 6), (10, 1), (2, 7)]) 0 = .ok (.vmax 5 ⟨6, true, false⟩ ⟨7, false, false⟩) ∧
    decodeWords (word [(25, 0x09), (18, 5), (11, 6), (2, 7), (0, 1)]) 0 = .ok (.vand 5 ⟨6, false, false⟩ ⟨7, false, true⟩) ∧
    decodeWords (word [(25, 0x0A), (18, 5), (11, 6), (10, 1), (2, 7)]) 0 = .ok (.vor 5 ⟨6, true, false⟩ ⟨7, false, false⟩) ∧
    decodeWords (word [(25, 0x0B), (18, 5), (11, 6), (2, 7), (0, 1)]) 0 = .ok (.vxor 5 ⟨6, false, false⟩ ⟨7, false, true⟩) ∧
    decodeWords (word [(25, 0x0C), (18, 5), (11, 6), (10, 1), (2, 7)]) 0 = .ok (.vshl 5 ⟨6, true, false⟩ ⟨7, false, false⟩) ∧
    decodeWords (word [(25, 0x0D), (18, 5), (11, 6), (2, 7), (0, 1)]) 0 = .ok (.vshr 5 ⟨6, false, false⟩ ⟨7, false, true⟩) ∧
    decodeWords (word [(25, 0x0E), (18, 5), (11, 6), (10, 1), (2, 7)]) 0 = .ok (.vsel 5 ⟨6, true, false⟩ ⟨7, false, false⟩) ∧
    decodeWords (word [(25, 0x0F), (18, 5), (11, 6), (2, 7), (0, 1)]) 0 = .ok (.vabsd 5 ⟨6, false, false⟩ ⟨7, false, true⟩) := by
  and_intros <;> rfl

/-- The rest of R79. -/
theorem test_decode_vectorMore :
    decodeWords (word [(25, 0x10), (18, 5), (11, 6), (10, 1), (2, 7)]) (word [(0, 3)]) = .ok (.vdiv 5 ⟨6, true, false⟩ ⟨7, false, false⟩ 3) ∧
    decodeWords (word [(25, 0x11), (18, 5), (11, 6), (2, 7), (1, 1)]) (word [(0, 15)]) = .ok (.vrem 5 ⟨6, false, false⟩ ⟨7, true, false⟩ 15) ∧
    decodeWords (word [(25, 0x12), (18, 5), (11, 6), (10, 1), (0, 511)]) 0 = .ok (.vaddi 5 ⟨6, true, false⟩ 511) ∧
    decodeWords (word [(25, 0x13), (18, 5), (11, 6), (10, 1), (0, 3)]) 0 = .ok (.vmuli 5 ⟨6, true, false⟩ 3) ∧
    decodeWords (word [(25, 0x14), (18, 5), (11, 6), (10, 1), (0, 63)]) 0 = .ok (.vshli 5 ⟨6, true, false⟩ 63) ∧
    decodeWords (word [(25, 0x15), (18, 5), (11, 6), (10, 1), (0, 1)]) 0 = .ok (.vshri 5 ⟨6, true, false⟩ 1) ∧
    decodeWords (word [(25, 0x16), (18, 5), (11, 6), (10, 1), (0, 256)]) 0 = .ok (.vandi 5 ⟨6, true, false⟩ 256) ∧
    decodeWords (word [(25, 0x17), (18, 5), (11, 6), (9, 1)]) 0 = .ok (.vmov 5 ⟨6, false, true⟩) ∧
    decodeWords (word [(25, 0x18), (18, 127)]) 0xDEADBEEF = .ok (.vldi 127 0xDEADBEEF) ∧
    decodeWords (word [(25, 0x19), (18, 5), (11, 6), (10, 1)]) 0 = .ok (.vneg 5 ⟨6, true, false⟩) ∧
    decodeWords (word [(25, 0x1A), (18, 5), (11, 6), (10, 1)]) 0 = .ok (.vabs 5 ⟨6, true, false⟩) ∧
    decodeWords (word [(25, 0x1B), (18, 5), (11, 6), (10, 1)]) 0 = .ok (.vpopc 5 ⟨6, true, false⟩) ∧
    decodeWords (word [(25, 0x1C), (18, 5), (11, 6), (10, 1)]) 0 = .ok (.vclz 5 ⟨6, true, false⟩) ∧
    decodeWords (word [(25, 0x1D), (18, 5), (11, 6), (9, 1), (2, 7), (1, 1)]) 0 = .ok (.vbfx 5 ⟨6, false, true⟩ ⟨7, true, false⟩) ∧
    decodeWords (word [(25, 0x1E), (18, 5), (11, 6), (9, 1), (2, 7), (1, 1)]) 0 = .ok (.vbfi 5 ⟨6, false, true⟩ ⟨7, true, false⟩) ∧
    decodeWords (word [(25, 0x1F), (18, 5), (11, 6), (9, 1), (2, 7), (1, 1)]) 0 = .ok (.vlerp 5 ⟨6, false, true⟩ ⟨7, true, false⟩) := by
  and_intros <;> rfl

/-- Conversion, special functions, compare, classify and rounding (R80, R92). -/
theorem test_decode_convert :
    decodeWords (word [(25, 0x20), (18, 5), (11, 6), (10, 1), (5, 14), (2, 4), (1, 1)]) 0 = .ok (.vcvt 5 ⟨6, true, false⟩ .e2m1 .rto true) ∧
    decodeWords (word [(25, 0x21), (18, 5), (11, 6), (2, 0)]) (word [(0, 1)]) = .ok (.vexp2 5 ⟨6, false, false⟩ 1) ∧
    decodeWords (word [(25, 0x21), (18, 5), (11, 6), (10, 1), (2, 1)]) (word [(0, 2)]) = .ok (.vlog2 5 ⟨6, true, false⟩ 2) ∧
    decodeWords (word [(25, 0x21), (18, 5), (11, 6), (2, 2)]) (word [(0, 3)]) = .ok (.vrcp 5 ⟨6, false, false⟩ 3) ∧
    decodeWords (word [(25, 0x21), (18, 5), (11, 6), (10, 1), (2, 3)]) (word [(0, 4)]) = .ok (.vrsq 5 ⟨6, true, false⟩ 4) ∧
    decodeWords (word [(25, 0x21), (18, 5), (11, 6), (2, 4)]) (word [(0, 5)]) = .ok (.vsqrt 5 ⟨6, false, false⟩ 5) ∧
    decodeWords (word [(25, 0x21), (18, 5), (11, 6), (10, 1), (2, 5)]) (word [(0, 6)]) = .ok (.vsinp 5 ⟨6, true, false⟩ 6) ∧
    decodeWords (word [(25, 0x21), (18, 5), (11, 6), (2, 6)]) (word [(0, 7)]) = .ok (.vcosp 5 ⟨6, false, false⟩ 7) ∧
    decodeWords (word [(25, 0x21), (18, 5), (11, 6), (10, 1), (2, 7)]) (word [(0, 8)]) = .ok (.vtanh 5 ⟨6, true, false⟩ 8) ∧
    decodeWords (word [(25, 0x22), (21, 3), (17, 7), (10, 6), (9, 1), (2, 7)]) 0 = .ok (.vcmp 3 .ord 6 true 7 false) ∧
    decodeWords (word [(25, 0x23), (18, 5), (11, 6)]) 0 = .ok (.vclass 5 ⟨6, false, false⟩) ∧
    decodeWords (word [(25, 0x24), (18, 5), (11, 6), (2, 2)]) 0 = .ok (.vrint 5 ⟨6, false, false⟩ .rup) := by
  and_intros <;> rfl

/-- Cross-lane instructions (R81, R93). -/
theorem test_decode_crossLane :
    decodeWords (word [(25, 0x28), (18, 5), (11, 6), (9, 1), (2, 7)]) (word [(0, 9)]) = .ok (.xperm 5 ⟨6, false, true⟩ ⟨7, false, false⟩ 9) ∧
    decodeWords (word [(25, 0x29), (18, 5), (11, 6), (2, 0x11)]) (word [(0, 2)]) = .ok (.xbfly 5 ⟨6, false, false⟩ 0x11 2) ∧
    decodeWords (word [(25, 0x2A), (18, 5), (11, 6), (10, 1), (2, 0x1F)]) (word [(0, 1)]) = .ok (.xbcast 5 ⟨6, true, false⟩ 0x1F 1) ∧
    decodeWords (word [(25, 0x2B), (18, 5), (11, 6), (2, 5)]) 0 = .ok (.xred 5 ⟨6, false, false⟩ .xor) ∧
    decodeWords (word [(25, 0x2C), (18, 5), (11, 6), (5, 1), (2, 2)]) 0 = .ok (.xscan 5 ⟨6, false, false⟩ .max true) ∧
    decodeWords (word [(25, 0x2D), (18, 5), (11, 12), (5, 1)]) 0 = .ok (.xpsum 5 12 true) ∧
    decodeWords (word [(25, 0x2E), (18, 5), (11, 6), (10, 1)]) 0 = .ok (.vtos 5 ⟨6, true, false⟩) ∧
    decodeWords (word [(25, 0x2F), (18, 5), (11, 63)]) 0 = .ok (.stov 5 63) := by
  and_intros <;> rfl

/-- Scalar instructions (R82). -/
theorem test_decode_scalar :
    decodeWords (word [(25, 0x30), (18, 5), (11, 63), (2, 7)]) 0 = .ok (.sadd 5 63 7) ∧
    decodeWords (word [(25, 0x31), (18, 5), (11, 63), (2, 7)]) 0 = .ok (.ssub 5 63 7) ∧
    decodeWords (word [(25, 0x32), (18, 5), (11, 63), (2, 7)]) 0 = .ok (.smul 5 63 7) ∧
    decodeWords (word [(25, 0x33), (18, 5), (11, 63), (2, 7)]) 0 = .ok (.smulh 5 63 7) ∧
    decodeWords (word [(25, 0x34), (18, 5), (11, 63), (2, 7)]) 0 = .ok (.sand 5 63 7) ∧
    decodeWords (word [(25, 0x35), (18, 5), (11, 63), (2, 7)]) 0 = .ok (.sor 5 63 7) ∧
    decodeWords (word [(25, 0x36), (18, 5), (11, 63), (2, 7)]) 0 = .ok (.sxor 5 63 7) ∧
    decodeWords (word [(25, 0x37), (18, 5), (11, 63), (2, 7)]) 0 = .ok (.sshl 5 63 7) ∧
    decodeWords (word [(25, 0x38), (18, 5), (11, 63), (2, 7)]) 0 = .ok (.sshr 5 63 7) ∧
    decodeWords (word [(25, 0x39), (18, 5), (11, 63), (2, 7)]) 0 = .ok (.ssra 5 63 7) ∧
    decodeWords (word [(25, 0x3A), (18, 5), (11, 6), (0, 0x7FF)]) 0 = .ok (.saddi 5 6 0x7FF) ∧
    decodeWords (word [(25, 0x3B), (18, 63)]) 0x12345678 = .ok (.sldi 63 0x12345678) ∧
    decodeWords (word [(25, 0x3C), (21, 11), (18, 7), (11, 5), (2, 6)]) 0 = .ok (.scmp .geu 7 5 6) ∧
    decodeWords (word [(25, 0x3D), (18, 5), (11, 6), (2, 7)]) 0 = .ok (.smin 5 6 7) ∧
    decodeWords (word [(25, 0x3E), (18, 5), (11, 6), (2, 7)]) 0 = .ok (.smax 5 6 7) ∧
    decodeWords (word [(25, 0x3F), (18, 5), (11, 6)]) 0 = .ok (.smov 5 6) := by
  and_intros <;> rfl

/-- Masks, MODE and special registers (R83). -/
theorem test_decode_mask :
    decodeWords (word [(25, 0x40), (21, 1), (17, 2), (13, 15), (10, 0)]) 0 = .ok (.mand 1 2 15) ∧
    decodeWords (word [(25, 0x40), (21, 1), (17, 2), (13, 15), (10, 1)]) 0 = .ok (.mor 1 2 15) ∧
    decodeWords (word [(25, 0x40), (21, 1), (17, 2), (13, 15), (10, 2)]) 0 = .ok (.mxor 1 2 15) ∧
    decodeWords (word [(25, 0x40), (21, 1), (17, 2), (13, 15), (10, 3)]) 0 = .ok (.mandn 1 2 15) ∧
    decodeWords (word [(25, 0x40), (21, 1), (17, 2), (10, 4)]) 0 = .ok (.mnot 1 2) ∧
    decodeWords (word [(25, 0x40), (21, 1), (17, 2), (10, 5)]) 0 = .ok (.mmov 1 2) ∧
    decodeWords (word [(25, 0x41), (18, 40), (11, 15)]) 0 = .ok (.mtos 40 15) ∧
    decodeWords (word [(25, 0x42), (18, 15), (11, 40)]) 0 = .ok (.stom 15 40) ∧
    decodeWords (word [(25, 0x43), (18, 40), (11, 15)]) 0 = .ok (.mcnt 40 15) ∧
    decodeWords (word [(25, 0x43), (18, 40), (11, 15), (2, 1)]) 0 = .ok (.mffs 40 15) ∧
    decodeWords (word [(25, 0x44), (21, 9), (18, 3), (14, 12), (13, 1), (12, 1), (11, 1), (10, 1), (9, 1)]) 0 = .ok (.setmode 9 3 12 true true true true true) ∧
    decodeWords (word [(25, 0x45), (18, 100)]) 0 = .ok (.srd 100 0) ∧
    decodeWords (word [(25, 0x46), (11, 3), (0, 14)]) 0 = .ok (.swr 14 3) ∧
    decodeWords (word [(25, 0x47), (21, 15)]) 0xFFFFFFFF = .ok (.mldi 15 0xFFFFFFFF) := by
  and_intros <;> rfl

/-- Control flow (R84). -/
theorem test_decode_control :
    decodeWords (word [(25, 0x48), (0, 0x100001)]) 0 = .ok (.bra 0x100001) ∧
    decodeWords (word [(25, 0x49), (21, 9), (0, 0x1FFFFE)]) 0 = .ok (.bru 9 0x1FFFFE) ∧
    decodeWords (word [(25, 0x4A), (21, 9), (0, 0x1FFFFE)]) 0 = .ok (.brz 9 0x1FFFFE) ∧
    decodeWords (word [(25, 0x4B), (21, 9), (0, 0x1FFFFE)]) 0 = .ok (.brnz 9 0x1FFFFE) ∧
    decodeWords (word [(25, 0x4C), (19, 33), (0, 0x7FFFF)]) 0 = .ok (.brs 33 0x7FFFF) ∧
    decodeWords (word [(25, 0x4D), (11, 6), (10, 1)]) (word [(16, 0xFFFE), (0, 0x51A7)]) = .ok (.jmpi ⟨6, true, false⟩ 0xFFFE 0x51A7) ∧
    decodeWords (word [(25, 0x4E), (11, 6), (9, 1)]) (word [(0, 0x51A7)]) = .ok (.calli ⟨6, false, true⟩ 0x51A7) ∧
    decodeWords (word [(25, 0x4F), (0, 5)]) 0 = .ok (.call 5) ∧
    decodeWords (word [(25, 0x50)]) 0 = .ok (.ret) ∧
    decodeWords (word [(25, 0x51), (0, 0xABCD)]) 0 = .ok (.pad 0xABCD) ∧
    decodeWords (word [(25, 0x52), (19, 6), (0, 0x7FFFA)]) 0 = .ok (.loop 6 0x7FFFA) ∧
    decodeWords (word [(25, 0x53)]) 0 = .ok (.exit) ∧
    decodeWords (word [(25, 0x54)]) 0 = .ok (.nop) ∧
    decodeWords (word [(25, 0x55)]) 0 = .ok (.brk) ∧
    decodeWords (word [(25, 0x56)]) 0 = .ok (.yield) := by
  and_intros <;> rfl

/-- Memory and synchronisation (R57 L, R85, R89 to R91). -/
theorem test_decode_memory :
    decodeWords (word [(25, 0x58), (18, 5), (12, 6), (5, 7), (4, 1), (0, 9)]) (word [(30, 2), (28, 1), (26, 1), (23, 4), (0, 0x7FFFF8)]) = .ok (.ld 5 ⟨6, 7, true⟩ 9 ⟨.b256, .sp, true, .sys, 0x7FFFF8⟩) ∧
    decodeWords (word [(25, 0x59), (18, 5), (12, 6), (5, 127)]) (word [(30, 1), (28, 2), (0, 16)]) = .ok (.st 5 ⟨6, 127, false⟩ ⟨.b128, .sk, false, .group, 16⟩) ∧
    decodeWords (word [(25, 0x5A), (18, 5), (12, 6), (5, 127), (0, 3)]) (word [(30, 3), (26, 1), (23, 2), (0, 4)]) = .ok (.lds 5 6 3 ⟨.b32, .sh, true, .gang, 4⟩) ∧
    decodeWords (word [(25, 0x5B), (18, 5), (12, 6), (5, 127)]) (word [(28, 1), (26, 1), (23, 3)]) = .ok (.sts 5 6 ⟨.b64, .sp, true, .slice, 0⟩) ∧
    decodeWords (word [(25, 0x5C), (18, 13), (12, 4), (5, 7)]) (word [(28, 1), (26, 1), (23, 3), (19, 6), (12, 14)]) = .ok (.atom 13 ⟨4, 7, false⟩ ⟨true, true, .acq, .slice, .swap, 14, 0⟩) ∧
    decodeWords (word [(25, 0x5D), (18, 0), (12, 4), (5, 7), (4, 1)]) (word [(30, 3), (26, 2), (23, 1), (19, 8), (12, 14), (0, 0xFFC)]) = .ok (.red ⟨4, 7, true⟩ ⟨false, false, .rel, .team, .fadd, 14, 0xFFC⟩) ∧
    decodeWords (word [(25, 0x5E), (18, 12), (12, 8), (5, 127)]) (word [(23, 2), (0, 8)]) = .ok (.qpush 12 8 true 8) ∧
    decodeWords (word [(25, 0x5F), (18, 12), (12, 8), (5, 127)]) (word [(23, 1), (0, 8)]) = .ok (.qpop 12 8 false 8) ∧
    decodeWords (word [(25, 0x60), (18, 3), (12, 8), (5, 127)]) (word [(30, 0), (0, 32)]) = .ok (.barvInit 3 8 32) ∧
    decodeWords (word [(25, 0x60), (18, 3), (12, 8), (5, 127)]) (word [(30, 1), (0, 32)]) = .ok (.barvArr 3 8 32) ∧
    decodeWords (word [(25, 0x60), (18, 3), (12, 8), (5, 127)]) (word [(30, 2), (0, 32)]) = .ok (.barvTx 3 8 32) ∧
    decodeWords (word [(25, 0x60), (18, 3), (12, 8), (5, 127)]) (word [(30, 3), (0, 32)]) = .ok (.barvArrtx 3 8 32) ∧
    decodeWords (word [(25, 0x61), (18, 15), (12, 8), (5, 127)]) (word [(0, 0x7FFFE0)]) = .ok (.bwait 15 8 0x7FFFE0) ∧
    decodeWords (word [(25, 0x62), (23, 1), (20, 4)]) 0 = .ok (.fence .acq .sys) ∧
    decodeWords (word [(25, 0x63), (18, 7), (12, 0), (5, 127)]) (word [(23, 6), (0, 0x640)]) = .ok (.sapp 7 0 6 0x640) ∧
    decodeWords (word [(25, 0x64), (18, 5), (12, 6), (5, 7), (0, 2)]) (word [(30, 2), (0, 8)]) = .ok (.ldk 5 ⟨6, 7, false⟩ 2 .b256 8) ∧
    decodeWords (word [(25, 0x65), (18, 5), (12, 6), (5, 7), (4, 1)]) (word [(30, 3), (0, 4)]) = .ok (.stk 5 ⟨6, 7, true⟩ .b32 4) := by
  and_intros <;> rfl

/-- Copy, matrix and history commands (R57 E, R86, R250, R264, R280 to R282, R299, R300). -/
theorem test_decode_engine :
    decodeWords (word [(25, 0x68), (18, 7), (12, 6), (6, 9), (0, 20)]) (word [(27, 1), (21, 63), (20, 1)]) = .ok (.xcp 7 6 9 20 true 63 true) ∧
    decodeWords (word [(25, 0x69), (18, 0), (12, 0), (6, 0), (0, 0)]) 0 = .ok (.xdrain) ∧
    decodeWords (word [(25, 0x69), (18, 5), (12, 0), (6, 0), (0, 0)]) (word [(28, 1)]) = .ok (.xqry 5) ∧
    decodeWords (word [(25, 0x6A), (18, 32), (12, 6), (6, 9), (0, 20)]) 0 = .ok (.mma 32 6 9 20) ∧
    decodeWords (word [(25, 0x6B), (18, 64), (12, 0), (6, 0), (0, 0)]) 0 = .ok (.mzero 64) ∧
    decodeWords (word [(25, 0x6B), (18, 0), (12, 0), (6, 0), (0, 0)]) (word [(28, 1)]) = .ok (.mfenceOpr) ∧
    decodeWords (word [(25, 0x6B), (18, 0), (12, 0), (6, 0), (0, 0)]) (word [(28, 2), (0, 3)]) = .ok (.mprio 3) ∧
    decodeWords (word [(25, 0x6C), (18, 40), (12, 8), (6, 0), (0, 20)]) (word [(28, 15), (26, 2), (25, 1), (24, 1), (20, 5), (16, 3), (9, 10), (2, 2), (1, 1)]) = .ok (.hld 40 8 20 15 .rotary true true 5 3 10 2 true) ∧
    decodeWords (word [(25, 0x6D), (18, 0), (12, 8), (6, 9), (0, 21)]) 0 = .ok (.hopen 8 9 21) ∧
    decodeWords (word [(25, 0x6D), (18, 12), (12, 8), (6, 0), (0, 22)]) (word [(28, 1), (2, 3), (1, 1)]) = .ok (.hmw 12 8 22 3 true) ∧
    decodeWords (word [(25, 0x6D), (18, 0), (12, 8), (6, 9), (0, 21)]) (word [(28, 2), (0, 0xFFFFF)]) = .ok (.hseal 8 9 21 0xFFFFF) ∧
    decodeWords (word [(25, 0x6D), (18, 0), (12, 8), (6, 9), (0, 0)]) (word [(28, 3), (12, 3), (4, 9), (0, 2)]) = .ok (.hshort 8 9 0 3 9 2) ∧
    decodeWords (word [(25, 0x6D), (18, 0), (12, 8), (6, 9), (0, 0)]) (word [(28, 4), (0, 7)]) = .ok (.hinv 8 9 0 7) ∧
    decodeWords (word [(25, 0x6D), (18, 0), (12, 8), (6, 9), (0, 1)]) (word [(28, 5), (24, 9), (22, 2), (2, 3)]) = .ok (.hqry 8 9 1 9 2 3 false) := by
  and_intros <;> rfl

/-- Layer and ray commands (R316, R324, R94, R349). -/
theorem test_decode_pixelsAndRays :
    decodeWords (word [(25, 0x6E), (18, 20), (12, 8), (6, 0), (0, 21)]) (word [(1, 1)]) = .ok (.lins 20 8 21 true) ∧
    decodeWords (word [(25, 0x6E), (18, 0), (12, 8), (6, 9), (0, 22)]) (word [(28, 1), (27, 1), (26, 1), (2, 3)]) = .ok (.lres 8 9 22 true true 3 false) ∧
    decodeWords (word [(25, 0x6E), (18, 0), (12, 8), (6, 0), (0, 22)]) (word [(28, 2), (2, 3), (1, 1)]) = .ok (.lclr 8 22 3 true) ∧
    decodeWords (word [(25, 0x6E), (18, 30), (12, 8), (6, 0), (0, 0)]) (word [(28, 3), (24, 14), (2, 3)]) = .ok (.lqry 30 8 0 14 3 false) ∧
    decodeWords (word [(25, 0x6F), (18, 10), (12, 4), (6, 9), (0, 0)]) (word [(27, 1), (2, 7)]) = .ok (.cinit 10 4 9 0 true 7 false) ∧
    decodeWords (word [(25, 0x6F), (18, 20), (12, 4), (6, 0), (0, 23)]) (word [(28, 1), (2, 7), (1, 1)]) = .ok (.cacc 20 4 23 false 7 true) ∧
    decodeWords (word [(25, 0x6F), (18, 0), (12, 4), (6, 0), (0, 23)]) (word [(28, 2), (27, 1), (2, 127)]) = .ok (.cflush 4 23 true 127 false) ∧
    decodeWords (word [(25, 0x6F), (18, 20), (12, 4), (6, 0), (0, 23)]) (word [(28, 3), (2, 7)]) = .ok (.crd 20 4 23 false 7 false) ∧
    decodeWords (word [(25, 0x6F), (18, 20), (12, 4), (6, 0), (0, 23)]) (word [(28, 4), (27, 1), (2, 7), (1, 1)]) = .ok (.cadj 20 4 23 true 7 true) ∧
    decodeWords (word [(25, 0x70), (18, 20), (12, 8), (6, 0), (0, 21)]) (word [(31, 1), (30, 1), (16, 0xA5), (2, 4), (1, 1)]) = .ok (.rtrace 20 8 21 true true false 0xA5 4 true) ∧
    decodeWords (word [(25, 0x71), (18, 20), (12, 0), (6, 0), (0, 21)]) (word [(20, 3)]) = .ok (.rtresume 20 21 3) ∧
    decodeWords (word [(25, 0x71), (18, 0), (12, 8), (6, 0), (0, 22)]) (word [(28, 1), (2, 26)]) = .ok (.rtsave 8 22 26 false) ∧
    decodeWords (word [(25, 0x71), (18, 20), (12, 8), (6, 0), (0, 22)]) (word [(28, 2), (2, 26), (1, 1)]) = .ok (.rtload 20 8 22 26 true) ∧
    decodeWords (word [(25, 0x71), (18, 0), (12, 0), (6, 0), (0, 22)]) (word [(28, 3)]) = .ok (.rtabort 22) := by
  and_intros <;> rfl

/-- Work graphs, launches, system instructions and reserved words (R87, R88, R221, R238, R245). -/
theorem test_decode_system :
    decodeWords (word [(25, 0x72), (18, 4), (12, 9), (6, 0), (0, 0)]) (word [(0, 63)]) = .ok (.wgalloc 4 9 63) ∧
    decodeWords (word [(25, 0x72), (18, 4), (12, 9), (6, 0), (0, 0)]) (word [(28, 1), (24, 3), (0, 2)]) = .ok (.wgallocTry 4 9 3 2) ∧
    decodeWords (word [(25, 0x73), (18, 4), (12, 9), (6, 0), (0, 0)]) (word [(0, 1)]) = .ok (.wgcommit 4 9 1) ∧
    decodeWords (word [(25, 0x74), (18, 6), (12, 0), (6, 0), (0, 0)]) 0 = .ok (.dlaunch 6) ∧
    decodeWords (word [(25, 0x74), (18, 0), (12, 7), (6, 0), (0, 0)]) (word [(28, 1)]) = .ok (.dlaunchS 7) ∧
    decodeWords (word [(25, 0x78), (19, 8), (16, 1), (13, 2), (10, 4)]) 0 = .ok (.rep 8 1 2 4) ∧
    decodeWords (word [(25, 0x79), (0, 0x2A)]) 0 = .ok (.trap 0x2A) ∧
    decodeWords (word [(25, 0x7A)]) 0 = .ok (.tret) ∧
    decodeWords (word [(25, 0x7B), (19, 60), (0, 0x0700)]) 0 = .ok (.hsr 60 0x0700) ∧
    decodeWords (word [(25, 0x7B), (19, 61), (0, 0x0800)]) 0 = .ok (.hbar 61) ∧
    decodeWords (word [(25, 0x7C), (19, 57), (0, 0x0102)]) 0 = .ok (.hsw 0x0102 57) ∧
    decodeWords (word [(25, 0x7D)]) 0 = .ok (.texitDone) ∧
    decodeWords (word [(25, 0x7D), (0, 1)]) 0 = .ok (.texitSaved) ∧
    decodeWords (word [(25, 0x7E)]) 0 = .ok (.icinv) ∧
    decodeWords (word [(25, 0x7F), (0, 1)]) 0 = .ok (.reservedOpcode 0xFE000001 0) ∧
    decodeWords (word [(25, 0x69)]) (word [(28, 2)]) = .ok (.reservedOpcode 0xD2000000 0x20000000) := by
  and_intros <;> rfl

/-- The words worked out in the arithmetic chapters (R63, R119, R125, R131, R134, R157) and after R95. -/
theorem test_worked_arithmetic :
    decodeWords 0x0A502425 0 = .ok (.vfma 20 ⟨4, true, false⟩ ⟨9, false, true⟩) ∧
    decodeWords 0x240C19FF 0 = .ok (.vaddi 3 ⟨3, false, false⟩ 0x1FF) ∧
    decodeWords 0x40502522 0 = .ok (.vcvt 20 ⟨4, true, false⟩ .f32 .rne true) ∧
    decodeWords 0x42200808 2 = .ok (.vrcp 8 ⟨1, false, false⟩ 2) ∧
    decodeWords 0x74102100 0 = .ok (.saddi 4 4 0x100) ∧
    decodeWords 0x790C2818 0 = .ok (.scmp .ltu 3 5 6) ∧
    decodeWords 0x44602C30 0 = .ok (.vcmp 3 .eq 11 false 12 false) ∧
    decodeWords 0xB83440E0 0x15B0E000 = .ok (.atom 13 ⟨4, 7, false⟩ ⟨true, true, .acq, .slice, .swap, 14, 0⟩) ∧
    decodeWords 0xF0412400 0 = .ok (.rep 8 1 1 1) ∧
    decodeWords 0x89201800 0 = .ok (.setmode 9 0 0 false true true false false) ∧
    decodeWords 0x8800C400 0 = .ok (.setmode 0 0 3 false false false true false) := by
  and_intros <;> rfl

/-- The words worked out in the cross-lane and control chapter, and under R157. -/
theorem test_worked_lanesAndControl :
    decodeWords 0x52080804 0 = .ok (.xbfly 2 ⟨1, false, false⟩ 1 0) ∧
    decodeWords 0x56244000 0 = .ok (.xred 9 ⟨8, false, false⟩ .add) ∧
    decodeWords 0x5A140800 0 = .ok (.xpsum 5 1 false) ∧
    decodeWords 0x80002000 0 = .ok (.mand 0 0 1) ∧
    decodeWords 0x82280000 0 = .ok (.mtos 10 0) ∧
    decodeWords 0x86181004 0 = .ok (.mffs 6 2) ∧
    decodeWords 0x94200004 0 = .ok (.brz 1 4) ∧
    decodeWords 0x969FFFFD 0 = .ok (.brnz 4 0x1FFFFD) ∧
    decodeWords 0xA437FFFA 0 = .ok (.loop 6 0x7FFFA) ∧
    decodeWords 0x9A003000 0x000551A7 = .ok (.jmpi ⟨6, false, false⟩ 5 0x51A7) ∧
    decodeWords 0x9C003400 0x000051A7 = .ok (.calli ⟨6, true, false⟩ 0x51A7) ∧
    decodeWords 0xA20051A7 0 = .ok (.pad 0x51A7) ∧
    decodeWords 0x2E280800 0 = .ok (.vmov 10 ⟨1, false, false⟩) ∧
    decodeWords 0x020C2414 0 = .ok (.vadd 3 ⟨4, true, false⟩ ⟨5, false, false⟩) := by
  and_intros <;> rfl

/-- The words worked out in the memory, trap and work-graph chapters. -/
theorem test_worked_memoryAndSystem :
    decodeWords 0xB00840E0 0x10000000 = .ok (.ld 2 ⟨4, 7, false⟩ 0 ⟨.b64, .sp, false, .group, 0⟩) ∧
    decodeWords 0xB20C5FE0 0x15800000 = .ok (.st 3 ⟨5, 127, false⟩ ⟨.b64, .sp, true, .slice, 0⟩) ∧
    decodeWords 0xBC308FE0 0x00800000 = .ok (.qpush 12 8 false 0) ∧
    decodeWords 0xC5300000 0 = .ok (.fence .rel .slice) ∧
    decodeWords 0x8A1C0000 0 = .ok (.srd 7 0) ∧
    decodeWords 0x8C00180C 0 = .ok (.swr 12 3) ∧
    decodeWords 0xF7E00700 0 = .ok (.hsr 60 0x0700) ∧
    decodeWords 0xF7E80800 0 = .ok (.hbar 61) ∧
    decodeWords 0xF9C80102 0 = .ok (.hsw 0x0102 57) ∧
    decodeWords 0xE4109000 0x13000002 = .ok (.wgallocTry 4 9 3 2) ∧
    decodeWords 0xE6109000 1 = .ok (.wgcommit 4 9 1) ∧
    decodeWords 0xE8180000 0 = .ok (.dlaunch 6) ∧
    decodeWords 0xE8007000 0x10000000 = .ok (.dlaunchS 7) := by
  and_intros <;> rfl

/-- The words worked out in the copy, matrix and history chapters. -/
theorem test_worked_engines :
    decodeWords 0xD0006014 0 = .ok (.xcp 0 6 0 20 false 0 false) ∧
    decodeWords 0xD01C6254 0x08600000 = .ok (.xcp 7 6 9 20 true 3 false) ∧
    decodeWords 0xD2000000 0 = .ok (.xdrain) ∧
    decodeWords 0xD2140000 0x10000000 = .ok (.xqry 5) ∧
    decodeWords 0xD4806254 0 = .ok (.mma 32 6 9 20) ∧
    decodeWords 0xD6000000 0x10000000 = .ok (.mfenceOpr) ∧
    decodeWords 0xD8A08014 0x2453140A = .ok (.hld 40 8 20 2 .bilinear false false 5 3 10 2 true) ∧
    decodeWords 0xDA008255 0 = .ok (.hopen 8 9 21) ∧
    decodeWords 0xDA308016 0x1000000C = .ok (.hmw 12 8 22 3 false) ∧
    decodeWords 0xDA008015 0x20000000 = .ok (.hseal 8 0 21 0) ∧
    decodeWords 0xDA008240 0x30001002 = .ok (.hshort 8 9 0 1 0 2) ∧
    decodeWords 0xDA008000 0x40000000 = .ok (.hinv 8 0 0 0) := by
  and_intros <;> rfl

/-- The words worked out in the layer and ray chapters and their programs. -/
theorem test_worked_pixelsAndRays :
    decodeWords 0xDC508015 0 = .ok (.lins 20 8 21 false) ∧
    decodeWords 0xDC008256 0x1800000C = .ok (.lres 8 9 22 true false 3 false) ∧
    decodeWords 0xDC788000 0x3100000C = .ok (.lqry 30 8 0 1 3 false) ∧
    decodeWords 0xDE504017 0x1000001C = .ok (.cacc 20 4 23 false 7 false) ∧
    decodeWords 0xDE284240 0x0800001C = .ok (.cinit 10 4 9 0 true 7 false) ∧
    decodeWords 0xDE000014 0x2000001C = .ok (.cflush 0 20 false 7 false) ∧
    decodeWords 0xDE600015 0x4000001C = .ok (.cadj 24 0 21 false 7 false) ∧
    decodeWords 0xDE700016 0x3000001C = .ok (.crd 28 0 22 false 7 false) ∧
    decodeWords 0xE0508015 0xA0FF0010 = .ok (.rtrace 20 8 21 true false true 0xFF 4 false) ∧
    decodeWords 0xE2000016 0x10000068 = .ok (.rtsave 0 22 26 false) ∧
    decodeWords 0xE2500016 0x20000068 = .ok (.rtload 20 0 22 26 false) ∧
    decodeWords 0xE2500015 0x00300000 = .ok (.rtresume 20 21 3) ∧
    decodeWords 0xBA004FE0 0x1020B100 = .ok (.red ⟨4, 127, false⟩ ⟨true, true, .plain, .group, .or, 11, 0x100⟩) ∧
    decodeWords 0xC61C0FE0 0x03000640 = .ok (.sapp 7 0 6 0x640) ∧
    decodeWords 0xB2918020 0x90000400 = .ok (.st 36 ⟨24, 1, false⟩ ⟨.b256, .sp, false, .group, 0x400⟩) := by
  and_intros <;> rfl

/-! ## Small states -/

/-- A team of one group of two lanes under i64, whose split is about to issue at 0x2000 (DESIGN CHOICE, log 6). -/
def small : Group → Group := fun g =>
  { g with launched := 3, recs := g.recs.setIfInBounds 0 { g.record 0 with members := 3, exec := 3, mode := 0 } }
def issuing (f : Group → Group) (flow : Nat := 0) : State :=
  { (State.reset.withFetchWord 64 0).modGroup 0 0 (fun g => f (small g)) with tick := 1, cur := some ⟨0, 0, flow⟩ }
def typed (et : Nat) : Group → Group := fun g =>
  { g with recs := g.recs.setIfInBounds 0 { g.record 0 with mode := BitVec.ofNat 12 (256 * et) } }

/-- The group runs a handler under a cause, at 0x2000. -/
def handlerFor (cause : Nat) : Handler :=
  { pc := 0x2000, mode := 0, repi := 0, sleep := .awake, cause := cause, hpc := 0x2000, hinfo := 0, traprec := 0,
    sbank := Vector.replicate 8 0, slive := 0, tokBusy := 0, m14 := 0, m15 := 0, stop := .running,
    kill := decide (cause = 0x51), dflt := true, ord := .fresh }
def handling (cause : Nat) : Group → Group := fun g => { g with handler := some (handlerFor cause) }

/-- The instruction of a form can issue in a state, in a view of which `p` holds. -/
def meets (F : Form) (s : State) (p : View → Bool) : Bool :=
  match s.issuer? F.words with
  | some v => v.inTurn && (F.early v).isNone &&
      v.canIssue (F.ill v) (F.reads v) (F.ops v) && p v
  | none => false

theorem of_meets {F : Form} {s : State} {p : View → Bool} (h : meets F s p = true) : ∃ v, F.CanIssue s v ∧ p v = true := by
  unfold meets at h
  split at h
  · rename_i v hv
    simp only [Bool.and_eq_true, Option.isNone_iff_eq_none] at h
    exact ⟨v, ⟨hv, h.1.1.1, h.1.1.2, h.1.2⟩, h.2⟩
  · cases h

/-- The instruction of a form issues and is free to run, and no enabled flag arises. -/
def runs (T : Instr → Option Form) (s : State) (i : Instr) : Bool :=
  match T i with
  | some F => meets F s fun v => (F.fault (F.issued v)).isNone && !F.waits (F.issued v) &&
      (F.issued v).fpxLanes (F.flags (F.issued v)) == 0
  | none => false

theorem of_runs {T : Instr → Option Form} {s : State} {i : Instr} (h : runs T s i = true) :
    ∃ F v, T i = some F ∧ F.CanIssue s v ∧ F.Free (F.issued v) ∧ (F.issued v).fpxLanes (F.flags (F.issued v)) = 0#32 := by
  unfold runs at h
  split at h
  · rename_i F hF
    obtain ⟨v, hv, hp⟩ := of_meets h
    simp only [Bool.and_eq_true, Option.isNone_iff_eq_none, Bool.not_eq_true', beq_iff_eq] at hp
    exact ⟨F, v, hF, hv, ⟨hp.1.1, hp.1.2⟩, hp.2⟩
  · cases h

/-- As `runs`, for every instruction of a list. -/
theorem all_run {T : Instr → Option Form} {s : State} {is : List Instr} (h : is.all (runs T s) = true) :
    ∀ i ∈ is, ∃ F v, T i = some F ∧ F.CanIssue s v ∧ F.Free (F.issued v) ∧
      (F.issued v).fpxLanes (F.flags (F.issued v)) = 0#32 :=
  fun i hi => of_runs (List.all_eq_true.mp h i hi)

def src (r : BitVec 7) : VSrc := ⟨r, false, false⟩

/-! ## The hypotheses of the statements hold somewhere -/

/-- VectorArithmeticRuns. -/
theorem test_meets_vector : ∀ i ∈ ([.vadd 1 (src 2) (src 3), .vsub 1 (src 2) (src 3), .vmul 1 (src 2) (src 3),
    .vmulh 1 (src 2) (src 3), .vfma 1 (src 2) (src 3), .vfms 1 (src 2) (src 3), .vmin 1 (src 2) (src 3),
    .vmax 1 (src 2) (src 3), .vand 1 (src 2) (src 3), .vor 1 (src 2) (src 3), .vxor 1 (src 2) (src 3),
    .vshl 1 (src 2) (src 3), .vshr 1 (src 2) (src 3), .vabsd 1 (src 2) (src 3), .vbfx 1 (src 2) (src 3),
    .vbfi 1 (src 2) (src 3), .vlerp 127 (src 127) (src 127)] : List Instr),
    ∃ F v, vectorForms i = some F ∧ F.CanIssue (issuing id) v ∧ F.Free (F.issued v) ∧
      (F.issued v).fpxLanes (F.flags (F.issued v)) = 0#32 :=
  all_run (by decide)
theorem test_meets_unary : ∀ i ∈ ([.vaddi 1 (src 2) 0x100, .vmuli 1 (src 2) 3, .vshli 1 (src 2) 63, .vshri 1 (src 2) 0,
    .vandi 1 (src 2) 5, .vmov 1 (src 2), .vneg 1 (src 2), .vabs 1 (src 2), .vpopc 1 (src 2), .vclz 1 (src 2)] : List Instr),
    ∃ F v, unaryForms i = some F ∧ F.CanIssue (issuing id) v ∧ F.Free (F.issued v) ∧
      (F.issued v).fpxLanes (F.flags (F.issued v)) = 0#32 :=
  all_run (by decide)
theorem test_meets_unaryFloat : ∀ i ∈ ([.vclass 1 (src 2), .vrint 1 (src 2) .rne] : List Instr),
    ∃ F v, unaryForms i = some F ∧ F.CanIssue (issuing (typed 9)) v ∧ F.Free (F.issued v) ∧
      (F.issued v).fpxLanes (F.flags (F.issued v)) = 0#32 :=
  all_run (by decide)

/-- LongLatencyRuns. -/
theorem test_meets_later : ∀ i ∈ ([.vdiv 1 (src 2) (src 3) 0, .vrem 1 (src 2) (src 3) 15] : List Instr),
    ∃ F v, laterForms i = some F ∧ F.CanIssue (issuing id) v ∧ F.Free (F.issued v) ∧
      (F.issued v).fpxLanes (F.flags (F.issued v)) = 0#32 :=
  all_run (by decide)
theorem test_meets_laterFloat : ∀ i ∈ ([.vexp2 1 (src 2) 0, .vlog2 1 (src 2) 1, .vrcp 1 (src 2) 2, .vrsq 1 (src 2) 0,
    .vsqrt 1 (src 2) 0, .vsinp 1 (src 2) 0, .vcosp 1 (src 2) 0, .vtanh 1 (src 2) 0] : List Instr),
    ∃ F v, laterForms i = some F ∧ F.CanIssue (issuing (typed 9)) v ∧ F.Free (F.issued v) ∧
      (F.issued v).fpxLanes (F.flags (F.issued v)) = 0#32 :=
  all_run (by decide)

/-- A live scalar register. -/
def scalar (r : Nat) (x : Word) : Group → Group := fun g =>
  { g with s := g.s.setIfInBounds r x, slive := g.slive ||| BitVec.ofNat 64 (2 ^ r) }
/-- A live vector register, given by its lanes 0 and 1. -/
def vector (r : Nat) (x y : Word) : Group → Group := fun g =>
  { g with v := g.v.setIfInBounds r (lanesFrom fun l => if l = 0 then x else y), vlive := g.vlive.setIfInBounds r 3 }
def masked (r : Nat) (x : Mask) : Group → Group := fun g => { g with m := g.m.setIfInBounds r x }
def trapping (x : BitVec 10) : Group → Group := fun g => { g with trapen := x }
def executing (x : Mask) : Group → Group := fun g => { g with recs := g.recs.setIfInBounds 0 { g.record 0 with exec := x } }
/-- An item of the group. -/
def item (id : Nat) (work : Work) : Item :=
  { id := id, ctx := 0, core := 0, party := ⟨0, 0, 0, 0⟩, flow := 0, lanes := 3, tok := 20, eff := 3, sa := 0, sb := 0, vs := [], d := 0,
    outs := [], drop := [], dropM := false, clk := [], waits := [], work := work }
def holding (is : List Item) (s : State) : State := { s with items := is, nextId := 100 }
/-- A RED of the group. -/
def oneRed : Red :=
  { id := 7, ctx := 0, core := 0, party := ⟨0, 0, 0, 0⟩, uid := 0, tidx := 0, seq := 0,
    word := ⟨true, true, .plain, .group, .add, 1, 0⟩, sgn := true, lanes := [⟨0, 0x2000, 5, 0⟩], heads := [], rel := 0, wait := none, back := none }

/-- IntegerDivision: a zero divisor, the smallest value over −1, and the cases between. -/
theorem test_meets_integerDivision :
    (intType .n8 = true ∧ 255 < 2 ^ tyWidth .n8 ∧ 0 < 2 ^ tyWidth .n8 ∧ ruleVal .n8 0 = 0) ∧
    (intType .i8 = true ∧ 0x80 < 2 ^ tyWidth .i8 ∧ 0xFF < 2 ^ tyWidth .i8 ∧ tySigned .i8 = true ∧
      ruleVal .i8 0x80 = ruleMin .i8 ∧ ruleVal .i8 0xFF = -1) ∧
    (ruleVal .i8 0x80 ≠ 0 ∧ ¬(tySigned .i8 = true ∧ ruleVal .i8 0x81 = ruleMin .i8 ∧ ruleVal .i8 0xFF = -1)) := by decide

/-- SelectAndConvertRun. -/
theorem test_meets_select : ∀ i ∈ ([.vsel 1 (src 2) (src 3), .vldi 1 0x80000000, .vcvt 1 (src 2) .i32 .rtz true,
    .vcmp 1 .ge 2 false 3 false] : List Instr),
    ∃ F v, selectForms i = some F ∧ F.CanIssue (issuing id) v ∧ F.Free (F.issued v) ∧
      (F.issued v).fpxLanes (F.flags (F.issued v)) = 0#32 :=
  all_run (by decide)

/-- ScalarAndMaskRun. -/
theorem test_meets_scalar : ∀ i ∈ ([.sadd 1 2 3, .ssub 1 2 3, .smul 1 2 3, .smulh 1 2 3, .sand 1 2 3, .sor 1 2 3, .sxor 1 2 3,
    .sshl 1 2 3, .sshr 1 2 3, .ssra 1 2 3, .saddi 1 2 0x400, .sldi 0 1, .scmp .lt 1 2 3, .smin 1 2 3, .smax 63 63 63,
    .smov 1 2, .mtos 1 2, .mcnt 1 2, .mffs 1 2] : List Instr),
    ∃ F v, scalarForms i = some F ∧ F.CanIssue (issuing id) v ∧ F.Free (F.issued v) ∧
      (F.issued v).fpxLanes (F.flags (F.issued v)) = 0#32 :=
  all_run (by decide)
theorem test_meets_mask : ∀ i ∈ ([.mand 0 1 2, .mor 1 2 3, .mxor 1 2 3, .mandn 1 2 3, .mnot 15 15, .mmov 1 2, .stom 1 2,
    .mldi 1 5] : List Instr),
    ∃ F v, maskForms i = some F ∧ F.CanIssue (issuing id) v ∧ F.Free (F.issued v) ∧
      (F.issued v).fpxLanes (F.flags (F.issued v)) = 0#32 :=
  all_run (by decide)

/-- CrossLaneRuns. -/
theorem test_meets_lanes : ∀ i ∈ ([.xperm 1 (src 2) (src 3) 0, .xbfly 1 (src 2) 31 0, .xbcast 1 (src 2) 0 15,
    .xred 1 (src 2) .add, .xscan 1 (src 2) .max true, .xpsum 1 2 false, .vtos 1 (src 2), .stov 1 2] : List Instr),
    ∃ F v, laneForms i = some F ∧ F.CanIssue (issuing id) v ∧ F.Free (F.issued v) ∧
      (F.issued v).fpxLanes (F.flags (F.issued v)) = 0#32 :=
  all_run (by decide)

/-- ControlRuns. -/
theorem test_meets_control : ∀ i ∈ ([.bra 1, .bru 1 2, .brz 1 2, .brnz 1 2, .brs 1 2, .loop 1 2, .call 2, .pad 3, .nop, .yield,
    .setmode 9 4 15 true true true true true, .srd 1 0, .srd 1 8, .srd 1 10, .srd 1 15, .swr 10 0, .swr 11 0, .swr 12 0,
    .swr 13 0] : List Instr),
    ∃ F v, controlForms i = some F ∧ F.CanIssue (issuing id) v ∧ F.Free (F.issued v) ∧
      (F.issued v).fpxLanes (F.flags (F.issued v)) = 0#32 :=
  all_run (by decide)
theorem test_meets_return : ∃ F v, controlForms .ret = some F ∧ F.CanIssue (issuing (scalar 62 0x2000)) v ∧
    F.Free (F.issued v) ∧ (F.issued v).fpxLanes (F.flags (F.issued v)) = 0#32 :=
  of_runs (by decide)
theorem test_meets_hidden : ∀ i ∈ ([.srd 1 16, .srd 1 18, .swr 14 0, .hsr 1 0x0100, .hsr 1 0x0701, .hsw 0x0100 0,
    .hsw 0x047F 0] : List Instr),
    ∃ F v, controlForms i = some F ∧ F.CanIssue (issuing (handling 0x40) 4) v ∧ F.Free (F.issued v) ∧
      (F.issued v).fpxLanes (F.flags (F.issued v)) = 0#32 :=
  all_run (by decide)

/-- EngineControlRuns. -/
theorem test_meets_engineControl : ∀ i ∈ ([.xdrain, .xqry 1, .mzero 64, .mfenceOpr, .mprio 3] : List Instr),
    ∃ F v, engineForms i = some F ∧ F.CanIssue (issuing id) v ∧ F.Free (F.issued v) ∧
      (F.issued v).fpxLanes (F.flags (F.issued v)) = 0#32 :=
  all_run (by decide)

/-- FloatFlagsRaiseFpx: ∞ − ∞ and inexact results, with every flag enabled. -/
def floats (et : Nat) : Group → Group :=
  trapping 0x1F0 ∘ vector 2 0x7FF0000000000000 0xFFF0000000000000 ∘ vector 3 0xFFF0000000000000 0x3FB999999999999A ∘
    vector 4 0x3FB999999999999A 0x3FB999999999999A ∘ vector 5 0 0 ∘ typed et

def raises (T : Instr → Option Form) (s : State) (i : Instr) : Bool :=
  match T i with
  | some F => meets F s fun v => (F.fault (F.issued v)).isNone && !F.waits (F.issued v) &&
      (F.issued v).fpxLanes (F.flags (F.issued v)) != 0
  | none => false
theorem of_raises {T : Instr → Option Form} {s : State} {i : Instr} (h : raises T s i = true) :
    ∃ F v, T i = some F ∧ F.CanIssue s v ∧ F.Free (F.issued v) ∧ (F.issued v).fpxLanes (F.flags (F.issued v)) ≠ 0#32 := by
  unfold raises at h
  split at h
  · rename_i F hF
    obtain ⟨v, hv, hp⟩ := of_meets h
    simp only [Bool.and_eq_true, Option.isNone_iff_eq_none, Bool.not_eq_true', bne_iff_ne] at hp
    exact ⟨F, v, hF, hv, ⟨hp.1.1, hp.1.2⟩, hp.2⟩
  · cases h
theorem test_meets_fpxVector : ∃ F v, vectorForms (.vadd 1 (src 2) (src 3)) = some F ∧
    F.CanIssue (issuing (floats 8)) v ∧ F.Free (F.issued v) ∧
    (F.issued v).fpxLanes (F.flags (F.issued v)) ≠ 0#32 := of_raises (by decide)
theorem test_meets_fpxUnary : ∃ F v, unaryForms (.vaddi 1 (src 4) 1) = some F ∧
    F.CanIssue (issuing (floats 8)) v ∧ F.Free (F.issued v) ∧
    (F.issued v).fpxLanes (F.flags (F.issued v)) ≠ 0#32 := of_raises (by decide)
theorem test_meets_fpxLater : ∃ F v, laterForms (.vdiv 1 (src 5) (src 5) 0) = some F ∧
    F.CanIssue (issuing (floats 8)) v ∧ F.Free (F.issued v) ∧
    (F.issued v).fpxLanes (F.flags (F.issued v)) ≠ 0#32 := of_raises (by decide)
theorem test_meets_fpxSelect : ∃ F v, selectForms (.vcvt 1 (src 4) .f64 .rne false) = some F ∧
    F.CanIssue (issuing (floats 9)) v ∧ F.Free (F.issued v) ∧
    (F.issued v).fpxLanes (F.flags (F.issued v)) ≠ 0#32 := of_raises (by decide)
theorem test_meets_fpxLanes : ∃ F v, laneForms (.xred 1 (src 2) .add) = some F ∧
    F.CanIssue (issuing (floats 8)) v ∧ F.Free (F.issued v) ∧
    (F.issued v).fpxLanes (F.flags (F.issued v)) ≠ 0#32 := of_raises (by decide)

/-- ControlFaults: each cause. -/
def faults (s : State) (i : Instr) (c : Nat) : Bool :=
  match controlForms i with
  | some F => meets F s fun v => (F.fault (F.issued v)).any fun f => f.1 == c
  | none => false
theorem of_faults {s : State} {i : Instr} {c : Nat} (h : faults s i c = true) :
    ∃ F v x, controlForms i = some F ∧ F.CanIssue s v ∧ F.fault (F.issued v) = some (c, x) := by
  unfold faults at h
  split at h
  · rename_i F hF
    obtain ⟨v, hv, hp⟩ := of_meets h
    cases hf : F.fault (F.issued v) with
    | none => rw [hf] at hp; cases hp
    | some f =>
      rw [hf] at hp
      exact ⟨F, v, f.2, hF, hv, by rw [← eq_of_beq (show (f.1 == c) = true from hp)]; exact hf⟩
  · cases h
theorem test_meets_divergent : ∃ F v x, controlForms (.bru 1 2) = some F ∧
    F.CanIssue (issuing (trapping 4 ∘ masked 1 1)) v ∧ F.fault (F.issued v) = some (0x07, x) := of_faults (by decide)
theorem test_meets_badMode : ∃ F v x, controlForms (.setmode 15 0 0 false true false false false) = some F ∧
    F.CanIssue (issuing id) v ∧ F.fault (F.issued v) = some (0x04, x) := of_faults (by decide)
theorem test_meets_badRounding : ∃ F v x, controlForms (.setmode 0 5 0 false false true false false) = some F ∧
    F.CanIssue (issuing id) v ∧ F.fault (F.issued v) = some (0x04, x) := of_faults (by decide)
theorem test_meets_badTrapen : ∃ F v x, controlForms (.swr 11 1) = some F ∧
    F.CanIssue (issuing (scalar 1 512)) v ∧ F.fault (F.issued v) = some (0x01, x) := of_faults (by decide)
theorem test_meets_badModeValue : ∃ F v x, controlForms (.swr 12 1) = some F ∧
    F.CanIssue (issuing (scalar 1 4096)) v ∧ F.fault (F.issued v) = some (0x04, x) := of_faults (by decide)
theorem test_meets_badKsp : ∃ F v x, controlForms (.swr 13 1) = some F ∧
    F.CanIssue (issuing (scalar 1 8)) v ∧ F.fault (F.issued v) = some (0x13, x) := of_faults (by decide)
theorem test_meets_oddReturn : ∃ F v x, controlForms .ret = some F ∧
    F.CanIssue (issuing (scalar 62 2)) v ∧ F.fault (F.issued v) = some (0x13, x) := of_faults (by decide)
theorem test_meets_farReturn : ∃ F v x, controlForms .ret = some F ∧
    F.CanIssue (issuing (scalar 62 (BitVec.ofNat 64 (2 ^ 53)))) v ∧ F.fault (F.issued v) = some (0x11, x) := of_faults (by decide)
theorem test_meets_badHidden : ∃ F v x, controlForms (.hsw 0x0100 1) = some F ∧
    F.CanIssue (issuing (scalar 1 2 ∘ handling 0x40) 4) v ∧ F.fault (F.issued v) = some (0x01, x) := of_faults (by decide)

/-- A flow issues in its turn, with `p` of its view. -/
def sees (s : State) (n : Nat) (p : View → Bool) : Bool :=
  match s.issuer? n with
  | some v => v.inTurn && p v
  | none => false
theorem of_sees {s : State} {n : Nat} {p : View → Bool} (h : sees s n p = true) :
    ∃ v, s.issuer? n = some v ∧ v.inTurn = true ∧ p v = true := by
  unfold sees at h
  split at h
  · rename_i v hv
    simp only [Bool.and_eq_true] at h
    exact ⟨v, hv, h.1, h.2⟩
  · cases h

/-- IssueStops: each check of R376 in its turn, on VADD V1, V2, V3. -/
def addForm : Form := (vectorForms (.vadd 1 (src 2) (src 3))).getD bareForm
def adds (v : View) : List Opnd := addForm.ops v
theorem test_meets_beyond : ∃ v, (issuing fun g => { g with budget := 3 }).issuer? 1 = some v ∧ v.inTurn = true ∧
    firstBeyond v.g.budget (adds v) == some 3 := of_sees (by decide)
theorem test_meets_illtype : ∃ v, (issuing (typed 12)).issuer? 1 = some v ∧ v.inTurn = true ∧ addForm.ill v = true :=
  of_sees (by decide)
theorem test_meets_busyToken : ∃ v, (issuing fun g => { g with tokBusy := 2 }).issuer? 1 = some v ∧ v.inTurn = true ∧
    v.namesBusy [opSw 3, opS 1, opS 2] = true := of_sees (by decide)
theorem test_meets_atomOut : ∃ v, ({ issuing id with reds := [{ oneRed with back := some ⟨0, 0x2000, some 1, 1, [], 0⟩ }] } : State).issuer? 1 =
    some v ∧ v.inTurn = true ∧ (!v.namesBusy (adds v) && v.namesAtom (adds v)) = true := of_sees (by decide)
theorem test_meets_laviol : ∃ v, (issuing fun g => { g with trapen := 2, pends := [⟨0, 1, [(2, 3, LaneVec.splat 0)], []⟩] }).issuer? 1 = some v ∧
    v.inTurn = true ∧ ((v.readied (adds v)).g.trapen.getLsbD 1 && (v.readied (adds v)).breach (adds v) == some 2) = true :=
  of_sees (by decide)
theorem test_meets_hra : ∃ v, (holding [item 1 (.lcu .lqry false false false 0 0 0 0 none)] (issuing (trapping 8))).issuer? 1 = some v ∧
    v.inTurn = true ∧ ((v.readied (adds v)).g.trapen.getLsbD 3 && (v.readied (adds v)).heldNamed (adds v) == some 1) = true :=
  of_sees (by decide)
theorem test_meets_deadrd : ∃ v, (issuing (trapping 1)).issuer? 1 = some v ∧ v.inTurn = true ∧
    ((v.readied (adds v)).g.trapen.getLsbD 0 && ((v.readied (adds v)).deadRead (addForm.reads v) (adds v)).isSome) = true :=
  of_sees (by decide)
theorem test_meets_ecc : ∃ v, (issuing fun g => { g with eccV := [(3, 1)] }).issuer? 1 = some v ∧ v.inTurn = true ∧
    ((v.readied (adds v)).eccRead (addForm.reads v) (adds v)).isSome = true := of_sees (by decide)
theorem test_meets_early : ∃ v, (issuing id).issuer? 1 = some v ∧ v.inTurn = true ∧ handlerOnly v == some 0x05 :=
  of_sees (by decide)

/-- SrdReadsCyc and IcinvEmptiesCache, with an item and without. -/
theorem test_meets_cyc : ∃ v, (cycForm 63).CanIssue (issuing id) v ∧ true = true := of_meets (by decide)
theorem test_meets_icinv : (∃ v, bareForm.CanIssue (issuing id) v ∧ (!(bareForm.issued v).redsOut) = true) ∧
    (∀ i ∈ (issuing id).items, i.party.team ≠ 0) ∧ (issuing id).canonical = true := ⟨of_meets (by decide), by decide, by decide⟩
/-- An item of the split holds ICINV; one of lanes that are another split's does not. -/
theorem test_meets_icinvWaits : ∃ v, bareForm.CanIssue (holding [item 1 (.arrival 0 true 0)] (issuing id)) v ∧
    decide (∃ i ∈ (holding [item 1 (.arrival 0 true 0)] (issuing id)).items, i.party.team = v.u ∧ i.party.gid = v.g.gid ∧
      (i.flow = 4 ↔ v.fl = 4) ∧ i.lanes &&& v.members ≠ 0#32) = true := of_meets (by decide)
theorem test_icinvOther : (match exec .icinv (holding [{ item 1 (.arrival 0 true 0) with lanes := 4 }] (issuing id)) with
    | .next t => t.icMark != [] | _ => false) = true := by decide

/-! Traps and returns. -/

/-- The group and the team of a view are those of its state. -/
def current (v : View) : Bool :=
  v.s.group? v.u v.g.gid == some v.g &&
    match v.s.team? v.u with
    | some t => decide (t.ctx = v.t.ctx ∧ t.grid = v.t.grid ∧ t.core = v.t.core ∧ t.lastCore = v.t.lastCore)
    | none => false
theorem of_current {v : View} (h : current v = true) : v.Current := by
  simp only [current, Bool.and_eq_true, beq_iff_eq] at h
  obtain ⟨h1, h2⟩ := h
  split at h2
  · rename_i t ht
    exact ⟨h1, t, ht, of_decide_eq_true h2⟩
  · cases h2
theorem of_sees_current {s : State} {n : Nat} {p : View → Bool} (h : sees s n (fun v => current v && p v) = true) :
    ∃ v, s.issuer? n = some v ∧ v.Current ∧ p v = true := by
  obtain ⟨v, hv, _, hp⟩ := of_sees h
  simp only [Bool.and_eq_true] at hp
  exact ⟨v, hv, of_current hp.1, hp.2⟩

/-- TrapEntersHandler: a split without a handler; HandlerFaults: a handler flow. -/
theorem test_meets_trap : ∃ v, (issuing id).issuer? 1 = some v ∧ v.Current ∧
    decide (v.fl < 4 ∧ v.g.handler = none) = true := of_sees_current (by decide)
theorem test_meets_handlerFault : ∃ v, (issuing (handling 0x40) 4).issuer? 1 = some v ∧ v.Current ∧
    decide (v.fl = 4 ∧ v.g.handler = some (handlerFor 0x40)) = true := of_sees_current (by decide)
theorem test_meets_handlerBreak : ∃ v, bareForm.CanIssue (issuing (handling 0x40) 4) v ∧
    decide (v.fl = 4 ∧ (bareForm.issued v).g.handler = some (handlerFor 0x40)) = true := of_meets (by decide)

/-- TrapInstructionsEnter. -/
theorem test_meets_break : ∃ v, bareForm.CanIssue (issuing id) v ∧ decide (v.fl < 4) = true := of_meets (by decide)
theorem test_meets_reserved : ∃ v, (issuing id).issuer? (opWords (opcodeOf 0xFE000000)) = some v ∧ v.inTurn = true ∧
    decide (v.fl < 4) = true := of_sees (by decide)

/-- TretResumes, TexitLeaves and HbarRounds, in a KILL handler and in another. -/
def atHandler : Form := { words := 1, early := handlerOnly }
theorem test_meets_tret : ∃ v, atHandler.CanIssue (issuing (handling 0x40) 4) v ∧ decide (v.inKill = false) = true :=
  of_meets (by decide)
theorem test_meets_resume : ∃ g h, (issuing fun g => { g with handler := some { handlerFor 0x40 with stop := .debug } }).group? 0 0 = some g ∧
    g.handler = some h ∧ h.stop = .debug := ⟨_, _, rfl, rfl, rfl⟩
def atomOut : Red := { oneRed with back := some ⟨0, 0x2000, some 1, 1, [], 0⟩ }
theorem test_meets_texitWaits : (∃ v, atHandler.CanIssue { issuing (handling 0x40) 4 with reds := [atomOut] } v ∧
    decide (v.u = 0 ∧ v.g.gid = 0) = true) ∧ ¬({ issuing (handling 0x40) 4 with reds := [atomOut] } : State).atomsBack 0 0 :=
  ⟨of_meets (by decide), fun h => absurd (h atomOut (by simp) rfl rfl) (by decide)⟩
theorem test_meets_texit : (issuing (handling 0x40) 4).atomsBack 0 0 := by
  intro r hr
  cases hr
theorem test_meets_killExit : ∃ v, atHandler.CanIssue (issuing (handling 0x51) 4) v ∧ decide (v.inKill = true) = true :=
  of_meets (by decide)
def hbarForm (sd : BitVec 6) : Form := { words := 1, early := handlerOnly, ops := fun _ => [opSw sd.toNat] }
theorem test_meets_hbar : ∃ v, (hbarForm 63).CanIssue (issuing (handling 0x40) 4) v ∧
    decide (((hbarForm 63).issued v).redsOut = false) = true := of_meets (by decide)
theorem test_meets_hbarWaits : ∃ v, (hbarForm 63).CanIssue { issuing (handling 0x40) 4 with reds := [oneRed] } v ∧
    decide (((hbarForm 63).issued v).redsOut = true) = true := of_meets (by decide)
def arrived : State := issuing (fun g =>
  { g with handler := some { handlerFor 0x40 with sleep := .hbar 5 }, hbarIn := true })
theorem test_meets_hbarRound :
    (∃ t, arrived.team? 0 = some t ∧ arrived.hbarFull t = true) ∧
    ∃ t g, arrived.team? 0 = some t ∧ arrived.group? 0 0 = some g ∧ g.sleepOf 4 = .hbar 5 :=
  ⟨⟨_, rfl, by decide⟩, _, _, rfl, rfl, rfl⟩

/-- HiddenStateReadsBack, at the ends of each range of selectors. -/
theorem test_meets_hiddenValues : ∃ v, (issuing (handling 0x40) 4).issuer? 1 = some v ∧ v.inTurn = true ∧
    ((v.svc == false && v.g.handler.isSome) = true) := of_sees (by decide)
theorem test_meets_selectors : ([(0x0100, 4), (0x0102, 0x3F91F), (0x0134, 1), (0x0300, 0), (0x0400, 1), (0x047F, 1), (0x0500, 0),
    (0x0638, 7), (0x063F, 7), (0x0640, 7), (0x0641, 7)] : List (Nat × Word)).all (fun x =>
      selWritable (BitVec.ofNat 16 x.1) && hswFault x.1 x.2 == none) = true := by decide

/-! Indirect branches, EXIT and REP. -/

def coded (w : Nat) (s : State) : State := { s with mem := placedMemory w }
/-- PAD #0x51A7 at 0x2000 and at 0x2004. -/
def padded : State → State := coded 0xA20051A7A20051A7
def jump : Indirect := (indirectForms (.jmpi (src 1) 1 0x51A7)).getD ⟨src 1, 0, fun _ => none, false⟩
def passing (I : Indirect) (w : View) : Bool :=
  (I.targets w).all (fun p => decide (p.1.toNat % 4 = 0 ∧ p.1.toNat < 2 ^ 53)) && (I.found w).1.all fun p => p.2.2 == .ok
theorem of_passing {I : Indirect} {w : View} (h : passing I w = true) : I.passes w := by
  simp only [passing, Bool.and_eq_true, List.all_eq_true, decide_eq_true_eq, beq_iff_eq] at h
  exact h
theorem of_jumps {s : State} {p : View → Bool}
    (h : meets jump.form s (fun v => passing jump (jump.form.issued v) && p (jump.form.issued v)) = true) :
    ∃ v, jump.form.CanIssue s v ∧ jump.passes (jump.form.issued v) ∧ p (jump.form.issued v) = true := by
  obtain ⟨v, hv, hp⟩ := of_meets h
  simp only [Bool.and_eq_true] at hp
  exact ⟨v, hv, of_passing hp.1, hp.2⟩
theorem test_meets_jumpNone : ∃ v, jump.form.CanIssue (issuing (executing 0)) v ∧
    (jump.targets (jump.form.issued v) == []) = true := of_meets (by decide)
theorem test_meets_jumpOne : ∃ v, jump.form.CanIssue (padded (issuing (vector 1 0x2004 0x2004))) v ∧
    jump.passes (jump.form.issued v) ∧ (jump.targets (jump.form.issued v) == [(0x2004, 3)]) = true :=
  of_jumps (p := fun w => jump.targets w == [(0x2004, 3)]) (by decide)
theorem test_meets_jumpDivides : ∃ v, jump.form.CanIssue (padded (issuing (vector 1 0x2004 0x2000))) v ∧
    jump.passes (jump.form.issued v) ∧ decide ((jump.targets (jump.form.issued v)).length = 2 ∧
      (jump.form.issued v).g.freeRecs ≠ [] ∧ (jump.form.issued v).g.recordsApart = true) = true :=
  of_jumps (p := fun w => decide ((jump.targets w).length = 2 ∧ w.g.freeRecs ≠ [] ∧ w.g.recordsApart = true)) (by decide)
/-- Every record in use. -/
def crowded : Group → Group := fun g =>
  { g with launched := 0x1F, recs := Vector.ofFn fun (k : Fin 4) =>
      if k = 0 then g.record 0 else { g.record 0 with members := BitVec.ofNat 32 (2 ^ (k.val + 1)), exec := 0 } }
theorem test_meets_jumpWaits : ∃ v, jump.form.CanIssue (padded (issuing (crowded ∘ vector 1 0x2004 0x2000))) v ∧
    jump.passes (jump.form.issued v) ∧ decide ((jump.targets (jump.form.issued v)).length = 2 ∧
      (jump.form.issued v).g.freeRecs = []) = true :=
  of_jumps (p := fun w => decide ((jump.targets w).length = 2 ∧ w.g.freeRecs = [])) (by decide)
def misses (w : View) : Mask × Mask := (jump.failing w fun t => decide (t.toNat % 4 ≠ 0), jump.failing w fun t => decide (2 ^ 53 ≤ t.toNat))
def fated (w : View) (f : TargetFate) : Bool := misses w == (0, 0) && (jump.found w).1.map (fun p => p.2.2) == [.ok, f]
theorem test_meets_jumpAlign : ∃ v, jump.form.CanIssue (issuing (vector 1 0x2002 0x2000)) v ∧
    ((misses (jump.form.issued v)).1 == 1) = true := of_meets (by decide)
theorem test_meets_jumpFar : ∃ v, jump.form.CanIssue (issuing (vector 1 (BitVec.ofNat 64 (2 ^ 53)) 0x2000)) v ∧
    (misses (jump.form.issued v) == (0, 1)) = true := of_meets (by decide)
theorem test_meets_jumpAbsent : ∃ v, jump.form.CanIssue (padded (issuing (vector 1 0x2000 0x4000))) v ∧
    fated (jump.form.issued v) (.absent false) = true := of_meets (by decide)
theorem test_meets_jumpNoPad : ∃ v, jump.form.CanIssue (coded 0xA20051A7 (issuing (vector 1 0x2000 0x2004))) v ∧
    fated (jump.form.issued v) .notPad = true := of_meets (by decide)
theorem test_meets_jumpEcc : ∃ v, jump.form.CanIssue { padded (issuing (vector 1 0x2000 0x2008)) with eccMem := [0x8008 / 8] } v ∧
    fated (jump.form.issued v) .ecc = true := of_meets (by decide)

/-- ExitEndsLanes. -/
theorem test_meets_exitNone : ∃ v, exitForm.CanIssue (issuing (executing 0)) v ∧
    ((exitForm.issued v).split.exec == 0) = true := of_meets (by decide)
theorem test_meets_exitPart : ∃ v, exitForm.CanIssue (issuing (executing 1)) v ∧
    decide ((exitForm.issued v).split.exec ≠ 0#32 ∧ ruleLast (exitForm.issued v) = false ∧
      (exitForm.issued v).g.recordsApart = true) = true := of_meets (by decide)
theorem test_meets_exitLast : ∃ v, exitForm.CanIssue (issuing id) v ∧
    decide (ruleLast (exitForm.issued v) = true ∧ (exitForm.issued v).redsOut = false ∧
      (exitForm.issued v).s.ownEntry (exitForm.issued v).t = none ∧ (exitForm.issued v).g.recordsApart = true) = true :=
  of_meets (by decide)
theorem test_meets_exitReds : ∃ v, exitForm.CanIssue { issuing id with reds := [oneRed] } v ∧
    decide (ruleLast (exitForm.issued v) = true ∧ (exitForm.issued v).redsOut = true) = true := of_meets (by decide)
def logged (s : State) : State := { s with contexts := [{ placedContext with logN := 6, logMarks := [⟨5, 0, 0, []⟩] }] }
theorem test_meets_exitLog : ∃ v, exitForm.CanIssue (logged (issuing id)) v ∧
    decide (ruleLast (exitForm.issued v) = true ∧ (exitForm.issued v).redsOut = false ∧
      (exitForm.issued v).s.ownEntry (exitForm.issued v).t = some 5) = true := of_meets (by decide)

/-- RepRepeats: REP at 0x2000 before VADD V3, V4, V5 at 0x2004, at the first and the last iteration, and before a REP. -/
def repeating (w : Nat) (repi : BitVec 6) : State := coded (w * 2 ^ 32) (issuing fun g =>
  { g with recs := g.recs.setIfInBounds 0 { g.record 0 with repi := repi } })
def codeFor (v : View) : W32 × State :=
  let r := v.s.translate v.core v.t.ctx (v.back + 4).toNat
  (match r.1 with | .ok e => r.2.cachedWord v.core (e.pa (v.back + 4).toNat) | _ => 0, r.2)
def codeOk (v : View) : Bool :=
  decide ((v.back + 4).toNat < 2 ^ 53) && match (v.s.translate v.core v.t.ctx (v.back + 4).toNat).1 with
    | .ok e => e.x && !(codeFor v).2.badMem (e.pa (v.back + 4).toNat) 4
    | _ => false
theorem of_codeOk {v : View} (h : codeOk v = true) :
    v.s.codeAt v.core v.t.ctx (v.back + 4) (codeFor v).1 (codeFor v).2 := by
  simp only [codeOk, Bool.and_eq_true, decide_eq_true_eq] at h
  obtain ⟨h1, h2⟩ := h
  refine ⟨h1, ?_⟩
  split at h2
  · rename_i e he
    simp only [Bool.and_eq_true, Bool.not_eq_true'] at h2
    exact ⟨e, Prod.ext he rfl, h2.1, h2.2, by simp only [codeFor, he]⟩
  · cases h2
theorem of_sees_code {s : State} {p : View → Bool} (h : sees s 1 (fun v => codeOk v && p v) = true) :
    ∃ v, s.issuer? 1 = some v ∧ v.inTurn = true ∧
      v.s.codeAt v.core v.t.ctx (v.back + 4) (codeFor v).1 (codeFor v).2 ∧ p v = true := by
  obtain ⟨v, h1, h2, h3⟩ := of_sees h
  simp only [Bool.and_eq_true] at h3
  exact ⟨v, h1, h2, of_codeOk h3.1, h3.2⟩
theorem test_meets_repeats : repeats 0x020C2414 1 7 1 (.vadd 3 ⟨4, true, false⟩ (src 5)) :=
  ⟨rfl, rfl, rfl, .inr rfl, .inr rfl, .inr rfl⟩
theorem test_meets_repeatsNot : ¬∃ i, repeats 0xF0000000 0 0 0 i := by
  rintro ⟨i, _, h, h2, _⟩
  have : i = .rep 0 0 0 0 := by cases h; rfl
  subst this
  cases h2
def addStep : Form := (repeatedForm (.vadd 5 ⟨6, true, false⟩ (src 7))).getD bareForm
theorem test_meets_iteration : ∃ v, (repeating 0x020C2414 2).issuer? 1 = some v ∧ v.inTurn = true ∧
    v.s.codeAt v.core v.t.ctx (v.back + 4) (codeFor v).1 (codeFor v).2 ∧
    ((codeFor v).1 == 0x020C2414 && v.repi == 2 &&
      advanced 2 2 2 (.vadd 3 ⟨4, true, false⟩ (src 5)) == some (.vadd 5 ⟨6, true, false⟩ (src 7)) &&
      let x := v.iteration (codeFor v).2 3
      (addStep.early x).isNone &&
        x.canIssue (addStep.ill x) (addStep.reads x) (addStep.ops x) &&
        (addStep.fault (addStep.issued x)).isNone && !addStep.waits (addStep.issued x) &&
        (addStep.issued x).fpxLanes (addStep.flags (addStep.issued x)) == 0) = true := of_sees_code (by decide)
theorem test_meets_repeatEnds : ∃ v, (repeating 0x020C2414 3).issuer? 1 = some v ∧ v.inTurn = true ∧
    v.s.codeAt v.core v.t.ctx (v.back + 4) (codeFor v).1 (codeFor v).2 ∧
    ((codeFor v).1 == 0x020C2414 && v.repi == 3) = true := of_sees_code (by decide)

/-! Memory. -/

def goesOn (R : Reach) (w : View) : Bool :=
  (firstCause (w.firstRows R.req (R.addrs w))).isNone && (w.absentAt R.req (R.addrs w)).isNone &&
    (firstCause (w.lastRows R.req (R.addrs w))).isNone && !(w.looked R.req (R.addrs w)).redBlocks R.req (w.allSpots R.req (R.addrs w)) && !R.waits w
theorem of_goesOn {R : Reach} {w : View} (h : goesOn R w = true) : R.goes w := by
  simp only [goesOn, Bool.and_eq_true, Option.isNone_iff_eq_none, Bool.not_eq_true'] at h
  exact ⟨⟨h.1.1.1.1, h.1.1.1.2, h.1.1.2⟩, h.1.2, h.2⟩
theorem of_reaches {R : Reach} {s : State} {p : View → Bool}
    (h : meets R.form s (fun v => goesOn R (R.issued v) && p v) = true) :
    ∃ v, R.form.CanIssue s v ∧ R.goes (R.issued v) ∧ p v = true := by
  obtain ⟨v, hv, hp⟩ := of_meets h
  simp only [Bool.and_eq_true] at hp
  exact ⟨v, hv, of_goesOn hp.1, hp.2⟩

/-- LoadsComplete and StoresComplete, in each space. -/
def loads (s : State) (i : Instr) : Bool :=
  match loadForms i with
  | some (R, _) => meets R.form s fun v => goesOn R (R.issued v) && true
  | none => false
def stores (s : State) (i : Instr) : Bool :=
  match storeForms i with
  | some (R, _, _) => meets R.form s fun v => goesOn R (R.issued v) && true
  | none => false
theorem of_loads {s : State} {i : Instr} (h : loads s i = true) :
    ∃ R e v, loadForms i = some (R, e) ∧ R.form.CanIssue s v ∧ R.goes (R.issued v) := by
  unfold loads at h
  split at h
  · rename_i R e hR
    obtain ⟨v, hv, hg, _⟩ := of_reaches h
    exact ⟨R, e, v, hR, hv, hg⟩
  · cases h
theorem of_stores {s : State} {i : Instr} (h : stores s i = true) :
    ∃ R ws ks v, storeForms i = some (R, ws, ks) ∧ R.form.CanIssue s v ∧ R.goes (R.issued v) := by
  unfold stores at h
  split at h
  · rename_i R ws ks hR
    obtain ⟨v, hv, hg, _⟩ := of_reaches h
    exact ⟨R, ws, ks, v, hR, hv, hg⟩
  · cases h
/-- A group whose spill window is the page at 0x2000. -/
def spilling : Group → Group := fun g => { g with ksp := 0x2000, kwin := (0x2000, 0x1000) }
def noIndex (sb : BitVec 6) : LAddr := ⟨sb, 127, false⟩
theorem test_meets_loads : ∀ i ∈ ([.ld 1 (noIndex 0) 0 ⟨.b256, .sh, false, .group, 0⟩, .ld 1 (noIndex 0) 15 ⟨.b64, .sp, true, .slice, 0x2000⟩,
    .lds 1 0 0 ⟨.b32, .sp, false, .group, 0x2004⟩, .ldk 1 (noIndex 0) 0 .b128 0] : List Instr),
    ∃ R e v, loadForms i = some (R, e) ∧ R.form.CanIssue (issuing spilling) v ∧ R.goes (R.issued v) :=
  fun i hi => of_loads (List.all_eq_true.mp (by decide) i hi)
theorem test_meets_stores : (issuing spilling).memOk = true ∧ ∀ i ∈ ([.st 1 (noIndex 0) ⟨.b32, .sh, false, .group, 0⟩,
    .st 1 (noIndex 0) ⟨.b64, .sp, true, .sys, 0x2010⟩, .sts 1 0 ⟨.b64, .sh, true, .team, 8⟩, .stk 1 (noIndex 0) .b256 0] : List Instr),
    ∃ R ws ks v, storeForms i = some (R, ws, ks) ∧ R.form.CanIssue (issuing spilling) v ∧ R.goes (R.issued v) :=
  ⟨by decide, fun i hi => of_stores (List.all_eq_true.mp (by decide) i hi)⟩

/-- AccessesRefused: a misaligned address, an absent page, and an ECC error, of a load. -/
def loading (off : BitVec 23) : Reach := .load 1 (noIndex 0) .b64 .sp true off
theorem test_meets_misaligned : ∃ v, (loading 4).form.CanIssue (issuing id) v ∧
    (firstCause (((loading 4).issued v).firstRows (loading 4).req ((loading 4).addrs ((loading 4).issued v))) ==
      some (0x13, [0, 1])) = true := of_meets (by decide)
def rows (R : Reach) (w : View) : Option (Nat × List Nat) × Option (Nat × Bool) × Option (Nat × List Nat) :=
  (firstCause (w.firstRows R.req (R.addrs w)), w.absentAt R.req (R.addrs w), firstCause (w.lastRows R.req (R.addrs w)))
theorem test_meets_absent : ∃ v, (loading 0x4000).form.CanIssue (issuing id) v ∧
    ((rows (loading 0x4000) ((loading 0x4000).issued v)).1.isNone &&
      (rows (loading 0x4000) ((loading 0x4000).issued v)).2.1 == some (0x4000, false)) = true := of_meets (by decide)
theorem test_meets_badLine : ∃ v, (loading 0x2008).form.CanIssue { issuing id with eccMem := [0x8008 / 8] } v ∧
    (rows (loading 0x2008) ((loading 0x2008).issued v) == (none, none, some (0x60, [0, 1]))) = true := of_meets (by decide)
theorem test_meets_redRows : ∃ v, (Reach.atom none (noIndex 0) ⟨true, false, .plain, .group, .add, 1, 4⟩).form.CanIssue (issuing id) v ∧
    (let R := Reach.atom none (noIndex 0) ⟨true, false, .plain, .group, .add, 1, 4⟩
     firstCause ((R.issued v).firstRows R.req (R.addrs (R.issued v))) == some (0x13, [0, 1])) = true := of_meets (by decide)

/-- AtomsComplete: with good memory, with a line in error, with no lane, and with 512 requests of the core outstanding; a lane
that lands, fails, finds its peer gone, and waits for its page. -/
def adding (off : BitVec 12) : Reach := .atom (some 1) (noIndex 0) ⟨true, false, .acqrel, .team, .add, 2, off⟩
theorem test_meets_atom : (issuing id).memOk = true ∧ ∃ v, (adding 0x40).form.CanIssue (issuing id) v ∧
    (adding 0x40).goes ((adding 0x40).issued v) ∧
    (((adding 0x40).issued v).eff true != 0 && badLanes (adding 0x40) ((adding 0x40).issued v) == 0) = true :=
  ⟨by decide, of_reaches (p := fun w => ((adding 0x40).issued w).eff true != 0 && badLanes (adding 0x40) ((adding 0x40).issued w) == 0)
    (by decide)⟩
theorem test_meets_atomEcc : ∃ v, (adding 0x40).form.CanIssue { issuing id with eccShared := [(0, 8)] } v ∧
    (adding 0x40).goes ((adding 0x40).issued v) ∧ (badLanes (adding 0x40) ((adding 0x40).issued v) != 0) = true :=
  of_reaches (p := fun w => badLanes (adding 0x40) ((adding 0x40).issued w) != 0) (by decide)
theorem test_meets_atomEmpty : ∃ v, (adding 0x40).form.CanIssue (issuing (executing 0)) v ∧
    (((adding 0x40).issued v).eff true == 0) = true := of_meets (by decide)
def flooded : State := { issuing id with reds := [{ oneRed with lanes := (List.range 511).map fun _ => ⟨0, 0x2000, 5, 0⟩ }] }
theorem test_meets_atomRoom : ∃ v, (adding 0x40).form.CanIssue flooded v ∧
    (((adding 0x40).issued v).eff true != 0 && (adding 0x40).waits ((adding 0x40).issued v)) = true := of_meets (by decide)
def anAtom (addr : Word) : Red :=
  { oneRed with word := { oneRed.word with sp := decide (addr.toNat < 2 ^ 20) }, lanes := [⟨0, addr, 5, 0⟩]
                back := some { flow := 0, pc := 0x2000, d := some 1, eff := 1, got := [], bad := 0 } }
def performing (r : Red) (s : State) : State := { s with reds := [r] }
theorem only_red (r : Red) (s : State) (h : r.wait = none) (hs : (performing r s).reds = [r]) : (performing r s).redNow r.id r := by
  refine ⟨by rw [hs]; simp, h, fun q hq _ => ?_, fun q hq _ _ _ => ?_⟩ <;> rw [hs, List.mem_singleton] at hq <;> subst hq
  · rfl
  · exact Nat.le_refl _
theorem test_meets_atomLands : (performing (anAtom 0x2008) (issuing id)).memOk = true ∧
    (performing (anAtom 0x2008) (issuing id)).redNow 7 (anAtom 0x2008) ∧ (anAtom 0x2008).back.isSome = true ∧
    ∃ l t, redFate (performing (anAtom 0x2008) (issuing id)) (anAtom 0x2008) ⟨0, 0x2008, 5, 0⟩ = .at_ l t :=
  ⟨by decide, only_red _ _ rfl rfl, rfl, _, _, rfl⟩
theorem test_meets_atomFails : ∃ t, redFate { performing (anAtom 0x2008) (issuing id) with eccMem := [0x8008 / 8] } (anAtom 0x2008)
    ⟨0, 0x2008, 5, 0⟩ = .fails 0x60 t := ⟨_, rfl⟩
theorem test_meets_atomGone : redFate (performing (anAtom 0xA00000) (issuing id)) (anAtom 0xA00000) ⟨0, 0xA00000, 5, 0⟩ = .gone := by
  rfl
theorem test_meets_atomWaits : ∃ m t, redFate (performing (anAtom 0x4000) (issuing id)) (anAtom 0x4000) ⟨0, 0x4000, 5, 0⟩ =
    .waits m t := ⟨_, _, rfl⟩

/-- RedsPerform: a RED with no lane and one with lanes; a lane that lands, one that fails, one that waits, and one whose failure finds a full log. -/
def reducing : Reach := .atom none (noIndex 0) ⟨true, false, .plain, .group, .add, 1, 8⟩
theorem test_meets_redIssues : ∃ v, reducing.form.CanIssue (issuing id) v ∧
    ((reducing.issued v).eff true != 0#32 && (firstCause ((reducing.issued v).firstRows reducing.req
      (reducing.addrs (reducing.issued v)))).isNone && !reducing.waits (reducing.issued v)) = true := of_meets (by decide)
theorem test_meets_redEmpty : ∃ v, reducing.form.CanIssue (issuing (executing 0)) v ∧
    decide ((reducing.issued v).eff true = 0#32) = true := of_meets (by decide)
def posted (addr : Word) : Red := { oneRed with lanes := [⟨0, addr, 5, 0⟩] }
def red (addr : Word) (s : State) : State := { s with reds := [posted addr] }
theorem test_meets_redLands : (red 0x2008 (issuing id)).memOk = true ∧
    (red 0x2008 (issuing id)).redNow 7 (posted 0x2008) ∧ (posted 0x2008).back = none ∧
    ∃ l t, redFate (red 0x2008 (issuing id)) (posted 0x2008) ⟨0, 0x2008, 5, 0⟩ = .at_ l t :=
  ⟨by decide, only_red (posted 0x2008) (issuing id) rfl rfl, rfl, _, _, rfl⟩
theorem test_meets_redWaits : ∃ m t, redFate (red 0x4000 (issuing id)) (posted 0x4000) ⟨0, 0x4000, 5, 0⟩ = .waits m t := ⟨_, _, rfl⟩
def badRed : State := { red 0x2008 (issuing id) with eccMem := [0x8008 / 8], contexts := [{ placedContext with logBase := 0x2000 }] }
theorem test_meets_redFails : badRed.memOk = true ∧
    (∃ t, redFate badRed (posted 0x2008) ⟨0, 0x2008, 5, 0⟩ = .fails 0x60 t) ∧
    ∃ k e, badRed.context? 0 = some k ∧ k.logMarks.length < 256 ∧ badRed.walk k (k.logBase + 32 * (k.logN % 256)) = .ok e :=
  ⟨by decide, ⟨_, rfl⟩, _, _, rfl, by decide, rfl⟩
theorem test_meets_redRoom : ∃ v, reducing.form.CanIssue flooded v ∧
    ((reducing.issued v).eff true != 0#32 && reducing.waits (reducing.issued v)) = true := of_meets (by decide)
theorem test_meets_redGone : redFate (performing { oneRed with word := { oneRed.word with sp := false } } (issuing id))
    { oneRed with word := { oneRed.word with sp := false } } ⟨0, 0xA00000, 5, 0⟩ = .gone := rfl
theorem test_meets_redNow : badRed.redNow 7 (posted 0x2008) :=
  only_red (posted 0x2008) { badRed with reds := [] } rfl rfl
theorem test_meets_redFull : 256 ≤ ({ placedContext with logMarks := List.replicate 256 ⟨0, 1, 0, []⟩ } : Context).logMarks.length := by
  decide

/-- SappAppends. -/
theorem test_meets_sapp : ∃ v, (Reach.sapp 1 0 2 8).form.CanIssue (issuing id) v ∧
    (Reach.sapp 1 0 2 8).goes ((Reach.sapp 1 0 2 8).issued v) ∧ true = true := of_reaches (by decide)

/-- QueuesPushAndPop: an object at 0x40 with a ring of two entries at 0x100, empty, with one entry, full, and malformed. -/
def shared (ws : List (Nat × Nat)) (s : State) : State :=
  { s with teams := s.teams.map fun t => { t with shared := ws.foldl (fun m w => Memory.put m w.1 (leBytes 8 w.2)) t.shared } }
def queued (tail allow : Nat) : State := shared [(0x40, 0x100), (0x48, 1), (0x58, tail), (0x60, allow)] (issuing (scalar 3 9))
def pushing : Reach := .queue (opS 3) 0 0x40 true
def popping : Reach := .queue (opSw 3) 0 0x40 false
def objectOk (R : Reach) (w : View) (u o : Nat) : Bool := (R.addrs w).all fun a => w.s.shAddr w.t a.2 R.req.z == .ok u o
theorem of_objectOk {R : Reach} {w : View} {u o : Nat} (h : objectOk R w u o = true) : w.objectAt R u o := by
  simp only [objectOk, List.all_eq_true, beq_iff_eq] at h
  exact h
theorem of_object {R : Reach} {s : State} {u o : Nat} (h : meets R.form s (fun v => goesOn R (R.issued v) && (objectOk R (R.issued v) u o && v.u == u)) = true) :
    ∃ v, R.form.CanIssue s v ∧ R.goes (R.issued v) ∧ (R.issued v).objectAt R u o ∧ v.u = u := by
  obtain ⟨v, hv, hg, hp⟩ := of_reaches h
  simp only [Bool.and_eq_true, beq_iff_eq] at hp
  exact ⟨v, hv, hg, of_objectOk hp.1, hp.2⟩
theorem queued_is (tail allow : Nat) (h : tail = 0 ∧ allow ≤ 2 ∨ tail = 1 ∧ allow ≤ 1) :
    QueueIs (queued tail allow) 0 0x40 0x100 1 0 tail allow := by
  have : (tail, allow) = (0, 0) ∨ (tail, allow) = (0, 1) ∨ (tail, allow) = (0, 2) ∨ (tail, allow) = (1, 0) ∨ (tail, allow) = (1, 1) := by
    simp only [Prod.mk.injEq]; omega
  rcases this with h | h | h | h | h <;> cases h <;>
    exact ⟨by decide, by decide, by decide, by decide, by decide, fun k h1 h2 => by
      have : k = 5 ∨ k = 6 ∨ k = 7 := by omega
      rcases this with rfl | rfl | rfl <;> decide, by decide, ⟨_, rfl, by decide⟩, by decide⟩
theorem test_meets_push : (queued 0 2).memOk = true ∧ (∃ v, pushing.form.CanIssue (queued 0 2) v ∧ pushing.goes (pushing.issued v) ∧
    (pushing.issued v).objectAt pushing 0 0x40 ∧ v.u = 0) ∧ QueueIs (queued 0 2) 0 0x40 0x100 1 0 0 2 :=
  ⟨by decide, of_object (by decide), queued_is 0 2 (by omega)⟩
theorem test_meets_pushFull : (∃ v, pushing.form.CanIssue (queued 1 0) v ∧ pushing.goes (pushing.issued v) ∧
    (pushing.issued v).objectAt pushing 0 0x40 ∧ v.u = 0) ∧ QueueIs (queued 1 0) 0 0x40 0x100 1 0 1 0 :=
  ⟨of_object (by decide), queued_is 1 0 (by omega)⟩
def broken : State := shared [(0x40, 0x104)] (issuing id)
theorem test_meets_pushMalformed : (∃ v, pushing.form.CanIssue broken v ∧ pushing.goes (pushing.issued v) ∧
    (pushing.issued v).objectAt pushing 0 0x40 ∧ v.u = 0) ∧ ¬∃ ring logd head tail allow, QueueIs broken 0 0x40 ring logd head tail allow := by
  refine ⟨of_object (by decide), ?_⟩
  rintro ⟨ring, logd, head, tail, allow, h⟩
  have h1 := h.hasRing
  have h2 := h.sizes.2.1
  rw [← h1] at h2
  exact absurd h2 (by decide)
theorem test_meets_pop : (∃ v, popping.form.CanIssue (queued 1 1) v ∧ popping.goes (popping.issued v) ∧
    (popping.issued v).objectAt popping 0 0x40 ∧ v.u = 0) ∧ QueueIs (queued 1 1) 0 0x40 0x100 1 0 1 1 :=
  ⟨of_object (by decide), queued_is 1 1 (by omega)⟩
theorem test_meets_popEmpty : (∃ v, popping.form.CanIssue (queued 0 2) v ∧ popping.goes (popping.issued v) ∧
    (popping.issued v).objectAt popping 0 0x40 ∧ v.u = 0) ∧ QueueIs (queued 0 2) 0 0x40 0x100 1 0 0 2 :=
  ⟨of_object (by decide), queued_is 0 2 (by omega)⟩

theorem test_meets_popBad : (∃ v, popping.form.CanIssue { queued 1 1 with eccShared := [(0, 0x100 / 8)] } v ∧
    popping.goes (popping.issued v) ∧ (popping.issued v).objectAt popping 0 0x40 ∧ v.u = 0) ∧
    ({ queued 1 1 with eccShared := [(0, 0x100 / 8)] } : State).badShared 0 0x100 8 = true := ⟨of_object (by decide), by decide⟩

/-! Barriers, fences and commands. -/

/-- A gang of two teams, on cores 0 and 1; S2 holds a shared address of rank 1's. -/
def ganged (s : State) : State :=
  { s with teams := s.teams.flatMap fun t =>
      [{ t with gmap := 0x40098 }, { t with uid := 1, core := some 1, lastCore := 1, gmap := 0x50098 }] }
def peerly : State := ganged (issuing (scalar 2 (5 * 2 ^ 21)))
def arriving (sb : BitVec 6) : Arrival := (arrivalForms (.barvArr 0 sb 0x40)).getD ⟨.barrier [] 0 0 true true, true, fun _ => 0⟩
theorem test_meets_arrive : (issuing id).memOk = true ∧ ∃ v, (arriving 0).reach.form.CanIssue (issuing id) v ∧
    (arriving 0).reach.goes ((arriving 0).reach.issued v) ∧ ((arriving 0).reach.issued v).objectAt (arriving 0).reach 0 0x40 ∧ v.u = 0 :=
  ⟨by decide, of_object (by decide)⟩
theorem test_meets_arriveFlips : (ruleArrive (shared [(0x40, 0x10001)] (issuing id)) 0 0x40 0 true 0).2 = true := by decide
theorem of_peer {R : Reach} {s : State} {u o : Nat}
    (h : meets R.form s (fun v => goesOn R (R.issued v) && (objectOk R (R.issued v) u o && v.u != u)) = true) :
    ∃ v, R.form.CanIssue s v ∧ R.goes (R.issued v) ∧ (R.issued v).objectAt R u o ∧ u ≠ v.u := by
  obtain ⟨v, hv, hg, hp⟩ := of_reaches h
  simp only [Bool.and_eq_true, bne_iff_ne] at hp
  exact ⟨v, hv, hg, of_objectOk hp.1, Ne.symm hp.2⟩
theorem test_meets_arrivePeer : ∃ v, (arriving 2).reach.form.CanIssue peerly v ∧ (arriving 2).reach.goes ((arriving 2).reach.issued v) ∧
    ((arriving 2).reach.issued v).objectAt (arriving 2).reach 1 0x40 ∧ 1 ≠ v.u := of_peer (by decide)
theorem test_meets_pushPeer : ∃ v, (Reach.queue (opS 3) 2 0x40 true).form.CanIssue peerly v ∧
    (Reach.queue (opS 3) 2 0x40 true).goes ((Reach.queue (opS 3) 2 0x40 true).issued v) ∧
    ((Reach.queue (opS 3) 2 0x40 true).issued v).objectAt (Reach.queue (opS 3) 2 0x40 true) 1 0x40 ∧ 1 ≠ v.u := of_peer (by decide)
theorem test_meets_popPeer : ∃ v, (Reach.queue (opSw 3) 2 0x40 false).form.CanIssue peerly v ∧
    (Reach.queue (opSw 3) 2 0x40 false).goes ((Reach.queue (opSw 3) 2 0x40 false).issued v) ∧
    ((Reach.queue (opSw 3) 2 0x40 false).issued v).objectAt (Reach.queue (opSw 3) 2 0x40 false) 1 0x40 ∧ 1 ≠ v.u := of_peer (by decide)
/-- An arrival whose peer has left its core. -/
def stranded : State := holding [item 9 (.arrival 0xA00000 true 0)] (issuing id)
theorem test_meets_arrivalGone : (∃ v, stranded.viewOf 0 0 0 0 = some v ∧
    (v.g.handler.isNone && (v.g.record 0).members &&& 3 != 0) = true) ∧
    ∃ x, stranded.team? 0 = some x ∧ (∀ u o, stranded.shAddr x 0xA00000 32 ≠ .ok u o) := by
  refine ⟨?_, _, rfl, fun u o h => ?_⟩
  · have h : (match stranded.viewOf 0 0 0 0 with | some v => v.g.handler.isNone && (v.g.record 0).members &&& 3 != 0 | none => false) = true := by
      decide
    split at h
    · exact ⟨_, ‹_›, h⟩
    · cases h
  · have : stranded.shAddr ((stranded.team? 0).getD placedTeam) 0xA00000 32 = .gang := rfl
    rw [show stranded.team? 0 = some _ from rfl] at this
    exact absurd (this.symm.trans h) (by simp)
def travelling : State := holding [item 9 (.arrival 0x40 true 0)] (issuing id)
theorem test_meets_arrival : travelling.memOk = true ∧ travelling.item? 9 = some (item 9 (.arrival 0x40 true 0)) ∧
    ∃ x, travelling.team? 0 = some x ∧ travelling.shAddr x 0x40 32 = .ok 0 0x40 := ⟨by decide, rfl, _, rfl, rfl⟩

/-- FencesOrder: with a RED out, with an entry of the team, and freely. -/
theorem test_meets_fenceWaits : ∃ v, bareForm.CanIssue (red 0x2000 (issuing id)) v ∧ (bareForm.issued v).redsOut = true :=
  of_meets (p := fun v => (bareForm.issued v).redsOut) (by decide)
theorem test_meets_fenceEntry : ∃ v, bareForm.CanIssue (logged (issuing id)) v ∧ decide ((bareForm.issued v).redsOut = false ∧
    (bareForm.issued v).s.ownEntry (bareForm.issued v).t = some 5) = true := of_meets (by decide)
theorem test_meets_fence : ∃ v, bareForm.CanIssue (issuing id) v ∧ decide ((bareForm.issued v).redsOut = false ∧
    (bareForm.issued v).s.ownEntry (bareForm.issued v).t = none) = true := of_meets (by decide)

/-- CommandsPost: every command, where it posts; then a fault and a full queue. -/
def posts (s : State) (C : Command) : Bool :=
  meets C.form s fun v => decide (v.inKill = false ∧ C.fault (C.form.issued v) = none ∧ C.full (C.form.issued v) = false ∧
    (C.form.issued v).redsOut = false)
theorem of_posts {s : State} {i : Instr} (h : (match commandForms i with | some C => posts s C | none => false) = true) :
    ∃ C v, commandForms i = some C ∧ C.form.CanIssue s v ∧ v.inKill = false ∧ C.fault (C.form.issued v) = none ∧
      C.full (C.form.issued v) = false ∧ (C.form.issued v).redsOut = false := by
  split at h
  · rename_i C hC
    obtain ⟨v, hv, hp⟩ := of_meets h
    exact ⟨C, v, hC, hv, of_decide_eq_true hp⟩
  · cases h
theorem test_meets_commands : ∀ i ∈ ([.xcp 0 0 0 20 false 0 false, .xcp 0 0 0 20 true 63 true, .mma 64 0 0 20,
    .hld 4 0 20 1 .nearest false false 5 3 10 2 true, .hopen 0 0 0, .hmw 1 0 20 2 true, .hseal 0 0 20 0, .hshort 0 0 20 0 0 2,
    .hinv 0 0 20 0, .hqry 0 0 20 1 0 2 false, .lins 20 0 20 true, .lres 0 0 20 true true 3 false, .lclr 0 20 3 true,
    .lqry 30 0 20 14 3 false, .cacc 20 0 20 false 127 true, .cflush 0 20 true 7 false, .crd 20 0 20 false 7 false,
    .cadj 20 0 20 true 7 true, .rtresume 20 20 3, .rtabort 20] : List Instr),
    ∃ C v, commandForms i = some C ∧ C.form.CanIssue (issuing id) v ∧ v.inKill = false ∧ C.fault (C.form.issued v) = none ∧
      C.full (C.form.issued v) = false ∧ (C.form.issued v).redsOut = false :=
  fun i hi => of_posts (List.all_eq_true (p := fun i => match commandForms i with | some C => posts (issuing id) C | none => false).mp
    (by decide) i hi)
theorem test_meets_save : ∃ C v, commandForms (.rtsave 0 20 1 true) = some C ∧ C.form.CanIssue (issuing (vector 1 0 192)) v ∧
    v.inKill = false ∧ C.fault (C.form.issued v) = none ∧ C.full (C.form.issued v) = false ∧ (C.form.issued v).redsOut = false :=
  of_posts (by decide)
def initialise : Command := cinitCommand 10 0 0 20 false 127 false 0
theorem test_meets_cinit : ∃ v, initialise.form.CanIssue (issuing id) v ∧
    decide (v.inKill = false ∧ v.rdS 0 = 0 ∧ (initialise.form.issued v).redsOut = false) = true := of_meets (by decide)
def copying : Command := xcpCommand 0 1 0 20 false 0 false
theorem test_meets_commandFault : ∃ v, copying.form.CanIssue (issuing (scalar 1 32)) v ∧
    decide (v.inKill = false ∧ copying.fault (copying.form.issued v) = some (0x13, 0)) = true := of_meets (by decide)
theorem test_meets_commandFull : ∃ v, copying.form.CanIssue
    (holding ((List.range 64).map fun k => item k (.copy 0 none none false false [.queued])) (issuing (scalar 1 64))) v ∧
    decide (v.inKill = false ∧ copying.fault (copying.form.issued v) = none ∧ copying.full (copying.form.issued v) = true) = true :=
  of_meets (by decide)

/-- MMA's accumulators, held by an earlier one and dead, once its addresses have passed. -/
def multiplying : Command := mmaCommand 64 0 0 20
def accumulators (w : View) : List Opnd := [{ file := .v, reg := 64, run := 64, rd := true, lanes := some w.g.launched }]
def heldAcc : Item := { item 9 (.mma [] 0 0 0 0 false []) with vs := List.replicate 64 (LaneVec.splat 0), d := 64 }
theorem test_meets_mmaHeld : ∃ v, multiplying.first.CanIssue (holding [heldAcc] (issuing (trapping 8))) v ∧
    (let w := multiplying.first.issued v
     decide (multiplying.fault w = none ∧ w.svc = true) && w.g.trapen.getLsbD 3 && w.heldNamed (accumulators w) == some 64) = true :=
  of_meets (by decide)
theorem test_meets_mmaDead : ∃ v, multiplying.first.CanIssue (issuing (trapping 1)) v ∧
    (let w := multiplying.first.issued v
     decide (multiplying.fault w = none ∧ w.svc = true) && w.g.trapen.getLsbD 0 && !(w.g.trapen.getLsbD 3) &&
      (w.deadRead w.g.launched (accumulators w)).isSome) = true := of_meets (by decide)
theorem test_meets_mmaFirst : ∃ v, multiplying.first.CanIssue (issuing (trapping 1 ∘ scalar 0 0)) v ∧
    decide (multiplying.fault (multiplying.first.issued v) = none) = true := of_meets (by decide)

/-- SleepingCommandsPost: HLD under FAULT; rays with room, rays in line, and a lane with a ray. -/
def looking : Command := hldFaultCommand 4 0 20 1 .nearest false 5 3 10 2 true
theorem test_meets_hldFault : ∃ v, looking.form.CanIssue (issuing id) v ∧
    decide (v.inKill = false ∧ (looking.form.issued v).redsOut = false) = true := of_meets (by decide)
def aRay (owner : Nat) : Ray :=
  { owner := owner, world := Vector.replicate 8 0, hit := Vector.replicate 5 0, cand := Vector.replicate 5 0, stack := [], cur := 0,
    held := 0, sbase := 0, level := false, mask := 0xFF, yield := false, cullb := false, first := true, inst := 0, root := 0, high := false }
def tracing : Command := (rayForms (.rtrace 20 0 20 true false false 0xFF 4 true)).getD looking
def reloading : Command := (rayForms (.rtload 20 0 20 1 true)).getD looking
def binds (C : Command) (v : View) : Bool :=
  let w := C.form.issued v
  decide (v.inKill = false ∧ C.fault w = none ∧ w.redsOut = false ∧
    (w.s.slotNeed (C.item w) = 0 ∨ (w.s.slotWaiters w.core = [] ∧ w.s.slotNeed (C.item w) ≤ w.s.freeSlots w.core)))
theorem test_meets_trace : ∃ v, tracing.form.CanIssue (issuing id) v ∧ binds tracing v = true := of_meets (by decide)
theorem test_meets_load : ∃ v, reloading.form.CanIssue (issuing (vector 1 0 192)) v ∧ binds reloading v = true := of_meets (by decide)
def lined : Group → Group := fun g => { g with recs := g.recs.setIfInBounds 1 { Split.unused with sleep := .slots 3 (item 3 (.arrival 0 true 0)) [] } }
theorem test_meets_traceWaits : ∃ v, tracing.form.CanIssue (issuing lined) v ∧
    (let w := tracing.form.issued v
     decide (v.inKill = false ∧ tracing.fault w = none ∧ w.redsOut = false ∧ w.s.slotNeed (tracing.item w) ≠ 0 ∧
      w.s.slotWaiters w.core ≠ [])) = true := of_meets (by decide)
theorem test_meets_traceHeld : ∃ v, tracing.form.CanIssue (issuing fun g => { g with rays := g.rays.setIfInBounds 1 (some (aRay 3)) }) v ∧
    decide (v.inKill = false ∧ tracing.fault (tracing.form.issued v) = some (0x15, 2)) = true := of_meets (by decide)

/-- KillHandlersPostNothing. -/
theorem test_meets_kill : (∃ v, (issuing (handling 0x51) 4).issuer? 2 = some v ∧ v.inTurn = true ∧ v.inKill = true) ∧
    (commandForms (.xcp 0 1 0 0 false 0 false)).isSome ∧ (engineForms .xdrain).isSome ∧ (graphForms (.wgcommit 1 2 3)).isSome ∧ (rayForms (.rtload 0 1 0 2 false)).isSome ∧
    (dlaunchForms (.dlaunchS 1)).isSome := ⟨of_sees (by decide), rfl, rfl, rfl, rfl, rfl⟩

/-! Work graphs and launches. -/

def aNode (entry : Bool) (floor batch : Nat) : Node :=
  { template := 0x2000, succ := if entry then 2 else 0, floor := floor, timeout := 0, entry := entry, recBytes := 16, batch := batch,
    packet := List.replicate 96 0, queue := [] }
def aGraph (slots : List (Nat × SlotState)) : Graph :=
  { uid := 5, ctx := 0, handle := 0x2000, pool := 0x3000, nslots := 3, slotSize := 16, nodes := [aNode true 0 1, aNode false 1 2],
    slots := slots, freed := [] }
def graphed (x : Graph) (f : Group → Group) : State := { issuing (f ∘ scalar 1 0x2000) with graphs := [x], nextId := 100 }
def allocating : Form := graphForm (opWr 4) 1 []
def named (x : Graph) (n : Nat) (w : View) : Bool :=
  w.s.graphOf w.t.ctx (w.rdS 1).toNat == some x && match x.nodes[n]? with | some d => !d.entry | none => false
theorem of_named {x : Graph} {n : Nat} {w : View} (h : named x n w = true) : ∃ d, Names w (w.rdS 1) n x d := by
  simp only [named, Bool.and_eq_true, beq_iff_eq] at h
  obtain ⟨h1, h2⟩ := h
  split at h2
  · rename_i d hd
    exact ⟨d, h1, hd, by simpa using h2⟩
  · cases h2
theorem of_allocates {F : Form} {x : Graph} {s : State} {p : View → Bool}
    (h : meets F s (fun v => named x 1 (F.issued v) && p (F.issued v)) = true) :
    ∃ v d, F.CanIssue s v ∧ Names (F.issued v) ((F.issued v).rdS 1) 1 x d ∧ p (F.issued v) = true := by
  obtain ⟨v, hv, hp⟩ := of_meets h
  simp only [Bool.and_eq_true] at hp
  obtain ⟨d, hd⟩ := of_named hp.1
  exact ⟨v, d, hv, hd, hp.2⟩
theorem test_meets_allocNone : ∃ v, allocating.CanIssue (issuing (executing 0)) v ∧
    decide ((allocating.issued v).eff false = 0#32) = true := of_meets (by decide)
theorem test_meets_allocNoGraph : ∃ v, allocating.CanIssue (issuing id) v ∧
    decide (namesFault (allocating.issued v) ((allocating.issued v).rdS 1) 1 = some 0x11) = true := of_meets (by decide)
theorem test_meets_allocEntry : ∃ v, allocating.CanIssue (graphed (aGraph []) id) v ∧
    decide (namesFault (allocating.issued v) ((allocating.issued v).rdS 1) 0 = some 0x15) = true := of_meets (by decide)
theorem test_meets_alloc : ∃ v d, allocating.CanIssue (graphed (aGraph []) id) v ∧
    Names (allocating.issued v) ((allocating.issued v).rdS 1) 1 (aGraph []) d ∧
    decide ((effLanes (allocating.issued v)).length = 2 ∧ (aGraph []).canMeet 1 2 = true ∧ 2 ≤ (aGraph []).freeSlots.length) = true :=
  of_allocates (p := fun w => decide ((effLanes w).length = 2 ∧ (aGraph []).canMeet 1 2 = true ∧ 2 ≤ (aGraph []).freeSlots.length))
    (by decide)
def taken : Graph := aGraph [(0, .allocated 1), (2, .allocated 1)]
theorem test_meets_allocSleeps : ∃ v d, allocating.CanIssue (graphed taken id) v ∧
    Names (allocating.issued v) ((allocating.issued v).rdS 1) 1 taken d ∧
    decide ((effLanes (allocating.issued v)).length = 2 ∧ taken.canMeet 1 2 = false) = true :=
  of_allocates (p := fun w => decide ((effLanes w).length = 2 ∧ taken.canMeet 1 2 = false)) (by decide)
def tiny : Graph := { aGraph [] with nslots := 1 }
theorem test_meets_allocNever : ∃ v d, allocating.CanIssue (graphed tiny id) v ∧
    Names (allocating.issued v) ((allocating.issued v).rdS 1) 1 tiny d ∧
    decide (1 + tiny.nslots - tiny.floors < (effLanes (allocating.issued v)).length) = true :=
  of_allocates (p := fun w => decide (1 + tiny.nslots - tiny.floors < (effLanes w).length)) (by decide)
/-- The largest count that can be met, of two: one. -/
theorem test_meets_try : ∃ v d, (graphForm (opWr 4) 1 [opMw 3]).CanIssue (graphed taken id) v ∧
    Names ((graphForm (opWr 4) 1 [opMw 3]).issued v) (((graphForm (opWr 4) 1 [opMw 3]).issued v).rdS 1) 1 taken d ∧
    decide ((effLanes ((graphForm (opWr 4) 1 [opMw 3]).issued v)).length = 2 ∧ taken.canMeet 1 1 = true ∧
      taken.canMeet 1 2 = false ∧ 1 ≤ taken.freeSlots.length) = true :=
  of_allocates (p := fun w => decide ((effLanes w).length = 2 ∧ taken.canMeet 1 1 = true ∧ taken.canMeet 1 2 = false ∧
    1 ≤ taken.freeSlots.length)) (by decide)
def committing : Form := graphForm (opRd 2) 1 []
def badSlots (x : Graph) (w : View) : Mask := maskOf fun l => (w.eff false).getLsbD l && !commitGood x 1 (w.rdV 2) (effLanes w) l
theorem test_meets_commit : ∃ v d, committing.CanIssue (graphed taken (vector 2 0x3000 0x3020)) v ∧
    Names (committing.issued v) ((committing.issued v).rdS 1) 1 taken d ∧
    decide (badSlots taken (committing.issued v) = 0#32 ∧ (committing.issued v).redsOut = false ∧ 0 < (aNode false 1 2).batch) = true :=
  of_allocates (p := fun w => decide (badSlots taken w = 0#32 ∧ w.redsOut = false ∧ 0 < (aNode false 1 2).batch)) (by decide)
theorem test_meets_commitFound : (graphed taken id).graph? 5 = some taken ∧ (graphed taken id).context? 0 = some placedContext ∧
    ∀ y ∈ (graphed taken id).grids, y.uid < (graphed taken id).nextId := ⟨rfl, rfl, by decide⟩
theorem test_meets_commitBad : ∃ v d, committing.CanIssue (graphed taken (vector 2 0x3000 0x3010)) v ∧
    Names (committing.issued v) ((committing.issued v).rdS 1) 1 taken d ∧ decide (badSlots taken (committing.issued v) = 2#32) = true :=
  of_allocates (p := fun w => decide (badSlots taken w = 2#32)) (by decide)

/-- DeviceLaunchesEnqueue: a packet of zeros at 0x2040, with room on its queue and without. -/
def launching (n : Nat) : State :=
  { issuing (scalar 1 0x2040) with queues := [(0, 0, 0)], grids := placedGrid :: List.replicate n { placedGrid with state := .queued } }
def launch : DLaunch := (dlaunchForms (.dlaunchS 1)).getD ⟨bareForm, fun _ => []⟩
def fatesOf (w : View) : List (Nat × Word × PacketFate) × State := w.s.packetFates w.core w.t.ctx (launch.addrs w)
def packetsOk (w : View) : Bool :=
  ((launch.addrs w).all fun a => decide (a.2.toNat % 64 = 0 ∧ a.2.toNat < 2 ^ 53)) &&
    ((fatesOf w).1.all fun f => match f.2.2 with | .ok ls => ls.all fun l => !(fatesOf w).2.badMem l.1 l.2 | _ => false) &&
    ((fatesOf w).2.packetsOf (fatesOf w).1).all fun p => (fatesOf w).2.queueCtx w.t.slice (pktQueue p.2.2) == some w.t.ctx
theorem of_packetsOk {w : View} (h : packetsOk w = true) : PacketsGood w (launch.addrs w) (fatesOf w).1 (fatesOf w).2 := by
  simp only [packetsOk, Bool.and_eq_true, List.all_eq_true, decide_eq_true_eq, beq_iff_eq] at h
  refine ⟨rfl, h.1.1, fun f hf => ?_, h.2⟩
  have := h.1.2 f hf
  split at this
  · rename_i ls hls
    refine ⟨ls, hls, fun l hl => ?_⟩
    simpa using List.all_eq_true.mp this l hl
  · cases this
theorem of_launches {s : State} {p : View → Bool}
    (h : meets launch.form s (fun v => packetsOk (launch.form.issued v) && p (launch.form.issued v)) = true) :
    ∃ v, launch.form.CanIssue s v ∧
      PacketsGood (launch.form.issued v) (launch.addrs (launch.form.issued v)) (fatesOf (launch.form.issued v)).1 (fatesOf (launch.form.issued v)).2 ∧
      p (launch.form.issued v) = true := by
  obtain ⟨v, hv, hp⟩ := of_meets h
  simp only [Bool.and_eq_true] at hp
  exact ⟨v, hv, of_packetsOk hp.1, hp.2⟩
def roomIs (b : Bool) (w : View) : Bool :=
  (fatesOf w).2.roomFor w.t.slice ((fatesOf w).2.packetsOf (fatesOf w).1) == b && !w.redsOut && !w.inKill &&
    (fatesOf w).2.context? w.t.ctx == some placedContext
theorem test_meets_dlaunch : ∃ v, launch.form.CanIssue (launching 0) v ∧
    PacketsGood (launch.form.issued v) (launch.addrs (launch.form.issued v)) (fatesOf (launch.form.issued v)).1 (fatesOf (launch.form.issued v)).2 ∧
    roomIs true (launch.form.issued v) = true := of_launches (by decide)
theorem test_meets_dlaunchWaits : ∃ v, launch.form.CanIssue (launching 1024) v ∧
    PacketsGood (launch.form.issued v) (launch.addrs (launch.form.issued v)) (fatesOf (launch.form.issued v)).1 (fatesOf (launch.form.issued v)).2 ∧
    roomIs false (launch.form.issued v) = true := of_launches (by decide)

/-- A packet that is not aligned, in an absent page, beyond any page, in a page of a peer, in error, and for a queue of no context. -/
def launchingAt (addr : Word) (s : State := launching 0) : State := s.modGroup 0 0 (scalar 1 addr)
def fated_ (s : State) (p : List (Nat × Word × PacketFate) × State → View → Bool) : Bool :=
  meets launch.form s fun v => p (fatesOf (launch.form.issued v)) (launch.form.issued v)
def has (r : List (Nat × Word × PacketFate)) (p : PacketFate → Bool) : Bool := r.any fun y => p y.2.2
theorem of_fated {s : State} {p : List (Nat × Word × PacketFate) × State → View → Bool} (h : fated_ s p = true) :
    ∃ v fs s', launch.form.CanIssue s v ∧
      (launch.form.issued v).s.packetFates (launch.form.issued v).core (launch.form.issued v).t.ctx (launch.addrs (launch.form.issued v)) = (fs, s') ∧
      p (fs, s') (launch.form.issued v) = true := by
  obtain ⟨v, hv, hp⟩ := of_meets h
  exact ⟨v, _, _, hv, rfl, hp⟩
theorem test_meets_packetMisaligned : ∃ v, launch.form.CanIssue (launchingAt 0x2041) v ∧
    ((launch.addrs (launch.form.issued v)).any fun a => decide (a.2.toNat % 64 ≠ 0)) = true := of_meets (by decide)
theorem test_meets_packetAbsent : ∃ v fs s', launch.form.CanIssue (launchingAt 0x4000) v ∧
    (launch.form.issued v).s.packetFates (launch.form.issued v).core (launch.form.issued v).t.ctx (launch.addrs (launch.form.issued v)) = (fs, s') ∧
    ((fs.find? fun y => y.2.2.isAbsent) == some (32, 0x4000, .absent 0x4000 false)) = true :=
  of_fated (p := fun r _ => (r.1.find? fun y => y.2.2.isAbsent) == some (32, 0x4000, .absent 0x4000 false)) (by decide)
theorem test_meets_packetFar : ∃ v fs s', launch.form.CanIssue (launchingAt (BitVec.ofNat 64 (2 ^ 53))) v ∧
    (launch.form.issued v).s.packetFates (launch.form.issued v).core (launch.form.issued v).t.ctx (launch.addrs (launch.form.issued v)) = (fs, s') ∧
    has fs (fun y => decide (y = .prot)) = true := of_fated (p := fun r _ => has r.1 fun y => decide (y = .prot)) (by decide)
def peerPage : State := { launching 0 with mem := Memory.put (placedMemory 0) 0x6010 (leBytes 8 (3 * 2 ^ 62 + 0xA01F)) }
theorem test_meets_packetKind : ∃ v fs s', launch.form.CanIssue (launchingAt 0x4000 peerPage) v ∧
    (launch.form.issued v).s.packetFates (launch.form.issued v).core (launch.form.issued v).t.ctx (launch.addrs (launch.form.issued v)) = (fs, s') ∧
    (!has fs PacketFate.isAbsent && !has fs (fun y => decide (y = .prot)) && has fs fun y => decide (y = .kind)) = true :=
  of_fated (p := fun r _ => !has r.1 PacketFate.isAbsent && !has r.1 (fun y => decide (y = .prot)) && has r.1 fun y => decide (y = .kind))
    (by decide)
def sound (r : List (Nat × Word × PacketFate)) : Bool :=
  !has r PacketFate.isAbsent && !has r (fun y => decide (y = .prot)) && !has r fun y => decide (y = .kind)
def struckBy (r : List (Nat × Word × PacketFate)) (s : State) : Bool :=
  has r fun y => match y with | .ok ls => ls.any fun l => s.badMem l.1 l.2 | _ => false
theorem test_meets_packetBad : ∃ v fs s', launch.form.CanIssue { launching 0 with eccMem := [0x8040 / 8] } v ∧
    (launch.form.issued v).s.packetFates (launch.form.issued v).core (launch.form.issued v).t.ctx (launch.addrs (launch.form.issued v)) = (fs, s') ∧
    (sound fs && struckBy fs s') = true := of_fated (p := fun r _ => sound r.1 && struckBy r.1 r.2) (by decide)
theorem test_meets_packetLost : ∃ v fs s', launch.form.CanIssue { launching 0 with queues := [] } v ∧
    (launch.form.issued v).s.packetFates (launch.form.issued v).core (launch.form.issued v).t.ctx (launch.addrs (launch.form.issued v)) = (fs, s') ∧
    (sound fs && !struckBy fs s' && (s'.packetsOf fs).any fun p => s'.queueCtx 0 (pktQueue p.2.2) != some 0) = true :=
  of_fated (p := fun r _ => sound r.1 && !struckBy r.1 r.2 && (r.2.packetsOf r.1).any fun p => r.2.queueCtx 0 (pktQueue p.2.2) != some 0)
    (by decide)

/-- BarriersCount: BARV.init of 1 and of 0xFFFF arrivals, of none and of too many; BWAIT on each parity. -/
def starting : Reach := .barrier [opS 3] 0 0x40 false false
def awaiting : Reach := .barrier [opS 3] 0 0x40 true false
theorem test_meets_init : (issuing (scalar 3 0xFFFF)).memOk = true ∧ ∀ n ∈ ([1, 0xFFFF, 0, 0x10000] : List Word),
    ∃ v, starting.form.CanIssue (issuing (scalar 3 n)) v ∧ starting.goes (starting.issued v) ∧
      (starting.issued v).objectAt starting 0 0x40 ∧ ((starting.issued v).rdS 3 == n) = true := by
  refine ⟨by decide, fun n hn => ?_⟩
  have h : ([1, 0xFFFF, 0, 0x10000] : List Word).all (fun n => meets starting.form (issuing (scalar 3 n)) fun v =>
      goesOn starting (starting.issued v) && (objectOk starting (starting.issued v) 0 0x40 && (starting.issued v).rdS 3 == n)) = true := by
    decide
  obtain ⟨v, hv, hg, hp⟩ := of_reaches (List.all_eq_true.mp h n hn)
  simp only [Bool.and_eq_true] at hp
  exact ⟨v, hv, hg, of_objectOk hp.1, hp.2⟩
theorem test_meets_bwaitRuns : (∀ n ∈ ([0, 1] : List Word), ∃ v, awaiting.form.CanIssue (issuing (scalar 3 n)) v ∧
    awaiting.goes (awaiting.issued v) ∧ (awaiting.issued v).objectAt awaiting 0 0x40 ∧
      (({ awaiting.issued v with g := (awaiting.issued v).g.drainFlow v.fl } : View).rdS 3 == n) = true) ∧
    (issuing (scalar 3 1)).phaseOf 0 0x40 = 0 := by
  refine ⟨fun n hn => ?_, by decide⟩
  have h : ([0, 1] : List Word).all (fun n => meets awaiting.form (issuing (scalar 3 n)) fun v =>
      goesOn awaiting (awaiting.issued v) && (objectOk awaiting (awaiting.issued v) 0 0x40 &&
        ({ awaiting.issued v with g := (awaiting.issued v).g.drainFlow v.fl } : View).rdS 3 == n)) = true := by decide
  obtain ⟨v, hv, hg, hp⟩ := of_reaches (List.all_eq_true.mp h n hn)
  simp only [Bool.and_eq_true] at hp
  exact ⟨v, hv, hg, of_objectOk hp.1, hp.2⟩

/-! Results and sleeps that end. -/

def sleeping (sl : Sleep) : Group → Group := fun g =>
  { g with recs := g.recs.setIfInBounds 0 { g.record 0 with sleep := sl } }
def views (s : State) (fl n : Nat) (p : View → Bool) : Bool := match s.viewOf 0 0 fl n with | some v => p v | none => false
theorem of_views {s : State} {fl n : Nat} {p : View → Bool} (h : views s fl n p = true) :
    ∃ v, s.viewOf 0 0 fl n = some v ∧ p v = true := by
  unfold views at h
  split at h
  · exact ⟨_, ‹_›, h⟩
  · cases h
theorem of_asleep {s : State} {fl : Nat} {sl : Sleep} {p : View → Bool}
    (h : views s fl 2 (fun v => v.inTurn && s.sleepAt 0 0 fl == sl && p v) = true) : ∃ v, s.sleeps v 0 0 fl sl ∧ p v = true := by
  obtain ⟨v, hv, hp⟩ := of_views h
  simp only [Bool.and_eq_true, beq_iff_eq] at hp
  exact ⟨v, ⟨hv, hp.1.1, hp.1.2⟩, hp.2⟩

/-- ResultsReturn: a long-latency result; an ATOM's return, where its split waits and where it went on; and one that met an
error. -/
def aPend (win : Nat) : Pend := { flow := 0, win := win, vs := [(5, 3, LaneVec.splat 7)], ss := [] }
def owing (p : Pend) : State := issuing fun g => { g with pends := [p] }
theorem test_meets_result : ∃ g, (owing (aPend 0)).group? 0 0 = some g ∧ g.pends[0]? = some (aPend 0) ∧
    ∀ (k : Nat) q, g.pends[k]? = some q → q = aPend 0 → k = 0 := by
  refine ⟨_, rfl, rfl, fun k q hk _ => ?_⟩
  cases k with
  | zero => rfl
  | succ k => cases hk
def doneAtom (bad : Mask) : Red :=
  { anAtom 0x2008 with lanes := [], back := some { flow := 0, pc := 0x2000, d := some 1, eff := 3, got := [(0, 9)], bad := bad } }
def returning (bad : Mask) (f : Group → Group) : State := performing (doneAtom bad) (issuing f)
theorem test_meets_atomResult : (∃ v, (returning 0 id).viewOf 0 0 0 0 = some v ∧ (v.g.sleepOf 0 == .awake) = true) ∧
    ∃ b, (returning 0 id).atomDue 0 0 0 (doneAtom 0) b ∧ b.bad = 0#32 := ⟨of_views (by decide), _, ⟨rfl, rfl⟩, rfl⟩
theorem test_meets_atomWaiting : ∃ v, (returning 0 (sleeping (.atom 2))).viewOf 0 0 0 0 = some v ∧
    (v.g.sleepOf 0 == .atom 2 && v.g.pcOf 0 == 0x2000) = true := of_views (by decide)
theorem test_meets_atomError : (∃ v, (returning 2 (sleeping (.atom 2))).viewOf 0 0 0 0 = some v ∧
    (v.g.handler.isNone && v.g.pends.isEmpty && (v.g.record 0).members &&& 2 != 0) = true) ∧
    ∃ b, (returning 2 (sleeping (.atom 2))).atomDue 0 0 0 (doneAtom 2) b ∧ b.bad ≠ 0#32 := ⟨of_views (by decide), _, ⟨rfl, rfl⟩, by decide⟩

/-- SleepersWake: each sleep; a queue object with an entry, without, with room, without, and malformed. -/
theorem test_meets_woken : ∃ v, (issuing (sleeping (.woken []))).sleeps v 0 0 0 (.woken []) ∧ true = true := of_asleep (by decide)
theorem test_meets_bwait : ∃ v, (issuing (sleeping (.bwait 0 0x40 true))).sleeps v 0 0 0 (.bwait 0 0x40 true) ∧
    decide ((issuing (sleeping (.bwait 0 0x40 true))).phaseOf 0 0x40 ≠ 1) = true := of_asleep (by decide)
theorem test_meets_bwaitGone : (∃ v, (issuing (sleeping (.bwait 1 0x40 true))).sleeps v 0 0 0 (.bwait 1 0x40 true) ∧ true = true) ∧
    ¬(issuing (sleeping (.bwait 1 0x40 true))).onCore 1 ∧ (issuing (sleeping (.bwait 0 0x40 true))).onCore 0 := by
  refine ⟨of_asleep (by decide), ?_, _, rfl, by decide⟩
  rintro ⟨x, hx, _⟩
  cases hx
def draining : State := { issuing (sleeping (.drain 9)) with items := [item 9 (.arrival 0x40 true 0)], reds := [{ oneRed with id := 9 }] }
theorem test_meets_drain : ∃ v, draining.sleeps v 0 0 0 (.drain 9) ∧
    decide ((∀ i ∈ draining.items, i.party.team = 0 → 9 ≤ i.id) ∧ ∀ r ∈ draining.reds, r.party.team = 0 → 9 ≤ r.id) = true :=
  of_asleep (by decide)
theorem test_meets_record : ∃ v, (issuing (sleeping .record)).sleeps v 0 0 0 .record ∧ decide (v.g.freeRecs ≠ []) = true :=
  of_asleep (by decide)
theorem test_meets_yield : ∃ v, (issuing (sleeping .yield)).sleeps v 0 0 0 .yield ∧ true = true := of_asleep (by decide)
def rayItem : Item := item 3 (.ray .trace 0 (Vector.replicate 32 none) 0 false)
theorem test_meets_slots : ∃ v, (issuing (sleeping (.slots 3 rayItem []))).sleeps v 0 0 0 (.slots 3 rayItem []) ∧
    decide (rayItem.party.team = 0 ∧ rayItem.party.gid = 0 ∧
      (∀ k ∈ (issuing (sleeping (.slots 3 rayItem []))).slotWaiters v.core, 3 ≤ k) ∧
      (issuing (sleeping (.slots 3 rayItem []))).slotNeed { rayItem with id := 0 } ≤
        (issuing (sleeping (.slots 3 rayItem []))).freeSlots v.core ∧ v.redsOut = false) = true := of_asleep (by decide)
/-- Its token is busy again; and a handler's own. -/
def retaken : State := issuing ((fun g => { g with tokBusy := 2 ^ 20 }) ∘ sleeping (.slots 3 rayItem []))
theorem test_meets_slotsBusy : ∃ v, retaken.sleeps v 0 0 0 (.slots 3 rayItem []) ∧ v.namesBusy (tokField rayItem.tok) = true :=
  of_asleep (p := fun v => v.namesBusy (tokField rayItem.tok)) (by decide)
def ownHandler : State := issuing (fun g =>
  { g with handler := some { handlerFor 0x40 with dflt := false, sleep := .slots 3 { rayItem with flow := 4 } [] } }) 4
theorem test_meets_slotsHandler : ∃ v, ownHandler.sleeps v 0 0 4 (.slots 3 { rayItem with flow := 4 } []) ∧
    v.g.handler.all (fun h => !h.dflt) = true := of_asleep (p := fun v => v.g.handler.all fun h => !h.dflt) (by decide)
def waiting (y : Option Word) (s : State) : State := s.modGroup 0 0 (sleeping (.queue 0 0x40 y 5 false true))
theorem asleep_is (tail allow : Nat) (y : Option Word) (h : QueueIs (queued tail allow) 0 0x40 0x100 1 0 tail allow)
    (hs : ∀ o, (waiting y (queued tail allow)).shNat 0 o 8 = (queued tail allow).shNat 0 o 8)
    (ht : ∃ t, (waiting y (queued tail allow)).team? 0 = some t ∧ 0x110 ≤ t.shBytes) :
    QueueIs (waiting y (queued tail allow)) 0 0x40 0x100 1 0 tail allow :=
  ⟨by rw [hs]; exact h.hasRing, by rw [hs]; exact h.hasLogd, by rw [hs]; exact h.hasHead, by rw [hs]; exact h.hasTail,
    by rw [hs]; exact h.hasAllow, fun k h1 h2 => by rw [hs]; exact h.hasZeros k h1 h2, h.sizes, ht, h.room⟩
theorem test_meets_popRetest : (∃ v, (waiting none (queued 1 1)).sleeps v 0 0 0 (.queue 0 0x40 none 5 false true) ∧
    ((waiting none (queued 1 1)).memOk && !v.redsBefore true) = true) ∧ QueueIs (waiting none (queued 1 1)) 0 0x40 0x100 1 0 1 1 :=
  ⟨of_asleep (by decide),
    asleep_is 1 1 none (queued_is 1 1 (by omega)) (fun _ => rfl) ⟨_, rfl, by decide⟩⟩
theorem test_meets_popStuck : (∃ v, (waiting none (queued 0 2)).sleeps v 0 0 0 (.queue 0 0x40 none 5 false true) ∧
    (waiting none (queued 0 2)).memOk = true) ∧ QueueIs (waiting none (queued 0 2)) 0 0x40 0x100 1 0 0 2 :=
  ⟨of_asleep (p := fun _ => (waiting none (queued 0 2)).memOk) (by decide),
    asleep_is 0 2 none (queued_is 0 2 (by omega)) (fun _ => rfl) ⟨_, rfl, by decide⟩⟩
theorem test_meets_pushRetest : (∃ v, (waiting (some 9) (queued 0 2)).sleeps v 0 0 0 (.queue 0 0x40 (some 9) 5 false true) ∧
    ((waiting (some 9) (queued 0 2)).memOk && !v.redsOut) = true) ∧ QueueIs (waiting (some 9) (queued 0 2)) 0 0x40 0x100 1 0 0 2 :=
  ⟨of_asleep (by decide), asleep_is 0 2 (some 9) (queued_is 0 2 (by omega)) (fun _ => rfl) ⟨_, rfl, by decide⟩⟩
theorem test_meets_pushStuck : (∃ v, (waiting (some 9) (queued 1 0)).sleeps v 0 0 0 (.queue 0 0x40 (some 9) 5 false true) ∧
    ((waiting (some 9) (queued 1 0)).memOk && !v.redsOut) = true) ∧ QueueIs (waiting (some 9) (queued 1 0)) 0 0x40 0x100 1 0 1 0 :=
  ⟨of_asleep (by decide), asleep_is 1 0 (some 9) (queued_is 1 0 (by omega)) (fun _ => rfl) ⟨_, rfl, by decide⟩⟩
def strayed : State := (queued 1 1).modGroup 0 0 (sleeping (.queue 1 0x40 none 5 false true))
theorem test_meets_retestGone : (∃ v, strayed.sleeps v 0 0 0 (.queue 1 0x40 none 5 false true) ∧ true = true) ∧ ¬strayed.onCore 1 := by
  refine ⟨of_asleep (by decide), ?_⟩
  rintro ⟨x, hx, _⟩
  cases hx
theorem test_meets_retestBad : ({ waiting none (queued 1 1) with eccShared := [(0, 8)] } : State).badShared 0 0x40 64 = true ∧
    ({ waiting none (queued 1 1) with eccShared := [(0, 0x20)] } : State).badShared 0 0x40 64 = false ∧
    ({ waiting none (queued 1 1) with eccShared := [(0, 0x20)] } : State).badShared 0 0x100 8 = true := by decide
theorem test_meets_retestMalformed : (∃ v, (waiting none broken).sleeps v 0 0 0 (.queue 0 0x40 none 5 false true) ∧
    (waiting none broken).memOk = true) ∧ ¬∃ ring logd head tail allow, QueueIs (waiting none broken) 0 0x40 ring logd head tail allow := by
  refine ⟨of_asleep (p := fun _ => (waiting none broken).memOk) (by decide), ?_⟩
  rintro ⟨ring, logd, head, tail, allow, h⟩
  have h1 := h.hasRing
  have h2 := h.sizes.2.1
  rw [← h1] at h2
  exact absurd h2 (by decide)

/-! Traps, launches, graphs and pages. -/

/-- An XCP command alone. -/
def copyItem (cs : List CopyState) (desc : Word := 0x40) : Item := item 9 (.copy desc none none false false cs)
def copies (cs : List CopyState) (desc : Word := 0x40) : State := holding [copyItem cs desc] (issuing id)
theorem apart (s : State) (i : Item) (h : s.items = [i]) (hc : i.core < 512) : s.itemsApart ∧ i.tokenAlone s.items := by
  rw [State.itemsApart, h]
  exact ⟨⟨by simp, by simpa using hc⟩, fun j hj h => by rw [List.mem_singleton] at hj; subst hj; exact absurd rfl h⟩

theorem of_named_team {s : State} {p : Team → Bool} (h : (s.team? 0).any p = true) : ∃ t, s.team? 0 = some t ∧ p t = true := by
  cases ht : s.team? 0 with
  | none => rw [ht] at h; cases h
  | some t => rw [ht] at h; exact ⟨t, rfl, h⟩
theorem of_named_group {s : State} {p : Group → Bool} (h : (s.group? 0 0).any p = true) : ∃ g, s.group? 0 0 = some g ∧ p g = true := by
  cases ht : s.group? 0 0 with
  | none => rw [ht] at h; cases h
  | some t => rw [ht] at h; exact ⟨t, rfl, h⟩

/-- HandlersStrike: a trap held, a pre-emption, a gang to pre-empt, one to restore, and a context. -/
def struck : State := issuing fun g => { g with pending := some ⟨0, 0x20, 0⟩ }
def preempted : State := issuing fun g => { g with preempt := true }
def inPlayB (g : Group) : Bool := !g.retired && !g.saved && g.live != 0#32 && g.handler.isNone
theorem test_meets_entry : ∃ v, struck.viewOf 0 0 0 0 = some v ∧
    (inPlayB v.g && v.g.pending == some ⟨0, 0x20, 0⟩) = true := of_views (by decide)
theorem test_meets_preemptEntry : ∃ v, preempted.viewOf 0 0 0 0 = some v ∧
    (inPlayB v.g && v.g.pending.isNone && v.g.preempt) = true := of_views (by decide)
/-- A team without shared memory, whose one group's save area lies in six pages of its own. -/
def areaed : State :=
  { issuing id with
    teams := (issuing id).teams.map fun t => { t with shBytes := 0 }
    mem := (List.range 6).foldl (fun m k => Memory.put m (0x6040 + 8 * k) (leBytes 8 (0x2001F + 0x2000 * k))) (placedMemory 0) }
theorem test_meets_preempt : ∃ t, areaed.team? 0 = some t ∧ (areaed.teams.all (fun x => x.gang != t.gang || x.core.isSome) &&
    (areaed.group? 0 0).any inPlayB && areaed.areasOk t [(0, 0x10000)]) = true := of_named_team (by decide)
theorem test_meets_preemptOther : ((issuing (handling 0x40)).group? 0 0).any (fun g => !g.inPreempt) = true ∧
    ((issuing (handling 0x50)).group? 0 0).any (fun g => g.inPreempt) = true := by decide
def saved : State :=
  { issuing (fun g => { g with saved := true }) with teams := (issuing (fun g => { g with saved := true })).teams.map fun t => { t with core := none } }
theorem test_meets_restore : ∃ t, saved.team? 0 = some t ∧ (saved.restoreDue t 127 &&
    (saved.group? 0 0).any fun g => !g.retired && g.launched != 0#32) = true := of_named_team (by decide)
theorem test_meets_contextKill : (issuing id).context? 0 = some placedContext ∧ (∀ i ∈ (issuing id).items, i.ctx ≠ 0) ∧
    ∃ x, (issuing id).team? 0 = some x ∧ (x.ctx == 0 && x.core.isSome && ((issuing id).group? 0 0).any inPlayB) = true :=
  ⟨rfl, by decide, of_named_team (by decide)⟩

theorem test_meets_killItem : (copies [.queued]).itemsApart ∧ (copyItem [.queued]).ctx = 0 ∧
    (copyItem [.queued]).tokenAlone (copies [.queued]).items ∧ (copyItem [.queued]).bankTok = false :=
  ⟨(apart _ _ rfl (by decide)).1, rfl, (apart _ _ rfl (by decide)).2, rfl⟩

/-- LaunchesStart. -/
def aPacket (more : List (Nat × Word)) : List Word :=
  more.foldl (fun p e => p.set e.1 e.2) ((((List.replicate 96 0#64).set 0 0x0002000100010001).set 1 1).set 4 0x2000)
def bound (s : State) : State := { s with queues := [(0, 0, 0)] }
theorem test_meets_enqueue : (bound (issuing id)).context? 0 = some placedContext ∧
    (∃ p, (bound (issuing id)).packetAt placedContext 0x2040 = some p ∧
      (bound (issuing id)).queueCtx 0 (pktQueue p) = some 0 ∧ (bound (issuing id)).queueLen 0 (pktQueue p) < 1024) :=
  ⟨rfl, _, rfl, by decide, by decide⟩
def roomy : State := bound (issuing (sleeping (.room [(0, 0x2040)])))
def fates (v : View) : List (Nat × Word × PacketFate) × State := roomy.packetFates v.core v.t.ctx [(0, 0x2040)]
def roomGood (v : View) : Bool :=
  v.s.packetFates v.core v.t.ctx [(0, 0x2040)] == fates v &&
    ((fates v).1.all fun f => match f.2.2 with | .ok ls => ls.all fun l => !(fates v).2.badMem l.1 l.2 | _ => false) &&
    (((fates v).2.packetsOf (fates v).1).all fun p => (fates v).2.queueCtx v.t.slice (pktQueue p.2.2) == some v.t.ctx) &&
    !v.redsOut && (fates v).2.roomFor v.t.slice ((fates v).2.packetsOf (fates v).1) &&
    (fates v).2.context? v.t.ctx == some placedContext && placedContext.slice == v.t.slice
theorem test_meets_roomWakes : ∃ v, roomy.sleeps v 0 0 0 (.room [(0, 0x2040)]) ∧ roomGood v = true := of_asleep (by decide)

def unbound : State := { roomy with queues := [] }
theorem test_meets_roomLost : ∃ v, unbound.sleeps v 0 0 0 (.room [(0, 0x2040)]) ∧
    (let r := v.s.packetFates v.core v.t.ctx [(0, 0x2040)]
     !v.redsOut && r.1.all (fun f => match f.2.2 with | .ok _ => true | _ => false) && r.2.roomFor v.t.slice (r.2.packetsOf r.1) &&
      r.2.context? v.t.ctx == some placedContext &&
      (r.2.packetsOf r.1).any fun p => r.2.queueCtx v.t.slice (pktQueue p.2.2) != some v.t.ctx) = true := of_asleep (by decide)

def aGrid (p : List Word) : Grid := { placedGrid with uid := 7, packet := p, state := .queued, placed := 0, dims := pktDims p }
def queuedGrid (p : List Word) (before : Grid := { placedGrid with state := .complete }) : State :=
  { issuing id with grids := [before, aGrid p], nextId := 100 }
theorem packet_good (more : List (Nat × Word)) (x y z : Nat) (h : decide
    ((pNat (aPacket more) 1 / 2 ^ 44 = 0 ∧ pNat (aPacket more) 2 / 2 ^ 19 = 0 ∧ pNat (aPacket more) 3 / 2 ^ 11 = 0 ∧
      pNat (aPacket more) 7 / 2 ^ 22 = 0 ∧ ∀ i, i < 33 → 12 ≤ i → pNat (aPacket more) i = 0) ∧
      (if pNat (aPacket more) 3 / 2 ^ 9 % 2 = 1 then pNat (aPacket more) 6 % 4 = 0 else pNat (aPacket more) 6 = 0) ∧
      pNat (aPacket more) 1 / 2 ^ 42 % 4 ≠ 3 ∧
      (∀ r, r < pRoles (aPacket more) → 1 ≤ pGroups (aPacket more) r ∧ pGroups (aPacket more) r ≤ 32) ∧
      (∀ r, r < 4 → pRoles (aPacket more) ≤ r → pGroups (aPacket more) r = 0) ∧
      (1 ≤ pNat (aPacket more) 0 / 2 ^ 48 ∧
        pNat (aPacket more) 0 / 2 ^ 48 ≤ 32 * ((List.range (pRoles (aPacket more))).map (pGroups (aPacket more))).sum) ∧
      ((List.range (pRoles (aPacket more))).map (pGroups (aPacket more))).sum ≤ 32 ∧
      ((List.range (pRoles (aPacket more))).map fun r => pGroups (aPacket more) r * (8 * (pNat (aPacket more) 1 / 2 ^ (24 + 4 * r) % 16 + 1))).sum ≤ 2048 ∧
      pNat (aPacket more) 2 % 2 ^ 19 ≤ 393216 ∧ x * y * z % 2 ^ (pNat (aPacket more) 1 / 2 ^ 42 % 4) = 0 ∧
      (pNat (aPacket more) 8 % 16 = 0 ∧ pNat (aPacket more) 9 % 16 = 0) ∧
      (pNat (aPacket more) 10 % 2 = 0 ∧ pNat (aPacket more) 7 / 2 ^ 21 % 2 = 0) ∧
      (pNat (aPacket more) 4 < 2 ^ 53 ∧ pNat (aPacket more) 4 % 4 = 0 ∧ pNat (aPacket more) 5 < 2 ^ 53 ∧ pNat (aPacket more) 5 % 4 = 0) ∧
      (pNat (aPacket more) 7 / 2 ^ 8 % 16 ≠ 15 ∧ pNat (aPacket more) 7 / 2 ^ 5 % 8 ≤ 4)) = true) :
    PacketGood (aPacket more) x y z := by
  obtain ⟨⟨a, b, c, d, e⟩, h2, h3, h4, h5, h6, h7, h8, h9, h10, h11, h12, h13, h14⟩ := of_decide_eq_true h
  exact ⟨⟨a, b, c, d, fun i h1 h2 => e i h2 h1⟩, h2, h3, h4, fun r h1 h2 => h5 r h2 h1, h6, h7, h8, h9, h10, h11, h12, h13, h14⟩
theorem test_meets_dispatch : (queuedGrid (aPacket [])).isNext (aGrid (aPacket [])) ∧
    (queuedGrid (aPacket [])).context? 0 = some placedContext ∧ ((aPacket []).getD 3 0).getLsbD 9 = false ∧
    PacketGood (aPacket []) 1 1 1 ∧ ∀ e ∈ (aGrid (aPacket [])).image, e.1 < ((aPacket []).getD 2 0).toNat % 2 ^ 19 :=
  ⟨⟨rfl, rfl, rfl, by decide⟩, rfl, by decide, packet_good [] 1 1 1 (by decide), by decide⟩
/-- With CAPTURE set. -/
theorem test_meets_dispatchCaptures : (queuedGrid (aPacket [(3, 0x400)])).isNext (aGrid (aPacket [(3, 0x400)])) ∧
    PacketGood (aPacket [(3, 0x400)]) 1 1 1 ∧ (aGrid (aPacket [(3, 0x400)])).capture = none ∧
    (∀ y ∈ (queuedGrid (aPacket [(3, 0x400)])).captures, y.id ≠ 100) ∧ ((aPacket [(3, 0x400)]).getD 3 0).getLsbD 10 = true :=
  ⟨⟨rfl, rfl, rfl, by decide⟩, packet_good _ 1 1 1 (by decide), rfl, by decide, by decide⟩
/-- A packet whose LANES is zero; with OVERLAP, behind a grid that has started every team. -/
theorem test_meets_dispatchFault : (queuedGrid (aPacket [(0, 0x100010001), (3, 0x100)]) placedGrid).isNext (aGrid (aPacket [(0, 0x100010001), (3, 0x100)])) ∧
    ¬PacketGood (aPacket [(0, 0x100010001), (3, 0x100)]) 1 1 1 :=
  ⟨⟨rfl, rfl, rfl, by decide⟩, fun h => absurd h.lanes.1 (by decide)⟩
def indirect : List Word := aPacket [(3, 0x200), (6, 0x2010)]
def counting (x y z : Nat) : State :=
  { queuedGrid indirect with mem := Memory.put (placedMemory 0) 0x8010 (leBytes 4 x ++ leBytes 4 y ++ leBytes 4 z) }
theorem test_meets_counts : (counting 65535 0 1).isNext (aGrid indirect) ∧ (indirect.getD 3 0).getLsbD 9 = true ∧
    (counting 65535 0 1).countsAt placedContext (aGrid indirect) [0x8010, 0x8014, 0x8018] ∧
    Memory.nat (counting 65535 0 1).mem 0x8010 4 < 65536 := by
  refine ⟨⟨rfl, rfl, rfl, by decide⟩, by decide, ⟨by decide, by decide, rfl, fun i pa h => ?_⟩, by decide⟩
  match i with
  | 0 => cases h; exact ⟨_, rfl, rfl, .inr rfl, rfl, rfl, by decide⟩
  | 1 => cases h; exact ⟨_, rfl, rfl, .inr rfl, rfl, rfl, by decide⟩
  | 2 => cases h; exact ⟨_, rfl, rfl, .inr rfl, rfl, rfl, by decide⟩
theorem test_meets_countsLarge : (counting 1 65536 1).isNext (aGrid indirect) ∧
    (counting 1 65536 1).countsAt placedContext (aGrid indirect) [0x8010, 0x8014, 0x8018] ∧
    65536 ≤ Memory.nat (counting 1 65536 1).mem 0x8014 4 := by
  refine ⟨⟨rfl, rfl, rfl, by decide⟩, ⟨by decide, by decide, rfl, fun i pa h => ?_⟩, by decide⟩
  match i with
  | 0 => cases h; exact ⟨_, rfl, rfl, .inr rfl, rfl, rfl, by decide⟩
  | 1 => cases h; exact ⟨_, rfl, rfl, .inr rfl, rfl, rfl, by decide⟩
  | 2 => cases h; exact ⟨_, rfl, rfl, .inr rfl, rfl, rfl, by decide⟩

def eligible (b : Option (Nat × Nat × List Nat)) : Grid := { aGrid (aPacket []) with state := .eligible, batch := b }
def placing (det : List Nat) (b : Option (Nat × Nat × List Nat)) : State :=
  { graphed taken id with grids := [placedGrid, eligible b], det := det }
theorem placing_places (det : List Nat) (b : Option (Nat × Nat × List Nat)) (core : Nat) (hc : core < 512)
    (h : (∀ t ∈ (placing det b).teams, t.grid = 7 → t.core ≠ none) ∧
      (∀ h ∈ (placing det b).grids, h.slice = 0 → h.uid ≠ 7 → (placing det b).wantsPlace h = true →
        pktPrio h.packet < pktPrio (eligible b).packet ∨ (pktPrio h.packet = pktPrio (eligible b).packet ∧ (eligible b).seq.toNat ≤ h.seq.toNat)) ∧
      (0 ∉ det → ((((placing det b).residents core).map fun r => r.2.2).sum +
          ((pktGroupRoles (eligible b).packet).map (pktBudget (eligible b).packet)).sum ≤ 2048 ∧
        ((placing det b).residents core).length + (pktGroupRoles (eligible b).packet).length ≤ 32 ∧
        (placing det b).sharedUsed core + pktShared (eligible b).packet ≤ 393216)) ∧
      (0 ∈ det → (placing det b).detCores 0 (pktGang (eligible b).packet) = some [core])) :
    PlacesOn (placing det b) (eligible b) [core] :=
  { grid := rfl
    open_ := ⟨rfl, (by decide : (eligible none).placed < (eligible none).teamCount)⟩
    runs := ⟨placedContext, rfl, rfl⟩
    whole := h.1
    first := h.2.1
    onCores := ⟨(by decide : 1 = pktGang (eligible none).packet), by simp, core / 4, by
      simp only [placing, graphed, issuing, eligible, aGrid, placedGrid, State.withFetchWord, State.modGroup, State.modTeam]; omega, by
      simp only [placing, graphed, issuing, eligible, aGrid, placedGrid, State.withFetchWord, State.modGroup, State.modTeam]; omega, by simp⟩
    room := fun hd c hcm => by
      rw [List.mem_singleton] at hcm
      subst hcm
      exact h.2.2.1 hd
    fixed := h.2.2.2 }
theorem test_meets_place : PlacesOn (placing [] none) (eligible none) [511] := placing_places _ _ _ (by omega) (by decide)
theorem test_meets_placeDet : PlacesOn (placing [0] none) (eligible none) [4] := placing_places _ _ _ (by omega) (by decide)
theorem test_meets_placeBatch : PlacesOn (placing [] (some (5, 1, [0, 2]))) (eligible (some (5, 1, [0, 2]))) [1] ∧
    (placing [] (some (5, 1, [0, 2]))).graph? 5 = some taken := ⟨placing_places _ _ _ (by omega) (by decide), rfl⟩

/-- GroupsRetire: the last group of a team, and one of two; a group of a killed context; a grid whose teams have ended. -/
def ended : Group → Group := fun g => { g with recs := Vector.replicate 4 Split.unused }
def retires (s : State) : Bool := (s.group? 0 0).any fun g => !g.retired && !g.saved && g.live == 0#32 && g.handler.isNone
theorem test_meets_retire : retires (issuing ended) = true ∧ (issuing ended).items = [] ∧ (issuing ended).reds = [] ∧
    ∃ x, (issuing ended).team? 0 = some x ∧ (x.groups.all fun y => y.gid == 0 || y.retired) = true :=
  ⟨by decide, rfl, rfl, of_named_team (by decide)⟩
def paired (f : Group → Group) : State :=
  { issuing f with teams := (issuing f).teams.map fun t => { t with groups := t.groups.flatMap fun g => [g, { g with gid := 1 }] } }
theorem test_meets_retireOne : retires (paired ended) = true ∧ ∃ x, (paired ended).team? 0 = some x ∧
    (x.groups.any fun y => y.gid != 0 && !y.retired) = true := ⟨by decide, of_named_team (by decide)⟩
def killed : State := { issuing id with contexts := [{ placedContext with killed := true, halted := true }] }
theorem test_meets_remove : (∃ x, killed.team? 0 = some x ∧ ((killed.context? x.ctx).any fun c => c.killed) = true) ∧
    ∃ g, killed.group? 0 0 = some g ∧ (!g.retired && killed.items.isEmpty) = true := ⟨of_named_team (by decide), of_named_group (by decide)⟩
/-- A consumer team of a graph that is not loaded any more. -/
def orphaned : State := { issuing id with grids := [{ placedGrid with batch := some (5, 1, [0]) }] }
theorem test_meets_removeOrphan : (∃ x, orphaned.team? 0 = some x ∧ ((orphaned.grid? x.grid).any fun r =>
    match r.batch with | some b => (orphaned.graph? b.1).isNone | none => false) = true) ∧
    ∃ g, orphaned.group? 0 0 = some g ∧ (!g.retired && orphaned.items.isEmpty) = true := ⟨of_named_team (by decide), of_named_group (by decide)⟩
def allDone (halted : Bool) : State :=
  { issuing id with grids := [{ placedGrid with dims := (if halted then 2 else 1, 1, 1), done := 1 }], contexts := [{ placedContext with halted := halted }] }
theorem test_meets_complete : ∃ g c, (allDone false).grid? 0 = some g ∧ (allDone false).context? 0 = some c ∧
    g.uid = 0 ∧ g.ctx = 0 ∧ g.state = .eligible ∧ g.done = (if c.halted then g.placed else g.teamCount) :=
  ⟨_, _, rfl, rfl, rfl, rfl, rfl, rfl⟩
theorem test_meets_completeHalted : ∃ g c, (allDone true).grid? 0 = some g ∧ (allDone true).context? 0 = some c ∧
    g.uid = 0 ∧ g.ctx = 0 ∧ g.state = .eligible ∧ g.done = (if c.halted then g.placed else g.teamCount) ∧ g.done < g.teamCount :=
  ⟨_, _, rfl, rfl, rfl, rfl, rfl, rfl, by decide⟩

/-- GraphsGoOn: a batch by its timeout and by draining; a descriptor that loads; a graph that is unloaded under a sleeper, and
one whose sleeper is granted. -/
def recordNode : Node := { aNode false 1 2 with queue := [2], timeout := 5 }
def fed : Graph := { aGraph [(2, .committed 1 [])] with nodes := [aNode true 0 1, recordNode] }
theorem test_meets_timeout : (graphed fed id).graph? 5 = some fed ∧ fed.nodes[1]? = some recordNode ∧
    (graphed fed id).context? 0 = some placedContext ∧ recordNode.queue ≠ [] ∧ recordNode.timeout ≠ 0 ∧
    ∀ y ∈ (graphed fed id).grids, y.uid ≠ (graphed fed id).nextId := ⟨rfl, rfl, rfl, by decide, by decide, by decide⟩
theorem test_meets_drainBatch : (∀ e ∈ fed.slots, e.2 ≠ .allocated 1) ∧
    ∀ m e, fed.nodes[m]? = some e → e.succ.getLsbD 1 = true → ¬ruleLive (graphed fed id) fed m e := by
  refine ⟨by decide, fun m e he hs => ?_⟩
  match m with
  | 0 =>
    cases he
    rintro ⟨g, hg, _, ha, _⟩
    have : g = placedGrid := by simpa [graphed, issuing, State.withFetchWord, State.modGroup, State.modTeam] using hg
    subst this
    exact absurd ha (by decide)
  | 1 => cases he; exact absurd hs (by decide)
  | _ + 2 => cases he
/-- The descriptor at 0x2400 of a graph of one record node, whose template stands at 0x2480. -/
def headWords : List Nat := [0x2800, 2 * 2 ^ 16 + 16, 1, 0, 0, 0, 0, 0]
def nodeWords : List Nat := [0x2480, 0, 512, 0, 0, 0, 0, 0]
def dwordBytes (ws : List Nat) : List Byte := ws.flatMap (leBytes 8)
def described : State :=
  { issuing id with mem := [(0x8480, dwordBytes [0x0002000100010001, 1, 0, 0, 0x2000]), (0x8440, dwordBytes nodeWords),
      (0x8400, dwordBytes headWords)].foldl (fun m e => Memory.put m e.1 e.2) (placedMemory 0) }
def loneNode : Node :=
  { template := 0x2480, succ := 0, floor := 0, timeout := 0, entry := false, recBytes := 16, batch := 1, packet := aPacket [], queue := [] }
def loaded : Graph :=
  { uid := described.nextId, ctx := 0, handle := 0x2400, pool := 0x2800, nslots := 2, slotSize := 16, nodes := [loneNode], slots := [],
    freed := [] }
theorem lone {n : Nat} {d : Node} (h : loaded.nodes[n]? = some d) : n = 0 ∧ d = loneNode := by
  match n with
  | 0 => cases h; exact ⟨rfl, rfl⟩
  | _ + 1 => cases h
theorem no_edge (a b : Nat) : ¬loaded.edge a b := by
  rintro ⟨_, d, hd, hb⟩
  rw [(lone hd).2] at hb
  simp [loneNode] at hb
theorem lone_mem {d : Node} (h : d ∈ loaded.nodes) : d = loneNode := by simpa [loaded] using h
theorem test_meets_graphGood : GraphGood described placedContext 0x2400 loaded where
  bytes := ⟨dwordBytes headWords, dwordBytes nodeWords, by decide, by decide, by decide, by decide, by decide, fun j h1 h2 => by
      have : ∀ j, j < 8 → 3 ≤ j → wordAt (dwordBytes headWords) j = 0 := by decide
      exact this j h2 h1, fun n d h => by
      obtain ⟨rfl, rfl⟩ := lone h
      exact ⟨by decide, by decide, ⟨by decide, by decide, fun j h1 h2 => by
        have : ∀ j, j < 8 → 3 ≤ j → wordAt (dwordBytes nodeWords) (8 * 0 + j) = 0 := by decide
        exact this j h2 h1⟩, by decide, by decide, by decide, by decide, by decide⟩⟩
  names := ⟨rfl, rfl, by decide, rfl⟩
  pool := by decide
  pages := by decide
  empty := ⟨rfl, rfl, fun d h => by rw [lone_mem h]; rfl⟩
  count := by decide
  floors := by decide
  order := by
    rintro ⟨a, h⟩
    cases h with
    | single h => exact no_edge _ _ h
    | tail _ h => exact no_edge _ _ h
  edges := fun d h b _ => by rw [lone_mem h]; simp [loneNode]
  packet := fun d h => by rw [lone_mem h]; decide
  entry := fun n d h he => by rw [(lone h).2] at he; cases he
  record := fun n d h _ => by
    obtain ⟨rfl, rfl⟩ := lone h
    exact ⟨by decide, by decide, by decide, by decide, by decide, packet_good [] 1 1 1 (by decide), by decide, by decide, by decide,
      fun ⟨a, _, h, _⟩ => absurd h (no_edge a 0)⟩
theorem test_meets_graphLoad : described.context? 0 = some placedContext ∧ described.graphOf 0 0x2400 = none ∧
    ¬∃ x, GraphGood described placedContext 0x2401 x := ⟨rfl, rfl, fun ⟨_, h⟩ => absurd h.names.2.2.1 (by decide)⟩
def asking (order : Nat) : Sleep := .wgalloc 5 1 4 3 order
theorem test_meets_unload : (graphed taken (sleeping (asking 3))).graph? 5 = some taken ∧
    (graphed taken (sleeping (asking 3))).sleepAt 0 0 0 = asking 3 := ⟨rfl, by decide⟩
/-- A team of the graph's consumer grid that runs, with an item. -/
def consuming : State :=
  { holding [item 9 (.arrival 0x40 true 0)] (graphed taken id) with grids := [{ placedGrid with batch := some (5, 1, [0, 2]) }] }
theorem test_meets_unloadTeam : consuming.graph? 5 = some taken ∧ consuming.itemsApart ∧
    (∃ y, consuming.team? 0 = some y ∧ (y.core.isSome && (consuming.grid? y.grid).any fun g => (g.batch.any fun b => b.1 == 5)) = true) ∧
    ∃ g, consuming.group? 0 0 = some g ∧ inPlayB g = true :=
  ⟨rfl, (apart _ _ rfl (by decide)).1, of_named_team (by decide), of_named_group (by decide)⟩
theorem test_meets_unloadGrid : (placing [] (some (5, 1, [0, 2]))).grids[1]? = some (eligible (some (5, 1, [0, 2]))) ∧
    (eligible (some (5, 1, [0, 2]))).placed = 0 := ⟨rfl, rfl⟩
theorem test_meets_grant : ∃ v, (graphed (aGraph []) (sleeping (asking 3))).sleeps v 0 0 0 (asking 3) ∧
    decide ((graphed (aGraph []) (sleeping (asking 3))).graph? 5 = some (aGraph []) ∧ (3 : Mask) ≠ 0#32 ∧
      (aGraph []).canMeet 1 (lanesOf 3).length = true ∧ (lanesOf 3).length ≤ (aGraph []).freeSlots.length ∧
      ∀ e ∈ (graphed (aGraph []) (sleeping (asking 3))).allocSleepers,
        (graphed (aGraph []) (sleeping (asking 3))).sleeperMet e = true → e.1 = ⟨0, 0, 0⟩ ∨ 3 < e.2.2.2.2) = true :=
  of_asleep (by decide)

/-- PagesArrive: entries for a page that a flow, an item and a RED wait for, and one page more; a page refused. -/
def stuck : State :=
  { issuing (sleeping (.xlate 0x4000 1)) with
    items := [{ item 9 (.arrival 0x40 true 0) with waits := [(0, 0x4000)] }], reds := [{ oneRed with wait := some 0x4000 }] }
theorem test_meets_present : stuck.context? 0 = some placedContext ∧ stuck.memOk = true ∧
    (∀ e ∈ ([(0x6010, 0xA01F)] : List (Nat × BitVec 64)), e.1 % 8 = 0 ∧ e.1 + 8 ≤ 2 ^ 56) ∧ stuck.sleepAt 0 0 0 = .xlate 0x4000 1 :=
  ⟨rfl, by decide, by decide, by decide⟩
theorem test_meets_refused : (∃ v, stuck.sleeps v 0 0 0 (.xlate 0x4000 1) ∧ decide (v.t.ctx = 0 ∧ v.g.handler = none) = true) ∧
    stuck.absentAt placedContext 0x4000 := ⟨of_asleep (by decide), _, rfl⟩
theorem test_meets_migrateStart : (issuing id).memOk = true ∧ (∃ e, (issuing id).walk placedContext 0x2000 = .ok e ∧
    e.kind = .scratch ∧ (issuing id).frameFits 0 1 0xA000 e.size = true) ∧ (issuing id).reds = [] := ⟨by decide, ⟨_, rfl, rfl, by decide⟩, rfl⟩
def moving : Migration := ⟨0, 0x2000, 0x6008, 1, 13, 0x8000, 0x801F⟩
def migrating : State := { issuing id with migrating := [moving] }
theorem test_meets_migrateEnd : migrating.memOk = true ∧ (migrating.migrating.find? fun m => m.ctx == 0 && decide (m.va ≤ 0x3FFF) &&
    decide (0x3FFF < m.va + 2 ^ m.size)) = some moving ∧ migrating.frameFits 0 1 0xA000 moving.size = true ∧
    moving.entry + 8 * moving.copies ≤ 0xA000 := ⟨by decide, rfl, by decide, by decide⟩
def passing1 : Work := .mma [] 0 0 0 0 true []
theorem test_meets_softError : (∃ x, (issuing id).team? 0 = some x ∧ decide (393215 < x.shBytes) = true) ∧
    (∃ g, (issuing id).group? 0 0 = some g ∧ true = true) ∧
    ((holding [item 9 passing1] (issuing id)).mmaTable 0).any Item.inPass = true :=
  ⟨of_named_team (by decide), of_named_group (by decide), by decide⟩

/-! Ends of engine items. -/

def okIs {α : Type} (r : Except EngStop α) (p : α → Bool) : Bool := match r with | .ok x => p x | .error _ => false
def waitsAt {α : Type} (r : Except EngStop α) (va : Nat) : Bool := match r with | .error (.wait a _) => a == va | _ => false
def failsBy {α : Type} (r : Except EngStop α) (c : Nat) : Bool := match r with | .error (.fail k) => k == c | _ => false
theorem of_okIs {α : Type} {r : Except EngStop α} {p : α → Bool} (h : okIs r p = true) : ∃ x, r = .ok x ∧ p x = true := by
  unfold okIs at h
  split at h
  · exact ⟨_, rfl, h⟩
  · cases h
theorem of_waitsAt {α : Type} {r : Except EngStop α} {va : Nat} (h : waitsAt r va = true) : ∃ m, r = .error (.wait va m) := by
  unfold waitsAt at h
  split at h
  · exact ⟨_, by rw [← eq_of_beq h]⟩
  · cases h
theorem of_failsBy {α : Type} {r : Except EngStop α} {c : Nat} (h : failsBy r c = true) : r = .error (.fail c) := by
  unfold failsBy at h
  split at h
  · rw [← eq_of_beq h]
  · cases h

/-- Memory with dwords written to the page at 0x2000, and a second page of zeros at 0x4000. -/
def written (ws : List (Nat × Nat)) : List Host.Cell :=
  (ws.map fun w => (w.1 + 0x6000, w.2)).foldl (fun m w => Memory.put m w.1 (leBytes 8 w.2)) (Memory.put (placedMemory 0) 0x6010 (leBytes 8 0xA01F))
def running (i : Item) (ws : List (Nat × Nat)) (f : Group → Group := id) : State := { holding [i] (issuing f) with mem := written ws }

/-- CopyAndMatrixItemsEnd: an item that starts, in sound memory, in a line in error and outside the allocation; a malformed descriptor,
a whole copy, a failure, a page to wait for; alone, and with another item. -/
def copied (cs : List CopyState) (desc : Word := 0x40) : Xcp := ⟨desc, none, none, false, false, cs⟩
def descWords (src dst len flags : Nat) : List Word := [src, dst, flags * 2 ^ 45, len, 0, 0, 0, 0].map (BitVec.ofNat 64)
theorem starts (s : State) (cs : List CopyState) (desc : Word) (h : s.items = [copyItem (.queued :: cs) desc]) :
    CopyTurn s (copyItem (.queued :: cs) desc) (copied (.queued :: cs) desc) 0 :=
  ⟨rfl, fun j hj => absurd hj (Nat.not_lt_zero j), fun y hy _ hl => by
    rw [h, List.mem_singleton] at hy
    subst hy
    exact absurd hl (Nat.lt_irrefl _)⟩
theorem test_meets_copyStarts : (copies [.queued]).item? 9 = some (copyItem [.queued]) ∧
    CopyTurn (copies [.queued]) (copyItem [.queued]) (copied [.queued]) 0 ∧
    (copies [.queued]).itemAddr (copyItem [.queued]) 0x40 64 = .ok (0, 0x40) ∧ (copies [.queued]).badShared 0 0x40 64 = false ∧
    (copies [.queued]).missable ((copyItem [.queued]).readsBy (copyItem [.queued]).clk) (sharedKey 0 0x40) 64 = [] :=
  ⟨rfl, starts _ _ _ rfl, rfl, rfl, rfl⟩
theorem test_meets_copyStartBad : ({ copies [.queued] with eccShared := [(0, 8)] } : State).badShared 0 0x40 64 = true ∧
    CopyTurn { copies [.queued] with eccShared := [(0, 8)] } (copyItem [.queued]) (copied [.queued]) 0 := ⟨rfl, starts _ _ _ rfl⟩
theorem test_meets_copyStartOut : (copies [.queued] 0x60000).itemAddr (copyItem [.queued] 0x60000) 0x60000 64 = .error 0x15 ∧
    CopyTurn (copies [.queued] 0x60000) (copyItem [.queued] 0x60000) (copied [.queued] 0x60000) 0 := ⟨rfl, starts _ _ _ rfl⟩
def underway (src dst len flags : Nat) (more : List CopyState := []) : List CopyState := .running (descWords src dst len flags) [] :: more
def planOf (src dst len flags : Nat) : Sum Nat (CopyDesc × List UnitFate) :=
  ((copies (underway src dst len flags)).copyPlan (copyItem (underway src dst len flags)) (descWords src dst len flags)).1
def planIs (r : Sum Nat (CopyDesc × List UnitFate)) (p : CopyDesc × List UnitFate → Bool) : Bool :=
  match r with | .inr x => p x | .inl _ => false
theorem of_planIs {r : Sum Nat (CopyDesc × List UnitFate)} {p : CopyDesc × List UnitFate → Bool} (h : planIs r p = true) :
    ∃ d fs, r = .inr (d, fs) ∧ p (d, fs) = true := by
  unfold planIs at h
  split at h
  · exact ⟨_, _, rfl, h⟩
  · cases h
theorem test_meets_copyMalformed : (copies (underway 0 0 0 0)).item? 9 = some (copyItem (underway 0 0 0 0)) ∧
    (match planOf 0 0 0 0 with | .inl c => c == 1 | .inr _ => false) = true := ⟨rfl, by decide⟩
theorem test_meets_copyWhole : ∃ d fs, planOf 0x2000 0x3000 16 0 = .inr (d, fs) ∧
    (match joinFates (fs.map UnitFate.fate) with | .ok _ => true | _ => false) = true :=
  of_planIs (p := fun x => match joinFates (x.2.map UnitFate.fate) with | .ok _ => true | _ => false) (by decide)
theorem test_meets_copyFails : ∃ d fs, planOf 0x2000 (2 ^ 53) 16 0 = .inr (d, fs) ∧
    (match joinFates (fs.map UnitFate.fate) with | .fail c => c == 0x11 | _ => false) = true :=
  of_planIs (p := fun x => match joinFates (x.2.map UnitFate.fate) with | .fail c => c == 0x11 | _ => false) (by decide)
theorem test_meets_copyWaits : ∃ d fs, planOf 0x4000 0x2000 16 0 = .inr (d, fs) ∧
    (match joinFates (fs.map UnitFate.fate) with | .wait va _ => va == 0x4000 | _ => false) = true :=
  of_planIs (p := fun x => match joinFates (x.2.map UnitFate.fate) with | .wait va _ => va == 0x4000 | _ => false) (by decide)
theorem test_meets_linear : ∃ x, (copies (underway 0x100 0x2000 16 2 [.queued])).team? 0 = some x ∧
    (copies (underway 0x100 0x2000 16 2 [.queued])).linearCopy (copyItem (underway 0x100 0x2000 16 2 [.queued])) x
      (descWords 0x100 0x2000 16 2) 16 (.sh 0 0x100) (.at 0x8000 0x2000 false) :=
  ⟨_, rfl, by decide, by decide, by decide, by decide, by decide, fun j h1 h2 => by
      have : j = 4 ∨ j = 5 ∨ j = 6 ∨ j = 7 := by omega
      rcases this with rfl | rfl | rfl | rfl <;> decide,
    ⟨by decide, by decide, 0, 0x100, rfl, rfl, fun _ => by decide⟩,
    ⟨by decide, by decide, _, rfl, rfl, rfl, .inl rfl, rfl⟩, rfl⟩
theorem test_meets_linearMemory : (copies (underway 0x100 0x2000 16 2 [.queued])).memOk = true ∧
    (copies (underway 0x100 0x2000 16 2 [.queued])).item? 9 = some (copyItem (underway 0x100 0x2000 16 2 [.queued])) :=
  ⟨by decide, rfl⟩

def product (pass : Bool) : Item :=
  { item 9 (.mma [0x800006, 0, 0x300000800007, 0] 0 0 0 0 pass []) with vs := List.replicate 64 (LaneVec.splat 0), d := 64 }
theorem test_meets_matrixGrant : (holding [product false] (issuing id)).mmaWaiting 0 ≠ [] := by decide
def passes : State := holding [product true] (issuing id)
def halfA : MmaHalf := ⟨0, 128, 0, .i8, 0⟩
def halfB : MmaHalf := ⟨0x3000, 128, 0, .n8, 0⟩
theorem test_meets_pass : passes.passOf 0 = [product true] ∧ passes.item? 9 = some (product true) ∧
    (product true).tokenAlone [product true] ∧ (product true).mma?.isSome = true ∧
    mmaBlock [0x800006, 0, 0x300000800007, 0] = some (.int8, halfA, halfB) ∧
    ∃ x, passes.team? 0 = some x ∧ passes.operandAt (product true) [] x halfA 0 0 ∧ passes.operandAt (product true) [] x halfB 0 0x3000 :=
  ⟨rfl, rfl, fun j hj h => by rw [List.mem_singleton] at hj; subst hj; exact absurd rfl h, rfl, rfl, _, rfl,
    ⟨rfl, fun _ _ => rfl⟩, rfl, fun _ _ => rfl⟩
theorem test_meets_passDone : ruleMmaEnd passes 0 [product true] 0 (product true) = .done := by decide
/-- A request whose operands lie in an A buffer in error. -/
theorem test_meets_passFails : ruleMmaEnd (passes.setMatrix { passes.matrix 0 with errA := [0] }) 0
    [product true] 0 (product true) = .failed 0x60 := by decide
theorem test_meets_engineReset : ((copies [.queued]).itemsApart ∧ (copyItem [.queued]).tokenAlone (copies [.queued]).items ∧
      (copyItem [.queued]).of (.copy 0) = true) ∧ passes.itemsApart ∧ (product true).of (.matrix 0) = true :=
  ⟨⟨(apart _ _ rfl (by decide)).1, (apart _ _ rfl (by decide)).2, rfl⟩, (apart passes _ rfl (by decide)).1, rfl⟩

/-- HistoryItemsEnd, in a SEQUENCE space at 0x2100 whose data is the second page: f16, h 2, rows of 128 bytes, a window of 64. -/
def seqSpace (tag page : Nat) : List (Nat × Nat) :=
  [(0x2100, 2 ^ 62 + 10 * 2 ^ 52 + 2 * 2 ^ 32), (0x2108, 6), (0x2118, 0x4000), (0x2120, 128), (0x2130, 0x2200), (0x2138, 0x2300),
    (0x2200, tag), (0x2300, page)]
def lookup (fault : Bool) (sa : Word) : Item :=
  { item 9 (.hld 0 .nearest fault false 3 2 5 []) with eff := 1, sa := sa, d := 4, vs := [LaneVec.splat 0] }
def looked (fault : Bool) (sa : Word) (tag : Nat) (f : Group → Group := id) : Except EngStop (List (Nat × HLane) × Nat) :=
  ((hldRun (lookup fault sa) 0 .nearest false 2).attempt (lookup fault sa) (running (lookup fault sa) (seqSpace tag 0) f)).1
theorem test_meets_hldFound : (running (lookup false 0x2100) (seqSpace 1 0)).item? 9 = some (lookup false 0x2100) ∧
    ∀ w ∈ (lookup false 0x2100).waits, w.1 ≠ 0 := ⟨rfl, by decide⟩
theorem test_meets_hldWaits : ∃ m, looked false 0x6000 1 = .error (.wait 0x6000 m) := of_waitsAt (by decide)
theorem test_meets_hldFails : looked false 0x2108 1 = .error (.fail 1) := of_failsBy (by decide)
def missesIn (m : Mask) (x : List (Nat × HLane) × Nat) : Bool := missMask x.1 == m
def nowhere : Item := { lookup true 0x2100 with eff := 0 }
theorem test_meets_hldNoLane : ∃ x, ((hldRun nowhere 0 .nearest false 2).attempt nowhere (running nowhere (seqSpace 1 0))).1 = .ok x ∧
    missesIn 0 x = true := of_okIs (by decide)
theorem test_meets_hldMarks : ∃ x, looked false 0x2100 0 = .ok x ∧ missesIn 1 x = true := of_okIs (by decide)
def faulted : State := running (lookup true 0x2100) (seqSpace 0 0) (sleeping (.hld 9))
theorem test_meets_hldFaults : (∃ x, looked true 0x2100 0 (sleeping (.hld 9)) = .ok x ∧ missesIn 1 x = true) ∧
    faulted.sleepAt 0 0 0 = .hld 9 ∧ ∃ v, faulted.viewOf 0 0 0 2 = some v ∧ v.g.handler.isNone = true :=
  ⟨of_okIs (by decide), by decide, of_views (by decide)⟩
def clearing (sa : Word) : Item := { item 9 (.hctl .hinv 0 0 0 0 true 0) with sa := sa }
def cleared (sa : Word) : Except EngStop HctlEnd := ((hctlRun (clearing sa)).attempt (clearing sa) (running (clearing sa) (seqSpace 1 7))).1
theorem test_meets_hctl : (running (clearing 0x2100) (seqSpace 1 7)).memOk = true ∧
    (running (clearing 0x2100) (seqSpace 1 7)).item? 9 = some (clearing 0x2100) ∧
    (∀ x ∈ (running (clearing 0x2100) (seqSpace 1 7)).items, x.isHctl = true → 9 ≤ x.id) ∧
    ∃ e, cleared 0x2100 = .ok e ∧ (e.writes.length == 1) = true := ⟨by decide, rfl, by decide, of_okIs (by decide)⟩
theorem test_meets_hctlWaits : ∃ m, cleared 0x6000 = .error (.wait 0x6000 m) := of_waitsAt (by decide)
theorem test_meets_hctlFails : cleared 0x2108 = .error (.fail 1) := of_failsBy (by decide)

/-- A sealed page of zeros, whose CRC agrees with its page word or does not. -/
def sealed_ (crc : Nat) : State := { issuing id with mem := written (seqSpace 1 (2 ^ 32 + crc)) }
def zeros : List Byte := List.replicate 8192 0
theorem bytes_zero {m : List Host.Cell} (h : ∀ e ∈ m, e.1 < 0xA000) (n : Nat) : ∀ a, 0xA000 ≤ a → Memory.bytes m a n = List.replicate n 0 := by
  have hr : ∀ a, 0xA000 ≤ a → Memory.read m a = 0 := by
    induction m with
    | nil => intro a _; rfl
    | cons e t ih =>
      intro a ha
      have h1 := h e List.mem_cons_self
      show (if e.1 = a then e.2 else Memory.read t a) = 0
      rw [if_neg (by omega)]
      exact ih (fun x hx => h x (List.mem_cons_of_mem _ hx)) a ha
  induction n with
  | zero => intro a _; rfl
  | succ n ih =>
    intro a ha
    show Memory.read m a :: Memory.bytes m (a + 1) n = _
    rw [hr a ha, ih (a + 1) (by omega)]
    rfl
theorem zero_data (crc : Nat) (hl : ∀ e ∈ (sealed_ crc).mem, e.1 < 0xA000)
    (h : (sealed_ crc).ctlLocs placedContext scrubPage 0x4000 8192 = some [(0xA000, 8192)]) :
    (sealed_ crc).ctlBytes placedContext scrubPage 0x4000 8192 = some zeros := by
  simp only [State.ctlBytes, h, List.any_cons, List.any_nil, List.flatMap_cons, List.flatMap_nil, List.append_nil,
    bytes_zero hl 8192 0xA000 (Nat.le_refl _)]
  rfl
theorem zero_crc : crc32c zeros = 2420393507 := by decide +kernel
def seqIs : HSeq := ⟨.f16, 2, 0, 64, 0, 0x4000, 128, 0, 0x2200, 0x2300, 0⟩
theorem scrubbed (crc : Nat) (h : decide (crc < 2 ^ 32 ∧ (∀ e ∈ (sealed_ crc).mem, e.1 < 0xA000)) = true)
    (hl : (sealed_ crc).ctlLocs placedContext scrubPage 0x4000 8192 = some [(0xA000, 8192)])
    (hw : ((sealed_ crc).ctlBytes placedContext scrubPage 0x2300 8).map leNat = some (2 ^ 32 + crc))
    (hd : (((sealed_ crc).ctlBytes placedContext scrubMeta 0x2100 256).any fun hb =>
      bits ((dwordsOf 32 hb).getD 0 0) 63 62 == 1 && seqOf (dwordsOf 32 hb) == some seqIs) = true) :
    Scrubbed (sealed_ crc) placedContext 0x2100 0 seqIs (2 ^ 32 + crc) zeros := by
  obtain ⟨h1, h2⟩ := of_decide_eq_true h
  refine ⟨⟨by decide, ?_⟩, by decide, by omega, ?_, zeros, [], zero_data crc h2 hl, by simp [seqIs], rfl⟩
  · cases hb : (sealed_ crc).ctlBytes placedContext scrubMeta 0x2100 256 with
    | none => rw [hb] at hd; cases hd
    | some x =>
      rw [hb] at hd
      simp only [Option.any_some, Bool.and_eq_true, beq_iff_eq] at hd
      exact ⟨x, rfl, hd.1, hd.2⟩
  · cases hb : (sealed_ crc).ctlBytes placedContext scrubPage 0x2300 8 with
    | none => rw [hb] at hw; cases hw
    | some x =>
      rw [hb] at hw
      exact ⟨x, hb, by simpa using hw⟩
theorem test_meets_scrubPoisons : (sealed_ 0).memOk = true ∧ (sealed_ 0).context? 0 = some placedContext ∧
    Scrubbed (sealed_ 0) placedContext 0x2100 0 seqIs (2 ^ 32) zeros ∧ crc32c zeros ≠ 2 ^ 32 % 2 ^ 32 ∧
    (sealed_ 0).ctlLocs placedContext (fun e => e.w) (seqIs.pages + 0).toNat 8 = some [(0x8300, 8)] :=
  ⟨by decide, rfl, scrubbed 0 (by decide) rfl (by decide) (by decide), by rw [zero_crc]; decide, rfl⟩
theorem test_meets_scrubAgrees : Scrubbed (sealed_ 2420393507) placedContext 0x2100 0 seqIs (2 ^ 32 + 2420393507) zeros ∧
    crc32c zeros = (2 ^ 32 + 2420393507) % 2 ^ 32 :=
  ⟨scrubbed 2420393507 (by decide) rfl (by decide) (by decide), zero_crc⟩

/-- LayerAndRayItemsEnd: LQRY of a pixel that is there, of one that is not, in a target that is absent; its end, and a failed
end. -/
def layerWork (next : Nat) (fail : Option Nat) : Work := .lcu .lqry false false false 0 next 0 0 fail
def layerItem (sa : Word) (pixel : Word) (next : Nat := 0) (fail : Option Nat := none) : Item :=
  { item 9 (layerWork next fail) with sa := sa, vs := [LaneVec.splat pixel], d := 4, outs := List.replicate 3 (LaneVec.splat 0) }
def layerState (i : Item) : State := running i [(0x2100, 0x10001), (0x2108, 0x2200), (0x2110, 0x2300), (0x2118, 2 ^ 32 + 16)]
def layerRun (i : Item) : Except EngStop LaneOut :=
  ((lcuLane i ((i.lcu?).getD ⟨.lqry, false, false, false, 0, 0, 0, 0, none⟩) 0).attempt i (layerState i)).1
theorem test_meets_layer : (layerState (layerItem 0x2100 0)).memOk = true ∧
    (layerState (layerItem 0x2100 0)).item? 9 = some (layerItem 0x2100 0) ∧
    ∃ w, (layerItem 0x2100 0).lcu? = some w ∧ w.fail = none ∧ (lanesOf (layerItem 0x2100 0).eff)[w.next]? = some 0 ∧
      (layerState (layerItem 0x2100 0)).lcuBlocked (layerItem 0x2100 0) w = false := ⟨by decide, rfl, _, rfl, rfl, rfl, rfl⟩
def threeOut (x : LaneOut) : Bool := x.outs.length == 3
theorem test_meets_layerDone : ∃ x, layerRun (layerItem 0x2100 0) = .ok x ∧ threeOut x = true := of_okIs (by decide)
theorem test_meets_layerFails : layerRun (layerItem 0x2100 1) = .error (.fail 1) := of_failsBy (by decide)
theorem test_meets_layerWaits : ∃ m, layerRun (layerItem 0x6000 0) = .error (.wait 0x6000 m) := of_waitsAt (by decide)
theorem test_meets_layerEnds : (layerState (layerItem 0 0 2)).item? 9 = some (layerItem 0 0 2) ∧
    ∃ w, (layerItem 0 0 2).lcu? = some w ∧ (lanesOf (layerItem 0 0 2).eff)[w.next]? = none := ⟨rfl, _, rfl, rfl⟩
theorem test_meets_layerFailEnds : ∃ w, (layerItem 0 0 1 (some 1)).lcu? = some w ∧ w.fail ≠ none := ⟨_, rfl, by simp⟩

def rays (fn : RayFn) (accept : Mask) (out : Option RayOut) (suspend : Bool := false) (waits : List (Nat × Nat) := []) : Item :=
  { item 9 (.ray fn accept (Vector.replicate 32 out) 0 suspend) with d := 4, waits := waits }
def casting (i : Item) (r : Option Ray) : State := holding [i] (issuing fun g => { g with rays := g.rays.setIfInBounds 0 r })
/-- A ray along +x from the origin. -/
def straight : Ray :=
  { aRay 9 with world := #v[0, 0, 0, 0x3F800000, 0, 0, 0, 0x7F800000], hit := noHit, cur := emptyRef }
/-- The item of a lane takes its turn, with the lane's ray. -/
def turn (i : Item) (r : Option Ray) (sus : Bool) : Bool :=
  ((casting i r).rayItems 0 0 0).head? == some i && (casting i r).rayOf i 0 == r && (i.waiting 0 == false || sus) &&
    match i.ray? with | some w => w.traverses && w.out 0 == none && w.suspend == sus | none => false
theorem test_meets_noRay : turn (rays .trace 0 none) none false = true ∧ turn (rays .resume 0 none) none false = true := by decide
theorem test_meets_suspendedRay : straight.worldRay.invalid = false ∧ straight.worldRay.empty = false ∧ (aRay 9).worldRay.invalid = true := by
  decide
theorem test_meets_suspended : turn (rays .trace 0 none true [(0, 0x4000)]) (some straight) true = true := by decide
theorem test_meets_heldGoes : turn (rays .resume 0 none) (some { straight with held := 2 }) false = true ∧
    turn (rays .resume 1 none) (some { straight with held := 4 }) false = true := by decide
theorem test_meets_accepted : turn (rays .resume 1 none) (some { straight with held := 2, cand := #v[0x3F800000, 0, 0, 3, 4] }) false = true ∧
    turn (rays .resume 1 none) (some { straight with held := 2, first := false, cand := #v[0x3F800000, 0, 0, 3, 4] }) false = true := by
  decide
def stepOf (r : Ray) : Except EngStop StepEnd := ((rayStep (rays .trace 0 none) r).attempt (rays .trace 0 none) (casting (rays .trace 0 none) (some r))).1
def goes (x : StepEnd) : Bool := match x with | .go _ => true | .stop .. => false
def stops (n : Nat) (x : StepEnd) : Bool := match x with | .go _ => false | .stop _ k => k == n
theorem test_meets_stepTurn : turn (rays .trace 0 none) (some straight) false = true ∧ straight.owner = 9 ∧ straight.held = 0 := by decide
theorem test_meets_stepGoes : ∃ x, stepOf { straight with stack := [emptyRef] } = .ok x ∧ goes x = true := of_okIs (by decide)
theorem test_meets_stepMisses : ∃ x, stepOf straight = .ok x ∧ stops 1 x = true := of_okIs (by decide)
theorem test_meets_stepInvalid : ∃ x, stepOf (aRay 9) = .ok x ∧ stops 3 x = true := of_okIs (by decide)
theorem test_meets_stepWaits : ∃ m, stepOf { straight with cur := 0, root := 0x4000 } = .error (.wait 0x4060 m) := of_waitsAt (by decide)
theorem test_meets_stepFails : stepOf { straight with cur := 0, root := 8 } = .error (.fail 1) := of_failsBy (by decide)

theorem test_meets_traceEnds : (casting (rays .trace 0 (some (RayOut.plain 1 0))) none).item? 9 = some (rays .trace 0 (some (RayOut.plain 1 0))) ∧
    ∃ w, (rays .trace 0 (some (RayOut.plain 1 0))).ray? = some w ∧ w.traverses = true ∧
      ∀ l ∈ lanesOf (rays .trace 0 (some (RayOut.plain 1 0))).eff, (w.out l).isSome := ⟨rfl, _, rfl, rfl, by decide⟩
theorem in_turn (i : Item) (w : RayWork) (r : Option Ray) : (casting i r).rayTurn i w := fun x hx _ h => by
  have : x = i := by simpa [casting, holding] using hx
  subst this
  omega
theorem test_meets_loadEnds : ∃ w, (rays .load 0 none).ray? = some w ∧ w.fn = .load ∧
    (casting (rays .load 0 none) (some straight)).rayTurn (rays .load 0 none) w := ⟨_, rfl, rfl, in_turn _ _ _⟩
theorem test_meets_loadReady : ∀ l ∈ lanesOf (rays .load 0 none).eff,
    (∃ r, (casting (rays .load 0 none) (some straight)).rayOf (rays .load 0 none) l = some r ∧ r.owner = 9) ∨
      ∀ r, (casting (rays .load 0 none) (some straight)).loadRecord (rays .load 0 none) l ≠ .ray r := by
  intro l hl
  have : l = 0 ∨ l = 1 := by simpa [lanesOf, rays, item, List.range_succ] using hl
  rcases this with rfl | rfl
  · exact .inl ⟨_, rfl, rfl⟩
  · refine .inr fun r h => ?_
    have h1 : (match (casting (rays .load 0 none) (some straight)).loadRecord (rays .load 0 none) 1 with | .ray _ => false | _ => true) = true := by
      decide
    rw [h] at h1
    cases h1
theorem test_meets_saveEnds : ∃ w, (rays .save 0 none).ray? = some w ∧ w.fn = .save ∧
    (casting (rays .save 0 none) (some straight)).rayTurn (rays .save 0 none) w := ⟨_, rfl, rfl, in_turn _ _ _⟩
theorem test_meets_abortEnds : ∃ w, (rays .abort 0 none).ray? = some w ∧ w.fn = .abort ∧
    (casting (rays .abort 0 none) (some straight)).rayTurn (rays .abort 0 none) w := ⟨_, rfl, rfl, in_turn _ _ _⟩

/-- RTABORT of a lane that an earlier RTRACE, not yet ended, holds as a candidate. -/
def candidate : Item := { rays .trace 0 (some { RayOut.plain 2 0 with prim := 4 }) with id := 8 }
def aborting : State :=
  { casting (rays .abort 0 none) (some { straight with held := 2 }) with items := [candidate, rays .abort 0 none] }
theorem test_meets_abortCandidate : aborting.rayTurn (rays .abort 0 none) ⟨.abort, 0, Vector.replicate 32 none, 0, false⟩ ∧
    aborting.item? 8 = some candidate ∧ ((maskOf fun l => (rays .abort 0 none).eff.getLsbD l &&
      (aborting.rayOf (rays .abort 0 none) l).isSome).getLsbD 0) = true ∧
    ∃ y z, candidate.ray? = some y ∧ y.traverses = true ∧ y.out 0 = some z ∧ z.status = 2 := by
  refine ⟨fun x hx _ hl he y hy => ?_, rfl, by decide, _, _, rfl, rfl, rfl, rfl⟩
  have : x = candidate ∨ x = rays .abort 0 none := by simpa [aborting] using hx
  rcases this with rfl | rfl
  · cases hy; exact ⟨rfl, rfl⟩
  · exact absurd hl (Nat.lt_irrefl _)

/-! Slices, displays, streams, replay and the module. -/

def idle : State := { issuing id with teams := [] }
theorem test_meets_cut : idle.boot = .running ∧ ([1, 8] : List Nat).all (fun n => [1, 2, 4, 8].contains n) = true ∧ ∀ x ∈ idle.teams, x.core = none := by
  decide
theorem test_meets_deterministic : 0 < idle.cut ∧ ∀ x ∈ idle.teams, x.slice = 0 → x.core = none := by decide

/-- DisplaysAndSlices: a head of one pixel that feeds the encoder, its planes and status record in the page at 0x2000; a head
with three planes. -/
def headCfg (planes : List Nat) (w h r : Nat) : HeadCfg :=
  { ctx := 0, width := w, height := h, rate := r, planes := planes, status := 0x2100, toEncoder := true, surface := 0, pitch := 0,
    fmt := 0 }
def four : HeadCfg := headCfg [0x2000, 0x2020, 0x2040, 0x2060] 7680 4320 60
theorem test_meets_headAllowed : idle.boot = .running ∧ HeadAllowed idle 7 3 four :=
  ⟨rfl, ⟨by decide, ⟨placedContext, rfl, rfl, by decide, by decide, by decide⟩, rfl, by decide,
    ⟨fun _ h => absurd h List.not_mem_nil, fun _ h => absurd h List.not_mem_nil⟩, by decide, by decide, by decide⟩⟩
theorem test_meets_headRefused : ¬HeadAllowed idle 7 3 (headCfg [0x2000, 0x2020, 0x2040] 1 1 1) := fun h => absurd h.planes (by decide)
def aHead (latched : Option (List (Option Plane))) (frame : Nat := 2) : DispHead :=
  { engine := 7, head := 3, cfg := four, frame := frame, clk := [], latched := latched }
/-- The first descriptor is a plane, the second malformed, the others take no part. -/
def showing (h : DispHead) : State :=
  { idle with heads := [h], mem := written [(0x2008, 1 + 2 ^ 32 * 4), (0x2010, 0x10001), (0x2028, 3), (0x2300, 1)] }
theorem test_meets_latch : (showing (aHead none)).head? 7 3 = some (aHead none) ∧ (showing (aHead none)).context? 0 = some placedContext :=
  ⟨rfl, rfl⟩
def reading (pa : Nat) (s : State) (j : Nat) : Nat := (Memory.word s.mem (pa + 8 * j)).toNat
def unitReads (va pa : Nat) : Prop :=
  UnitReads (showing (aHead none)) placedContext (fun e => scratchPage e && e.rd) (aHead none).unit [] va 4 pa
theorem test_meets_latchPlane : unitReads 0x2000 0x8000 ∧
    rulePlane (reading 0x8000 (showing (aHead none))) (some ⟨0, 4, 0, 1, 1, 0, 0⟩) :=
  ⟨⟨rfl, rfl, fun _ _ => rfl⟩, by unfold rulePlane; decide⟩
theorem test_meets_latchNone : unitReads 0x2040 0x8040 ∧ rulePlane (reading 0x8040 (showing (aHead none))) none :=
  ⟨⟨rfl, rfl, fun _ _ => rfl⟩, by unfold rulePlane; decide⟩
theorem test_meets_latchMalformed : unitReads 0x2020 0x8020 ∧ ∀ p, ¬rulePlane (reading 0x8020 (showing (aHead none))) p :=
  ⟨⟨rfl, rfl, fun _ _ => rfl⟩, fun p h => by
    unfold rulePlane at h
    rw [if_neg (by decide)] at h
    exact absurd h.2.1 (by decide)⟩
theorem test_meets_latchAbsent : (showing (aHead none)).ctlBytes placedContext (fun e => scratchPage e && e.rd) 0x6000 32 = none := rfl
def badPlane : Plane := ⟨0x6000, 4, 0, 1, 1, 0, 0⟩
def latchedHead : DispHead := aHead (some [some badPlane, none, none, none])
theorem test_meets_frameDone : (showing latchedHead).head? 7 3 = some latchedHead ∧ (showing latchedHead).memOk = true ∧
    (showing latchedHead).ctlLocs placedContext scratchPage 0x2100 8 = some [(0x8100, 8)] ∧
    ∃ r ∈ badPlane.runs 7680 4320, (showing latchedHead).ctlBytes placedContext (fun e => surfacePage e && e.rd) r.1 r.2 = none :=
  ⟨rfl, by decide, rfl, (0x6000, 4), by decide, rfl⟩

def streamCfg (ten : Bool) (entries : Nat) : StreamCfg :=
  { ctx := 0, codec := .h264, tenBit := ten, head := 31, auRing := 0x2400, auBytes := 0x100, ceRing := 0x2200, ceEntries := entries,
    auWord := 0x2300, ceWord := 0x2308, hints := none }
theorem test_meets_streamAllowed : (showing (aHead none)).boot = .running ∧ StreamAllowed (showing (aHead none)) 7 0 (streamCfg false 4) (aHead none) :=
  ⟨rfl, ⟨by decide, ⟨rfl, rfl, rfl⟩, ⟨placedContext, rfl, rfl, by decide, by decide, by decide, by decide⟩, by decide, by decide, by decide⟩⟩
theorem test_meets_streamRefused : ¬∃ h, StreamAllowed (showing (aHead none)) 7 0 (streamCfg true 4) h :=
  fun ⟨_, h⟩ => h.depth (by decide)
/-- A stream whose entry ring is full, and one whose unit always has room, in a ring that no page holds. -/
def aStream (cfg : StreamCfg) (written : Nat) : Stream :=
  { engine := 7, stream := 0, cfg := cfg, auPos := 0, lengths := [], written := written, taken := 0, nextKey := false, nextFrame := 1, cands := [],
    clk := [] }
def encoding (x : Stream) : State := { showing (aHead none) with streams := [x] }
def full : Stream := aStream (streamCfg false 4) 4
def roomyStream : Stream := aStream { streamCfg false 4 with auRing := 0x6000, auBytes := 2 ^ 36 } 0
theorem test_meets_unitSkipped : (encoding full).stream? 7 0 = some full ∧
    ∃ h, (encoding full).head? (full.cfg.head / 4) (full.cfg.head % 4) = some h ∧ full.nextFrame < h.frame ∧
      ¬(full.written - full.taken < full.cfg.ceEntries) := ⟨rfl, _, rfl, by decide, by decide⟩
theorem test_meets_unitWritten : (encoding roomyStream).stream? 7 0 = some roomyStream ∧ (encoding roomyStream).memOk = true ∧
    let n := Config.unitLength (encoding roomyStream).tick % 2 ^ 36
    (roomyStream.written - roomyStream.taken < roomyStream.cfg.ceEntries ∧ roomyStream.lengths.sum + n ≤ roomyStream.cfg.auBytes) :=
  ⟨rfl, by decide, by decide, by
    show 0 + _ % 2 ^ 36 ≤ 2 ^ 36
    have := Nat.mod_lt (Config.unitLength (encoding roomyStream).tick) (show 0 < 2 ^ 36 by decide)
    omega⟩
def returned : Stream := aStream (streamCfg false 4) 3
theorem test_meets_ringReturn : (encoding returned).stream? 7 0 = some returned ∧
    UnitReads (encoding returned) placedContext surfacePage returned.unit [] 0x2300 1 0x8300 ∧
    UnitReads (encoding returned) placedContext surfacePage returned.unit [] 0x2308 1 0x8308 ∧
    (Memory.word (encoding returned).mem 0x8300).toNat = 1 ∧ (Memory.word (encoding returned).mem 0x8308).toNat = 0 ∧
    1 < returned.written ∧ returned.taken ≤ 0 + 1 :=
  ⟨rfl, ⟨rfl, rfl, fun _ _ => rfl⟩, ⟨rfl, rfl, fun _ _ => rfl⟩, by decide, by decide, by decide, by decide⟩
/-- A cut that changes while a head reads a frame, and a frame awaits encode. -/
def cutting : State := { showing latchedHead with streams := [returned] }
theorem test_meets_cutFrames : cutting.heads = [latchedHead] ∧ cutting.context? 0 = some placedContext ∧ cutting.memOk = true ∧
    cutting.ctlLocs placedContext scratchPage 0x2100 8 = some [(0x8100, 8)] ∧ cutting.head? 7 3 = some latchedHead ∧
    returned.nextFrame < latchedHead.frame ∧ ∀ x ∈ cutting.teams, x.core = none := ⟨rfl, rfl, by decide, rfl, rfl, by decide, by decide⟩

def aCapture : Capture :=
  { id := 1, ctx := 0, slice := 0, packet := aPacket [], seq := 0, meas := [], inputs := [(0x2000, [1, 2])], outputs := [], reports := [],
    incomplete := false, base := 0, notes := 0 }
def replaying : State := { bound idle with captures := [aCapture] }
theorem test_meets_replay : replaying.captures.find? (fun x => x.id == 1) = some aCapture ∧ replaying.context? 0 = some placedContext ∧
    replaying.replayQueue placedContext aCapture.packet = some 0 ∧ (∃ u, replaying.writeInputs placedContext aCapture.inputs = some u) ∧
    3 < aCapture.packet.length ∧ (∀ x ∈ replaying.teams, x.slice = 0 → x.core = none) ∧ replaying.queueLen 0 0 < 1024 :=
  ⟨rfl, rfl, rfl, ⟨_, rfl⟩, by decide, by decide, by decide⟩

/-- ModuleEvents. -/
def anImage (v : Nat) : FlashImage := { payload := [], version := 1, secVer := v, signature := 0 }
def booting (k fuses : Nat) (is : List FlashImage) : State := { State.reset with boot := .atStage k, fuses := fuses, flash := is }
theorem test_meets_boot : (booting 2 64 [anImage 0, anImage 0, anImage 64]).flash[2]? = some (anImage 64) ∧ (anImage 64).secVer ≤ 64 ∧
    (booting 2 64 [anImage 0, anImage 0, anImage 64]).fuses ≤ (anImage 64).secVer := by decide
theorem test_meets_bootStops : (booting 0 0 []).flash[0]? = none ∧ (booting 0 5 [anImage 4]).flash[0]? = some (anImage 4) ∧
    (anImage 4).secVer < (booting 0 5 [anImage 4]).fuses ∧ 64 < (anImage 65).secVer := by decide
theorem test_meets_spdm : idle.boot = .running ∧ Link.host ∉ idle.linksDown ∧ 0 < idle.cut := by decide
theorem test_meets_window : idle.windowSlice (.vf 0) = some 0 ∧ inMain idle.cut 0 (2 ^ 39 - 8) 8 = true ∧ idle.badMem (2 ^ 39 - 8) 8 = false ∧
    { idle with eccMem := [0x1000 / 8] }.badMem 0x1000 1 = true ∧ idle.memOk = true := by decide
theorem test_meets_debugShared : (issuing id).boot = .running ∧ (issuing id).memOk = true ∧
    (∃ x, (issuing id).team? 0 = some x ∧ (x.core.isSome && decide (393208 + 8 ≤ x.shBytes) && decide (x.shBytes < 393208 + 9)) = true) ∧
    (issuing id).team? 1 = none ∧ { issuing id with eccShared := [(0, 8)] }.badShared 0 0x40 8 = true :=
  ⟨rfl, by decide, of_named_team (by decide), rfl, rfl⟩
def debugPage (e : TlbEntry) : Bool := (idle.farCause e e.frame).isNone
theorem test_meets_debugPages : idle.context? 0 = some placedContext ∧ idle.ctlLocs placedContext debugPage 0x2000 8 = some [(0x8000, 8)] ∧
    idle.ctlLocs placedContext debugPage 0x6000 8 = none ∧ (idle.ctlBytes placedContext debugPage 0x2000 8).isSome = true ∧
    idle.ctlBytes placedContext debugPage 0x6000 8 = none := ⟨rfl, rfl, rfl, rfl, rfl⟩
theorem test_meets_windowOutside : inMain idle.cut 0 (2 ^ 39 - 7) 8 = false ∧ idle.windowSlice .pf = none := by decide
theorem test_meets_flash : (([anImage 1].map fun i => i.payload.length).sum) ≤ 2 ^ 30 ∧ hasBlock (.hbm 0) = true ∧
    (∀ p, Link.mukai 15 = .mukai p → p < 16) := ⟨by decide, by decide, fun p h => by cases h; decide⟩
theorem test_meets_clocks : 4 < idle.clockOf (.hbm 0) ∧ { idle with clocks := [(.hbm 0, 15)] }.clockOf (.hbm 0) < 16 := by decide
theorem test_meets_clusterStart : NextCluster { idle with started := Vector.replicate 8 ⟨0, 0, 0⟩ } 0 ∧ idle.cut ∈ [1, 2, 4, 8] := by
  unfold NextCluster
  decide
/-- The last cluster of a slice of its own, in the finest cut. -/
theorem test_meets_clusterLast : NextCluster { idle with cut := 8, started := Vector.replicate 8 ⟨15, 0, 0⟩ } 127 := by
  unfold NextCluster
  decide
theorem test_meets_queueBind : idle.context? 0 = some placedContext ∧ placedContext.slice = 0 := ⟨rfl, rfl⟩
theorem test_meets_contextCreate : idle.context? 1 = none ∧ (idle.contexts.filter fun c => c.slice == 0).length < 64 := ⟨rfl, by decide⟩
theorem parts_from (n : Nat) : pageParts 0x6000 n = [] ∨ ∃ k rest, pageParts 0x6000 n = (0x6000, k) :: rest := by
  unfold pageParts
  generalize (0x6000 + n + 8191) / 8192 - 0x6000 / 8192 = m
  cases m with
  | zero => exact .inl rfl
  | succ m => exact .inr ⟨_, _, by rw [List.range_succ_eq_map, List.map_cons]; rfl⟩
theorem not_mapped : ∃ m, (encoding roomyStream).walk placedContext 0x6000 = .absent m := by
  have h : (match (encoding roomyStream).walk placedContext 0x6000 with | .absent _ => true | _ => false) = true := by decide
  split at h
  · exact ⟨_, ‹_›⟩
  · cases h
theorem no_page (bs : List Byte) : ((encoding roomyStream).ctlWrite placedContext surfacePage 0x6000 bs).getD (encoding roomyStream) =
    encoding roomyStream := by
  unfold State.ctlWrite State.ctlLocs
  split
  · rfl
  · rcases parts_from bs.length with h | ⟨k, rest, h⟩ <;> rw [h]
    · rfl
    · obtain ⟨m, hm⟩ := not_mapped
      rw [List.foldr_cons, hm]
      generalize List.foldr _ (some []) rest = acc
      cases acc <;> rfl
theorem test_meets_unitEntry : (((encoding roomyStream).hints placedContext roomyStream (aHead none)).2.2.writeUnit placedContext roomyStream
    (Config.unitLength (encoding roomyStream).tick % 2 ^ 36)).ctlLocs placedContext surfacePage
      (roomyStream.cfg.ceRing + 16 * (roomyStream.written % roomyStream.cfg.ceEntries)) 16 = some [(0x8200, 16)] := by
  have h : ((encoding roomyStream).hints placedContext roomyStream (aHead none)).2.2.writeUnit placedContext roomyStream
      (Config.unitLength (encoding roomyStream).tick % 2 ^ 36) = encoding roomyStream := by
    show ((((encoding roomyStream).ctlWrite placedContext surfacePage 0x6000 _).getD (encoding roomyStream)).ctlWrite placedContext
      surfacePage 0x6000 _).getD (((encoding roomyStream).ctlWrite placedContext surfacePage 0x6000 _).getD (encoding roomyStream)) = _
    rw [no_page, no_page]
  rw [h]
  rfl

/-! Steps, encoding and memory. -/

/-- StepRunsDecoded and IllegalWordsRaiseIllop: SADD S4, S5, S6 placed at 0x2000, and with a bit that must be zero set. -/
def placed (w : Nat) : State := State.reset.withFetchWord 32 w
theorem placed_acts : (placed 0x60102818).ticked.acts = [.issue ⟨0, 0, 0⟩] ∧ (placed 0x60102819).ticked.acts = [.issue ⟨0, 0, 0⟩] := by decide
theorem chosen_issue {s : State} {a : Act} (h : s.acts = [a]) : s.chosen = some a := by
  unfold State.chosen
  rw [h]
  simp [Nat.mod_one]
def fetching (w : Nat) : State := { (placed w).ticked with cur := some ⟨0, 0, 0⟩ }
theorem fetches (w : Nat) (w0 : W32) (h : opWords (opcodeOf w0) ≠ 2)
    (hb : (match (fetching w).translate 0 0 0x2000 with
      | (.ok e, t) => e.x && !t.badMem (e.pa 0x2000) 4 && w0 == t.cachedWord 0 (e.pa 0x2000) | _ => false) = true) :
    ∃ t, (fetching w).instrAt 0 0 0x2000 w0 0 t := by
  split at hb
  · rename_i e t ht
    simp only [Bool.and_eq_true, Bool.not_eq_true', beq_iff_eq] at hb
    refine ⟨t, ?_⟩
    unfold State.instrAt
    rw [if_neg h]
    exact ⟨⟨by decide, e, ht, hb.1.1, hb.1.2, hb.2⟩, rfl⟩
  · cases hb
theorem test_meets_step : (placed 0x60102818).ticked.chosen = some (.issue ⟨0, 0, 0⟩) ∧
    (∃ v, (fetching 0x60102818).viewOf 0 0 0 0 = some v ∧ (v.core == 0 && v.t.ctx == 0 && v.back == 0x2000) = true) ∧
    (∃ t, (fetching 0x60102818).instrAt 0 0 0x2000 0x60102818 0 t) ∧ decodeWords 0x60102818 0 = .ok (.sadd 4 5 6) :=
  ⟨chosen_issue placed_acts.1, of_views (by decide), fetches _ _ (by decide) (by decide), rfl⟩
theorem test_meets_illegal : (placed 0x60102819).ticked.chosen = some (.issue ⟨0, 0, 0⟩) ∧
    (∃ v, (fetching 0x60102819).viewOf 0 0 0 0 = some v ∧ (v.core == 0 && v.t.ctx == 0 && v.back == 0x2000) = true) ∧
    (∃ t, (fetching 0x60102819).instrAt 0 0 0x2000 0x60102819 0 t) ∧ ∃ e, decodeWords 0x60102819 0 = .error e :=
  ⟨chosen_issue placed_acts.2, of_views (by decide), fetches _ _ (by decide) (by decide), _, rfl⟩
/-- DecodeEncodeAgree, EncodeDecodeAgree and CanonicalMemoryKept. -/
theorem test_meets_encoding : (Instr.sadd 4 5 6).wf = true ∧ (Instr.sadd 4 5 6).isEvent = false ∧
    decodeWords 0x60102818 0xFFFFFFFF = .ok (.sadd 4 5 6) := ⟨by decide, by decide, rfl⟩
theorem test_meets_canonical : State.reset.canonical = true ∧ Machine.step State.reset = .next { State.reset with tick := 1, boot := .recovery } :=
  ⟨by decide, rfl⟩

/-! Well-formed instructions: one term that each check refuses. -/

theorem test_wf_refuses : ([.vadd 1 ⟨2, true, true⟩ (src 3), .vadd 1 (src 3) ⟨2, true, true⟩, .vmov 1 ⟨2, true, true⟩,
    .vshli 1 (src 2) 64, .vshri 1 (src 2) 256, .vcmp 1 .ltu 2 false 3 false, .scmp .uno 1 2 3,
    .setmode 1 0 0 false false true true true, .setmode 0 1 0 false true false true true, .setmode 0 0 1 false true true false true,
    .setmode 0 0 0 true true true true false, .srd 1 19, .srd 64 1, .swr 9 1, .swr 15 1, .loop 0 5] : List Instr).all
    (fun i => !i.wf) = true := by decide
theorem test_wf_refusesMemory : ([.ld 1 ⟨0, 127, true⟩ 0 ⟨.b64, .sp, false, .group, 0⟩, .st 1 ⟨0, 127, true⟩ ⟨.b64, .sp, false, .group, 0⟩,
    .ld 1 (noIndex 0) 0 ⟨.b64, .sp, false, .sys, 0⟩, .ld 1 (noIndex 0) 0 ⟨.b64, .sk, true, .group, 0⟩,
    .lds 1 0 0 ⟨.b256, .sp, false, .group, 0⟩, .sts 1 0 ⟨.b128, .sp, false, .group, 0⟩,
    .atom 1 (noIndex 0) ⟨true, false, .plain, .slice, .add, 1, 0⟩, .red (noIndex 0) ⟨true, false, .acq, .slice, .add, 1, 0⟩,
    .red (noIndex 0) ⟨true, false, .plain, .group, .swap, 1, 0⟩, .red (noIndex 0) ⟨true, false, .plain, .group, .cas, 1, 0⟩,
    .ldk 1 ⟨0, 127, true⟩ 0 .b64 0, .stk 1 ⟨0, 127, true⟩ .b64 0] : List Instr).all (fun i => !i.wf) = true := by decide
theorem test_wf_refusesEngines : ([.xcp 0 1 0 20 false 1 false, .xcp 5 1 0 20 false 0 false, .mma 64 0 0 20, .lqry 30 0 20 15 3 false,
    .hsr 1 0x0105, .hsr 1 0x0702, .hsw 0x0200 1, .hsw 0x0700 1, .reservedOpcode 0x60102818 0, .reservedOpcode 0x00000000 1] :
    List Instr).all (fun i => !i.wf) = true := by decide
theorem test_wf_accepts : ([.vadd 1 ⟨2, true, false⟩ ⟨3, false, true⟩, .vshli 1 (src 2) 63, .vcmp 1 .uno 2 false 3 false, .scmp .ltu 1 2 3,
    .setmode 15 7 15 true true true true true, .srd 63 18, .srd 64 0, .swr 14 1, .loop 1 0, .ld 1 ⟨0, 126, true⟩ 0 ⟨.b64, .sp, true, .sys, 0⟩,
    .red (noIndex 0) ⟨true, false, .rel, .slice, .max, 1, 0⟩, .xcp 5 1 0 20 true 63 false, .mma 64 0 1 20, .lqry 30 0 20 14 3 false,
    .hsr 1 0x0700, .hsw 0x0641 1, .reservedOpcode 0x00000000 0, .moduleReset] : List Instr).all Instr.wf = true := by decide

/-! Values of the manual's examples. -/

def after (i : Instr) (s : State) (p : Group → Bool) : Bool := match exec i s with | .next t => (t.group? 0 0).any p | _ => false
/-- The example of R135: as unsigned numbers 2^64 − 1 is not below 1; as signed ones −1 is. -/
theorem test_scmp : after (.scmp .ltu 3 5 6) (issuing (scalar 5 (-1) ∘ scalar 6 1)) (fun g => g.sReg false 3 == 0) = true ∧
    after (.scmp .lt 3 5 6) (issuing (scalar 5 (-1) ∘ scalar 6 1)) (fun g => g.sReg false 3 == 1) = true := by decide
/-- The example of VADDI by −1 on an n32 value of 0, without and with SAT; and that of VABSD, 127 and −128 under i8. -/
theorem test_deliver : deliverInt false 32 false (0 - 1) = (0xFFFFFFFF, flNone) ∧ deliverInt false 32 true (0 - 1) = (0, flSat) ∧
    deliverInt true 8 false 255 = (0xFF, flNone) ∧ deliverInt true 8 true 255 = (127, flSat) := by decide
/-- R108's table under RNE, from f32 to e4m3 with SAT 0 and 1: 5.0, 464 and 500. -/
theorem test_convert : [0x40A00000, 0x43E80000, 0x43FA0000].map (fun x => ((convFF fmtE4m3 .rne false (fmtF32.decode x)).1,
    (convFF fmtE4m3 .rne true (fmtF32.decode x)).1)) = [(0x4A, 0x4A), (0x7E, 0x7E), (0x7F, 0x7E)] := by decide
/-- RFC 3720 B.4: the CRC of 32 bytes of zeros. -/
theorem test_crc : crc32c (List.replicate 32 0) = 0x8A9136AA := by decide
/-- FIPS 180-4: the digest of "abc". -/
theorem test_sha : sha256 [0x61, 0x62, 0x63] = 0xBA7816BF8F01CFEA414140DE5DAE2223B00361A396177A9CB410FF61F20015AD := by decide

end Sys2Proof.Tests
end

section
/-!
SUPPORT. Sparse lists, and what a change of one group leaves of the others (`OthersStay`), for
statements that an instruction performs.
-/
namespace Sys2Proof.Machine

/-! ## Sparse lists -/

theorem assocGet_assocSet {α : Type} (d : α) (l : List (Nat × α)) (a c : Nat) (x : α) :
    assocGet d (assocSet l a x) c = if a = c then x else assocGet d l c := by
  induction l with
  | nil => rfl
  | cons e l ih =>
    obtain ⟨k, y⟩ := e
    rw [assocSet]
    split
    · rfl
    · rename_i hlt
      split
      · rename_i hk
        subst hk
        simp only [assocGet]
        split <;> rfl
      · rename_i hk
        simp only [assocGet, ih]
        by_cases hc : k = c
        · simp [hc, show ¬a = c by omega]
        · simp [hc]

/-! ## What a change of one group leaves of the others -/

theorem Sleep.Becomes.refl (a : Sleep) : a.Becomes a := .inl rfl

theorem Group.OnlySleeps.refl (g : Group) : g.OnlySleeps g := by
  refine ⟨rfl, fun k _ => ⟨rfl, Sleep.Becomes.refl _⟩, ?_⟩
  cases g.handler with
  | none => trivial
  | some h => exact ⟨rfl, Sleep.Becomes.refl _⟩

theorem Group.modOrd_id (g : Group) : g.modOrd 4 id = g := by
  show { g with handler := g.handler.map id } = g
  rw [Option.map_id]
  rfl

/-- Ordering may have tracked nothing. -/
theorem Group.Ordered.refl (g : Group) : g.Ordered g := by
  refine ⟨g.clk, g.rels, g.relMark, 4, id, ?_⟩
  show (g.modOrd 4 id).OnlySleeps g
  rw [Group.modOrd_id]
  exact Group.OnlySleeps.refl g

theorem Team.group?_modGroup_other {gid gid' : Nat} {f : Group → Group} (hf : ∀ x, x.gid = gid → (f x).gid = gid)
    (hne : gid' ≠ gid) (t : Team) : (t.modGroup gid f).group? gid' = t.group? gid' := by
  have hkeep : ∀ x : Group, ((if x.gid = gid then f x else x).gid == gid') = (x.gid == gid') := by
    intro x
    split
    · rename_i hx
      rw [hf x hx, hx]
    · rfl
  have hfound : (t.modGroup gid f).group? gid' = (t.group? gid').map fun x => if x.gid = gid then f x else x :=
    find?_map_keep t.groups _ (fun x => x.gid == gid') hkeep
  rw [hfound]
  cases hx : t.group? gid' with
  | none => rfl
  | some x => simp [Team.group?_gid hx, hne]

/-- Another group than the one that was changed. -/
theorem State.group?_modGroup_other {s : State} {u gid u' gid' : Nat} {f : Group → Group}
    (hf : ∀ x, x.gid = gid → (f x).gid = gid) (hne : u' ≠ u ∨ gid' ≠ gid) :
    (s.modGroup u gid f).group? u' gid' = s.group? u' gid' := by
  unfold State.group? State.modGroup
  rw [State.team?_modTeam s u u' (fun t => t.modGroup gid f) fun _ => rfl]
  cases ht : s.team? u' with
  | none => rfl
  | some t =>
    by_cases hu : t.uid = u
    · have hg : gid' ≠ gid := hne.resolve_left fun h => h ((State.team?_uid ht).symm.trans hu)
      simp [hu, Team.group?_modGroup_other hf hg]
    · simp [hu]

theorem OnlyGroup.othersStay {s t : State} {u gid : Nat} {g : Group} (h : OnlyGroup s t u gid g) : OthersStay s t u gid := by
  obtain ⟨⟨f, hf, rfl⟩, -⟩ := h
  constructor
  · simp only [State.modGroup, State.modTeam, List.map_map]
    refine List.map_congr_left fun x _ => ?_
    by_cases hx : x.uid = u <;> simp [hx, Team.modGroup]
  · intro u' gid' hne
    rw [State.group?_modGroup_other hf hne]
    cases s.group? u' gid' with
    | none => trivial
    | some g => exact Group.OnlySleeps.refl g

/-- A completion within the group performs the instruction, as one that reaches memory does. -/
theorem View.Completes.performs {s t : State} {v w : View} {st : BitVec 10} {e : Eff} {g' : Group}
    (h : v.Completes s t w w e g') (hw : w.Wrote st e g') : v.Performs s t w Group.Ordered st e := by
  obtain ⟨honly, -, hready, hkeeps⟩ := h
  exact ⟨w, g', rfl, Group.Ordered.refl w.g, honly.2, hready, hkeeps, hw, honly.othersStay⟩

end Sys2Proof.Machine
end

section
/-!
SUPPORT. The sub-elements of a lane (R32, R61): each is a field of its bits, and together they are the lane. Then
the statement about them.
-/
namespace Sys2Proof.Machine

/-! ## Sub-elements of a lane (R32, R61) -/

/-- A sub-element is the field of bits that R61 names. -/
theorem subElem_eq_extractLsb' (w s : Nat) (x : Word) : subElem w s x = (x.extractLsb' (w * s) w).toNat := by
  rw [BitVec.extractLsb'_toNat, Nat.shiftRight_eq_div_pow]
  rfl

/-- `n` sub-elements packed from the `k`-th on are the `w * n` bits of the lane that start at it. -/
theorem packSubs_subElem (w : Nat) (x : Word) (n k : Nat) :
    packSubs w ((List.range n).map fun i => subElem w (k + i) x) = x.toNat / 2 ^ (w * k) % 2 ^ (w * n) := by
  induction n generalizing k with
  | zero => simp [packSubs, Nat.mod_one]
  | succ n ih =>
    have hrest : (fun i => subElem w (k + (i + 1)) x) = fun i => subElem w (k + 1 + i) x := by
      funext i
      rw [Nat.add_right_comm, Nat.add_assoc]
    rw [List.range_succ_eq_map, List.map_cons, List.map_map, packSubs, Nat.mod_eq_of_lt (subElem_lt w _ x)]
    simp only [Function.comp_def, Nat.succ_eq_add_one]
    rw [hrest, ih]
    calc subElem w (k + 0) x + 2 ^ w * (x.toNat / 2 ^ (w * (k + 1)) % 2 ^ (w * n))
        = x.toNat / 2 ^ (w * k) % 2 ^ w + 2 ^ w * (x.toNat / 2 ^ (w * k) / 2 ^ w % 2 ^ (w * n)) := by
          rw [Nat.mul_succ, Nat.pow_add, Nat.div_div_eq_div_mul]; rfl
      _ = x.toNat / 2 ^ (w * k) % (2 ^ w * 2 ^ (w * n)) := (Nat.mod_mul).symm
      _ = x.toNat / 2 ^ (w * k) % 2 ^ (w * (n + 1)) := by rw [← Nat.pow_add, Nat.mul_succ, Nat.add_comm]

/-- A width that divides the lane loses no bit of it. -/
theorem laneOfSubs_subElem {w n : Nat} (h : n * w = 64) (x : Word) :
    laneOfSubs w ((List.range n).map fun i => subElem w i x) = x := by
  have hall := packSubs_subElem w x n 0
  simp only [Nat.zero_add, Nat.mul_zero, Nat.pow_zero, Nat.div_one] at hall
  rw [laneOfSubs, hall, Nat.mul_comm w n, h, Nat.mod_eq_of_lt x.isLt, BitVec.ofNat_toNat, BitVec.setWidth_eq]

theorem tyWidth_divides_lane (t : ETy) : 64 / tyWidth t * tyWidth t = 64 := by cases t <;> decide

/-- Settles O4: the widths type by type, the place of a sub-element as a shift and a cut, and the lane by induction on the
number of sub-elements put together. -/
theorem subElementsDivideLanes : Obligations.SubElementsDivideLanes := by
  refine ⟨fun t => ⟨tyWidth_divides_lane t, ?_⟩, subElem_eq_extractLsb', fun t x => laneOfSubs_subElem (tyWidth_divides_lane t) x⟩
  cases t <;> rfl

end Sys2Proof.Machine
end

section
/-!
SUPPORT. The clock of a core as SRD of CYC reads it (R47, R180), and the statement about it.
-/
namespace Sys2Proof.Machine

/-! ## SRD of CYC (R47, R180) -/

/-- Nothing but one group of a state changed, so the clocks of the cores and the step's number stand. -/
theorem OnlyGroup.cycNow {s t : State} {u gid : Nat} {g : Group} (h : OnlyGroup s t u gid g) (core : Nat) :
    t.cycNow core = s.cycNow core := by
  obtain ⟨⟨f, -, rfl⟩, -⟩ := h
  rfl

theorem OnlyGroup.cyc {s t : State} {u gid : Nat} {g : Group} (h : OnlyGroup s t u gid g) : t.cyc = s.cyc := by
  obtain ⟨⟨f, -, rfl⟩, -⟩ := h
  exact State.modGroup_cyc s u gid f

/-- A core's clock is read. -/
def State.readCyc (s : State) (core : Nat) : State := { s with cyc := assocSet s.cyc core (s.cycNow core) }

theorem State.cyc_readCyc (s : State) (core c : Nat) :
    assocGet 0 (s.readCyc core).cyc c = if core = c then s.cycNow core else assocGet 0 s.cyc c :=
  assocGet_assocSet 0 s.cyc core c (s.cycNow core)

/-- A completion leaves the clocks that its instruction has set. -/
theorem View.finish_readCyc {v : View} {t : State} {st : BitVec 10} {e : Eff} (core : Nat) (h : v.finish st e = .next t) :
    ({ v with s := v.s.readCyc core } : View).finish st e = .next (t.readCyc core) := by
  cases h
  rfl

/-- SRD of CYC where nothing stops it: the clock is read, and the register takes it. -/
theorem exec_srd_cyc {s : State} {v : View} {d : BitVec 7} (hc : (cycForm d).CanIssue s v) :
    exec (.srd d 9) s =
      ({ (cycForm d).issued v with s := ((cycForm d).issued v).s.readCyc v.core } : View).finish
        (((cycForm d).issued v).metBits 0 [opSw d.toNat])
        { sw := [(d.toNat, ((cycForm d).issued v).s.cycNow v.core)] } := by
  obtain ⟨hissuer, -, -, hcan⟩ := hc
  have hexec : exec (.srd d 9) s = withIssuer s (cycForm d).words (bodySrd d.toNat 9) := rfl
  have hpriv : (if v.svc && decide (16 ≤ 9) then some 0x05 else none : Option Nat) = none := by simp
  rw [hexec, withIssuer_some _ hissuer]
  unfold bodySrd
  rw [if_neg (by decide), hpriv]
  exact View.issue_canIssue _ hcan

/-- Settles O22: the clock that was read is set aside, the completion of the rest is that of any instruction that ends in its
group, and no clock but the core's was set. -/
theorem srdReadsCyc : Obligations.SrdReadsCyc := by
  intro s v d hc
  have hafter := Form.issued_after hc
  have hstart := View.After.start (dv := fun _ _ => false) (kv := fun _ _ => false) (ds := fun _ _ => false)
    (dm := fun _ _ => false) hc.1 hc.2.1
  have hends : View.Ends s v ((cycForm d).issued v) ((cycForm d).issued v) :=
    View.Ends.same hafter ((View.inTurn_iff v).mp hc.2.1).1 fun h4 => by
      rw [hafter.handler hstart]
      exact State.issuer?_handler hc.1 h4
  obtain ⟨t, g', hfin, hcomp, hwrote⟩ := hends.finish (((cycForm d).issued v).metBits 0 [opSw d.toNat])
    (Eff.plain_s d.toNat (s.cycNow v.core) v.fl)
  refine ⟨t.readCyc v.core, ?_, hcomp.performs hwrote, ?_, fun c hne => ?_, hcomp.2.1⟩
  · rw [exec_srd_cyc hc, hafter.only.cycNow v.core]
    exact View.finish_readCyc v.core hfin
  · exact (t.cyc_readCyc v.core v.core).trans (by rw [if_pos rfl]; exact hcomp.1.cycNow v.core)
  · rw [State.cyc_readCyc, if_neg hne.symm, hcomp.1.cyc]

end Sys2Proof.Machine
end

section
/-!
SUPPORT. The sleep of a ray command that binds slots (R339, R342): what the bound rays say of the operands captured, and
the statement that the sleeps end.
-/
namespace Sys2Proof.Machine

/-! ## The rays that RTRACE binds (R339, R342) -/

/-- Each operand gives two dwords of a lane. -/
theorem length_flatMap_pairs {α β : Type} (lo hi : α → β) (vs : List α) :
    (vs.flatMap fun a => [lo a, hi a]).length = 2 * vs.length := by
  induction vs with
  | nil => rfl
  | cons a vs ih =>
    rw [List.flatMap_cons, List.length_append, ih, List.length_cons, List.length_cons, List.length_cons, List.length_nil]
    omega

/-- A ray has eight world dwords, so rays that hold the captured operands as `BoundRays` says have four of these. -/
theorem BoundRays.four_operands {i : Item} {g : Group} {accept : Mask} {outs : Vector (Option RayOut) 32} {n l : Nat}
    {suspend : Bool} (hi : i.work = .ray .trace accept outs n suspend) (hl : l < 32) (he : i.eff.getLsbD l = true)
    (h : BoundRays i g) : i.vs.length = 4 := by
  unfold BoundRays at h
  rw [hi] at h
  obtain ⟨r, -, -, -, -, -, -, -, hworld⟩ := h l hl he
  have hlen := congrArg List.length hworld
  rw [List.length_map, Vector.length_toList, length_flatMap_pairs] at hlen
  omega

/-- An RTRACE of lane 0 of which no operand was captured. R342 captures four, and the model's RTRACE does so, but the type of an
item does not say it. -/
def bareTrace : Item :=
  { id := 0, ctx := 0, core := 0, party := ⟨0, 0, 0, 0⟩, flow := 0, lanes := 1, tok := 0, eff := 1, sa := 0, sb := 0, vs := [],
    d := 0, outs := [], drop := [], dropM := false, clk := [], waits := [], work := .ray .trace 0 noOuts 0 false }

/-- A team of one group whose one lane waits for a slot for it, alone and with every slot free. -/
def bareTraceWaits : State :=
  { State.reset with
    teams := [{ placedTeam with
      groups := [(Group.atStart 0 0 128 0 0 1 0x900 0 0 (0, 0) 0x2000).setSleep 0 (.slots 0 bareTrace [])] }] }

/-- The wait is due to end: the flow sleeps in its turn, is first in line, one slot is enough, and no RED is outstanding. -/
theorem bareTraceWaits_due : ∃ v, bareTraceWaits.sleeps v 0 0 0 (.slots 0 bareTrace []) ∧
    bareTraceWaits.slotNeed { bareTrace with id := bareTraceWaits.nextId } ≤ bareTraceWaits.freeSlots v.core ∧
    v.redsOut = false :=
  ⟨_, ⟨rfl, by decide, by decide⟩, by decide, by decide⟩

/-- Refutes O50: it asks of each bound ray that its world dwords be those of the item's operands, whatever their number, and so in
`bareTraceWaits` that the eight dwords of the ray RAY_SLOT_BIND binds be an empty list. The statement takes any state; no RTRACE
leaves one like this, and a hypothesis that the waiting item of an RTRACE has four operands would exclude it. -/
theorem not_sleepersWake : ¬ Obligations.SleepersWake := by
  intro h
  obtain ⟨v, hsleeps, hroom, hreds⟩ := bareTraceWaits_due
  obtain ⟨-, hg, -, hu, -⟩ := State.viewOf_some hsleeps.1
  obtain ⟨-, -, -, -, -, hslots, -⟩ := h _ v 0 0 0 _ hsleeps
  obtain ⟨hbinds, -⟩ := hslots 0 bareTrace [] rfl rfl rfl (fun k _ => k.zero_le) hroom hreds (fun h4 => absurd h4 (by decide))
  obtain ⟨t, -, -, ⟨-, g', -, -, hg', -⟩, hrays, -⟩ := hbinds rfl
  rw [hu, State.group?_gid hg] at hg'
  have hfour : bareTrace.vs.length = 4 :=
    (hrays g' hg').four_operands (i := { bareTrace with id := bareTraceWaits.nextId }) (l := 0) rfl (by decide) (by decide)
  exact absurd hfour (by decide)

end Sys2Proof.Machine
end

section
/-!
SUPPORT. What KILL handlers refuse (R86, R228): the instructions of opcodes 0x68 to 0x77 all issue through
`View.engineIssue`, and the statement that in a KILL handler each is a double fault.
-/
namespace Sys2Proof.Machine

/-! ## Engine instructions in a KILL handler (R86, R220, R228) -/

/-- A KILL handler is a handler. -/
theorem View.svc_of_inKill {v : View} (h : v.inKill = true) : v.svc = false := by
  unfold View.inKill at h
  simpa using (Bool.and_eq_true_iff.mp h).1

/-- A precise trap of handler mode is a double fault (R220). -/
theorem View.trap_handler {v : View} (h : v.svc = false) (st : BitVec 10) (cause : Nat) (hinfo : Word) :
    v.trap st cause hinfo = .next (v.s.doubleFault v.u v.g.gid cause v.back hinfo) := by
  unfold View.trap View.trapTo
  rw [if_neg (by rw [h]; decide)]

/-- The issue of an engine instruction looks at the handler before it looks at any operand (R228; cause and HINFO: log 25). -/
theorem View.engineIssue_inKill {v : View} (h : v.inKill = true) (eff : Mask) (ops : List Opnd)
    (body : View → BitVec 10 → Out) :
    v.engineIssue eff ops body = .next (v.s.doubleFault v.u v.g.gid 0x51 v.back 0) := by
  unfold View.engineIssue
  rw [if_pos h, View.trap_handler (View.svc_of_inKill h)]

/-- An instruction of two words whose meaning is the issue of an engine instruction, in every state: with some lanes, some
operands and some effect, which a KILL handler never reaches. -/
def EngineIssued (i : Instr) : Prop :=
  ∃ (eff : View → Mask) (ops : View → List Opnd) (body : View → View → BitVec 10 → Out),
    ∀ s, exec i s = withIssuer s 2 fun v => v.engineIssue (eff v) (ops v) (body v)

theorem EngineIssued.doubleFault {i : Instr} (h : EngineIssued i) {s : State} {v : View} (hv : s.issuer? 2 = some v)
    (hk : v.inKill = true) : exec i s = .next (v.s.doubleFault v.u v.g.gid 0x51 v.back 0) := by
  obtain ⟨eff, ops, body, hexec⟩ := h
  rw [hexec, withIssuer_some _ hv]
  exact View.engineIssue_inKill hk _ _ _

/-- HLD under either policy. -/
theorem engineIssued_hld (d : BitVec 7) (sa tok : BitVec 6) (age : BitVec 4) (filter : HFilter) (fault short : Bool)
    (mm cm1 : BitVec 4) (vc vp : BitVec 7) (lp : Bool) :
    EngineIssued (.hld d sa tok age filter fault short mm cm1 vc vp lp) :=
  ⟨_, _, _, fun _ => rfl⟩

theorem engineIssued_cinit (d : BitVec 7) (sa sb tok : BitVec 6) (sp : Bool) (va : BitVec 7) (lv : Bool) :
    EngineIssued (.cinit d sa sb tok sp va lv) :=
  ⟨_, _, _, fun _ => rfl⟩

/-! Each arm of the five tables names an instruction that issues so by its definition; the last arm of each has no form. -/

theorem engineIssued_of_commandForms {i : Instr} (h : (commandForms i).isSome) : EngineIssued i := by
  unfold commandForms at h
  split at h
  case h_21 => cases h
  all_goals exact ⟨_, _, _, fun _ => rfl⟩

theorem engineIssued_of_engineForms {i : Instr} (h : (engineForms i).isSome) : EngineIssued i := by
  unfold engineForms at h
  split at h
  case h_6 => cases h
  all_goals exact ⟨_, _, _, fun _ => rfl⟩

theorem engineIssued_of_graphForms {i : Instr} (h : (graphForms i).isSome) : EngineIssued i := by
  unfold graphForms at h
  split at h
  case h_4 => cases h
  all_goals exact ⟨_, _, _, fun _ => rfl⟩

theorem engineIssued_of_rayForms {i : Instr} (h : (rayForms i).isSome) : EngineIssued i := by
  unfold rayForms at h
  split at h
  case h_3 => cases h
  all_goals exact ⟨_, _, _, fun _ => rfl⟩

theorem engineIssued_of_dlaunchForms {i : Instr} (h : (dlaunchForms i).isSome) : EngineIssued i := by
  unfold dlaunchForms at h
  split at h
  case h_3 => cases h
  all_goals exact ⟨_, _, _, fun _ => rfl⟩

/-- Settles O45: whichever table names the instruction, its meaning is an engine issue, and that in a KILL handler is a trap of
handler mode. -/
theorem killHandlersPostNothing : Obligations.KillHandlersPostNothing := by
  intro i s v hv _ hk hi
  suffices h : EngineIssued i from h.doubleFault hv hk
  obtain h | h | h | h | h | ⟨d, sa, tok, age, filter, short, mm, cm1, vc, vp, lp, rfl⟩ | ⟨d, sa, sb, tok, sp, va, lv, rfl⟩ := hi
  · exact engineIssued_of_commandForms h
  · exact engineIssued_of_engineForms h
  · exact engineIssued_of_graphForms h
  · exact engineIssued_of_rayForms h
  · exact engineIssued_of_dlaunchForms h
  · exact engineIssued_hld ..
  · exact engineIssued_cinit ..

end Sys2Proof.Machine
end

section
/-!
SUPPORT. Operations on sub-elements against their rules (R96 to R98, R118 to R127), and the forms of the vector, division and
special-function instructions: each table's instructions mean what the table says (`Form.Means`), so they run and raise FPX
as their forms state.
-/
namespace Sys2Proof.Machine

/-! ## Operations that follow their rules -/

/-- On the types that it takes, an operation answers as its rule. -/
def SubOp.Follows (ok : ETy → Bool) (op rule : SubOp) : Prop :=
  ∀ t rm sat a b d, ok t = true → a < 2 ^ tyWidth t → b < 2 ^ tyWidth t → d < 2 ^ tyWidth t →
    op t rm sat a b d = rule t rm sat a b d

theorem numOp_follows (ok : ETy → Bool) (fi : Int → Int → Int → Int) (ff : FFmt → RMode → FVal → FVal → FVal → Nat × Flags) :
    SubOp.Follows ok (numOp fi ff) (ruleNum fi ff) :=
  fun t rm sat a b d _ ha hb hd => numOp_eq fi ff t rm sat a b d ha hb hd

theorem opMinMax_follows (isMax : Bool) : SubOp.Follows okArith (opMinMax isMax) (ruleMinMax isMax) :=
  fun t rm sat a b d _ ha hb _ => minmax_eq isMax t rm sat a b d ha hb

/-- Floor division by a power of two and the division of the rule are one. -/
theorem opMulh_follows : SubOp.Follows okInt opMulh ruleMulh := by
  intro t rm sat a b d _ ha hb _
  unfold opMulh ruleMulh
  dsimp only
  rw [wrapInt_eq, intVal_eq t ha, intVal_eq t hb, Int.fdiv_eq_ediv_of_nonneg _ (Int.natCast_nonneg _)]
  push_cast
  rfl

theorem opBits_follows {f : Nat → Nat → Nat} {g : (w : Nat) → BitVec w → BitVec w → BitVec w}
    (h : ∀ w (x y : BitVec w), (g w x y).toNat = f x.toNat y.toNat) : SubOp.Follows okArith (opBits f) (ruleBitwise g) :=
  fun t _ _ _ _ _ _ ha hb _ => Prod.ext (bits_eq (tyWidth t) f (g (tyWidth t)) (h _) ha hb) rfl

theorem opShl_follows : SubOp.Follows okArith opShl (ruleShl fun b w => b % w) :=
  fun t _ _ a b _ _ _ _ _ => Prod.ext (shl_eq t (b % tyWidth t) a) rfl

theorem opShr_follows : SubOp.Follows okArith opShr (ruleShr fun b w => b % w) :=
  fun t _ _ _ b _ _ ha _ _ => Prod.ext (shr_eq t (b % tyWidth t) ha) rfl

theorem opBfx_follows : SubOp.Follows okInt opBfx ruleBfx :=
  fun t rm sat a b d _ ha _ _ => bfx_eq t rm sat a b d ha

theorem opBfi_follows : SubOp.Follows okInt opBfi ruleBfi :=
  fun t rm sat a b d _ ha _ hd => bfi_eq t rm sat a b d ha hd

theorem opDiv_follows : SubOp.Follows okArith opDiv ruleDiv := by
  intro t rm sat a b d _ ha hb _
  unfold opDiv ruleDiv
  cases tyFmt t with
  | some F => rfl
  | none => dsimp only; rw [intVal_eq t ha, intVal_eq t hb, wrapInt_eq]; rfl

/-- The remainder that the model takes is A − q·B. -/
theorem opRem_follows : SubOp.Follows okInt opRem ruleRem := by
  intro t rm sat a b d _ ha hb _
  unfold opRem ruleRem
  dsimp only
  rw [intVal_eq t ha, intVal_eq t hb, wrapInt_eq, Int.tmod_def, Int.mul_comm]
  rfl

/-- The same of operations of one operand. -/
def SubOp.FollowsOne (ok : ETy → Bool) (op rule : SubOp) : Prop :=
  ∀ t rm sat a, ok t = true → a < 2 ^ tyWidth t → op t rm sat a 0 0 = rule t rm sat a 0 0

/-- A meaning of one vector source has its form when its operation follows the rule. -/
theorem Form.means_vector1_of_follows {i : Instr} {d : BitVec 7} {a : VSrc} {ok ok' : ETy → Bool} {op rule : SubOp}
    (hok : ∀ t, ok t = ok' t) (hop : SubOp.FollowsOne ok op rule)
    (h : ∀ s, exec i s = withIssuer s 1 fun v => v.vec1 d.toNat (vsrc a) ok op) :
    ∃ body, (Form.vector1 d a ok' rule).Means i body := Form.means_vector1 hok hop h

theorem SubOp.FollowsOne.refl (ok : ETy → Bool) (op : SubOp) : SubOp.FollowsOne ok op op := fun _ _ _ _ _ _ => rfl

/-- VADDI and VMULI take the immediate as the exact integer (R122). -/
theorem opImm_follows (isMul : Bool) (k : BitVec 9) :
    SubOp.FollowsOne okArith (opImm isMul k)
      (ruleImm (fun x k => if isMul then x * k else x + k) (if isMul then fMul else fAdd) k) := by
  intro t rm sat a _ ha
  unfold opImm ruleImm imm9
  cases tyFmt t with
  | some F => cases isMul <;> rfl
  | none => dsimp only; rw [deliver_eq, intVal_eq t ha]

theorem shlImm_follows (n : Nat) :
    SubOp.FollowsOne okArith (fun t rm sat x _ z => opShl t rm sat x n z) (ruleShl fun _ w => n % w) :=
  fun t _ _ a _ _ => Prod.ext (shl_eq t (n % tyWidth t) a) rfl

theorem shrImm_follows (n : Nat) :
    SubOp.FollowsOne okArith (fun t rm sat x _ z => opShr t rm sat x n z) (ruleShr fun _ w => n % w) :=
  fun t _ _ _ _ ha => Prod.ext (shr_eq t (n % tyWidth t) ha) rfl

theorem andImm_follows (k : Int) :
    SubOp.FollowsOne okArith (fun t _ _ x _ _ => (x &&& wrapInt (tyWidth t) k, flNone))
      (fun t _ _ x _ _ => ((BitVec.ofNat (tyWidth t) x &&& BitVec.ofInt (tyWidth t) k).toNat, 0)) := by
  intro t rm sat a _ ha
  dsimp only
  rw [wrapInt_eq, BitVec.toNat_and, BitVec.toNat_ofNat, Nat.mod_eq_of_lt ha]
  rfl

/-- The format of a float type has the type's width. -/
theorem fmt_width {t : ETy} {F : FFmt} (h : tyFmt t = some F) : F.w = tyWidth t := by
  cases t <;> cases h <;> rfl

/-- The magnitude bits of a float with its sign bit set. -/
theorem mod_signBit {t : ETy} {F : FFmt} (h : tyFmt t = some F) {a : Nat} (ha : a < 2 ^ tyWidth t) (hs : 2 ^ (F.w - 1) ≤ a) :
    a % 2 ^ (F.w - 1) = a - 2 ^ (F.w - 1) := by
  have hp : 2 ^ tyWidth t = 2 * 2 ^ (F.w - 1) := by rw [fmt_width h]; cases t <;> decide
  rw [Nat.mod_eq_sub_mod hs, Nat.mod_eq_of_lt (by omega)]

theorem opNeg_follows : SubOp.FollowsOne okArith opNeg (ruleSign (fun x => -x) false) := by
  intro t rm sat a _ ha
  have h0 := Nat.two_pow_pos (tyWidth t)
  unfold opNeg ruleSign
  cases ht : tyFmt t with
  | none => dsimp only; rw [numOp_eq _ _ t rm sat a 0 0 ha h0 h0, ruleNum, ht]
  | some F =>
    dsimp only
    by_cases hs : a < 2 ^ (F.w - 1)
    · rw [if_pos hs, if_pos hs, Nat.mod_eq_of_lt hs]; rfl
    · rw [if_neg hs, if_neg hs, mod_signBit ht ha (Nat.le_of_not_lt hs)]; rfl

theorem opAbs_follows : SubOp.FollowsOne okArith opAbs (ruleSign (fun x => (x.natAbs : Int)) true) := by
  intro t rm sat a _ ha
  have h0 := Nat.two_pow_pos (tyWidth t)
  unfold opAbs ruleSign
  cases ht : tyFmt t with
  | none => dsimp only; rw [numOp_eq _ _ t rm sat a 0 0 ha h0 h0, ruleNum, ht]
  | some F => rfl

theorem opPopc_follows : SubOp.FollowsOne okInt opPopc rulePopc :=
  fun t _ _ a _ _ => Prod.ext (popc_eq (tyWidth t) a) rfl

theorem opClz_follows : SubOp.FollowsOne okInt opClz ruleClz :=
  fun t _ _ a _ ha => Prod.ext (clz_eq (tyWidth t) a ha (Nat.pos_of_ne_zero (tyWidth_ne t))) rfl

/-! ## Each table's instructions have their forms -/

theorem means_of_vectorForms {i : Instr} {F : Form} (h : vectorForms i = some F) : ∃ body, F.Means i body := by
  unfold vectorForms at h
  split at h <;> cases h
  · exact Form.means_vector3 okArith_eq (numOp_follows _ _ _) fun _ => rfl
  · exact Form.means_vector3 okArith_eq (numOp_follows _ _ _) fun _ => rfl
  · exact Form.means_vector3 okArith_eq (numOp_follows _ _ _) fun _ => rfl
  · exact Form.means_vector3 okInt_eq opMulh_follows fun _ => rfl
  · exact Form.means_vector3 okArith_eq (numOp_follows _ _ _) fun _ => rfl
  · exact Form.means_vector3 okArith_eq (numOp_follows _ _ _) fun _ => rfl
  · exact Form.means_vector3 okArith_eq (opMinMax_follows false) fun _ => rfl
  · exact Form.means_vector3 okArith_eq (opMinMax_follows true) fun _ => rfl
  · exact Form.means_vector3 okArith_eq (opBits_follows fun _ => BitVec.toNat_and) fun _ => rfl
  · exact Form.means_vector3 okArith_eq (opBits_follows fun _ => BitVec.toNat_or) fun _ => rfl
  · exact Form.means_vector3 okArith_eq (opBits_follows fun _ => BitVec.toNat_xor) fun _ => rfl
  · exact Form.means_vector3 okArith_eq opShl_follows fun _ => rfl
  · exact Form.means_vector3 okArith_eq opShr_follows fun _ => rfl
  · exact Form.means_vector3 okArith_eq (numOp_follows _ _ _) fun _ => rfl
  · exact Form.means_vector3 okInt_eq opBfx_follows fun _ => rfl
  · exact Form.means_vector3 okInt_eq opBfi_follows fun _ => rfl
  · exact Form.means_vector3 okArith_eq (numOp_follows _ _ _) fun _ => rfl

theorem means_of_unaryForms {i : Instr} {F : Form} (h : unaryForms i = some F) : ∃ body, F.Means i body := by
  unfold unaryForms at h
  split at h <;> cases h
  · exact Form.means_vector1_of_follows okArith_eq (opImm_follows false _) fun _ => rfl
  · exact Form.means_vector1_of_follows okArith_eq (opImm_follows true _) fun _ => rfl
  · exact Form.means_vector1_of_follows okArith_eq (shlImm_follows _) fun _ => rfl
  · exact Form.means_vector1_of_follows okArith_eq (shrImm_follows _) fun _ => rfl
  · exact Form.means_vector1_of_follows okArith_eq (andImm_follows _) fun _ => rfl
  · exact Form.means_vector1_of_follows (fun _ => rfl) (SubOp.FollowsOne.refl _ _) fun _ => rfl
  · exact Form.means_vector1_of_follows okArith_eq opNeg_follows fun _ => rfl
  · exact Form.means_vector1_of_follows okArith_eq opAbs_follows fun _ => rfl
  · exact Form.means_vector1_of_follows okInt_eq opPopc_follows fun _ => rfl
  · exact Form.means_vector1_of_follows okInt_eq opClz_follows fun _ => rfl
  · exact Form.means_vector1_of_follows okFloat_eq (SubOp.FollowsOne.refl _ _) fun _ => rfl
  · exact Form.means_vector1_of_follows okFloat_eq (SubOp.FollowsOne.refl _ _) fun _ => rfl

theorem vdiv_means (d : BitVec 7) (a b : VSrc) (n : BitVec 4) :
    ∃ body, (Form.later2 d a b n arithType ruleDiv).Means (.vdiv d a b n) body :=
  Form.means_later2 okArith_eq opDiv_follows fun _ => rfl

theorem vrem_means (d : BitVec 7) (a b : VSrc) (n : BitVec 4) :
    ∃ body, (Form.later2 d a b n intType ruleRem).Means (.vrem d a b n) body :=
  Form.means_later2 okInt_eq opRem_follows fun _ => rfl

theorem means_of_laterForms {i : Instr} {F : Form} (h : laterForms i = some F) : ∃ body, F.Means i body := by
  unfold laterForms at h
  split at h <;> cases h
  case h_1 => exact vdiv_means ..
  case h_2 => exact vrem_means ..
  all_goals exact Form.means_later1 fun _ => rfl

end Sys2Proof.Machine
end

section
/-!
SUPPORT. Integer division on the values of sub-elements (R96, R98): the range of a type, when an integer is the value of its own
low bits, where quotients and remainders lie, and the statement about VDIV and VREM.
-/
namespace Sys2Proof.Machine

/-! ## Values and their bits (R96) -/

theorem natCast_two_pow (w : Nat) : ((2 ^ w : Nat) : Int) = 2 ^ w := Int.natCast_pow 2 w

theorem two_pow_tyWidth (t : ETy) : (2 : Int) ^ tyWidth t = 2 * 2 ^ (tyWidth t - 1) := by
  cases t <;> rfl

theorem tyFmt_of_intType {t : ETy} (h : intType t = true) : tyFmt t = none := by
  revert h
  cases t <;> decide

/-- A sub-element is the low bits of its value. -/
theorem ruleBits_ruleVal (t : ETy) {x : Nat} (hx : x < 2 ^ tyWidth t) : ruleBits t (ruleVal t x) = x := by
  unfold ruleBits ruleVal
  split
  · rw [BitVec.ofInt_toInt, BitVec.toNat_ofNat, Nat.mod_eq_of_lt hx]
  · rw [BitVec.ofInt_natCast, BitVec.toNat_ofNat, BitVec.toNat_ofNat, Nat.mod_mod, Nat.mod_eq_of_lt hx]

/-- An integer within the range of a type is the value of its low bits. -/
theorem ruleVal_ruleBits (t : ETy) {n : Int} (hmin : ruleMin t ≤ n) (hmax : n ≤ ruleMax t) : ruleVal t (ruleBits t n) = n := by
  unfold ruleBits ruleVal
  unfold ruleMin at hmin
  unfold ruleMax at hmax
  rw [BitVec.ofNat_toNat, BitVec.setWidth_eq]
  split at hmin
  case isTrue hs =>
    rw [if_pos hs] at hmax ⊢
    exact BitVec.toInt_ofInt_eq_self (Nat.pos_of_ne_zero (tyWidth_ne t)) hmin (by omega)
  case isFalse hs =>
    rw [if_neg hs] at hmax ⊢
    rw [BitVec.toNat_ofInt, natCast_two_pow, Int.emod_eq_of_lt hmin (by omega), Int.toNat_of_nonneg hmin]

/-- The value of a sub-element lies in the range of its type. -/
theorem ruleVal_mem_range (t : ETy) (x : Nat) : ruleMin t ≤ ruleVal t x ∧ ruleVal t x ≤ ruleMax t := by
  unfold ruleMin ruleMax ruleVal
  split
  · exact ⟨BitVec.le_toInt _, Int.le_sub_one_of_lt BitVec.toInt_lt⟩
  · have h := Int.ofNat_lt.mpr (BitVec.ofNat (tyWidth t) x).isLt
    rw [natCast_two_pow] at h
    exact ⟨Int.natCast_nonneg _, Int.le_sub_one_of_lt h⟩

theorem ruleMin_nonpos (t : ETy) : ruleMin t ≤ 0 := by cases t <;> decide

theorem ruleMax_nonneg (t : ETy) : 0 ≤ ruleMax t := by cases t <;> decide

/-- Negated, the smallest i value has its own bits (R98). -/
theorem ruleBits_neg_ruleMin {t : ETy} (h : tySigned t = true) : ruleBits t (-ruleMin t) = ruleBits t (ruleMin t) := by
  have hneg : -ruleMin t = ruleMin t + (2 ^ tyWidth t : Nat) := by
    unfold ruleMin
    rw [if_pos h, natCast_two_pow, two_pow_tyWidth]
    omega
  unfold ruleBits
  rw [hneg, BitVec.toNat_ofInt, BitVec.toNat_ofInt, Int.add_emod_right]

/-! ## Where quotients and remainders lie -/

/-- A quotient of integers keeps below a bound that the dividend keeps, but for the least dividend over −1. -/
theorem tdiv_lt_of_mem_range {a b m : Int} (hlo : -m ≤ a) (hhi : a < m) (hb : b ≠ 0) (hc : ¬(a = -m ∧ b = -1)) :
    a.tdiv b < m := by
  rcases Nat.lt_or_ge b.natAbs 2 with h | h
  · obtain rfl | rfl : b = 1 ∨ b = -1 := by omega
    · rw [Int.tdiv_one]; exact hhi
    · rw [Int.tdiv_neg, Int.tdiv_one]; omega
  · have hq : (a.tdiv b).natAbs ≤ a.natAbs / 2 := by
      rw [Int.natAbs_tdiv]
      exact Nat.div_le_div_left h (by decide)
    omega

/-- The quotient of R98 lies in the range of the type, but for its smallest value over −1. -/
theorem tdiv_mem_range (t : ETy) (x y : Nat) (hy : ruleVal t y ≠ 0)
    (hc : ¬(tySigned t = true ∧ ruleVal t x = ruleMin t ∧ ruleVal t y = -1)) :
    ruleMin t ≤ (ruleVal t x).tdiv (ruleVal t y) ∧ (ruleVal t x).tdiv (ruleVal t y) ≤ ruleMax t := by
  obtain ⟨hx0, hx1⟩ := ruleVal_mem_range t x
  obtain ⟨hy0, -⟩ := ruleVal_mem_range t y
  have habs := Int.natAbs_tdiv_le_natAbs (ruleVal t x) (ruleVal t y)
  unfold ruleMin at hx0 hy0 hc ⊢
  unfold ruleMax at hx1 ⊢
  split at hx0
  case isTrue hs =>
    simp only [hs, if_true, true_and] at hx1 hc ⊢
    have hlt := tdiv_lt_of_mem_range hx0 (by omega) hy hc
    omega
  case isFalse hs =>
    simp only [if_neg hs] at hx1 hy0 ⊢
    exact ⟨Int.tdiv_nonneg hx0 hy0, Int.le_trans (Int.tdiv_le_self _ hx0) hx1⟩

/-- A remainder lies between zero and the dividend, so in every range that holds both. -/
theorem tmod_mem_range {a b lo hi : Int} (hlo : lo ≤ a) (hhi : a ≤ hi) (h0 : lo ≤ 0) (h1 : 0 ≤ hi) :
    lo ≤ a.tmod b ∧ a.tmod b ≤ hi := by
  have habs : (a.tmod b).natAbs ≤ a.natAbs := by
    rw [Int.natAbs_tmod]
    exact Nat.mod_le _ _
  rcases Int.le_total 0 a with ha | ha
  · have := Int.tmod_nonneg b ha
    omega
  · have := Int.tmod_nonneg b (Int.neg_nonneg_of_nonpos ha)
    rw [Int.neg_tmod] at this
    omega

/-! ## VDIV and VREM on integers (R98) -/

/-- The results of the two rules on an integer type, with no flag. -/
theorem ruleDiv_int {t : ETy} (h : intType t = true) (rm : RMode) (sat : Bool) (x y z : Nat) :
    ruleDiv t rm sat x y z =
      (if ruleVal t y = 0 then 2 ^ tyWidth t - 1 else ruleBits t ((ruleVal t x).tdiv (ruleVal t y)), 0) := by
  unfold ruleDiv
  rw [tyFmt_of_intType h]

theorem ruleRem_eq_tmod (t : ETy) (rm : RMode) (sat : Bool) (x y z : Nat) :
    ruleRem t rm sat x y z =
      (if ruleVal t y = 0 then x else ruleBits t ((ruleVal t x).tmod (ruleVal t y)), 0) := by
  unfold ruleRem
  rw [Int.tmod_def, Int.mul_comm]

/-- Settles O13: the two instructions have their forms; a quotient or remainder in the range of its type is the value of its low
bits, and the one quotient out of range, 2^(w−1), has the bits of the smallest value. -/
theorem integerDivision : Obligations.IntegerDivision := by
  refine ⟨fun d a b n => ⟨?_, ?_⟩, fun t rm sat x y z ht hx hy => ?_⟩
  · obtain ⟨_, h⟩ := vdiv_means d a b n
    exact h.runs
  · obtain ⟨_, h⟩ := vrem_means d a b n
    exact h.runs
  rw [ruleDiv_int ht, ruleRem_eq_tmod]
  refine ⟨rfl, rfl, fun h0 => ⟨if_pos h0, if_pos h0⟩, fun hs hmin hneg => ?_, fun h0 hc => ?_⟩
  · have h0 : ruleVal t y ≠ 0 := by omega
    dsimp only
    rw [if_neg h0, if_neg h0, hneg, Int.tdiv_neg, Int.tdiv_one, Int.tmod_neg, Int.tmod_one, hmin, ruleBits_neg_ruleMin hs, ← hmin,
      ruleBits_ruleVal t hx]
    exact ⟨rfl, by simp [ruleBits]⟩
  · obtain ⟨hx0, hx1⟩ := ruleVal_mem_range t x
    obtain ⟨hq0, hq1⟩ := tdiv_mem_range t x y h0 hc
    obtain ⟨hr0, hr1⟩ := tmod_mem_range (b := ruleVal t y) hx0 hx1 (ruleMin_nonpos t) (ruleMax_nonneg t)
    dsimp only
    rw [if_neg h0, if_neg h0, ruleVal_ruleBits t hq0 hq1, ruleVal_ruleBits t hr0 hr1, Int.tmod_def, Int.mul_comm]
    exact ⟨rfl, rfl⟩

end Sys2Proof.Machine
end

section
/-!
SUPPORT. FPX (R107, R216): the forms of conversions, reductions and scans, the forms that raise no flag, and the statement that
an enabled float flag traps before anything is written.
-/
namespace Sys2Proof.Machine

/-! ## Conversions, reductions and scans have their forms -/

/-- An instruction that writes what trees over the EFFMASK lanes give has its form. -/
theorem Form.means_tree {i : Instr} {d : BitVec 7} {a : VSrc} {o : ROp} {f : View → Nat → Word × Flags}
    {g : View → View → Nat → Word × Flags}
    (hf : ∀ v w : View, v.Alike w → redType o w.et = true → ∀ l, g v w l = f w l)
    (h : ∀ s, exec i s = withIssuer s 1 fun v =>
      v.issue none (!okRed o v.et) (v.eff false) [opWr d.toNat, opRd a.reg.toNat] fun w st =>
        w.laneWrite st d.toNat (v.eff false) (killsOf (v.eff false) [vsrc a]) (g v w)) :
    ∃ body, (Form.lanewise d [opRd a.reg.toNat] (redType o) (fun w => lastUse a (w.eff false)) f).Means i body :=
  Form.means_lanewise (okRed_eq o) (fun v w ha => by rw [killsOf_one, ha.eff])
    (fun v w ha hok l _ => hf v w ha (by rw [ha.et, ← okRed_eq]; exact hok) l) h

/-- XRED: one tree over all elements (R141). -/
theorem xred_means (d : BitVec 7) (a : VSrc) (o : ROp) :
    ∃ body, (Form.lanewise d [opRd a.reg.toNat] (redType o) (fun w => lastUse a (w.eff false))
      fun w _ => redLane w o a.reg.toNat).Means (.xred d a o) body := by
  refine Form.means_tree (fun v w ha hok _ => ?_) fun _ => rfl
  rw [← ha.eff]
  exact redLane_eq w o a.reg.toNat hok

/-- XSCAN: a tree for each index (R116, R142). -/
theorem xscan_means (d : BitVec 7) (a : VSrc) (o : ROp) (incl : Bool) :
    ∃ body, (Form.lanewise d [opRd a.reg.toNat] (redType o) (fun w => lastUse a (w.eff false))
      fun w l => scanLane w o incl a.reg.toNat l).Means (.xscan d a o incl) body := by
  refine Form.means_tree (fun v w ha hok l => ?_) fun _ => rfl
  rw [← ha.eff]
  exact scanLane_eq w o incl a.reg.toNat l hok

/-- An instruction that ends in `finishFlags` with the flags and the result of its form means what the form says. -/
theorem Form.Means.ofFinishFlags {F : Form} {i : Instr} {body : View → View → BitVec 10 → Out} (sets : F.sets = none)
    (plain : ∀ w, (F.result w).Plain w.fl)
    (meets : ∀ s, exec i s = withIssuer s F.words fun v =>
      v.issue (F.early v) (F.ill v) (F.reads v) (F.ops v) (body v))
    (hst : ∀ w, F.stat w = 0#10)
    (hb : ∀ s v, F.CanIssue s v → ∀ st, body v (F.issued v) st =
      (F.issued v).finishFlags st (F.flags (F.issued v)) (F.result (F.issued v))) : F.Means i body where
  sets := by simp [sets]
  plain := plain
  meets := meets
  body s v hc _ := by
    have hafter : F.after v = F.issued v := by unfold Form.after; rw [sets]
    rw [hb s v hc, hafter]
    unfold View.finishFlags Form.bits
    simp only [hst, BitVec.or_zero, bne_iff_ne, ne_eq, ite_not]

/-- The registers that VCVT writes, each lane with its flags, as the model computes them: `runs` counts the source and the
destination registers. -/
def View.cvtOuts (w : View) (m : Mask) (runs : Nat × Nat) (a : Src) (sty : ETy) (r : RMode) (sat : Bool) :
    List (Vector (Word × Flags) 32) :=
  (List.range runs.2).map fun j => Vector.ofFn fun (i : Fin 32) =>
    if m.getLsbD i.val then
      cvtLane sty w.et r sat (((List.range runs.1).map fun k => w.rdV (a.reg + k)).map fun x => lane x i.val) j
    else (0, 0)

/-- VCVT after its issue. -/
def View.cvtEnd (w : View) (st : BitVec 10) (d : Nat) (m : Mask) (runs : Nat × Nat) (a : Src) (sty : ETy) (r : RMode)
    (sat : Bool) : Out :=
  w.finishFlags st (Vector.ofFn fun (i : Fin 32) => (w.cvtOuts m runs a sty r sat).foldl (fun f o => f ||| o[i.val].2) 0)
    { vw := (w.cvtOuts m runs a sty r sat).zipIdx.map fun o => (d + o.2, m, Vector.ofFn fun (i : Fin 32) => o.1[i.val].1)
      kills := if a.last then (List.range runs.1).map fun i => (a.reg + i, m) else [] }

theorem bodyVcvt_eq_issue (d : Nat) (a : Src) (sty : ETy) (r : RMode) (sat : Bool) (v : View) :
    bodyVcvt d a sty r sat v =
      v.issue none false (v.eff false) [opRun d (cvtRuns sty v.et).2 false, opRun a.reg (cvtRuns sty v.et).1 true] fun w st =>
        w.cvtEnd st d (v.eff false) (cvtRuns sty v.et) a sty r sat := rfl

/-- Each lane of each register is the conversion of R128. -/
theorem View.cvtOuts_eq (w : View) (m : Mask) (a : VSrc) (sty : ETy) (r : RMode) (sat : Bool) :
    w.cvtOuts m (cvtRuns sty w.et) (vsrc a) sty r sat =
      (List.range (cvtRuns sty w.et).2).map fun j => Vector.ofFn fun (i : Fin 32) =>
        if m.getLsbD i.val then cvtResult w a.reg.toNat sty r sat j i.val else (0, 0) := by
  refine List.map_congr_left fun j hj => congrArg Vector.ofFn (funext fun i => ?_)
  rw [List.map_map, cvtLane_eq _ _ _ _ _ _ (List.mem_range.mp hj)]
  rfl

/-- VCVT: every destination register from the source registers (R128). -/
theorem vcvt_means {d : BitVec 7} {a : VSrc} {sty : ETy} {r : RMode} {sat : Bool} {F : Form}
    (h : selectForms (.vcvt d a sty r sat) = some F) : ∃ body, F.Means (.vcvt d a sty r sat) body := by
  cases h
  refine ⟨fun v w st => w.cvtEnd st d.toNat (v.eff false) (cvtRuns sty v.et) (vsrc a) sty r sat,
    Form.Means.ofFinishFlags rfl ?plain ?meets (fun _ => rfl) ?ends⟩
  case plain =>
    intro w
    refine ⟨?_, by simp, by simp, by simp, .inl rfl, by simp⟩
    rw [List.map_map]
    exact List.pairwise_map.mpr (List.Pairwise.imp (fun hne heq => hne (Nat.add_left_cancel heq)) List.nodup_range)
  case meets =>
    intro s
    refine congrArg (withIssuer s 1) (funext fun v => ?_)
    rw [bodyVcvt_eq_issue, cvtRuns_eq]
    rfl
  case ends =>
    intro s v _ st
    have ha := View.Alike.readied v
      [opRun d.toNat (max 1 (tyWidth v.et / tyWidth sty)) false, opRun a.reg.toNat (max 1 (tyWidth sty / tyWidth v.et)) true]
    dsimp only [Form.issued]
    generalize v.readied _ = w at *
    rw [← ha.eff, ← ha.et]
    unfold View.cvtEnd
    rw [View.cvtOuts_eq, zipIdx_range_map, cvtRuns_eq]
    simp only [List.foldl_map, Vector.getElem_ofFn, apply_ite Prod.fst, apply_ite Prod.snd]
    rfl

/-! ## The statement (R107) -/

/-- Where no lane raises a flag, none that TRAPEN enables arises. -/
theorem Form.raisesFpx_of_noFlags {F : Form} {i : Instr} (h : ∀ w, F.flags w = Vector.replicate 32 0#10) : F.RaisesFpx i := by
  intro s v _ _ hlanes
  rw [h, View.fpxLanes_none] at hlanes
  exact absurd rfl hlanes

theorem Form.lanewise_raisesFpx_of_noFlags {i : Instr} {d : BitVec 7} {more : List Opnd} {ok : ETy → Bool}
    {ks : View → List (Nat × Mask)} {f : View → Nat → Word × Flags} (h : ∀ w l, (f w l).2 = 0#10) :
    (Form.lanewise d more ok ks f).RaisesFpx i :=
  Form.raisesFpx_of_noFlags fun w => laneFlags_none w (f w) (h w)

/-- An instruction with the meaning of its form raises FPX as the form states. -/
theorem Form.raisesFpx_of_means {F : Form} {i : Instr} (h : ∃ body, F.Means i body) : F.RaisesFpx i := by
  obtain ⟨_, hmeans⟩ := h
  exact hmeans.raises

theorem raisesFpx_of_laneForms {i : Instr} {F : Form} (h : laneForms i = some F) : F.RaisesFpx i := by
  unfold laneForms at h
  split at h <;> cases h
  case h_4 => exact Form.raisesFpx_of_means (xred_means ..)
  case h_5 => exact Form.raisesFpx_of_means (xscan_means ..)
  case h_6 => exact Form.lanewise_raisesFpx_of_noFlags fun _ _ => rfl
  all_goals exact Form.raisesFpx_of_noFlags fun _ => rfl

theorem raisesFpx_of_selectForms {i : Instr} {F : Form} (h : selectForms i = some F) : F.RaisesFpx i := by
  have hform := h
  unfold selectForms at h
  split at h
  case h_3 => exact Form.raisesFpx_of_means (vcvt_means hform)
  case h_5 => cases h
  all_goals cases h; exact Form.raisesFpx_of_noFlags fun _ => rfl

/-- Settles O19: each instruction that can raise a flag means what its form says, so it traps before it writes; the others raise
none. -/
theorem floatFlagsRaiseFpx : Obligations.FloatFlagsRaiseFpx :=
  ⟨fun _ _ h => Form.raisesFpx_of_means (means_of_vectorForms h), fun _ _ h => Form.raisesFpx_of_means (means_of_unaryForms h),
    fun _ _ h => Form.raisesFpx_of_means (means_of_laterForms h), fun _ _ h => raisesFpx_of_selectForms h,
    fun _ _ h => raisesFpx_of_laneForms h⟩

end Sys2Proof.Machine
end

section
/-!
SUPPORT. Vector arithmetic, logic and shifts complete (R117 to R127, R130, R133): the statements about them, which take the
meanings of the vector tables' instructions.
-/
namespace Sys2Proof.Machine

/-- An instruction with the meaning of its form runs as the form states. -/
theorem Form.runs_of_means {F : Form} {i : Instr} (h : ∃ body, F.Means i body) : F.Runs i := by
  obtain ⟨_, hmeans⟩ := h
  exact hmeans.runs

theorem runs_of_vectorForms {i : Instr} {F : Form} (h : vectorForms i = some F) : F.Runs i :=
  Form.runs_of_means (means_of_vectorForms h)

theorem runs_of_unaryForms {i : Instr} {F : Form} (h : unaryForms i = some F) : F.Runs i :=
  Form.runs_of_means (means_of_unaryForms h)

/-- Settles O10: each instruction of the two tables means what its form says, so it runs as the form states. -/
theorem vectorArithmeticRuns : Obligations.VectorArithmeticRuns :=
  ⟨fun _ _ h => runs_of_vectorForms h, fun _ _ h => runs_of_unaryForms h⟩

/-- Settles O11: the five instructions stand in the table with the forms named, and the rules of the shifts give no flag, whatever
the type, the rounding, SAT and the operands are. -/
theorem logicAndShiftsRun : Obligations.LogicAndShiftsRun := by
  intro d a b
  refine ⟨?vand, ?vor, ?vxor, ?vshl, ?vshr, fun t rm sat x y z => ⟨rfl, rfl⟩⟩
  case vand => exact runs_of_vectorForms (i := .vand d a b) rfl
  case vor => exact runs_of_vectorForms (i := .vor d a b) rfl
  case vxor => exact runs_of_vectorForms (i := .vxor d a b) rfl
  case vshl => exact runs_of_vectorForms (i := .vshl d a b) rfl
  case vshr => exact runs_of_vectorForms (i := .vshr d a b) rfl

end Sys2Proof.Machine
end

section
/-!
SUPPORT. VSEL, VLDI and VCMP (R123, R126, R132): instructions that raise no flag and end in their writes, the merge of lanes
and the conditions of a compare, and the statement that selections, literals, conversions and compares complete.
-/
namespace Sys2Proof.Machine

/-! ## Instructions that end in their writes -/

/-- An instruction that raises no flag and ends with the writes of its form means what the form says. -/
theorem Form.Means.ofFinish {F : Form} {i : Instr} {body : View → View → BitVec 10 → Out} (sets : F.sets = none)
    (plain : ∀ w, (F.result w).Plain w.fl)
    (meets : ∀ s, exec i s = withIssuer s F.words fun v =>
      v.issue (F.early v) (F.ill v) (F.reads v) (F.ops v) (body v))
    (hfl : ∀ w, F.flags w = Vector.replicate 32 0#10) (hst : ∀ w, F.stat w = 0#10)
    (hb : ∀ v st, body v (F.issued v) st = (F.issued v).finish st (F.result (F.issued v))) : F.Means i body :=
  Form.Means.quiet (by simp [sets]) plain meets hfl fun s v _ _ => by
    have hafter : F.after v = F.issued v := by unfold Form.after; rw [sets]
    rw [hb, hafter, hst, BitVec.or_zero]

/-- An effect of one mask and of kills is plain. -/
theorem plain_mask (d : BitVec 4) (x : Mask) (ks : List (Nat × Mask)) (fl : Nat) :
    ({ mw := [(d.toNat, x)], kills := ks } : Eff).Plain fl :=
  ⟨by simp, by simp, by simp, by simpa using d.isLt, .inl rfl, by simp⟩

/-! ## VSEL and VLDI (R123, R126) -/

/-- Each lane comes from the one register or the other (R123). -/
theorem mergeLanes_eq_lanesFrom (m : Mask) (x y : LaneVec) :
    mergeLanes m x y = lanesFrom fun l => if m.getLsbD l then lane x l else lane y l :=
  congrArg Vector.ofFn (funext fun l => by simp only [lane_get])

theorem vsel_means {d : BitVec 7} {a b : VSrc} {F : Form} (h : selectForms (.vsel d a b) = some F) :
    ∃ body, F.Means (.vsel d a b) body := by
  cases h
  refine ⟨_, Form.Means.ofFinish rfl (fun _ => plain_v _ _ _ (List.pairwise_singleton _ _)) (fun _ => rfl) (fun _ => rfl)
    (fun _ => rfl) fun v st => ?_⟩
  have ha := View.Alike.readied v
    [opWr d.toNat, opRd a.reg.toNat, { opRd b.reg.toNat with lanes := some (wset v &&& ~~~v.eff true) }]
  dsimp only [Form.issued]
  rw [mergeLanes_eq_lanesFrom, killsOf_one, killsOf_one, ha.wset, ha.eff]
  rfl

theorem vldi_means {d : BitVec 7} {lit : W32} {F : Form} (h : selectForms (.vldi d lit) = some F) :
    ∃ body, F.Means (.vldi d lit) body := by
  cases h
  refine ⟨_, Form.Means.ofFinish rfl (fun _ => plain_v _ _ _ (List.pairwise_singleton _ _)) (fun _ => rfl) (fun _ => rfl)
    (fun _ => rfl) fun v st => ?_⟩
  have ha := View.Alike.readied v [opWr d.toNat]
  dsimp only [Form.issued]
  rw [ha.eff]
  rfl

/-! ## VCMP (R92, R132) -/

/-- A condition of VCMP on sub-elements is that of its rule. -/
theorem condHolds_eq_ruleCond (c : Cond) (t : ETy) {a b : Nat} (ha : a < 2 ^ tyWidth t) (hb : b < 2 ^ tyWidth t) :
    condHolds c t a b = ruleCond c t a b := by
  unfold condHolds ruleCond
  cases tyFmt t with
  | some F => cases c <;> rfl
  | none => dsimp only; rw [intVal_eq t ha, intVal_eq t hb] <;> rfl

/-- VCMP refuses the narrow types, and the integer types under UNO and ORD. -/
theorem vcmp_ill_eq (c : Cond) (t : ETy) :
    (tyNarrow t || ((c == .uno || c == .ord) && tyInt t)) = (!arithType t || ((c == .uno || c == .ord) && intType t)) := by
  rw [← okArith_eq, ← okInt_eq, okArith, okInt, Bool.not_not]

/-- VCMP after its issue, with the model's conditions. -/
def View.compareEnd (w : View) (st : BitVec 10) (md : BitVec 4) (m : Mask) (c : Cond) (a b : Src) : Out :=
  w.finish st
    { mw := [(md.toNat, maskOf fun l => m.getLsbD l && (List.range (subCount (tyWidth w.et))).all fun i =>
        condHolds c w.et (subElem (tyWidth w.et) i (lane (w.rdV a.reg) l)) (subElem (tyWidth w.et) i (lane (w.rdV b.reg) l)))]
      kills := killsOf m [a, b] }

/-- The conditions are those of the rule, and the kills those of the last-use bits. -/
theorem View.compareEnd_eq (w : View) (st : BitVec 10) (md : BitVec 4) (m : Mask) (c : Cond) (a b : VSrc) :
    w.compareEnd st md m c (vsrc a) (vsrc b) =
      w.finish st
        { mw := [(md.toNat, maskOf fun l => m.getLsbD l && (List.range (64 / tyWidth w.et)).all fun i =>
            ruleCond c w.et (subElem (tyWidth w.et) i (lane (w.rdV a.reg.toNat) l))
              (subElem (tyWidth w.et) i (lane (w.rdV b.reg.toNat) l)))]
          kills := lastUse a m ++ lastUse b m } := by
  unfold View.compareEnd
  simp only [condHolds_eq_ruleCond, subElem_lt, killsOf_two]
  rfl

theorem vcmp_means {md : BitVec 4} {c : Cond} {a b : BitVec 7} {la lb : Bool} {F : Form}
    (h : selectForms (.vcmp md c a la b lb) = some F) : ∃ body, F.Means (.vcmp md c a la b lb) body := by
  cases h
  refine ⟨fun v w st => w.compareEnd st md (v.eff false) c (vsrc ⟨a, la, false⟩) (vsrc ⟨b, lb, false⟩),
    Form.Means.ofFinish rfl (fun _ => plain_mask ..) (fun s => ?meets) (fun _ => rfl) (fun _ => rfl) fun v st => ?ends⟩
  case meets =>
    simp only [← vcmp_ill_eq]
    rfl
  case ends =>
    have ha := View.Alike.readied v [opMw md.toNat, opRd a.toNat, opRd b.toNat]
    dsimp only [Form.issued]
    rw [View.compareEnd_eq, ha.eff]

/-! ## The statement -/

theorem means_of_selectForms {i : Instr} {F : Form} (h : selectForms i = some F) : ∃ body, F.Means i body := by
  have hform := h
  unfold selectForms at h
  split at h
  case h_1 => exact vsel_means hform
  case h_2 => exact vldi_means hform
  case h_3 => exact vcvt_means hform
  case h_4 => exact vcmp_means hform
  case h_5 => cases h

/-- Settles O14: each of the four means what its form says. -/
theorem selectAndConvertRun : Obligations.SelectAndConvertRun :=
  fun _ _ h => Form.runs_of_means (means_of_selectForms h)

end Sys2Proof.Machine
end

section
/-!
SUPPORT. Scalar and mask instructions (R92, R134 to R137, R145 to R147): each operation of the model on words and masks is that
of its rule, so the instructions run as their forms state.
-/
namespace Sys2Proof.Machine

/-! ## Scalar operations on the values of words (R134, R135) -/

theorem word_add_eq_ofInt (x y : Word) : x + y = BitVec.ofInt 64 (x.toInt + y.toInt) := by
  rw [BitVec.ofInt_add, BitVec.ofInt_toInt, BitVec.ofInt_toInt]

theorem word_sub_eq_ofInt (x y : Word) : x - y = BitVec.ofInt 64 (x.toInt - y.toInt) := by
  rw [Int.sub_eq_add_neg, BitVec.ofInt_add, BitVec.ofInt_neg, BitVec.ofInt_toInt, BitVec.ofInt_toInt, BitVec.sub_eq_add_neg]

theorem word_mul_eq_ofInt (x y : Word) : x * y = BitVec.ofInt 64 (x.toInt * y.toInt) := by
  rw [BitVec.ofInt_mul, BitVec.ofInt_toInt, BitVec.ofInt_toInt]

/-- Floor division by a power of two and the division of the rule are one. -/
theorem mulHigh_eq_ofInt (x y : Word) : mulHigh x y = BitVec.ofInt 64 (x.toInt * y.toInt / 2 ^ 64) := by
  unfold mulHigh
  rw [Int.fdiv_eq_ediv_of_nonneg _ (Int.natCast_nonneg _), natCast_two_pow]

theorem word_shiftLeft_eq_ofNat (x : Word) (n : Nat) : x <<< n = BitVec.ofNat 64 (x.toNat * 2 ^ n) := by
  apply BitVec.eq_of_toNat_eq
  rw [BitVec.toNat_shiftLeft, BitVec.toNat_ofNat, Nat.shiftLeft_eq]

theorem word_ushiftRight_eq_ofNat (x : Word) (n : Nat) : x >>> n = BitVec.ofNat 64 (x.toNat / 2 ^ n) := by
  rw [← Nat.shiftRight_eq_div_pow, ← BitVec.toNat_ushiftRight, BitVec.ofNat_toNat, BitVec.setWidth_eq]

theorem word_sshiftRight_eq_ofInt (x : Word) (n : Nat) : x.sshiftRight n = BitVec.ofInt 64 (x.toInt / 2 ^ n) := by
  rw [BitVec.sshiftRight, Int.shiftRight_eq_div_pow, natCast_two_pow]

/-- The lesser of two words as the model picks it. -/
theorem word_min_eq_ofInt (x y : Word) : (if y.slt x then y else x) = BitVec.ofInt 64 (min x.toInt y.toInt) := by
  by_cases h : y.toInt < x.toInt
  · rw [if_pos (BitVec.slt_iff_toInt_lt.mpr h), Int.min_eq_right (Int.le_of_lt h), BitVec.ofInt_toInt]
  · rw [if_neg (mt BitVec.slt_iff_toInt_lt.mp h), Int.min_eq_left (Int.not_lt.mp h), BitVec.ofInt_toInt]

/-- The greater of two words as the model picks it. -/
theorem word_max_eq_ofInt (x y : Word) : (if x.slt y then y else x) = BitVec.ofInt 64 (max x.toInt y.toInt) := by
  by_cases h : x.toInt < y.toInt
  · rw [if_pos (BitVec.slt_iff_toInt_lt.mpr h), Int.max_eq_right (Int.le_of_lt h), BitVec.ofInt_toInt]
  · rw [if_neg (mt BitVec.slt_iff_toInt_lt.mp h), Int.max_eq_left (Int.not_lt.mp h), BitVec.ofInt_toInt]

/-- The eleven bits of SADDI's immediate are its value. -/
theorem word_add_signExtend_eq_ofInt (x : Word) (k : BitVec 11) :
    x + k.signExtend 64 = BitVec.ofInt 64 (x.toInt + k.toInt) := by
  rw [BitVec.ofInt_add, BitVec.ofInt_toInt, BitVec.signExtend]

/-- A condition of SCMP on words is that of its rule (R92, R137). -/
theorem scmpHolds_eq_ruleScmp (c : Cond) (x y : Word) : scmpHolds c x y = ruleScmp c x y := by
  cases c
  case ne => exact decide_not.symm
  all_goals rfl

/-! ## The forms -/

theorem runs_of_scalarForms {i : Instr} {F : Form} (h : scalarForms i = some F) : F.Runs i := by
  unfold scalarForms at h
  split at h <;> cases h
  case h_1 => exact Form.Means.scalar2 word_add_eq_ofInt fun _ => rfl
  case h_2 => exact Form.Means.scalar2 word_sub_eq_ofInt fun _ => rfl
  case h_3 => exact Form.Means.scalar2 word_mul_eq_ofInt fun _ => rfl
  case h_4 => exact Form.Means.scalar2 mulHigh_eq_ofInt fun _ => rfl
  case h_5 | h_6 | h_7 => exact Form.Means.scalar2 (fun _ _ => rfl) fun _ => rfl
  case h_8 => exact Form.Means.scalar2 (fun x y => word_shiftLeft_eq_ofNat x (y.toNat % 64)) fun _ => rfl
  case h_9 => exact Form.Means.scalar2 (fun x y => word_ushiftRight_eq_ofNat x (y.toNat % 64)) fun _ => rfl
  case h_10 => exact Form.Means.scalar2 (fun x y => word_sshiftRight_eq_ofInt x (y.toNat % 64)) fun _ => rfl
  case h_11 => exact Form.Means.scalar2 word_min_eq_ofInt fun _ => rfl
  case h_12 => exact Form.Means.scalar2 word_max_eq_ofInt fun _ => rfl
  case h_13 => exact Form.Means.scalar1 (fun _ => rfl) fun _ => rfl
  case h_14 => exact Form.Means.scalar1 (fun x => word_add_signExtend_eq_ofInt x _) fun _ => rfl
  case h_15 d lit =>
    exact (Form.Means.ofFinish rfl
      (fun _ => Eff.plain_s ..) (fun _ => rfl) (fun _ => rfl) (fun _ => rfl) fun _ _ => rfl).runs
  case h_16 => exact Form.Means.scalar2 (fun x y => by rw [scmpHolds_eq_ruleScmp]) fun _ => rfl
  case h_17 => exact Form.Means.maskTo (fun x => (BitVec.ofNat_toNat 64 x).symm) fun _ => rfl
  case h_18 => exact Form.Means.maskTo (fun x => by rw [lanesOf_length]) fun _ => rfl
  case h_19 => exact Form.Means.maskTo (fun x => by rw [lowestLane_eq]) fun _ => rfl

theorem runs_of_maskForms {i : Instr} {F : Form} (h : maskForms i = some F) : F.Runs i := by
  unfold maskForms at h
  split at h <;> cases h
  case h_1 => exact Form.Means.mask2 (fun _ _ _ _ => BitVec.getLsbD_and) fun _ => rfl
  case h_2 => exact Form.Means.mask2 (fun _ _ _ _ => BitVec.getLsbD_or) fun _ => rfl
  case h_3 => exact Form.Means.mask2 (fun _ _ _ _ => BitVec.getLsbD_xor) fun _ => rfl
  case h_4 => exact Form.Means.mask2 (fun x y l hl => by simp [hl]) fun _ => rfl
  case h_5 => exact Form.Means.mask1 (fun x l hl => by simp [hl]) fun _ => rfl
  case h_6 => exact Form.Means.mask1 (fun _ _ _ => rfl) fun _ => rfl
  case h_7 d a =>
    refine (Form.Means.ofFinish rfl
      (fun _ => Eff.plain_m ..) (fun _ => rfl) (fun _ => rfl) (fun _ => rfl) fun v st => ?_).runs
    dsimp only
    rw [BitVec.ofNat_toNat]
  case h_8 d lit =>
    exact (Form.Means.ofFinish rfl
      (fun _ => Eff.plain_m ..) (fun _ => rfl) (fun _ => rfl) (fun _ => rfl) fun _ _ => rfl).runs

/-- Settles O15: each instruction's operation is its rule's, so it runs as the form of its table states. -/
theorem scalarAndMaskRun : Obligations.ScalarAndMaskRun :=
  ⟨fun _ _ h => runs_of_scalarForms h, fun _ _ h => runs_of_maskForms h⟩

end Sys2Proof.Machine
end
